-- ==== Sys2Proof/Word.lean ====
section
/-! DEFINITION. The word types of the exchange memory (R160: 16-bit words, lower byte first) and the fixed-length
tables ("a record per point, per output, ...") with their one read law and one write law. -/

namespace Sys2Proof

/-- One byte of exchange memory, of a frame or of a journal record. -/
abbrev Byte := BitVec 8

/-- One 16-bit word of exchange memory (R160). -/
abbrev Word := BitVec 16

/-- A number carried in a byte. -/
abbrev byte (n : Nat) : Byte := BitVec.ofNat 8 n

/-- A number carried in a word. -/
abbrev word (n : Nat) : Word := BitVec.ofNat 16 n

/-- A table of `n` items, written from the item of each index. -/
def tab {α : Type} (n : Nat) (f : Fin n → α) : Vector α n := ⟨⟨List.ofFn f⟩, by simp⟩

/-- Item `i` of a table. -/
def nth {α : Type} {n : Nat} (v : Vector α n) (i : Fin n) : α := v[i.val]

/-- The table with item `i` replaced. -/
def upd {α : Type} {n : Nat} (v : Vector α n) (i : Fin n) (a : α) : Vector α n := v.set i.val a i.isLt

@[simp] theorem nth_upd_same {α : Type} {n : Nat} (v : Vector α n) (i : Fin n) (a : α) : nth (upd v i a) i = a := by
  simp [nth, upd]

@[simp] theorem nth_upd_other {α : Type} {n : Nat} (v : Vector α n) {i j : Fin n} (a : α) (h : i ≠ j) :
    nth (upd v i a) j = nth v j := by
  have : i.val ≠ j.val := fun e => h (Fin.ext e)
  simp [nth, upd, this]

theorem nth_upd {α : Type} {n : Nat} (v : Vector α n) (i j : Fin n) (a : α) :
    nth (upd v i a) j = if i = j then a else nth v j := by
  by_cases h : i = j
  · subst h; simp
  · simp [h]

@[simp] theorem upd_nth {α : Type} {n : Nat} (v : Vector α n) (i : Fin n) : upd v i (nth v i) = v := by
  simp [nth, upd]

@[simp] theorem nth_tab {α : Type} (n : Nat) (f : Fin n → α) (i : Fin n) : nth (tab n f) i = f i := by
  simp [nth, tab]

/-- Two tables with the same items are one table. -/
theorem nth_ext {α : Type} {n : Nat} {v w : Vector α n} (h : ∀ i, nth v i = nth w i) : v = w := by
  apply Vector.ext
  intro i hi
  exact h ⟨i, hi⟩

end Sys2Proof
end

