-- ==== Sys2Proof/Syntax.lean ====
section
/-! DEFINITION. The commands of the block, one constructor per row of spec/opcode_table.json: the two resets, the host's
writes on its bus, the steps the part's schedules and timers bring, and the samples and frames the hall brings. -/

namespace Sys2Proof

/-- A byte as a link's receiver takes it (R63 tests 1 and 2): its value, whether its parity bit was wrong, and whether
its stop bit was missing. -/
structure RxByte where
  value : Byte
  parityError : Bool := false
  framingError : Bool := false
  deriving DecidableEq, Repr

/-- The register word addresses whose writes are discarded (R181): CONDITION at 1 and the words 3 to 7. -/
inductive DiscardedReg where
  | condition | word3 | word4 | word5 | word6 | word7
  deriving DecidableEq, Repr

/-- The two long orders that carry a table image (section 10.4). -/
inductive ImageOrder where
  | loadPoints | loadMatrix
  deriving DecidableEq, Repr

/-- Which of the two blocks takes a notice first (R161: "either may be first"; log entry 3). -/
inductive NoticeOrder where
  | walkFirst | journalFirst
  deriving DecidableEq, Repr

/-- The commands. -/
inductive Instr where
  /-- POWER_ON_RESET (R178). -/
  | powerOnReset
  /-- RESET_LINE (R179). -/
  | resetLine
  /-- NOTICE (R161): the value written, and which block takes the notice first. -/
  | notice (value : Word) (order : NoticeOrder)
  /-- ALERT_CLEAR (R164): the value written. -/
  | alertClear (value : Word)
  /-- DISCARDED_REGISTER_WRITE (R181): the register, the twelve ignored higher address lines, the value written. -/
  | discardedRegisterWrite (reg : DiscardedReg) (lines : BitVec 12) (value : Word)
  /-- HOST_WORD_WRITE (R160): the word address on the 15 address lines and the value written. -/
  | hostWordWrite (addr : BitVec 15) (value : Word)
  /-- ORDER_TABLE_WALK (R167): the walk of the 20 ms schedule. -/
  | orderTableWalk
  /-- SEGMENT_READ (R171): the long order whose image is read. -/
  | segmentRead (image : ImageOrder)
  /-- SCAN_FRAME (R60) of link k. -/
  | scanFrame (k : Fin 4)
  /-- ANSWER_RECEIPT (R62) on link k: the bytes received in the answer window up to the end of the check word. -/
  | answerReceipt (k : Fin 4) (bytes : List RxByte)
  /-- ANSWER_LIMIT (R63) of link k: the bytes received in the window after the last receipt. -/
  | answerLimit (k : Fin 4) (rest : List RxByte)
  /-- RESTART_LINK_DEADLINE (R77) of link k. -/
  | restartLinkDeadline (k : Fin 4)
  /-- PENDING_CHANGE_DEADLINE (R15) of a point. -/
  | pendingChangeDeadline (p : Fin 256)
  /-- LEAK_STEP (R11). -/
  | leakStep
  /-- SETTLE_DEADLINE (R51) of a first-out group. -/
  | settleDeadline (g : Fin 16)
  /-- BUTTON_TEST_END (R43) of panel k. -/
  | buttonTestEnd (k : Fin 4)
  /-- ORDER_TEST_END (R45) of panel k. -/
  | orderTestEnd (k : Fin 4)
  /-- RINGBACK_TONE_CYCLE (R39) of a zone's horn line. -/
  | ringbackToneCycle (z : Fin 8)
  /-- TRIP_INPUT_SAMPLE (R81): the level of the 32 trip lines, 1 for active. -/
  | tripInputSample (lines : BitVec 32)
  /-- TRIP_INPUT_QUALIFIED (R82) of an input. -/
  | tripInputQualified (i : Fin 32)
  /-- ON_TIMER_EXPIRY (R102) of an output. -/
  | onTimerExpiry (o : Fin 24)
  /-- FEEDBACK_SAMPLE (R115): the 24 current lines and the 24 continuity lines, 1 for active. -/
  | feedbackSample (current continuity : BitVec 24)
  /-- OPERATE_DEADLINE (R118) of an output. -/
  | operateDeadline (o : Fin 24)
  /-- RELEASE_DEADLINE (R119) of an output. -/
  | releaseDeadline (o : Fin 24)
  /-- OPEN_DEADLINE (R120) of an output. -/
  | openDeadline (o : Fin 24)
  /-- CLEAR_DEADLINE (R117) of an output. -/
  | clearDeadline (o : Fin 24)
  /-- SUPPLY_SAMPLE (R123): whether the monitor line shows the trip supply present. -/
  | supplySample (present : Bool)
  /-- SUPPLY_LOST (R124). -/
  | supplyLost
  /-- SUPPLY_SETTLE_DEADLINE (R125). -/
  | supplySettleDeadline
  /-- SYNC_PULSE (R132): a rising edge of the sync input. -/
  | syncPulse
  /-- SYNC_MISS_DEADLINE (R135). -/
  | syncMissDeadline
  /-- JOURNAL_RESCAN (R149): the journal's own event of the 20 ms schedule. -/
  | journalRescan
  /-- RECORD_WRITE (R151). -/
  | recordWrite
  /-- FLUSH_DEADLINE (R152). -/
  | flushDeadline
  /-- RUN_TIME_RISE (R129). -/
  | runTimeRise
  deriving DecidableEq, Repr

end Sys2Proof
end

