-- ==== Sys2Proof/Decode.lean ====
section
/-! DEFINITION. The reading of a table word.  No row of spec/opcode_table.json gives bits (every row's fields are
empty and none has a match and mask): a command of this block is an event or a bus access, not a word.  So no word
spells a command. -/

namespace Sys2Proof

/-- The command a table word spells: none, for every word, since the table gives no row any bits. -/
def decodeTableWord (_nbits _w : Nat) : Option Instr := none

end Sys2Proof
end

