-- ==== Sys2Proof/Config.lean ====
section
/-! DEFINITION. What the manual fixes for every part (section 11.4's identity) and the values it leaves open. -/

namespace Sys2Proof.Config

/-- Vendor code of the identity (section 11.4). -/
def vendorCode : Word := 0x0E1A
/-- Part code of the identity (section 11.4). -/
def partCode : Word := 2416
/-- Revision of the identity (section 11.4). -/
def revision : Word := 1

/-- FREE VALUE (log entry 2): what the 48-bit run time reads in the millisecond after 2^48 - 1.  R128 gives run time
the values 0 to 2^48 - 1 and says only that it does not wrap in service. -/
opaque runTimeAfterEnd : BitVec 48

/-- FREE VALUE (log entry 26): the margin that a FIRST OUT record shows when the runner-up raw time is earlier than the
candidate raw time, as a function of the two.  R49 says that this does not come about, and R53 states no such margin. -/
opaque marginBelowZero (candidateTime runnerUp : Nat) : BitVec 16

end Sys2Proof.Config
end

