-- ==== Sys2Proof/Machine/Types.lean ====
section
/-! DEFINITION. The items of the twelve blocks (section 2), each record with the fields its chapter's tables give it. -/

namespace Sys2Proof.Machine

/-! ## Time (chapter 8) -/

/-- A time of day as it was read, with the VALID state read with it (R130). -/
structure Stamp where
  day : Nat := 0
  ms : Nat := 0
  valid : Bool := false
  deriving DecidableEq, Repr

/-- Why the sync fault condition is present (section 8.1). -/
inductive SyncCause where
  | none | spurious | noPulse
  deriving DecidableEq, Repr

/-- The Time Base's items (section 8.1), and the run time of the last accepted pulse that its clock entry shows (R138). -/
structure TimeBase where
  run : Nat := 0
  day : Nat := 0
  ms : Nat := 0
  valid : Bool := false
  syncEnabled : Bool := false
  missTimer : Option Nat := none
  spurious : Nat := 0
  fault : Bool := false
  cause : SyncCause := .none
  lastCorrection : Int := 0
  lastPulse : Nat := 0
  /-- The run time of the latest edge of the sync input: two edges within one millisecond are one pulse (R132, log
  entry 21). -/
  lastEdge : Option Nat := none
  deriving DecidableEq, Repr

/-! ## Alarm points (chapter 1) and their sequences (chapter 2) -/

/-- A point's contact state: of a contact point the first three, of an internal point its condition (section 1.3). -/
inductive Contact where
  | opened | closed | unreported | absent | present
  deriving DecidableEq, Repr

/-- The sequence states (R24). -/
inductive SeqState where
  | quiet | alert | alertCleared | standing | ringback
  deriving DecidableEq, Repr

/-- A point's settings record (section 1.2). -/
structure Settings where
  enabled : Bool := false
  /-- abnormal-when: contact open rather than contact closed. -/
  whenOpen : Bool := false
  lockIn : Bool := false
  ringback : Bool := false
  /-- journal priority HIGH rather than LOW. -/
  high : Bool := false
  hasWindow : Bool := false
  window : Fin 256 := 0
  zone : Fin 8 := 0
  group : Option (Fin 16) := none
  cls : Fin 4 := 0
  alarmDelay : Byte := 0
  clearDelay : Byte := 0
  deriving DecidableEq, Repr

/-- A pending change (section 1.3): its target is the abnormal state or not. -/
structure PendingChange where
  target : Bool
  deadline : Nat
  rawTime : Nat
  stamp : Stamp
  approx : Bool
  deriving DecidableEq, Repr

/-- A point: settings, filter state (section 1.3), sequence state and first mark (section 2.1). -/
structure Point where
  settings : Settings := {}
  contact : Contact := .unreported
  lastTime : Nat := 0
  lastStamp : Stamp := {}
  lastApprox : Bool := false
  /-- accepted state abnormal. -/
  accepted : Bool := false
  waiting : Option PendingChange := none
  bucket : Nat := 0
  held : Bool := false
  shelved : Bool := false
  stale : Bool := false
  seq : SeqState := .quiet
  firstMark : Bool := false
  deriving DecidableEq, Repr

/-- The raw state (R1, R2): the contact state judged under the settings; true for abnormal (log entry 22). -/
def Point.raw (x : Point) : Bool :=
  match x.contact with
  | .closed => !x.settings.whenOpen
  | .opened => x.settings.whenOpen
  | .unreported => false
  | .absent => false
  | .present => true

/-- A chatter class (section 1.3): weight, leak, suppress level, release level. -/
structure ChatterClass where
  weight : Nat := 0
  leak : Nat := 8
  suppress : Nat := 200
  release : Nat := 50
  deriving DecidableEq, Repr

/-- A report of an internal point's condition to the Point Filter (R2), with the time of its detection. -/
structure Report where
  point : Fin 256
  present : Bool
  run : Nat
  stamp : Stamp
  deriving DecidableEq, Repr

/-- Horn states (section 2.4). -/
inductive HornState where
  | off | alertTone | ringbackTone
  deriving DecidableEq, Repr

/-- A zone (section 2.4), its horn line and the run time at which its ringback tone next toggles (R39). -/
structure Zone where
  horn : HornState := .off
  silenced : Bool := false
  rbSilenced : Bool := false
  nAlert : Nat := 0
  nStanding : Nat := 0
  nRingback : Nat := 0
  line : Bool := false
  toggle : Option Nat := none
  deriving DecidableEq, Repr

/-- A panel's two lamp test ends (section 2.6). -/
structure Panel where
  buttonEnd : Option Nat := none
  orderEnd : Option Nat := none
  deriving DecidableEq, Repr

/-! ## First-out groups (chapter 3) -/

/-- The states of a group (R47). -/
inductive GroupState where
  | armed | deciding | latched
  deriving DecidableEq, Repr

/-- A group record (section 3.1). -/
structure Group where
  state : GroupState := .armed
  candidate : Option (Fin 256) := none
  candidateTime : Nat := 0
  runnerUp : Option Nat := none
  contenders : Nat := 0
  deadline : Option Nat := none
  marked : Bool := false
  deriving DecidableEq, Repr

/-! ## Field links (chapter 4) -/

/-- Link states (R59). -/
inductive LinkState where
  | disabled | starting | up | lost
  deriving DecidableEq, Repr

/-- Kinds of miss (R63). -/
inductive LinkError where
  | none | timeout | parity | framing | overrun | check | address | sequence
  deriving DecidableEq, Repr

/-- The levels of a panel's four buttons, true for pressed. -/
structure Buttons where
  ack : Bool := false
  silence : Bool := false
  reset : Bool := false
  test : Bool := false
  deriving DecidableEq, Repr

/-- A receipt: the run time and the stamp noted when an answer's check word was complete (R62). -/
structure Receipt where
  run : Nat
  stamp : Stamp
  deriving DecidableEq, Repr

/-- A link (section 4.1); from `frame` on, what chapter 4 gives it beside that table: the frame last sent, the answer
window of the scan last sent with the answer limit at which it closes and what it has gathered (R62), and the earliest
run time of its next scan. -/
structure Link where
  state : LinkState := .starting
  enabled : Bool := true
  zones : Byte := 0xFF
  latency : Nat := 0
  scanSeq : Byte := 0
  miss : Nat := 0
  validRun : Nat := 0
  lastError : LinkError := .none
  buttons : Buttons := {}
  entriesLost : Nat := 0
  restart : Option (Fin 16 × Nat) := none
  frame : List Byte := []
  awaiting : Bool := false
  /-- The answer limit of the scan last sent, a run time (R62, R128). -/
  limit : Nat := 0
  carried : Byte := 0
  rx : List RxByte := []
  receipt : Option Receipt := none
  scanFrom : Nat := 0
  deriving DecidableEq, Repr

/-- The RESTART flag (section 4.1, R61): set while the link is STARTING or LOST, clear while it is UP. -/
def Link.restartFlag (l : Link) : Bool := decide (l.state ≠ .up)

/-! ## Trip inputs and matrix banks (chapter 5) -/

/-- A trip input (section 5.1), the q its mirror entry shows (R86), and the q its latest sample compared its run with
(R83). -/
structure TripInput where
  level : Bool := false
  qualified : Bool := false
  run : Nat := 0
  start : Option Receipt := none
  qShown : Nat := 1
  /-- MODEL: the count of the latest sample, which a SWITCH BANK after it does not change (log entry 5). -/
  qSampled : Nat := 1
  deriving DecidableEq, Repr

/-- The two banks. -/
inductive BankId where
  | a | b
  deriving DecidableEq, Repr

/-- Bank states (R87). -/
inductive BankState where
  | empty | loading | valid
  deriving DecidableEq, Repr

/-- A bank's entry for one trip input: output mask and qualification count (section 5.4). -/
structure Entry where
  mask : BitVec 24 := 0
  q : Nat := 1
  deriving DecidableEq, Repr

/-- A matrix bank. -/
structure Bank where
  state : BankState := .empty
  entries : Vector Entry 32 := Vector.replicate 32 {}
  deriving DecidableEq, Repr

/-! ## Trip outputs (chapter 6) and their supervision (chapter 7) -/

/-- Output states (R97). -/
inductive OutState where
  | off | on | latched
  deriving DecidableEq, Repr

/-- Profile modes (section 6.1). -/
inductive Mode where
  | pulse | follow | latch
  deriving DecidableEq, Repr

/-- A trip profile (section 6.1). -/
structure Profile where
  mode : Mode := .follow
  onTime : Nat := 10
  deriving DecidableEq, Repr

/-- Feedback conditions (R115). -/
inductive Feedback where
  | opened | continuity | current
  deriving DecidableEq, Repr

/-- Supervision faults (section 7.2). -/
inductive SupFault where
  | none | failToOperate | failToRelease | circuitOpen
  deriving DecidableEq, Repr

/-- An output: its output record (section 6.1) and its supervision state (section 7.2).  `seen` is what the operate
check asks for: CURRENT at any moment since the later of the energize and the last resume (R117). -/
structure Output where
  state : OutState := .off
  onTimer : Option Nat := none
  minPassed : Bool := false
  sel : Fin 4 := 0
  isolated : Bool := false
  supervised : Bool := true
  feedback : Feedback := .opened
  fault : SupFault := .none
  operate : Option Nat := none
  release : Option Nat := none
  opening : Option Nat := none
  clearing : Option Nat := none
  seen : Bool := false
  deriving DecidableEq, Repr

/-- An output is energized while its state is ON or LATCHED (R99). -/
def Output.energized (x : Output) : Bool := decide (x.state ≠ .off)

/-- Supply states (section 7.2). -/
inductive SupplyState where
  | present | lost | settling
  deriving DecidableEq, Repr

/-- The trip supply's items (section 7.2). -/
structure Supply where
  state : SupplyState := .present
  absence : Nat := 0
  settle : Option Nat := none
  deriving DecidableEq, Repr

/-! ## Journal (chapter 9) -/

/-- Record kinds (section 9.1). -/
inductive RecKind where
  | point | action | chatter | firstOut | tripInput | tripOutput | tripBlocked | supervision | link | clock | settings
  | overflow | restart
  deriving DecidableEq, Repr

/-- The flags of a record (R140). -/
structure RecFlags where
  approx : Bool := false
  afterHold : Bool := false
  initial : Bool := false
  shelved : Bool := false
  timeInvalid : Bool := false
  supplyLost : Bool := false
  deriving DecidableEq, Repr

/-- A journal record (R140), with the priority fixed when it is made and its five detail bytes. -/
structure Record where
  kind : RecKind
  high : Bool
  flags : RecFlags := {}
  seq : Word := 0
  day : Nat := 0
  ms : Nat := 0
  subject : Byte := 0
  x0 : Byte := 0
  x1 : Byte := 0
  x2 : Byte := 0
  x3 : Byte := 0
  x4 : Byte := 0
  deriving DecidableEq, Repr

/-- Why a page closes (R152). -/
inductive CloseCause where
  | full | delay | flush | reset
  deriving DecidableEq, Repr

/-- The filling entry (section 9.2): the entry, its page, the page's sequence number, the records written, the first
record's sequence number and the flush deadline. -/
structure Filling where
  entry : Fin 32
  page : Nat
  pageSeq : Word
  count : Nat
  firstSeq : Word
  deadline : Nat
  deriving DecidableEq, Repr

/-- The Journal Unit's items (section 9.2). -/
structure Journal where
  queue : List Record := []
  highLost : Nat := 0
  lowLost : Nat := 0
  firstLoss : Option Stamp := none
  firstLossHigh : Option Bool := none
  nextSeq : Word := 0
  nextPage : Word := 0
  cursor : Fin 32 := 0
  filling : Option Filling := none
  waiting : Bool := false
  mask : Byte := 0
  flushDelay : Nat := 50
  deriving DecidableEq, Repr

/-! ## Order Engine (chapter 10) -/

/-- Part states (section 10.5). -/
inductive PartState where
  | starting | standby | inService
  deriving DecidableEq, Repr

/-- A long order whose image is being read (R171): its slot, the byte length given, the page its next segment read
reaches, the number of segments read, the payload joined so far, and the run time of the next read. -/
structure ImageJob where
  slot : Fin 16
  byteLength : Nat
  page : Nat
  index : Nat := 0
  payload : List Byte := []
  nextRead : Nat
  deriving DecidableEq, Repr

/-- The Order Engine's items: registers and summary counts (section 10.2), take cursor and image orders in flight
(section 10.3), part state (section 10.5), locks (section 10.6). -/
structure Engine where
  part : PartState := .starting
  service : Bool := false
  commissioning : Bool := false
  alert : Bool := false
  pagesClosed : Word := 0
  ordersFinished : Word := 0
  pagesSeen : Word := 0
  ordersSeen : Word := 0
  cursor : Fin 16 := 0
  loadPoints : Option ImageJob := none
  loadMatrix : Option ImageJob := none
  deriving DecidableEq, Repr

/-- The schedules that fall at run times of their own: for each, the earliest run time at which its next event can
fall, so that a scheduled event is taken once (log entry 4). -/
structure Schedule where
  leakFrom : Nat := 1
  walkFrom : Nat := 1
  rescanFrom : Nat := 1
  tripFrom : Nat := 1
  feedbackFrom : Nat := 1
  supplyFrom : Nat := 1
  deriving DecidableEq, Repr

/-- The 25 orders (section 11.3). -/
inductive OrderKind where
  | loadPoints | setChatter | shelvePoint | unshelvePoint | readPoint | acknowledge | silence | resetAlarms | lampTest
  | setLink | restartLink | loadMatrix | switchBank | setProfiles | remoteTrip | resetLockout | isolateOutputs
  | restoreOutputs | setTime | setJournal | flushJournal | enterService | leaveService | lock | unlock
  deriving DecidableEq, Repr

/-- The result codes (R169). -/
inductive Result where
  | doneOk | doneClamped | partialDone | refusedRange | refusedBusy | refusedLocked | refusedState | refusedCheck
  | refusedChain | refusedPage | refusedLength | refusedDuplicate | refusedEnergized | refusedDriven | unknownOrder
  | abandoned | linkNoAnswer
  deriving DecidableEq, Repr

/-! ## Reset -/

/-- The contact state of a point at reset (R1, R2): field points UNREPORTED, trip points OPEN, the four link points
present, the other internal points absent. -/
def initContact (p : Fin 256) : Contact :=
  if p.val < 192 then .unreported
  else if p.val < 224 then .opened
  else if 248 ≤ p.val ∧ p.val < 252 then .present
  else .absent

/-- The RESTART record of power-on reset (R159): subject 0, stamped day 0, ms 0, TIME_INVALID, all counts 0. -/
def powerOnRestart : Record := { kind := .restart, high := true, flags := { timeInvalid := true } }

end Sys2Proof.Machine
end

