-- ==== Sys2Proof/Machine/Flags.lean ====
section
/-! DEFINITION. The code values of section 11.3 and the flag and bit layouts of records and mirror words (chapter 11). -/

namespace Sys2Proof.Machine

/-! ## Code values (section 11.3) -/

def PartState.code : PartState → Nat
  | .starting => 0 | .standby => 1 | .inService => 2

def SeqState.code : SeqState → Nat
  | .quiet => 0 | .alert => 1 | .alertCleared => 2 | .standing => 3 | .ringback => 4

def HornState.code : HornState → Nat
  | .off => 0 | .alertTone => 1 | .ringbackTone => 2

def Contact.code : Contact → Nat
  | .opened => 0 | .closed => 1 | .unreported => 2 | .absent => 0 | .present => 1

def GroupState.code : GroupState → Nat
  | .armed => 0 | .deciding => 1 | .latched => 2

def LinkState.code : LinkState → Nat
  | .disabled => 0 | .starting => 1 | .up => 2 | .lost => 3

def LinkError.code : LinkError → Nat
  | .none => 0 | .timeout => 1 | .parity => 2 | .framing => 3 | .overrun => 4 | .check => 5 | .address => 6
  | .sequence => 7

def BankId.code : BankId → Nat
  | .a => 1 | .b => 2

/-- The code of a bank that may be none. -/
def bankCode : Option BankId → Nat
  | none => 0
  | some b => b.code

def BankState.code : BankState → Nat
  | .empty => 0 | .loading => 1 | .valid => 2

def OutState.code : OutState → Nat
  | .off => 0 | .on => 1 | .latched => 2

def Mode.code : Mode → Nat
  | .pulse => 0 | .follow => 1 | .latch => 2

def Mode.ofCode : Nat → Option Mode
  | 0 => some .pulse | 1 => some .follow | 2 => some .latch | _ => none

def Feedback.code : Feedback → Nat
  | .opened => 0 | .continuity => 1 | .current => 2

def SupFault.code : SupFault → Nat
  | .none => 0 | .failToOperate => 1 | .failToRelease => 2 | .circuitOpen => 3

def SupplyState.code : SupplyState → Nat
  | .present => 0 | .lost => 1 | .settling => 2

def SyncCause.code : SyncCause → Nat
  | .none => 0 | .spurious => 1 | .noPulse => 2

def CloseCause.code : CloseCause → Nat
  | .full => 1 | .delay => 2 | .flush => 3 | .reset => 4

def RecKind.code : RecKind → Nat
  | .point => 1 | .action => 2 | .chatter => 3 | .firstOut => 4 | .tripInput => 5 | .tripOutput => 6
  | .tripBlocked => 7 | .supervision => 8 | .link => 9 | .clock => 10 | .settings => 11 | .overflow => 12
  | .restart => 13

def OrderKind.code : OrderKind → Nat
  | .loadPoints => 1 | .setChatter => 2 | .shelvePoint => 3 | .unshelvePoint => 4 | .readPoint => 5
  | .acknowledge => 6 | .silence => 7 | .resetAlarms => 8 | .lampTest => 9 | .setLink => 10 | .restartLink => 11
  | .loadMatrix => 12 | .switchBank => 13 | .setProfiles => 14 | .remoteTrip => 15 | .resetLockout => 16
  | .isolateOutputs => 17 | .restoreOutputs => 18 | .setTime => 19 | .setJournal => 20 | .flushJournal => 21
  | .enterService => 22 | .leaveService => 23 | .lock => 24 | .unlock => 25

/-- The order a kind word names; 0 and 26 to 65,535 name none (section 11.3). -/
def OrderKind.ofCode : Nat → Option OrderKind
  | 1 => some .loadPoints | 2 => some .setChatter | 3 => some .shelvePoint | 4 => some .unshelvePoint
  | 5 => some .readPoint | 6 => some .acknowledge | 7 => some .silence | 8 => some .resetAlarms | 9 => some .lampTest
  | 10 => some .setLink | 11 => some .restartLink | 12 => some .loadMatrix | 13 => some .switchBank
  | 14 => some .setProfiles | 15 => some .remoteTrip | 16 => some .resetLockout | 17 => some .isolateOutputs
  | 18 => some .restoreOutputs | 19 => some .setTime | 20 => some .setJournal | 21 => some .flushJournal
  | 22 => some .enterService | 23 => some .leaveService | 24 => some .lock | 25 => some .unlock | _ => none

def Result.code : Result → Nat
  | .doneOk => 1 | .doneClamped => 2 | .partialDone => 3 | .refusedRange => 4 | .refusedBusy => 5
  | .refusedLocked => 6 | .refusedState => 7 | .refusedCheck => 8 | .refusedChain => 9 | .refusedPage => 10
  | .refusedLength => 11 | .refusedDuplicate => 12 | .refusedEnergized => 13 | .refusedDriven => 14
  | .unknownOrder => 15 | .abandoned => 16 | .linkNoAnswer => 17

/-! ## Bytes and words -/

/-- The lower-addressed byte of a word (R160). -/
def loByte (w : Word) : Byte := w.extractLsb' 0 8
/-- The higher-addressed byte of a word (R160). -/
def hiByte (w : Word) : Byte := w.extractLsb' 8 8
/-- The word of a lower and a higher byte (R160). -/
def wordOf (lo hi : Byte) : Word := hi ++ lo
/-- The two bytes of a 16-bit number, lower first. -/
def bytes2 (n : Nat) : List Byte := [byte n, byte (n / 256)]
/-- The four bytes of a 32-bit number, lower first. -/
def bytes4 (n : Nat) : List Byte := [byte n, byte (n / 256), byte (n / 65536), byte (n / 16777216)]
/-- The six bytes of a 48-bit run time, lowest word first (R181). -/
def bytes6 (n : Nat) : List Byte := bytes4 n ++ bytes2 (n / 4294967296)
/-- A signed field: the two's complement of its value in 16 bits (R181). -/
def signedWord (i : Int) : Word := BitVec.ofInt 16 i
/-- A flag as a number, 1 for set. -/
def bit (b : Bool) : Nat := if b then 1 else 0
/-- A number of at most `n` bits from its bits, bit 0 first. -/
def bitsOf (f : Nat → Bool) : Nat → Nat
  | 0 => 0
  | n + 1 => bitsOf f n + (if f n then 2 ^ n else 0)
/-- The sum of bytes, modulo 65,536: the check word of a frame (R61, R63). -/
def byteSum : List Byte → Nat
  | [] => 0
  | b :: bs => (b.toNat + byteSum bs) % 65536
/-- The sum of the 16-bit words of a run of bytes, modulo 65,536: the check word of an image (R172). -/
def wordSum : List Byte → Nat
  | lo :: hi :: bs => (lo.toNat + 256 * hi.toNat + wordSum bs) % 65536
  | _ => 0

/-! ## Records (section 11.7) -/

/-- The flags byte of a record. -/
def RecFlags.code (f : RecFlags) : Nat :=
  bit f.approx + 2 * bit f.afterHold + 4 * bit f.initial + 8 * bit f.shelved + 16 * bit f.timeInvalid
    + 32 * bit f.supplyLost

/-- The 16 bytes of a record. -/
def Record.bytes (r : Record) : List Byte :=
  [byte r.kind.code, byte r.flags.code] ++ bytes2 r.seq.toNat ++ bytes2 r.day ++ bytes4 r.ms
    ++ [r.subject, r.x0, r.x1, r.x2, r.x3, r.x4]

/-- The 16 bytes of a page header (section 11.7); its unused bytes are 0 (R181, log entry 11). -/
def headerBytes (f : Filling) (c : CloseCause) : List Byte :=
  bytes2 f.pageSeq.toNat ++ [byte f.count, byte c.code] ++ bytes2 f.firstSeq.toNat ++ List.replicate 10 0

/-! ## Lamp codes (R41, R46) -/

/-- The lamp code that a point's sequence state and first mark give, lamp tests apart. -/
def lampCode (q : SeqState) (mark : Bool) : Nat :=
  match q with
  | .quiet => 0
  | .alert | .alertCleared => if mark then 4 else 2
  | .standing => if mark then 5 else 1
  | .ringback => 3

/-! ## Mirror words (sections 11.4, 11.6, 11.8, 11.9) -/

/-- A point's mirror word (section 11.8). -/
def Point.mirror (x : Point) : Word :=
  word (x.seq.code + 8 * bit x.firstMark + 16 * lampCode x.seq x.firstMark + 256 * bit x.accepted + 512 * bit x.held
    + 1024 * bit x.stale + 2048 * bit x.shelved)

/-- Word 0 of a zone's entry. -/
def Zone.mirror0 (z : Zone) : Word :=
  word (z.nAlert + 4096 * z.horn.code + 16384 * bit z.silenced + 32768 * bit z.rbSilenced)

/-- A group's four bits of its state word. -/
def Group.nibble (g : Group) : Nat :=
  g.state.code + 4 * bit g.marked + 8 * bit g.candidate.isSome

/-- A group's candidate word; with no candidate its low byte is 0 (log entry 12). -/
def Group.mirror (g : Group) : Word :=
  word ((match g.candidate with | some p => p.val | none => 0) + 256 * g.contenders)

/-- A trip input's byte: run count and q in force. -/
def TripInput.mirror (x : TripInput) : Nat := x.run % 16 + 16 * (x.qShown % 16)

/-- An output's word; `d` is its lowest active driving input (R94), and 0 stands in the field when it is not driven
(log entry 12). -/
def Output.mirror (x : Output) (d : Option (Fin 32)) : Word :=
  word (x.state.code + 4 * bit x.minPassed + 8 * x.sel.val + 32 * bit x.isolated + 64 * bit x.supervised
    + 128 * bit d.isSome + 256 * (match d with | some i => i.val | none => 0))

/-- An output's supervision byte. -/
def Output.supMirror (x : Output) : Nat := x.feedback.code + 4 * x.fault.code

/-- A profile's word. -/
def Profile.mirror (p : Profile) : Word := word (p.mode.code + 256 * p.onTime)

/-- The button byte. -/
def Buttons.code (b : Buttons) : Nat := bit b.ack + 2 * bit b.silence + 4 * bit b.reset + 8 * bit b.test

/-- Word `j` (0 to 3) of a link's entry; `test` is the panel's lamp-test flag (R45). -/
def Link.mirror (l : Link) (test : Bool) (j : Nat) : Word :=
  match j with
  | 0 => word (l.state.code + 4 * bit l.enabled + 8 * bit l.restart.isSome + 16 * bit test + 32 * l.lastError.code
      + 256 * l.zones.toNat)
  | 1 => word (l.latency % 16 + 16 * (l.validRun % 4) + 256 * l.miss)
  | 2 => word (l.scanSeq.toNat + 256 * l.buttons.code)
  | _ => word l.entriesLost

/-- The two bytes that open the clock entry. -/
def TimeBase.mirror0 (t : TimeBase) : Word :=
  word (bit t.valid + 2 * bit t.syncEnabled + 4 * bit t.fault + 8 * t.cause.code + 256 * t.spurious)

/-- The word of the part state and the locks in the summary block. -/
def Engine.mirror0 (e : Engine) : Word :=
  word (e.part.code + 256 * (bit e.service + 2 * bit e.commissioning))

/-- The word of the filling entry and its record count in the journal status. -/
def Journal.fillingWord (j : Journal) : Word :=
  match j.filling with
  | none => word 255
  | some f => word (f.entry.val + 256 * f.count)

end Sys2Proof.Machine
end

