-- ==== Sys2Proof/Machine/Memory.lean ====
section
/-! DEFINITION. The exchange memory (section 10.1): 65,536 bytes, held as the list of the bytes that are not 0, in
rising order of address.  Power-on reset writes every byte to 0 (R178), so 0 is what an unlisted address reads as (log entry 8). -/

namespace Sys2Proof.Machine

/-- The bytes of the memory that are not 0. -/
abbrev Memory := List Host.Cell

/-- The memory's canonical form above a bound: addresses rise strictly from `lo` and stay below 65,536, and no entry
is 0. -/
def Memory.wfFrom (lo : Nat) : Memory → Bool
  | [] => true
  | (a, b) :: m => decide (lo ≤ a) && decide (a < 65536) && decide (b ≠ 0) && Memory.wfFrom (a + 1) m

/-- The memory's canonical form. -/
abbrev Memory.wf (m : Memory) : Bool := Memory.wfFrom 0 m

/-- One byte. -/
def Memory.read : Memory → Nat → Byte
  | [], _ => 0
  | (a, b) :: m, x => if x = a then b else Memory.read m x

/-- The memory with one byte written; an address beyond the 65,536 bytes takes no write. -/
def Memory.write : Memory → Nat → Byte → Memory
  | [], x, v => if v = 0 ∨ 65536 ≤ x then [] else [(x, v)]
  | (a, b) :: m, x, v =>
    if x < a then (if v = 0 ∨ 65536 ≤ x then (a, b) :: m else (x, v) :: (a, b) :: m)
    else if x = a then (if v = 0 then m else (x, v) :: m)
    else (a, b) :: Memory.write m x v

/-- One word access by the part or the host (R160): the lower-addressed byte is the less significant. -/
def Memory.readWord (m : Memory) (a : Nat) : Word := wordOf (m.read a) (m.read (a + 1))

/-- One word written (R160). -/
def Memory.writeWord (m : Memory) (a : Nat) (w : Word) : Memory := (m.write a (loByte w)).write (a + 1) (hiByte w)

/-- A run of bytes read in rising order. -/
def Memory.readBytes (m : Memory) (a : Nat) : Nat → List Byte
  | 0 => []
  | n + 1 => m.read a :: Memory.readBytes m (a + 1) n

/-- A run of bytes written in rising order. -/
def Memory.writeBytes (m : Memory) (a : Nat) : List Byte → Memory
  | [] => m
  | b :: bs => Memory.writeBytes (m.write a b) (a + 1) bs

/-- Words written one after another. -/
def Memory.writeWords (m : Memory) : List (Nat × Word) → Memory
  | [] => m
  | (a, w) :: ws => Memory.writeWords (m.writeWord a w) ws

/-! ## The fixed places (sections 11.4 to 11.9) -/

/-- Slot n's first byte (section 11.5). -/
def slotBase (n : Fin 16) : Nat := 256 + 32 * n.val
/-- Map entry e's first byte (section 11.6). -/
def mapBase (e : Fin 32) : Nat := 768 + 4 * e.val
/-- The journal status fields of page 3 (section 11.6). -/
def statusBase : Nat := 896
/-- A point's mirror word (section 11.8). -/
def pointAddr (p : Fin 256) : Nat := 1024 + 2 * p.val
/-- Page 6, the hall mirror (section 11.9). -/
def hallBase : Nat := 1536

/-- The pages that the reset line writes anew (R179): page 0, page 3 from the journal status on, pages 4 to 6.  The
slots, the journal map and pages 7 to 255 keep their contents.  R179 names the items written and not the words beside
them that no item uses: DESIGN CHOICE, the reset line clears these words too (log entry 32). -/
def rewrittenAtResetLine (a : Nat) : Bool := decide (a < 256) || (decide (896 ≤ a) && decide (a < 1792))

/-- The memory with only the places the reset line keeps. -/
def Memory.keptAtResetLine (m : Memory) : Memory := m.filter fun c => !rewrittenAtResetLine c.1

/-- The words that a reset writes with a value other than 0: the identity, and every Init. value of the summary block,
the journal status and the mirrors that is not 0 (R178, R179 and the Init. columns of chapter 11).  `locks` is the
word of the part state and the locks, which carries the commissioning lock over a reset line. -/
def initWords (locks : Word) : List (Nat × Word) :=
  [(0, Config.vendorCode), (2, Config.partCode), (4, Config.revision), (16, locks),
   (statusBase + 8, word 255), (statusBase + 14, word (256 * 50))]
  ++ (List.range 16).map (fun j => (hallBase + 96 + 2 * j, word 0x1010))
  ++ (List.range 24).map (fun o => (hallBase + 128 + 2 * o, word 64))
  ++ (List.range 4).map (fun p => (hallBase + 200 + 2 * p, word (1 + 256 * 10)))
  ++ (List.range 4).map (fun k => (hallBase + 208 + 8 * k, word (1 + 4 + 256 * 255)))

end Sys2Proof.Machine
end

