-- ==== Sys2Proof/Machine/State.lean ====
section
/-! DEFINITION. The machine's state, its reasons to stop, and the state right after power-on reset. -/

namespace Sys2Proof.Machine

/-- Reasons a step can stop with a fault: none.  Every address of the exchange memory exists, no rule of the spec
stops the part, and every command has an effect.  (Safe: a closed type with no constructor.) -/
inductive Fault where
  deriving DecidableEq, Repr

/-- Reasons a command is refused: a command whose meaning is not modelled.  Raised by exec's refused arms only, of which
there is none. (Safe: the machine stops where the hardware goes on.) -/
inductive Refusal where
  /-- The command of this mnemonic has no meaning here (safe). -/
  | notModelled (mnemonic : String)
  deriving DecidableEq, Repr

/-- The state: the commands waiting, the exchange memory, and the items of every block. -/
structure State where
  /-- The commands waiting, first in, first out. -/
  pending : List Instr
  /-- The exchange memory (section 10.1). -/
  mem : Memory
  /-- The Time Base (section 8.1). -/
  time : TimeBase
  /-- The chatter classes (section 1.3). -/
  classes : Vector ChatterClass 4
  /-- The points (sections 1.2, 1.3, 2.1). -/
  points : Vector Point 256
  /-- The zones (section 2.4). -/
  zones : Vector Zone 8
  /-- The lamp test ends (section 2.6). -/
  panels : Vector Panel 4
  /-- The first-out groups (section 3.1). -/
  groups : Vector Group 16
  /-- The global settle window in ms (section 3.1). -/
  settleWindow : Nat
  /-- The field links (section 4.1). -/
  links : Vector Link 4
  /-- The trip inputs (section 5.1). -/
  inputs : Vector TripInput 32
  /-- Bank A (section 5.4). -/
  bankA : Bank
  /-- Bank B (section 5.4). -/
  bankB : Bank
  /-- The active bank (section 5.4). -/
  active : Option BankId
  /-- The trip outputs and their supervision (sections 6.1, 7.2). -/
  outputs : Vector Output 24
  /-- The trip profiles (section 6.1). -/
  profiles : Vector Profile 4
  /-- The trip supply (section 7.2). -/
  supply : Supply
  /-- The Journal Unit (section 9.2). -/
  journal : Journal
  /-- The Order Engine (chapter 10). -/
  engine : Engine
  /-- MODEL: the schedules' next moments (log entry 4). -/
  sched : Schedule
  /-- MODEL: condition reports that wait for the Point Filter to finish the event it is taking (log entry 6). -/
  due : List Report
  deriving DecidableEq, Repr

/-- Every item at its Init. value, before the Journal Unit makes its RESTART record; the items that have no Init. column
are named in log entry 9. -/
def State.init : State where
  pending := []
  mem := Memory.writeWords [] (initWords 0)
  time := {}
  classes := Vector.replicate 4 {}
  points := tab 256 fun p => { contact := initContact p }
  zones := Vector.replicate 8 {}
  panels := Vector.replicate 4 {}
  groups := Vector.replicate 16 {}
  settleWindow := 0
  links := Vector.replicate 4 {}
  inputs := Vector.replicate 32 {}
  bankA := {}
  bankB := {}
  active := none
  outputs := Vector.replicate 24 {}
  profiles := Vector.replicate 4 {}
  supply := {}
  journal := {}
  engine := {}
  sched := {}
  due := []

/-- The machine right after power-on reset (R157, R178): the Init. values, the RESTART record staged as record 0, and
the journal WAITING, since no map entry is GIVEN; so the condition of point 252 is present, and the journal status
shows one record staged. -/
def State.reset : State :=
  { State.init with
    mem := Memory.writeWords State.init.mem [(896, 1), (898, 1), (906, 1)]
    points := upd State.init.points 252 { contact := .present }
    journal := { State.init.journal with queue := [powerOnRestart], nextSeq := 1, waiting := true } }

end Sys2Proof.Machine
end

