-- ==== Sys2Proof/Machine/Ops.lean ====
section
/-! DEFINITION. The shared operations over the exchange memory and the clocks: the writes of every mirror entry and
status item, time-of-day arithmetic, and the making of a record. -/

namespace Sys2Proof.Machine

/-! ## Memory -/

/-- The part's write of one word of exchange memory. -/
def State.putWord (a : Nat) (w : Word) (s : State) : State := { s with mem := s.mem.writeWord a w }

/-- The part's write of a run of bytes. -/
def State.putBytes (a : Nat) (bs : List Byte) (s : State) : State := { s with mem := s.mem.writeBytes a bs }

/-- The part's write of several words, in order. -/
def State.putWords (ws : List (Nat × Word)) (s : State) : State := { s with mem := s.mem.writeWords ws }

/-! ## Clocks (chapter 8) -/

/-- Milliseconds of a day. -/
def dayMs : Nat := 86400000

/-- Run time as it stands. -/
def State.now (s : State) : Nat := s.time.run

/-- The stamp a block reads when it takes an event (R130). -/
def State.stamp (s : State) : Stamp := { day := s.time.day, ms := s.time.ms, valid := s.time.valid }

/-- The receipt read when an event is taken: run time and stamp. -/
def State.moment (s : State) : Receipt := { run := s.now, stamp := s.stamp }

/-- The day and ms of day `d` ms later: a sum of 86,400,000 or more carries into the next day, and day 65535 carries to
day 0 (R129). -/
def carryTime (day ms d : Nat) : Nat × Nat := ((day + (ms + d) / dayMs) % 65536, (ms + d) % dayMs)

/-- A stamp moved forward, keeping its VALID state (R6). -/
def Stamp.forward (t : Stamp) (d : Nat) : Stamp :=
  { t with day := (carryTime t.day t.ms d).1, ms := (carryTime t.day t.ms d).2 }

/-- A stamp moved back by at most a day: a difference below 0 borrows from the day before, and day 0 borrows to day
65535 (R5). -/
def Stamp.back (t : Stamp) (d : Nat) : Stamp :=
  if d ≤ t.ms then { t with ms := t.ms - d }
  else { t with day := (t.day + 65535) % 65536, ms := t.ms + dayMs - d }

/-- A timer whose deadline has come (R128: every timer is a run time deadline). -/
def dueAt (timer : Option Nat) (now : Nat) : Bool :=
  match timer with
  | none => false
  | some d => decide (d ≤ now)

/-! ## Mirror writes (each entry is written whole, log entry 10) -/

/-- A point's mirror word (R4, R46). -/
def State.showPoint (p : Fin 256) (s : State) : State := s.putWord (pointAddr p) (nth s.points p).mirror

/-- A zone's entry (R40). -/
def State.showZone (z : Fin 8) (s : State) : State :=
  let x := nth s.zones z
  s.putWords [(hallBase + 6 * z.val, x.mirror0), (hallBase + 6 * z.val + 2, word x.nStanding),
    (hallBase + 6 * z.val + 4, word x.nRingback)]

/-- The four groups' bits in the state word that holds group g. -/
def groupWord (gs : Vector Group 16) (g : Fin 16) : Word :=
  word ((List.finRange 16).foldl
    (fun n j => n + if j.val / 4 = g.val / 4 then (nth gs j).nibble * 16 ^ (j.val % 4) else 0) 0)

/-- A group's entry (R58): its state word and its candidate word. -/
def State.showGroup (g : Fin 16) (s : State) : State :=
  s.putWords [(hallBase + 48 + 2 * (g.val / 4), groupWord s.groups g),
    (hallBase + 56 + 2 * g.val, (nth s.groups g).mirror)]

/-- Whether a lamp test is running on panel k (R43). -/
def State.testing (s : State) (k : Fin 4) : Bool := (nth s.panels k).buttonEnd.isSome || (nth s.panels k).orderEnd.isSome

/-- A link's entry (R79). -/
def State.showLink (k : Fin 4) (s : State) : State :=
  let l := nth s.links k
  s.putWords ((List.range 4).map fun j => (hallBase + 208 + 8 * k.val + 2 * j, l.mirror (s.testing k) j))

/-- The lamp-test flag of a link's entry, in the entry's first word (R45). -/
def State.showTest (k : Fin 4) (s : State) : State :=
  s.putWord (hallBase + 208 + 8 * k.val) ((nth s.links k).mirror (s.testing k) 0)

/-- Sixteen bits of the trip inputs, as a word. -/
def inputsWord (f : TripInput → Bool) (xs : Vector TripInput 32) (half : Nat) : Word :=
  word ((List.finRange 32).foldl
    (fun n j => n + if j.val / 16 = half ∧ f (nth xs j) = true then 2 ^ (j.val % 16) else 0) 0)

/-- A trip input's entry (R86): its bits in the qualified and line level words, and the word of its count byte. -/
def State.showInput (i : Fin 32) (s : State) : State :=
  let pair := (List.finRange 32).foldl
    (fun n j => n + if j.val / 2 = i.val / 2 then (nth s.inputs j).mirror * 256 ^ (j.val % 2) else 0) 0
  s.putWords [(hallBase + 88 + 2 * (i.val / 16), inputsWord (·.qualified) s.inputs (i.val / 16)),
    (hallBase + 92 + 2 * (i.val / 16), inputsWord (·.level) s.inputs (i.val / 16)),
    (hallBase + 96 + 2 * (i.val / 2), word pair)]

/-- The entries of a bank. -/
def State.bank (s : State) : BankId → Bank
  | .a => s.bankA
  | .b => s.bankB

/-- The state with a bank replaced. -/
def State.setBank (b : BankId) (x : Bank) (s : State) : State :=
  match b with
  | .a => { s with bankA := x }
  | .b => { s with bankB := x }

/-- The entry of input i in the active bank (section 5.4). -/
def State.activeEntry (s : State) (i : Fin 32) : Option Entry :=
  match s.active with
  | none => none
  | some b => some (nth (s.bank b).entries i)

/-- The qualification count in force for an input: 1 with no active bank (R82). -/
def State.qOf (s : State) (i : Fin 32) : Nat :=
  match s.activeEntry i with
  | none => 1
  | some e => e.q

/-- The output mask of an input in the active bank: no outputs with no active bank (R85). -/
def State.maskOf (s : State) (i : Fin 32) : BitVec 24 :=
  match s.activeEntry i with
  | none => 0
  | some e => e.mask

/-- Whether input i is in the driving set of output o (section 5.7). -/
def State.drives (s : State) (i : Fin 32) (o : Fin 24) : Bool :=
  (nth s.inputs i).qualified && (s.maskOf i).getLsbD o.val

/-- The lowest active driving input of an output, none while its driving set is empty (R94). -/
def State.driver (s : State) (o : Fin 24) : Option (Fin 32) := (List.finRange 32).find? fun i => s.drives i o

/-- An output is driven while its driving set is not empty (section 5.7). -/
def State.driven (s : State) (o : Fin 24) : Bool := (s.driver o).isSome

/-- An output's word, with the items of the Output Unit and of the Matrix Unit (R107). -/
def State.showOutput (o : Fin 24) (s : State) : State :=
  s.putWord (hallBase + 128 + 2 * o.val) ((nth s.outputs o).mirror (s.driver o))

/-- An output's supervision byte, with its neighbour's in the word (R127). -/
def State.showSup (o : Fin 24) (s : State) : State :=
  let pair := (List.finRange 24).foldl
    (fun n j => n + if j.val / 2 = o.val / 2 then (nth s.outputs j).supMirror * 256 ^ (j.val % 2) else 0) 0
  s.putWord (hallBase + 176 + 2 * (o.val / 2)) (word pair)

/-- A profile's entry (R107). -/
def State.showProfile (p : Fin 4) (s : State) : State := s.putWord (hallBase + 200 + 2 * p.val) (nth s.profiles p).mirror

/-- The matrix entry (R96). -/
def State.showMatrix (s : State) : State :=
  s.putWord (hallBase + 240) (word (s.bankA.state.code + 4 * s.bankB.state.code + 16 * bankCode s.active))

/-- The supply entry (R127). -/
def State.showSupply (s : State) : State := s.putWord (hallBase + 242) (word (s.supply.state.code + 256 * s.supply.absence))

/-- The part state and the locks in the summary block (R173, R176). -/
def State.showPart (s : State) : State := s.putWord 16 s.engine.mirror0

/-- The active bank in the summary block (R96). -/
def State.showActive (s : State) : State := s.putWord 26 (word (bankCode s.active))

/-- The clock entry of the summary block (R138). -/
def State.showClock (s : State) : State :=
  (s.putWords [(32, s.time.mirror0), (34, signedWord s.time.lastCorrection)]).putBytes 36 (bytes6 s.time.lastPulse)

/-! ## Registers and ALERT (section 10.2) -/

/-- ALERT is raised (R163). -/
def State.raiseAlert (s : State) : State := { s with engine := { s.engine with alert := true } }

/-- What a read of the CONDITION register returns (R162, section 11.2). -/
def State.condition (s : State) : Word :=
  word (s.engine.part.code + 4 * bit s.engine.alert + 8 * bit s.engine.service + 16 * bit s.engine.commissioning
    + 32 * bit s.journal.waiting + 64 * bit s.time.valid)

/-- The register a register word address reaches: its low three bits, the higher lines ignored (R181). -/
def registerOf (addr : BitVec 15) : Nat := addr.toNat % 8

/-- What a host read of a register word address returns: CONDITION at 1, and 0 for NOTICE, ALERT CLEAR and the words 3
to 7 (R162, R181).  A read changes no state (log entry 24). -/
def State.readRegister (addr : BitVec 15) (s : State) : Word := if registerOf addr = 1 then s.condition else 0

/-- The command that a host write to a register word address is (R161, R164, R181); `order` is the order in which the
blocks take a notice (log entry 3). -/
def registerWrite (addr : BitVec 15) (value : Word) (order : NoticeOrder) : Instr :=
  let discarded := fun reg => Instr.discardedRegisterWrite reg (addr.extractLsb' 3 12) value
  match registerOf addr with
  | 0 => .notice value order
  | 1 => discarded .condition
  | 2 => .alertClear value
  | 3 => discarded .word3
  | 4 => discarded .word4
  | 5 => discarded .word5
  | 6 => discarded .word6
  | _ => discarded .word7

/-! ## Making a record (R140) -/

/-- A record with a stamp: TIME_INVALID when the stamp was read while VALID was clear (R130). -/
def Record.stamped (r : Record) (t : Stamp) : Record :=
  { r with day := t.day, ms := t.ms, flags := { r.flags with timeInvalid := !t.valid } }

/-- A SETTINGS record (section 11.7): LOW, not filterable, its x0 the order code. -/
def settingsRecord (k : OrderKind) (t : Stamp) (subject x1 x2 x3 x4 : Nat) : Record :=
  Record.stamped
    { kind := .settings, high := false, subject := byte subject, x0 := byte k.code, x1 := byte x1, x2 := byte x2,
      x3 := byte x3, x4 := byte x4 } t

end Sys2Proof.Machine
end

