-- ==== Sys2Proof/Machine/Operands.lean ====
section
/-! DEFINITION. The reading of what the host and the panels write (chapter 11): order parameters, table images,
answer frames; and the writing of scan frames. -/

namespace Sys2Proof.Machine

/-! ## Runs of bytes -/

/-- Byte d of a run of bytes, 0 beyond its end. -/
def byteAt (bs : List Byte) (d : Nat) : Byte := bs.getD d 0

/-- The number in byte d. -/
def numAt (bs : List Byte) (d : Nat) : Nat := (byteAt bs d).toNat

/-- The 16-bit number at byte d, lower byte first (section 9 of the scope: multi-byte fields are little-endian). -/
def wordAt (bs : List Byte) (d : Nat) : Nat := numAt bs d + 256 * numAt bs (d + 1)

/-- The 32-bit number at byte d, lower byte first. -/
def longAt (bs : List Byte) (d : Nat) : Nat := wordAt bs d + 65536 * wordAt bs (d + 2)

/-- Bit n of byte d. -/
def bitAt (bs : List Byte) (d n : Nat) : Bool := (byteAt bs d).getLsbD n

/-! ## LOAD POINTS images (section 11.10) -/

/-- The point record that starts at byte d of the joined payload; the fields are judged by R19's fourth check before
they are used. -/
def settingsAt (bs : List Byte) (d : Nat) : Settings :=
  { enabled := bitAt bs d 0
    whenOpen := bitAt bs d 1
    lockIn := bitAt bs d 2
    ringback := bitAt bs d 3
    high := bitAt bs d 4
    hasWindow := bitAt bs d 5
    window := Fin.ofNat 256 (numAt bs (d + 1))
    zone := Fin.ofNat 8 (numAt bs (d + 2))
    group := if numAt bs (d + 3) = 255 then none else some (Fin.ofNat 16 (numAt bs (d + 3)))
    cls := Fin.ofNat 4 (numAt bs (d + 4))
    alarmDelay := byteAt bs (d + 5)
    clearDelay := byteAt bs (d + 6) }

/-- R19's fourth check of one point record: zone 0–7, group 0–15 or 255 for none, class 0–3. -/
def recordFits (bs : List Byte) (d : Nat) : Bool :=
  decide (numAt bs (d + 2) ≤ 7) && (decide (numAt bs (d + 3) ≤ 15) || decide (numAt bs (d + 3) = 255))
    && decide (numAt bs (d + 4) ≤ 3)

/-! ## LOAD MATRIX images (section 11.10) -/

/-- Entry i of the image as it is given: a 24-bit output mask and a qualification count. -/
def entryAt (bs : List Byte) (i : Nat) : Entry :=
  { mask := BitVec.ofNat 24 (numAt bs (4 * i) + 256 * numAt bs (4 * i + 1) + 65536 * numAt bs (4 * i + 2))
    q := numAt bs (4 * i + 3) }

/-- A count brought into 1–15 (R89). -/
def clampCount (q : Nat) : Nat := if q = 0 then 1 else min 15 q

/-! ## SET PROFILES (section 11.5) -/

/-- The selection nibble of output o. -/
def selectionAt (bs : List Byte) (o : Fin 24) : Nat := numAt bs (8 + o.val / 2) / 16 ^ (o.val % 2) % 16

/-- Profile p as it is taken, an on-time of 0 written as 1 (R109). -/
def profileAt (bs : List Byte) (p : Fin 4) : Option Profile :=
  (Mode.ofCode (numAt bs (2 * p.val))).map fun m => { mode := m, onTime := max 1 (numAt bs (2 * p.val + 1)) }

/-! ## Answer frames (R63, section 11.11) -/

/-- A change entry: input index, whether the new state is CLOSED, age. -/
structure ChangeEntry where
  input : Nat
  closed : Bool
  age : Nat
  deriving DecidableEq, Repr

/-- What a valid answer carries. -/
structure Answer where
  entries : List ChangeEntry
  inputs : Vector Bool 48
  buttons : Buttons
  overflow : Bool
  deriving DecidableEq, Repr

/-- The change count field of an answer. -/
def changeCount (bs : List Byte) : Nat := numAt bs 10 % 16

/-- Whether the bytes hold a complete answer: a count of 0–8 and the 13 + 2n bytes it asks for (R62, R63). -/
def answerComplete (bs : List Byte) : Bool :=
  decide (11 ≤ bs.length) && decide (changeCount bs ≤ 8) && decide (13 + 2 * changeCount bs ≤ bs.length)

/-- The seven tests of R63, in order, against the panel address and the sequence number the scan carried; the first
that fails names the miss. -/
def answerFault (k : Fin 4) (carried : Byte) (rx : List RxByte) : Option LinkError :=
  let bs := rx.map (·.value)
  let n := changeCount bs
  if rx.any (·.parityError) then some .parity
  else if rx.any (·.framingError) = true ∨ (bs ≠ [] ∧ byteAt bs 0 ≠ 0x5A) then some .framing
  else if bs.length < 11 ∨ (n ≤ 8 ∧ bs.length < 13 + 2 * n) then some .timeout
  else if 8 < n ∨ 13 + 2 * n < bs.length then some .overrun
  else if byteSum ((bs.drop 1).take (10 + 2 * n)) ≠ wordAt bs (11 + 2 * n) then some .check
  else if numAt bs 1 ≠ k.val then some .address
  else if byteAt bs 2 ≠ carried then some .sequence
  else none

/-- The fields of an answer that has passed the tests (section 11.11). -/
def readAnswer (bs : List Byte) : Answer :=
  { entries := (List.range (changeCount bs)).map fun m =>
      { input := numAt bs (11 + 2 * m) % 64, closed := bitAt bs (11 + 2 * m) 7, age := numAt bs (12 + 2 * m) }
    inputs := tab 48 fun j => bitAt bs (3 + j.val / 8) (j.val % 8)
    buttons := { ack := bitAt bs 9 0, silence := bitAt bs 9 1, reset := bitAt bs 9 2, test := bitAt bs 9 3 }
    overflow := bitAt bs 10 7 }

/-! ## Scan frames (R61, section 11.11) -/

/-- The 192-bit run of 64 lamp codes, code w in bits 3w to 3w + 2. -/
def lampRun : List Nat → Nat
  | [] => 0
  | c :: cs => c + 8 * lampRun cs

/-- The bytes of a scan frame: start mark, address, sequence number, control, lamp codes, check word. -/
def scanBytes (k : Fin 4) (seq : Byte) (restart : Bool) (codes : List Nat) : List Byte :=
  let body := [byte k.val, seq, byte (bit restart)]
    ++ (List.range 24).map fun j => byte (lampRun codes / 256 ^ j)
  0xA5 :: body ++ bytes2 (byteSum body)

end Sys2Proof.Machine
end

