-- ==== Sys2Proof/Machine/Journal.lean ====
section
/-! DEFINITION. The Journal Unit (chapter 9): admission and refusal of records, the OVERFLOW record, opening, writing and
closing pages.  The operations take as `rep` what becomes of a report of point 252 or 253: it is taken by the Point
Filter at once, or it waits for the event the Point Filter is taking (log entry 6). -/

namespace Sys2Proof.Machine

/-- The places of the staging queue (R143). -/
def queueSize : Nat := 48

/-- The places a record asks for: 1 for a HIGH record, 9 for a LOW one (R143). -/
def placesNeeded (high : Bool) : Nat := if high then 1 else 9

/-! ## Status writes (R156) -/

def State.showWaiting (s : State) : State := s.putWord statusBase (word (bit s.journal.waiting))

/-- The occupancy and the map cursor, which share a word. -/
def State.showQueue (s : State) : State :=
  s.putWord (statusBase + 2) (word (s.journal.queue.length + 256 * s.journal.cursor.val))

def State.showLost (s : State) : State :=
  s.putWords [(statusBase + 4, word s.journal.highLost), (statusBase + 6, word s.journal.lowLost)]

def State.showFilling (s : State) : State := s.putWord (statusBase + 8) s.journal.fillingWord

def State.showNextSeq (s : State) : State := s.putWord (statusBase + 10) s.journal.nextSeq

def State.showNextPage (s : State) : State := s.putWord (statusBase + 12) s.journal.nextPage

/-- The filter mask and the flush delay, which share a word. -/
def State.showJournalSettings (s : State) : State :=
  s.putWord (statusBase + 14) (word (s.journal.mask.toNat + 256 * s.journal.flushDelay))

/-! ## Admission and refusal (section 9.3) -/

/-- The record joins the tail of the staging queue with the next record sequence number (R143). -/
def stage (r : Record) (s : State) : State :=
  State.showNextSeq (State.showQueue { s with journal := { s.journal with
    queue := s.journal.queue ++ [{ r with seq := s.journal.nextSeq }], nextSeq := s.journal.nextSeq + 1 } })

/-- The report of point 252 or 253 as it stands now. -/
def State.journalReport (s : State) (p : Fin 256) (present : Bool) : Report :=
  { point := p, present := present, run := s.now, stamp := s.stamp }

/-- A refused record raises the lost count of its priority, saturating at 65,535 (R144). -/
def Journal.lose (j : Journal) (high : Bool) : Journal :=
  if high then { j with highLost := min 65535 (j.highLost + 1) } else { j with lowLost := min 65535 (j.lowLost + 1) }

/-- A refusal (R144): the count; at the first loss, the first-loss items, and point 253 reported present. -/
def refuse (rep : Report → State → State) (high : Bool) (s : State) : State :=
  if s.journal.highLost = 0 ∧ s.journal.lowLost = 0 then
    let s1 := State.showLost { s with journal := { s.journal.lose high with
      firstLoss := some s.stamp, firstLossHigh := some high } }
    rep (s1.journalReport 253 true) s1
  else State.showLost { s with journal := s.journal.lose high }

/-- The OVERFLOW record of the present counts (R145). -/
def overflowRecord (j : Journal) : Record :=
  Record.stamped
    { kind := .overflow, high := true, x0 := byte j.highLost, x1 := byte (j.highLost / 256), x2 := byte j.lowLost,
      x3 := byte (j.lowLost / 256), x4 := byte (bit (j.firstLossHigh.getD false)) }
    (j.firstLoss.getD {})

/-- When a place frees and either lost count is above 0, the OVERFLOW record is admitted, the counts and first-loss
items return to their Init. values, and point 253 is reported absent (R145). -/
def overflow (rep : Report → State → State) (s : State) : State :=
  if s.journal.highLost = 0 ∧ s.journal.lowLost = 0 then s
  else
    let s1 := stage (overflowRecord s.journal) s
    let s2 := State.showLost { s1 with journal := { s1.journal with
      highLost := 0, lowLost := 0, firstLoss := none, firstLossHigh := none } }
    rep (s2.journalReport 253 false) s2

/-! ## Writing (R151) -/

/-- The first byte of record position r of a page (section 11.7). -/
def recordAddr (page r : Nat) : Nat := 256 * page + 16 + 16 * r

/-- Steps 1 to 3 of a write: the head record goes into the next position of the FILLING page, a place frees, and the
record count rises by 1. -/
def writeHead (rep : Report → State → State) (s : State) : State :=
  match s.journal.queue, s.journal.filling with
  | r :: rest, some f =>
    let f1 := { f with firstSeq := if f.count = 0 then r.seq else f.firstSeq }
    let s1 := State.showQueue { (s.putBytes (recordAddr f.page f.count) r.bytes) with
      journal := { s.journal with queue := rest, filling := some f1 } }
    let s2 := overflow rep s1
    State.showFilling { s2 with journal := { s2.journal with
      filling := s2.journal.filling.map fun g => { g with count := g.count + 1 } } }
  | _, _ => s

/-! ## Opening (R147 to R150) -/

/-- What the part finds at a map entry: the state word first, and the page number only when it reads GIVEN (R147). -/
def State.givenPage (s : State) (e : Fin 32) : Option Nat :=
  if s.mem.readWord (mapBase e + 2) = 1 then some (s.mem.readWord (mapBase e)).toNat else none

/-- A page number is usable when it lies in 7–255 (R148). -/
def usablePage (p : Nat) : Bool := decide (7 ≤ p) && decide (p ≤ 255)

/-- A map entry's state word (section 11.3). -/
def State.putMapState (e : Fin 32) (code : Word) (s : State) : State := s.putWord (mapBase e + 2) code

/-- The entry at the cursor is rejected and the cursor advances, 31 followed by 0 (R149). -/
def rejectEntry (s : State) : State :=
  State.showQueue { (s.putMapState s.journal.cursor 4) with
    journal := { s.journal with cursor := s.journal.cursor + 1 } }

/-- An attempt that opens no page: the journal becomes WAITING, and point 252 is reported present (R150). -/
def noPage (rep : Report → State → State) (s : State) : State :=
  if s.journal.waiting then s
  else
    let s1 := State.showWaiting { s with journal := { s.journal with waiting := true } }
    rep (s1.journalReport 252 true) s1

/-- The entry at the cursor is opened with its page, the head record is written, and WAITING ends (R149, R150). -/
def openPage (rep : Report → State → State) (page : Nat) (s : State) : State :=
  let j := s.journal
  let f : Filling := {
    entry := j.cursor, page := page, pageSeq := j.nextPage, count := 0, firstSeq := 0,
    deadline := s.now + 10 * j.flushDelay }
  let s1 := State.showNextPage (State.showFilling { (s.putMapState j.cursor 2) with
    journal := { j with nextPage := j.nextPage + 1, filling := some f } })
  let s2 := writeHead rep s1
  if s2.journal.waiting then
    let s3 := State.showWaiting { s2 with journal := { s2.journal with waiting := false } }
    rep (s3.journalReport 252 false) s3
  else s2

/-- An attempt from the cursor on, over at most `n` entries. -/
def attemptFrom (rep : Report → State → State) : Nat → State → State
  | 0, s => noPage rep s
  | n + 1, s =>
    match s.givenPage s.journal.cursor with
    | none => noPage rep s
    | some page => if usablePage page then openPage rep page s else attemptFrom rep n (rejectEntry s)

/-- An opening attempt (R149): made while a record is staged and no page is FILLING. It examines each entry at most
once. -/
def attempt (rep : Report → State → State) (s : State) : State :=
  if s.journal.queue ≠ [] ∧ s.journal.filling = none then attemptFrom rep 32 s else s

/-- A record is offered (R142, R143): it is admitted when enough places are free, and refused otherwise. An admission
with no page FILLING and the journal not WAITING leads to an opening attempt. -/
def offerWith (rep : Report → State → State) (r : Record) (s : State) : State :=
  if s.journal.queue.length + placesNeeded r.high ≤ queueSize then
    let s1 := stage r s
    if s1.journal.filling = none ∧ s1.journal.waiting = false then attempt rep s1 else s1
  else refuse rep r.high s

/-! ## Closing (R153) -/

/-- Steps 1, 2 and 5 of a close: header, map entry CLOSED, no filling entry, cursor on. -/
def handBack (c : CloseCause) (f : Filling) (s : State) : State :=
  let s1 := (s.putBytes (256 * f.page) (headerBytes f c)).putMapState f.entry 3
  State.showQueue (State.showFilling { s1 with
    journal := { s1.journal with filling := none, cursor := s1.journal.cursor + 1 } })

/-- Steps 3 and 4 of a close: the pages-closed count rises and is written into the summary block, and ALERT is
raised. -/
def countClosed (s : State) : State :=
  let s1 := { s with engine := { s.engine with pagesClosed := s.engine.pagesClosed + 1 } }
  (s1.putWord 18 s1.engine.pagesClosed).raiseAlert

/-- A close with the attempt that follows while records are staged (R153). -/
def closePage (rep : Report → State → State) (c : CloseCause) (f : Filling) (s : State) : State :=
  attempt rep (countClosed (handBack c f s))

/-- A write as one event (R151): steps 1 to 3, and the close when the count has reached 15. -/
def writeEvent (rep : Report → State → State) (s : State) : State :=
  let s1 := writeHead rep s
  match s1.journal.filling with
  | some f => if 15 ≤ f.count then closePage rep .full f s1 else s1
  | none => s1

/-! ## The filter mask (R141) -/

/-- The filterable items (section 11.3). -/
inductive Filterable where
  | pointNormal | action | chatter | link | clock
  deriving DecidableEq, Repr

/-- An item's bit in the filter mask. -/
def filterBit : Filterable → Nat
  | .pointNormal => 0 | .action => 1 | .chatter => 2 | .link => 3 | .clock => 4

/-- Whether the mask names an item. -/
def State.filters (s : State) (f : Filterable) : Bool := s.journal.mask.getLsbD (filterBit f)

end Sys2Proof.Machine
end

