-- ==== Sys2Proof/Machine/FirstOut.lean ====
section
/-! DEFINITION. The First-Out Unit (chapter 3): alert reports, the latch at the settle deadline, lost marks, re-arming.
Records are offered within the alarm side's event, so the reports they lead to wait for its end (log entry 6). -/

namespace Sys2Proof.Machine

/-- A report that waits until the Point Filter has taken the event in hand. -/
def keepReport (r : Report) (s : State) : State := { s with due := s.due ++ [r] }

/-- A record offered within an event of the alarm side. -/
def offerInside (r : Record) (s : State) : State := offerWith keepReport r s

/-- A record offered within an event of the alarm side, unless the filter mask names it (R141). -/
def offerFiltered (f : Filterable) (r : Record) (s : State) : State := if s.filters f then s else offerInside r s

/-! ## FIRST OUT records (R53) -/

/-- Outcome and cause of a FIRST OUT record. -/
inductive FirstOutcome where
  | marked | notMarkedDisabled | notMarkedShelved | notMarkedLeft | rearmedReset | rearmedLoad
  deriving DecidableEq, Repr

/-- The outcome bits and cause bits of x0 (section 11.7). -/
def FirstOutcome.code : FirstOutcome → Nat
  | .marked => 1
  | .notMarkedDisabled => 2 + 4 * 1
  | .notMarkedShelved => 2 + 4 * 2
  | .notMarkedLeft => 2 + 4 * 3
  | .rearmedReset => 3 + 4 * 4
  | .rearmedLoad => 3 + 4 * 5

/-- The margin: runner-up raw time minus candidate raw time, saturating at 65,534; 65,535 with no runner-up (R53).  What
it reads when a report of the candidate itself has made the runner-up the earlier one is a free value (log entry 26). -/
def Group.margin (x : Group) : Nat :=
  match x.runnerUp with
  | none => 65535
  | some r =>
    if x.candidateTime ≤ r then min 65534 (r - x.candidateTime)
    else (Config.marginBelowZero x.candidateTime r).toNat

/-- The FIRST OUT record of group g, from its record x. -/
def firstOutRecord (g : Fin 16) (x : Group) (o : FirstOutcome) (t : Stamp) : Record :=
  Record.stamped
    { kind := .firstOut, high := true, subject := byte g.val, x0 := byte (o.code + 32 * x.state.code),
      x1 := byte (match x.candidate with | some p => p.val | none => 255), x2 := byte x.contenders,
      x3 := byte x.margin, x4 := byte (x.margin / 256) } t

/-! ## First marks (R28) -/

/-- The Sequence Unit sets or clears a point's first mark and writes its mirror entry. -/
def setMark (p : Fin 256) (m : Bool) (s : State) : State :=
  State.showPoint p { s with points := upd s.points p { nth s.points p with firstMark := m } }

/-- The state with a group's record replaced and its entry written (R58). -/
def putGroup (g : Fin 16) (x : Group) (s : State) : State := State.showGroup g { s with groups := upd s.groups g x }

/-! ## The decision (R51) -/

/-- What the settle deadline finds of group g's candidate, judged in R51's order. -/
def judgeCandidate (g : Fin 16) (x : Point) : FirstOutcome :=
  if x.settings.enabled = false then .notMarkedDisabled
  else if x.shelved then .notMarkedShelved
  else if x.settings.group ≠ some g then .notMarkedLeft
  else .marked

/-- A DECIDING group latches: no deadline, LATCHED, the candidate judged for its mark, and the FIRST OUT record made
from the record before (R51, R53). -/
def latch (g : Fin 16) (s : State) : State :=
  let x := nth s.groups g
  match x.candidate with
  | none => putGroup g { x with state := .latched, deadline := none } s
  | some p =>
    let o := judgeCandidate g (nth s.points p)
    let s1 := if o = .marked then setMark p true s else s
    let s2 := putGroup g { x with state := .latched, deadline := none, marked := decide (o = .marked) } s1
    offerInside (firstOutRecord g { x with state := .deciding } o s.stamp) s2

/-! ## Alert reports (R48 to R50) -/

/-- Whether a report of point p at raw run time t displaces the candidate of a DECIDING group (R49): an earlier raw time
does, and an equal one of a lower point; a report of the candidate itself displaces nothing, however early (log entry
26). -/
def Group.displaces (x : Group) (p : Fin 256) (t : Nat) : Bool :=
  match x.candidate with
  | none => true
  | some c =>
    decide (p ≠ c) && (decide (t < x.candidateTime) || (decide (t = x.candidateTime) && decide (p < c)))

/-- A DECIDING group's record after a report of point p at raw run time t (R49). -/
def Group.compare (x : Group) (p : Fin 256) (t : Nat) : Group :=
  let n := min 255 (x.contenders + 1)
  if x.displaces p t then
    { x with candidate := some p, candidateTime := t, runnerUp := some x.candidateTime, contenders := n }
  else { x with runnerUp := some (match x.runnerUp with | none => t | some r => min r t), contenders := n }

/-- The report of a new alert of point p in group g with raw run time t (R48, R49, R50). -/
def alertReport (g : Fin 16) (p : Fin 256) (t : Nat) (s : State) : State :=
  let x := nth s.groups g
  match x.state with
  | .armed =>
    let x1 : Group := {
      state := .deciding, candidate := some p, candidateTime := t, runnerUp := none, contenders := 1,
      deadline := some (s.now + s.settleWindow), marked := false }
    let s1 := putGroup g x1 s
    if s.settleWindow = 0 then latch g s1 else s1
  | .deciding => putGroup g (x.compare p t) s
  | .latched => s

/-! ## Losing the mark (R54) -/

/-- A group whose marked candidate is p loses its mark and stays LATCHED. -/
def unmarkGroup (p : Fin 256) (s : State) (g : Fin 16) : State :=
  let x := nth s.groups g
  if x.marked = true ∧ x.candidate = some p then putGroup g { x with marked := false } s else s

/-- A shelve or LOAD POINTS apply clears the first mark of a point; a point that holds none is left as it is. -/
def clearMark (p : Fin 256) (s : State) : State :=
  if (nth s.points p).firstMark then (List.finRange 16).foldl (unmarkGroup p) (setMark p false s) else s

/-! ## Re-arming (R55 to R57) -/

/-- Whether every point of group g is QUIET. -/
def groupQuiet (s : State) (g : Fin 16) : Bool :=
  (List.finRange 256).all fun p =>
    decide ((nth s.points p).settings.group ≠ some g) || decide ((nth s.points p).seq = .quiet)

/-- A re-arm of a group that is DECIDING or LATCHED: the candidate's mark is cleared if the group is marked, the FIRST
OUT record is made from the values before, and the record returns to its Init. values (R55). -/
def rearm (o : FirstOutcome) (g : Fin 16) (s : State) : State :=
  let x := nth s.groups g
  let s1 := match x.marked, x.candidate with
    | true, some p => setMark p false s
    | _, _ => s
  putGroup g {} (offerInside (firstOutRecord g x o s.stamp) s1)

/-- The re-arm of a reset action, group by group: LATCHED and every point QUIET (R56). -/
def rearmReset (s : State) (g : Fin 16) : State :=
  if (nth s.groups g).state = .latched ∧ groupQuiet s g = true then rearm .rearmedReset g s else s

/-- The re-arm of a LOAD POINTS apply, group by group: DECIDING or LATCHED and every point QUIET (R57). -/
def rearmLoad (s : State) (g : Fin 16) : State :=
  if (nth s.groups g).state ≠ .armed ∧ groupQuiet s g = true then rearm .rearmedLoad g s else s

end Sys2Proof.Machine
end

