-- ==== Sys2Proof/Machine/Sequence.lean ====
section
/-! DEFINITION. The Sequence Unit (chapter 2): accepted changes, operator actions, zones and horns, lamp codes and lamp
tests. -/

namespace Sys2Proof.Machine

/-! ## Zones and horns (section 2.4) -/

/-- How many points of zone z stand in a sequence state that f picks. -/
def countZone (s : State) (z : Fin 8) (f : SeqState → Bool) : Nat :=
  (List.finRange 256).countP fun p => decide ((nth s.points p).settings.zone = z) && f (nth s.points p).seq

/-- The horn state that a zone's counts and flags give (R38). -/
def Zone.judgeHorn (x : Zone) : HornState :=
  if x.nAlert ≠ 0 ∧ x.silenced = false then .alertTone
  else if x.nRingback ≠ 0 ∧ x.rbSilenced = false then .ringbackTone
  else .off

/-- The horn line and its tone cycle as the horn takes a state at run time `now` (R39): the cycle starts at the
beginning of an active period each time the horn enters RINGBACK_TONE. -/
def Zone.takeHorn (x : Zone) (h : HornState) (now : Nat) : Zone :=
  if h = x.horn then x
  else match h with
    | .off => { x with horn := .off, line := false, toggle := none }
    | .alertTone => { x with horn := .alertTone, line := true, toggle := none }
    | .ringbackTone => { x with horn := .ringbackTone, line := true, toggle := some (now + 500) }

/-- A zone with its counts brought up to date and its horn worked out again (R38). -/
def rejudged (s : State) (z : Fin 8) (x : Zone) : Zone :=
  let y := { x with
    nAlert := countZone s z fun q => decide (q = SeqState.alert) || decide (q = SeqState.alertCleared)
    nStanding := countZone s z fun q => decide (q = SeqState.standing)
    nRingback := countZone s z fun q => decide (q = SeqState.ringback) }
  y.takeHorn y.judgeHorn s.now

/-- Zone z after its flags have taken the values of x: counts and horn worked out again, and the entry written when
anything of it has changed (R38, R40). -/
def putZone (z : Fin 8) (x : Zone) (s : State) : State :=
  let y := rejudged s z x
  if y = nth s.zones z then s else State.showZone z { s with zones := upd s.zones z y }

/-- The horn of a zone worked out again (R38). -/
def rejudgeZone (z : Fin 8) (s : State) : State := putZone z (nth s.zones z) s

/-! ## Accepted changes (section 2.2) -/

/-- The move of R25 for a point that is not shelved. -/
def SeqState.move (q : SeqState) (abnormal lockIn ringback : Bool) : SeqState :=
  match q, abnormal with
  | .quiet, true => .alert
  | .quiet, false => .quiet
  | .alert, true => .alert
  | .alert, false => if lockIn then .alertCleared else .quiet
  | .alertCleared, true => .alert
  | .alertCleared, false => .alertCleared
  | .standing, true => .standing
  | .standing, false => if ringback then .ringback else .quiet
  | .ringback, true => .alert
  | .ringback, false => .ringback

/-- An accepted change (section 2.2): the new accepted state, raw run time, stamp and flags. -/
structure Change where
  abnormal : Bool
  rawTime : Nat
  stamp : Stamp
  approx : Bool := false
  afterHold : Bool := false
  initial : Bool := false
  deriving DecidableEq, Repr

/-- The sequence state a change leaves: QUIET for a shelved point, the move of R25 otherwise. -/
def Point.afterChange (x : Point) (c : Change) : SeqState :=
  if x.shelved then .quiet else x.seq.move c.abnormal x.settings.lockIn x.settings.ringback

/-- A new alert: a move into ALERT from QUIET, ALERT_CLEARED or RINGBACK (R25). -/
def newAlert (before after : SeqState) : Bool := decide (after = .alert) && decide (before ≠ .alert)

/-- A move into RINGBACK (R37). -/
def newRingback (before after : SeqState) : Bool := decide (after = .ringback) && decide (before ≠ .ringback)

/-- The POINT record of a change (R27), from the point x as the change leaves it and the sequence state before. -/
def pointRecord (p : Fin 256) (x : Point) (before : SeqState) (c : Change) : Record :=
  Record.stamped
    { kind := .point, high := x.settings.high,
      flags := { approx := c.approx, afterHold := c.afterHold, initial := c.initial, shelved := x.shelved },
      subject := byte p.val, x0 := byte (bit c.abnormal), x1 := byte before.code, x2 := byte x.seq.code,
      x3 := byte x.settings.zone.val, x4 := byte (bit x.firstMark) } c.stamp

/-- The POINT record is offered unless the filter mask removes it: only a return to normal can be removed (R27,
R141). -/
def offerPoint (p : Fin 256) (x : Point) (before : SeqState) (c : Change) (s : State) : State :=
  if c.abnormal then offerInside (pointRecord p x before c) s
  else offerFiltered .pointNormal (pointRecord p x before c) s

/-- The zone's flags after a move of one of its points: a new alert clears the silenced flag, a move into RINGBACK the
ringback-silenced flag (R37). -/
def Zone.afterMove (x : Zone) (before after : SeqState) : Zone :=
  { x with silenced := x.silenced && !newAlert before after, rbSilenced := x.rbSilenced && !newRingback before after }

/-- The Sequence Unit takes an accepted change whole, in R26's order. -/
def takeChange (p : Fin 256) (c : Change) (s : State) : State :=
  let x := nth s.points p
  let y := { x with seq := x.afterChange c }
  let s1 := State.showPoint p { s with points := upd s.points p y }
  let s2 := offerPoint p y x.seq c s1
  let s3 := match newAlert x.seq y.seq, y.settings.group with
    | true, some g => alertReport g p c.rawTime s2
    | _, _ => s2
  putZone y.settings.zone ((nth s3.zones y.settings.zone).afterMove x.seq y.seq) s3

/-- A point is put to QUIET without an accepted change (R28): its mirror entry is written, and the horn of its zone is
worked out again. -/
def quieten (p : Fin 256) (s : State) : State :=
  let x := nth s.points p
  rejudgeZone x.settings.zone
    (State.showPoint p { s with points := upd s.points p { x with seq := .quiet } })

/-! ## Operator actions (section 2.3) -/

/-- The three actions. -/
inductive Action where
  | acknowledge | silence | reset
  deriving DecidableEq, Repr

/-- The action codes of an ACTION record (section 11.7). -/
def Action.code : Action → Nat
  | .acknowledge => 1 | .silence => 2 | .reset => 3

/-- What an action is applied to: a zone mask, or for an acknowledge one point. -/
inductive Target where
  | zones (mask : Byte)
  | point (p : Fin 256)
  deriving DecidableEq, Repr

/-- The move of an acknowledge (R29), of a reset (R30), of a silence (none). -/
def Action.move (a : Action) (q : SeqState) (ringback : Bool) : SeqState :=
  match a, q with
  | .acknowledge, .alert => .standing
  | .acknowledge, .alertCleared => if ringback then .ringback else .quiet
  | .reset, .ringback => .quiet
  | _, q => q

/-- Whether an action reaches a point (R31): an enabled point whose zone is in the mask, or the point named. -/
def Target.reaches (t : Target) (p : Fin 256) (x : Point) : Bool :=
  match t with
  | .zones m => x.settings.enabled && m.getLsbD x.settings.zone.val
  | .point q => decide (p = q)

/-- Point p after an action: its sequence state, and its mirror entry when the state moved (R31 step 1); a move into
RINGBACK clears its zone's ringback-silenced flag (R29). -/
def actPoint (a : Action) (t : Target) (s : State) (p : Fin 256) : State :=
  let x := nth s.points p
  let q := a.move x.seq x.settings.ringback
  if t.reaches p x = true ∧ q ≠ x.seq then
    let s1 := State.showPoint p { s with points := upd s.points p { x with seq := q } }
    let z := nth s1.zones x.settings.zone
    { s1 with zones := upd s1.zones x.settings.zone (z.afterMove x.seq q) }
  else s

/-- How many points an action moves (R32). -/
def moved (a : Action) (t : Target) (s : State) : Nat :=
  (List.finRange 256).countP fun p =>
    t.reaches p (nth s.points p) && decide (a.move (nth s.points p).seq (nth s.points p).settings.ringback ≠ (nth s.points p).seq)

/-- A silence sets both silence flags of every zone in its mask (R37). -/
def silenceZone (a : Action) (t : Target) (z : Fin 8) (x : Zone) : Zone :=
  match a, t with
  | .silence, .zones m => if m.getLsbD z.val then { x with silenced := true, rbSilenced := true } else x
  | _, _ => x

/-- The zone flags and the horn of zone z after the moves of an action (R31 steps 2 and 3); `old` is the zone before
the action, so that the entry is written when anything of it has changed (R40). -/
def actZone (a : Action) (t : Target) (old : Vector Zone 8) (s : State) (z : Fin 8) : State :=
  let y := rejudged s z (silenceZone a t z (nth s.zones z))
  let s1 := { s with zones := upd s.zones z y }
  if y = nth old z then s1 else State.showZone z s1

/-- The ACTION record (R32). -/
def actionRecord (a : Action) (t : Target) (origin : Nat) (n : Nat) (st : Stamp) : Record :=
  Record.stamped
    { kind := .action, high := false,
      subject := byte (match t with | .zones _ => 0 | .point p => p.val),
      x0 := byte a.code, x1 := byte origin,
      x2 := byte (match t with | .zones _ => 0 | .point _ => 1),
      x3 := (match t with | .zones m => m | .point _ => 0), x4 := byte (min 255 n) } st

/-- The Sequence Unit applies an action whole (R31); origin 0 to 3 is PANEL k, 4 is STATION. -/
def applyAction (a : Action) (t : Target) (origin : Nat) (s : State) : State :=
  let n := moved a t s
  let s1 := (List.finRange 256).foldl (actPoint a t) s
  let s2 := (List.finRange 8).foldl (actZone a t s.zones) s1
  let s3 := offerFiltered .action (actionRecord a t origin n s.stamp) s2
  if a = .reset then (List.finRange 16).foldl rearmReset s3 else s3

/-! ## Lamp codes (R41) -/

/-- The panel that shows a window (section 4). -/
def windowPanel (w : Fin 256) : Fin 4 := ⟨w.val / 64, by omega⟩

/-- The enabled point that names a window (R41); no two do (R19). -/
def State.namer (s : State) (w : Fin 256) : Option (Fin 256) :=
  (List.finRange 256).find? fun p =>
    (nth s.points p).settings.enabled && (nth s.points p).settings.hasWindow
      && decide ((nth s.points p).settings.window = w)

/-- The lamp code of a window (R41). -/
def State.lamp (s : State) (w : Fin 256) : Nat :=
  if s.testing (windowPanel w) then 6
  else match s.namer w with
    | none => 0
    | some p => lampCode (nth s.points p).seq (nth s.points p).firstMark

/-! ## Lamp tests (section 2.6) -/

/-- A panel's test ends replaced; every start and every end of its test writes the lamp-test flag (R45). -/
def putPanel (k : Fin 4) (x : Panel) (s : State) : State :=
  let s1 := { s with panels := upd s.panels k x }
  if s1.testing k = s.testing k then s1 else s1.showTest k

/-- A TEST press: the button test end is 30,000 ms on (R43), counted from the judgement of the answer that brings the
press (log entry 28). -/
def testPress (k : Fin 4) (s : State) : State :=
  putPanel k { nth s.panels k with buttonEnd := some (s.now + 30000) } s

/-- A TEST release clears the button test end (R43). -/
def testRelease (k : Fin 4) (s : State) : State := putPanel k { nth s.panels k with buttonEnd := none } s

/-- BUTTON_TEST_END: when the button test end has come, it clears (R43). -/
def execButtonTestEnd (k : Fin 4) (s : State) : Host.Outcome State Fault Refusal :=
  .next (if dueAt (nth s.panels k).buttonEnd s.now then putPanel k { nth s.panels k with buttonEnd := none } s else s)

/-- ORDER_TEST_END: when the order test end has come, it clears (R45). -/
def execOrderTestEnd (k : Fin 4) (s : State) : Host.Outcome State Fault Refusal :=
  .next (if dueAt (nth s.panels k).orderEnd s.now then putPanel k { nth s.panels k with orderEnd := none } s else s)

/-- RINGBACK_TONE_CYCLE: a horn in RINGBACK_TONE whose period has ended toggles its line; an active period lasts 500
ms and an inactive one 1,500 ms (R39). -/
def execRingbackToneCycle (z : Fin 8) (s : State) : Host.Outcome State Fault Refusal :=
  let x := nth s.zones z
  .next (match x.toggle with
    | none => s
    | some d =>
      if x.horn = .ringbackTone ∧ d ≤ s.now then
        let y := { x with line := !x.line, toggle := some (d + if x.line then 1500 else 500) }
        { s with zones := upd s.zones z y }
      else s)

end Sys2Proof.Machine
end

