-- ==== Sys2Proof/Machine/PointFilter.lean ====
section
/-! DEFINITION. The Point Filter (chapter 1): raw transitions, persistence, the chatter limiter, stale points, and the
taking of condition reports. -/

namespace Sys2Proof.Machine

/-- The state with a point replaced. -/
def putPoint (p : Fin 256) (x : Point) (s : State) : State := { s with points := upd s.points p x }

/-- The chatter class of a point. -/
def State.classOf (s : State) (x : Point) : ChatterClass := nth s.classes x.settings.cls

/-- A CHATTER record (R10, R12): word 1 for hold, 2 for release. -/
def chatterRecord (p : Fin 256) (x : Point) (release : Bool) (t : Stamp) : Record :=
  Record.stamped
    { kind := .chatter, high := false, subject := byte p.val, x0 := byte (if release then 2 else 1),
      x1 := byte x.bucket, x2 := byte x.settings.cls.val } t

/-! ## Acceptance (R15) -/

/-- A change is accepted: the accepted state takes its target, the pending change clears, the mirror is written (R4),
and the change is handed to the Sequence Unit (R15). -/
def accept (p : Fin 256) (c : Change) (s : State) : State :=
  takeChange p c
    (State.showPoint p (putPoint p { nth s.points p with accepted := c.abnormal, waiting := none } s))

/-- The delay of a change to a target, in ms (section 1.6). -/
def Point.delay (x : Point) (target : Bool) : Nat :=
  10 * (if target then x.settings.alarmDelay.toNat else x.settings.clearDelay.toNat)

/-- A pending change towards the raw state starts (R13): it is accepted at once when its deadline is not after the
present run time. -/
def startChange (p : Fin 256) (rawTime : Nat) (stamp : Stamp) (approx : Bool) (s : State) : State :=
  let x := nth s.points p
  let d := rawTime + x.delay x.raw
  if d ≤ s.now then accept p { abnormal := x.raw, rawTime := rawTime, stamp := stamp, approx := approx } s
  else
    let c : PendingChange := { target := x.raw, deadline := d, rawTime := rawTime, stamp := stamp, approx := approx }
    putPoint p { x with waiting := some c } s

/-! ## Raw transitions (R6, R9, R10) -/

/-- A point after the time ordering of R6: a raw run time earlier than its last raw transition time is raised to it,
and the stamp moves forward by the same number of milliseconds. -/
def Point.ordered (x : Point) (rawTime : Int) (stamp : Stamp) (approx : Bool) : Point :=
  if rawTime < x.lastTime then
    { x with lastStamp := stamp.forward (x.lastTime - rawTime).toNat, lastApprox := approx }
  else { x with lastTime := rawTime.toNat, lastStamp := stamp, lastApprox := approx }

/-- A raw transition of an enabled point, taken whole in R9's order: the point x has its new contact state. -/
def transition (p : Fin 256) (x : Point) (rawTime : Int) (stamp : Stamp) (approx : Bool) (s : State) : State :=
  let y := x.ordered rawTime stamp approx
  let k := s.classOf y
  let level := min 255 (y.bucket + k.weight)
  let z := { y with bucket := level }
  if z.held then putPoint p z s
  else if 0 < k.weight ∧ k.suppress ≤ level then
    let h := { z with held := true, waiting := none }
    offerFiltered .chatter (chatterRecord p h false s.stamp) (State.showPoint p (putPoint p h s))
  else if z.raw ≠ z.accepted then startChange p z.lastTime z.lastStamp approx (putPoint p z s)
  else putPoint p { z with waiting := none } s

/-- A contact report (R1, R6, R9): a disabled point records the contact state and nothing else; a report that leaves
the raw state as it is updates the contact state alone; otherwise it is a raw transition. -/
def contactReport (p : Fin 256) (c : Contact) (rawTime : Int) (stamp : Stamp) (approx : Bool) (s : State) : State :=
  let x := nth s.points p
  let y := { x with contact := c }
  if x.settings.enabled = false ∨ y.raw = x.raw then putPoint p y s
  else transition p y rawTime stamp approx s

/-! ## Condition reports (R2, R7) -/

/-- The Point Filter takes a condition report. -/
def takeReport (r : Report) (s : State) : State :=
  contactReport r.point (if r.present then .present else .absent) r.run r.stamp false s

/-- The reports that waited are taken, first in first out, at most n of them; each may leave further ones waiting. -/
def takeWaiting : Nat → State → State
  | 0, s => s
  | n + 1, s =>
    match s.due with
    | [] => s
    | r :: rest => takeWaiting n (takeReport r { s with due := rest })

/-- The end of an event of the alarm side: the reports that its own records led to are taken.  Taking one can lead to at
most one opening attempt and two first losses, so `length + 8` is enough (log entry 6). -/
def endAlarm (s : State) : State := takeWaiting (s.due.length + 8) s

/-- A condition report that finds the Point Filter free: it is taken at once, as an event of the alarm side. -/
def reportNow (r : Report) (s : State) : State := endAlarm (takeReport r s)

/-- A record offered by a block outside the alarm side (R142). -/
def offer (r : Record) (s : State) : State := offerWith reportNow r s

/-- A record offered by a block outside the alarm side, unless the filter mask names it (R141). -/
def offerUnless (f : Filterable) (r : Record) (s : State) : State := if s.filters f then s else offer r s

/-- A contact report from outside the alarm side, taken as an event of it. -/
def takeContact (p : Fin 256) (c : Contact) (rawTime : Int) (stamp : Stamp) (approx : Bool) (s : State) : State :=
  endAlarm (contactReport p c rawTime stamp approx s)

/-- An owning block reports a change of a condition, detected as it takes the present event (R2, R7). -/
def reportCondition (p : Fin 256) (present : Bool) (s : State) : State :=
  reportNow { point := p, present := present, run := s.now, stamp := s.stamp } s

/-! ## Release from a hold (R12) -/

/-- A HELD point is released: HELD clears, the CHATTER record is made, and a raw state that differs from the accepted
state is accepted at once with the AFTER_HOLD flag and the last raw transition's time, stamp and APPROXIMATE flag. -/
def releaseHold (p : Fin 256) (s : State) : State :=
  let x := { nth s.points p with held := false }
  let s1 := offerFiltered .chatter (chatterRecord p x true s.stamp) (State.showPoint p (putPoint p x s))
  if x.raw ≠ x.accepted then
    accept p { abnormal := x.raw, rawTime := x.lastTime, stamp := x.lastStamp, approx := x.lastApprox,
               afterHold := true } s1
  else s1

/-- A point's bucket after a leak step (R11). -/
def drain (s : State) (x : Point) : Point := { x with bucket := x.bucket - (s.classOf x).leak }

/-- The release test of a leak step (R11). -/
def leakRelease (s : State) (p : Fin 256) : State :=
  let x := nth s.points p
  if x.held = true ∧ x.bucket ≤ (s.classOf x).release then releaseHold p s else s

/-- A leak step whole (R11). -/
def leak (s : State) : State :=
  endAlarm ((List.finRange 256).foldl leakRelease { s with points := tab 256 fun p => drain s (nth s.points p) })

/-- LEAK_STEP: it falls at every whole multiple of 100 ms of run time, once (R11). -/
def execLeakStep (s : State) : Host.Outcome State Fault Refusal :=
  .next (if s.now % 100 = 0 ∧ s.sched.leakFrom ≤ s.now then
      leak { s with sched := { s.sched with leakFrom := s.now + 1 } }
    else s)

/-- The change that a pending change's acceptance hands on (R15). -/
def PendingChange.change (c : PendingChange) : Change :=
  { abnormal := c.target, rawTime := c.rawTime, stamp := c.stamp, approx := c.approx }

/-- PENDING_CHANGE_DEADLINE: when a pending change's deadline has come, the change is accepted (R15). -/
def execPendingChangeDeadline (p : Fin 256) (s : State) : Host.Outcome State Fault Refusal :=
  .next (match (nth s.points p).waiting with
    | some c => if c.deadline ≤ s.now then endAlarm (accept p c.change s) else s
    | none => s)

/-- SETTLE_DEADLINE: when a DECIDING group's settle deadline has come, the group latches (R51). -/
def execSettleDeadline (g : Fin 16) (s : State) : Host.Outcome State Fault Refusal :=
  let x := nth s.groups g
  .next (if x.state = .deciding ∧ dueAt x.deadline s.now = true then endAlarm (latch g s) else s)

/-! ## Stale points and recovery (R16) -/

/-- Point 48k + j, input j of panel k (R1). -/
def fieldPoint (k : Fin 4) (j : Fin 48) : Fin 256 := ⟨48 * k.val + j.val, by omega⟩

/-- A point whose link has left UP becomes stale and drops its pending change (R16). -/
def makeStale (k : Fin 4) (s : State) (j : Fin 48) : State :=
  let p := fieldPoint k j
  State.showPoint p (putPoint p { nth s.points p with stale := true, waiting := none } s)

/-- A point's stale flag clears (R16). -/
def clearStale (k : Fin 4) (s : State) (j : Fin 48) : State :=
  let p := fieldPoint k j
  State.showPoint p (putPoint p { nth s.points p with stale := false } s)

/-- After the recovery comparison: an enabled point that is not HELD, whose raw state differs from its accepted state
and that has no pending change, starts one at the receipt of the answer that brought the link UP (R16). -/
def recoverPoint (k : Fin 4) (r : Receipt) (s : State) (j : Fin 48) : State :=
  let p := fieldPoint k j
  let x := nth s.points p
  if x.settings.enabled = true ∧ x.held = false ∧ x.raw ≠ x.accepted ∧ x.waiting = none then
    startChange p r.run r.stamp true s
  else s

/-- The Point Filter is told that the recovery comparison has been taken (R16). -/
def recovered (k : Fin 4) (r : Receipt) (s : State) : State :=
  endAlarm ((List.finRange 48).foldl (recoverPoint k r) ((List.finRange 48).foldl (clearStale k) s))

/-- The points of panel k become stale (R16). -/
def panelStale (k : Fin 4) (s : State) : State := (List.finRange 48).foldl (makeStale k) s

end Sys2Proof.Machine
end

