-- ==== Sys2Proof/Machine/Results.lean ====
section
/-! DEFINITION. The DONE write (R169) and the orders in flight (R170). -/

namespace Sys2Proof.Machine

/-- The 24 result data bytes: those not named are 0 (R169, R181). -/
def resultData (bs : List Byte) : List Byte := (bs ++ List.replicate 24 0).take 24

/-- Result data that begin at byte d of the data area. -/
def dataAt (d : Nat) (bs : List Byte) : List Byte := List.replicate d 0 ++ bs

/-- An output mask as a 32-bit field. -/
def maskBytes (n : Nat) : List Byte := bytes4 n

/-- An order finishes with a DONE write (R169): result data, result code, DONE, the orders-finished count into the
summary block, ALERT. -/
def finish (n : Fin 16) (r : Result) (data : List Byte) (s : State) : State :=
  let s1 := (s.putBytes (slotBase n + 8) (resultData data)).putWords
    [(slotBase n + 6, word r.code), (slotBase n, 3)]
  let s2 := { s1 with engine := { s1.engine with ordersFinished := s1.engine.ordersFinished + 1 } }
  (s2.putWord 20 s2.engine.ordersFinished).raiseAlert

/-- Whether an image job is in a slot. -/
def jobIn (j : Option ImageJob) (n : Fin 16) : Bool :=
  match j with
  | none => false
  | some x => decide (x.slot = n)

/-- Whether link k's RESTART LINK is in a slot. -/
def restartIn (l : Link) (n : Fin 16) : Bool :=
  match l.restart with
  | none => false
  | some x => decide (x.1 = n)

/-- Whether slot n holds an order in flight (R166, R170). -/
def State.inFlight (s : State) (n : Fin 16) : Bool :=
  jobIn s.engine.loadPoints n || jobIn s.engine.loadMatrix n
    || (List.finRange 4).any fun k => restartIn (nth s.links k) n

/-- How an order's owner leaves it at its take: finished, or in flight. -/
inductive Taken where
  | done (r : Result) (data : List Byte)
  | flying
  deriving DecidableEq, Repr

end Sys2Proof.Machine
end

