-- ==== Sys2Proof/Machine/Links.lean ====
section
/-! DEFINITION. The Link Controllers (chapter 4): scans, answers, link states, buttons and the restart deadline. -/

namespace Sys2Proof.Machine

/-- The state with a link replaced. -/
def putLink (k : Fin 4) (x : Link) (s : State) : State := { s with links := upd s.links k x }

/-- Point 248 + k, link k not UP (R2). -/
def linkPoint (k : Fin 4) : Fin 256 := ⟨248 + k.val, by omega⟩

/-! ## LINK records (R78) -/

/-- Causes of a LINK record: their codes (section 11.7). -/
inductive LinkCause where
  | none | validAnswers | misses | answer | enabled | disabled | restartOrder
  deriving DecidableEq, Repr

def LinkCause.code : LinkCause → Nat
  | .none => 0 | .validAnswers => 1 | .misses => 2 | .answer => 3 | .enabled => 4 | .disabled => 5
  | .restartOrder => 6

/-- A STATE record: the states before and after, the cause, the last error kind and the entries-lost count as they
stand, and the miss count at the event before any reset of it by the event. -/
def linkRecord (k : Fin 4) (before : LinkState) (x : Link) (c : LinkCause) (miss : Nat) (t : Stamp) : Record :=
  Record.stamped
    { kind := .link, high := false, subject := byte k.val,
      x0 := byte (2 * before.code + 8 * x.state.code + 32 * c.code), x1 := byte x.lastError.code, x2 := byte miss,
      x3 := byte x.entriesLost } t

/-- An ENTRIES_LOST record: the states both as they stand, no cause, miss count 0. -/
def entriesLostRecord (k : Fin 4) (x : Link) (t : Stamp) : Record :=
  Record.stamped
    { kind := .link, high := false, subject := byte k.val, x0 := byte (1 + 2 * x.state.code + 8 * x.state.code),
      x1 := byte x.lastError.code, x2 := 0, x3 := byte x.entriesLost } t

/-- A LINK record is offered unless the filter mask names LINK. -/
def offerLink (r : Record) (s : State) : State := offerUnless .link r s

/-- A change of link k's state to the link x, with its STATE record. -/
def changeLink (k : Fin 4) (x : Link) (c : LinkCause) (s : State) : State :=
  let old := nth s.links k
  offerLink (linkRecord k old.state x c old.miss s.stamp) (putLink k x s)

/-! ## Scans (R60, R61) -/

/-- The frame link k sends now: the lamp codes of windows 64k to 64k + 63 as they stand. -/
def State.scanFrame (s : State) (k : Fin 4) : List Byte :=
  let l := nth s.links k
  scanBytes k l.scanSeq l.restartFlag
    ((List.finRange 64).map fun w => s.lamp ⟨64 * k.val + w.val, by omega⟩)

/-- From the start of a scan to its answer limit, in whole milliseconds of run time: the frame's 0.72 ms (R61) and the
window's 2 ms (R62, R128), which the worked sequence of section 12.1 gives as 3 ms. -/
def answerMs : Nat := 3

/-- SCAN_FRAME: an enabled link starts a scan at every whole multiple of 5 ms plus k ms, once (R60).  The frame is
sent, the scan sequence number rises, 255 followed by 0 (R61), and the answer window of the scan is to come, up to its
answer limit (R62). -/
def execScanFrame (k : Fin 4) (s : State) : Host.Outcome State Fault Refusal :=
  let l := nth s.links k
  .next (if l.state ≠ .disabled ∧ s.now % 5 = k.val ∧ l.scanFrom ≤ s.now then
      State.showLink k (putLink k { l with
        frame := s.scanFrame k, carried := l.scanSeq, scanSeq := l.scanSeq + 1, awaiting := true,
        limit := s.now + answerMs, rx := [], receipt := none, scanFrom := s.now + 1 } s)
    else s)

/-! ## Answers (R62 to R65) -/

/-- ANSWER_RECEIPT: the bytes of the window up to the check word's last byte are gathered, and when they complete an
answer the receipt time is noted (R62).  Bytes that reach no open window, or come at its answer limit or later, are
discarded. -/
def execAnswerReceipt (k : Fin 4) (bytes : List RxByte) (s : State) : Host.Outcome State Fault Refusal :=
  let l := nth s.links k
  .next (if l.state ≠ .disabled ∧ l.awaiting = true ∧ s.now < l.limit then
      let rx := l.rx ++ bytes
      let r := if l.receipt = none ∧ answerComplete (rx.map (·.value)) = true then some s.moment else l.receipt
      putLink k { l with rx := rx, receipt := r } s
    else s)

/-- The buttons of a link that leaves UP are released, and a pressed TEST hands on its release (R73). -/
def releaseButtons (k : Fin 4) (s : State) : State :=
  let l := nth s.links k
  let s1 := putLink k { l with buttons := {} } s
  if l.buttons.test then testRelease k s1 else s1

/-- Steps 3 to 5 of R67, for a link that has left UP: its points stale, point 248 + k present, its buttons released. -/
def leaveUp (k : Fin 4) (s : State) : State :=
  releaseButtons k (reportCondition (linkPoint k) true (panelStale k s))

/-- A miss (R64), and the loss of an UP link at its third in a row (R67). -/
def missScan (k : Fin 4) (e : LinkError) (s : State) : State :=
  let l := nth s.links k
  let m := { l with lastError := e, miss := min 255 (l.miss + 1) }
  State.showLink k (match l.state with
    | .up =>
      if 3 ≤ m.miss then leaveUp k (changeLink k { m with state := .lost, validRun := 0 } .misses (putLink k m s))
      else putLink k m s
    | .starting => putLink k { m with validRun := 0 } s
    | .lost => putLink k { m with validRun := 0 } s
    | .disabled => s)

/-- An operator action of panel k, applied to the zone mask of link k's settings as it stands (R33, R74). -/
def panelAction (k : Fin 4) (a : Action) (s : State) : State :=
  endAlarm (applyAction a (.zones (nth s.links k).zones) k.val s)

/-- A step taken only when its condition holds. -/
def onlyIf (b : Bool) (f : State → State) (s : State) : State := if b then f s else s

/-- The edges between the link's button levels and the answer's (R72): presses in the order ACK, SILENCE, RESET, TEST,
and then a release of TEST. -/
def takeButtons (k : Fin 4) (new : Buttons) (s : State) : State :=
  let l := nth s.links k
  let old := l.buttons
  let s1 := putLink k { l with buttons := new } s
  let s2 := onlyIf (new.ack && !old.ack) (panelAction k .acknowledge) s1
  let s3 := onlyIf (new.silence && !old.silence) (panelAction k .silence) s2
  let s4 := onlyIf (new.reset && !old.reset) (panelAction k .reset) s3
  let s5 := onlyIf (new.test && !old.test) (testPress k) s4
  onlyIf (!new.test && old.test) (testRelease k) s5

/-- The contact state an answer reports. -/
def contactOf (closed : Bool) : Contact := if closed then .closed else .opened

/-- One change entry of an answer (R5, R70): raw time is receipt less age less latency; an input index of 48 or above
is skipped. -/
def takeEntry (k : Fin 4) (r : Receipt) (latency : Nat) (s : State) (e : ChangeEntry) : State :=
  if h : e.input < 48 then
    takeContact (fieldPoint k ⟨e.input, h⟩) (contactOf e.closed) ((r.run : Int) - e.age - latency)
      (r.stamp.back (e.age + latency)) false s
  else s

/-- One input of a comparison (R8): a reported contact state that differs from the held one is handed on as a derived
change, at the receipt time and APPROXIMATE. -/
def compareInput (k : Fin 4) (r : Receipt) (inputs : Vector Bool 48) (s : State) (j : Fin 48) : State :=
  let p := fieldPoint k j
  let c := contactOf (nth inputs j)
  if (nth s.points p).contact ≠ c then takeContact p c r.run r.stamp true s else s

/-- The comparison of an answer's 48 inputs with the held contact states, in ascending input order (R66, R71). -/
def compareInputs (k : Fin 4) (r : Receipt) (inputs : Vector Bool 48) (s : State) : State :=
  (List.finRange 48).foldl (compareInput k r inputs) s

/-- The overflow flag of an answer of an UP link: the entries-lost count rises, saturating at 255, with its LINK record
(R70). -/
def countEntriesLost (k : Fin 4) (s : State) : State :=
  let l := nth s.links k
  let m := { l with entriesLost := min 255 (l.entriesLost + 1) }
  offerLink (entriesLostRecord k m s.stamp) (putLink k m s)

/-- A valid answer of an UP link: entries, overflow, input vector, buttons (R65, R70 to R72). -/
def takeAnswer (k : Fin 4) (a : Answer) (r : Receipt) (s : State) : State :=
  let s1 := a.entries.foldl (takeEntry k r (nth s.links k).latency) s
  let s2 := onlyIf a.overflow (countEntriesLost k) s1
  takeButtons k a.buttons (compareInputs k r a.inputs s2)

/-- The result data of a RESTART LINK that finishes: link state, miss count, last error kind (R77). -/
def restartData (l : Link) : List Byte := [byte l.state.code, byte l.miss, byte l.lastError.code]

/-- A RESTART LINK in flight on link k finishes (R77). -/
def finishRestart (k : Fin 4) (r : Result) (s : State) : State :=
  let l := nth s.links k
  match l.restart with
  | none => s
  | some x => finish x.1 r (restartData l) (putLink k { l with restart := none } s)

/-- The valid answer that brings a STARTING link UP (R66), in its seven steps. -/
def linkUp (k : Fin 4) (a : Answer) (r : Receipt) (s : State) : State :=
  let l := nth s.links k
  let s2 := changeLink k { l with state := .up, validRun := 0, miss := 0 } .validAnswers s
  let s4 := recovered k r (compareInputs k r a.inputs s2)
  let s5 := reportNow { point := linkPoint k, present := false, run := r.run, stamp := r.stamp } s4
  let s6 := putLink k { nth s5.links k with buttons := a.buttons } s5
  finishRestart k .doneOk s6

/-- A valid answer (R65): the miss count becomes 0, and the answer acts by the link state. -/
def validAnswer (k : Fin 4) (a : Answer) (r : Receipt) (s : State) : State :=
  let l := nth s.links k
  State.showLink k (match l.state with
    | .starting =>
      if 3 ≤ l.validRun + 1 then linkUp k a r s
      else putLink k { l with miss := 0, validRun := l.validRun + 1 } s
    | .up => takeAnswer k a r (putLink k { l with miss := 0 } s)
    | .lost => changeLink k { l with state := .starting, validRun := 1, miss := 0 } .answer s
    | .disabled => s)

/-- ANSWER_LIMIT: when the answer limit of the scan last sent has come, its answer window closes and the bytes gathered
are judged (R62, R63).  A valid answer whose receipt
was not noted before the limit has the limit as its receipt (log entry 7).  A DISABLED link judges no answer. -/
def execAnswerLimit (k : Fin 4) (rest : List RxByte) (s : State) : Host.Outcome State Fault Refusal :=
  let l := nth s.links k
  .next (if l.state ≠ .disabled ∧ l.awaiting = true ∧ l.limit ≤ s.now then
      let rx := l.rx ++ rest
      let s1 := putLink k { l with awaiting := false, rx := [], receipt := none } s
      match answerFault k l.carried rx with
      | some e => missScan k e s1
      | none => validAnswer k (readAnswer (rx.map (·.value))) (l.receipt.getD s.moment) s1
    else s)

/-- RESTART_LINK_DEADLINE: the deadline of a RESTART LINK in flight has come with the link not UP (R77). -/
def execRestartLinkDeadline (k : Fin 4) (s : State) : Host.Outcome State Fault Refusal :=
  let l := nth s.links k
  .next (match l.restart with
    | none => s
    | some x => if x.2 ≤ s.now then State.showLink k (finishRestart k .linkNoAnswer s) else s)

end Sys2Proof.Machine
end

