-- ==== Sys2Proof/Machine/PointOrders.lean ====
section
/-! DEFINITION. The orders of the alarm side: LOAD POINTS, SET CHATTER, SHELVE POINT, UNSHELVE POINT, READ POINT
(chapter 1), ACKNOWLEDGE, SILENCE, RESET ALARMS, LAMP TEST (chapter 2).  An order takes its 24 parameter bytes and gives
the state it leaves and how it leaves its slot. -/

namespace Sys2Proof.Machine

/-- An order refused or finished without a change. -/
def reply (r : Result) (s : State) : State × Taken := (s, .done r [])

/-! ## SET CHATTER (R22) -/

/-- Chatter class c as the parameters give it. -/
def classAt (d : List Byte) (c : Nat) : ChatterClass :=
  { weight := numAt d (4 * c), leak := numAt d (4 * c + 1), suppress := numAt d (4 * c + 2), release := numAt d (4 * c + 3) }

/-- The range check of a class: W 0–63, K 1–63, S 1–255, E less than S (R22). -/
def ChatterClass.fits (x : ChatterClass) : Bool :=
  decide (x.weight ≤ 63) && decide (1 ≤ x.leak) && decide (x.leak ≤ 63) && decide (1 ≤ x.suppress)
    && decide (x.release < x.suppress)

/-- A HELD point whose class has weight 0 is released (R21, R22). -/
def releaseWeightless (s : State) (p : Fin 256) : State :=
  let x := nth s.points p
  if x.held = true ∧ (s.classOf x).weight = 0 then releaseHold p s else s

/-- SET CHATTER (R22): the releases, then the SETTINGS record (log entry 14). -/
def orderSetChatter (d : List Byte) (s : State) : State × Taken :=
  match (List.range 4).find? fun c => !(classAt d c).fits with
  | some c => (s, .done .refusedRange [byte c])
  | none =>
    let s1 := (List.finRange 256).foldl releaseWeightless { s with classes := tab 4 fun c => classAt d c.val }
    (endAlarm (offerInside (settingsRecord .setChatter s.stamp 0 0 0 0 0) s1), .done .doneOk [])

/-! ## SHELVE POINT and UNSHELVE POINT (R17, R18) -/

/-- The point a point number word names, none above 255 (R180). -/
def pointOf (n : Nat) : Option (Fin 256) := if h : n < 256 then some ⟨n, h⟩ else none

/-- A point is shelved (R17): flag, mirror, SETTINGS record, QUIET, and its first mark cleared. -/
def shelve (p : Fin 256) (s : State) : State :=
  let s1 := State.showPoint p (putPoint p { nth s.points p with shelved := true } s)
  endAlarm (clearMark p (quieten p (offerInside (settingsRecord .shelvePoint s.stamp p.val 0 0 0 0) s1)))

/-- SHELVE POINT (R17). -/
def orderShelve (d : List Byte) (s : State) : State × Taken :=
  match pointOf (wordAt d 0) with
  | none => reply .refusedRange s
  | some p =>
    if (nth s.points p).settings.enabled = false then reply .refusedState s
    else if (nth s.points p).shelved then reply .doneOk s
    else (shelve p s, .done .doneOk [])

/-- A point is unshelved (R18): flag, pending change dropped, accepted takes raw, SETTINGS record, and an INITIAL change
when the raw state is abnormal. -/
def unshelve (p : Fin 256) (s : State) : State :=
  let x := nth s.points p
  let s1 := State.showPoint p (putPoint p { x with shelved := false, waiting := none, accepted := x.raw } s)
  let s2 := offerInside (settingsRecord .unshelvePoint s.stamp p.val 0 0 0 0) s1
  endAlarm (if x.raw then takeChange p { abnormal := true, rawTime := s.now, stamp := s.stamp, initial := true } s2
    else s2)

/-- UNSHELVE POINT (R18). -/
def orderUnshelve (d : List Byte) (s : State) : State × Taken :=
  match pointOf (wordAt d 0) with
  | none => reply .refusedRange s
  | some p => if (nth s.points p).shelved then (unshelve p s, .done .doneOk []) else reply .doneOk s

/-! ## READ POINT (R23) -/

/-- READ POINT's result data (section 11.5). -/
def pointData (x : Point) (now : Nat) : List Byte :=
  [byte x.bucket, byte x.settings.cls.val,
   byte (bit x.held + 2 * bit x.stale + 4 * bit x.shelved + 8 * bit x.settings.enabled + 16 * bit x.raw
     + 32 * bit x.accepted + 64 * bit x.lastApprox),
   byte x.contact.code,
   byte (match x.waiting with | none => 0 | some c => if c.target then 2 else 1), 0]
  ++ bytes2 (match x.waiting with | none => 0 | some c => c.deadline - now)
  ++ bytes6 x.lastTime ++ bytes2 x.lastStamp.day ++ bytes4 x.lastStamp.ms

/-- READ POINT (R23). -/
def orderReadPoint (d : List Byte) (s : State) : State × Taken :=
  match pointOf (wordAt d 0) with
  | none => reply .refusedRange s
  | some p => (s, .done .doneOk (pointData (nth s.points p) s.now))

/-! ## ACKNOWLEDGE, SILENCE, RESET ALARMS (R34 to R36) -/

/-- Origin STATION in an ACTION record (section 11.7). -/
def station : Nat := 4

/-- An action by order; its result data give the number of points moved when `counted` (R34, R36), which the ACTION
record carries saturated at 255. -/
def orderAction (a : Action) (t : Target) (counted : Bool) (s : State) : State × Taken :=
  (endAlarm (applyAction a t station s),
   .done .doneOk (if counted then [byte (min 255 (moved a t s))] else []))

/-- ACKNOWLEDGE (R34). -/
def orderAcknowledge (d : List Byte) (s : State) : State × Taken :=
  if numAt d 0 = 0 then orderAction .acknowledge (.zones (byteAt d 1)) true s
  else if numAt d 0 = 1 then
    match pointOf (wordAt d 2) with
    | none => reply .refusedRange s
    | some p => orderAction .acknowledge (.point p) true s
  else reply .refusedRange s

/-- SILENCE (R35). -/
def orderSilence (d : List Byte) (s : State) : State × Taken := orderAction .silence (.zones (byteAt d 1)) false s

/-- RESET ALARMS (R36). -/
def orderResetAlarms (d : List Byte) (s : State) : State × Taken := orderAction .reset (.zones (byteAt d 1)) true s

/-! ## LAMP TEST (R44) -/

/-- A panel of the mask takes the order test end. -/
def testPanel (mask : Byte) (stop : Nat) (s : State) (k : Fin 4) : State :=
  if mask.getLsbD k.val then putPanel k { nth s.panels k with orderEnd := some stop } s else s

/-- A duration brought into 1–30 s. -/
def clampSeconds (n : Nat) : Nat := if n = 0 then 1 else min 30 n

/-- LAMP TEST (R44); an empty mask finishes DONE_OK (log entry 15). -/
def orderLampTest (d : List Byte) (s : State) : State × Taken :=
  let n := numAt d 1
  if 16 ≤ numAt d 0 then reply .refusedRange s
  else
    ((List.finRange 4).foldl (testPanel (byteAt d 0) (s.now + 1000 * clampSeconds n)) s,
     .done (if clampSeconds n = n ∨ numAt d 0 = 0 then .doneOk else .doneClamped) [])

/-! ## LOAD POINTS (R19 to R21) -/

/-- A long order whose image is to be read: its parameters give the first page and the byte length (section 10.4), and
the first read falls at the first whole millisecond after the take (R171). -/
def newJob (n : Fin 16) (d : List Byte) (now : Nat) : ImageJob :=
  { slot := n, byteLength := wordAt d 2, page := wordAt d 0, nextRead := now + 1 }

/-- LOAD POINTS at its take (R19): refused while another is in flight; otherwise its image is to be read from the next
millisecond on (R171). -/
def orderLoadPoints (n : Fin 16) (d : List Byte) (s : State) : State × Taken :=
  match s.engine.loadPoints with
  | some _ => reply .refusedBusy s
  | none => ({ s with engine := { s.engine with loadPoints := some (newJob n d s.now) } }, .flying)

/-- The settings record an image gives point p, none outside its range. -/
def imageSettings (bs : List Byte) (p : Fin 256) : Option Settings :=
  if wordAt bs 0 ≤ p.val ∧ p.val < wordAt bs 0 + wordAt bs 2 then some (settingsAt bs (8 + 8 * (p.val - wordAt bs 0)))
  else none

/-- The settings of point p as the apply would leave them (R19 check 5). -/
def settingsAfter (bs : List Byte) (s : State) (p : Fin 256) : Settings :=
  (imageSettings bs p).getD (nth s.points p).settings

/-- Whether two settings records are both enabled, with a window, and name the same one. -/
def sharesWindow (x y : Settings) : Bool :=
  x.enabled && y.enabled && x.hasWindow && y.hasWindow && decide (x.window = y.window)

/-- The lowest point that would share a window with another enabled point (R19 check 5). -/
def sharedWindow (bs : List Byte) (s : State) : Option (Fin 256) :=
  let t := tab 256 (settingsAfter bs s)
  (List.finRange 256).find? fun p => (List.finRange 256).any fun q => decide (p ≠ q) && sharesWindow (nth t p) (nth t q)

/-- The five checks of R19, in order: the first that fails gives the result and its data. -/
def checkPoints (bs : List Byte) (s : State) : Option (Result × List Byte) :=
  let first := wordAt bs 0
  let count := wordAt bs 2
  if bs.length ≠ 8 + 8 * count + 2 then some (.refusedLength, [])
  else if wordSum (bs.take (8 + 8 * count)) ≠ wordAt bs (8 + 8 * count) then some (.refusedCheck, [])
  else if count = 0 ∨ 256 < count ∨ 256 < first + count then some (.refusedRange, bytes2 65535)
  else match (List.range count).find? fun j => !recordFits bs (8 + 8 * j) with
    | some j => some (.refusedRange, bytes2 (first + j))
    | none =>
      match sharedWindow bs s with
      | some p => some (.refusedDuplicate, bytes2 p.val)
      | none => none

/-- A change of polarity (R3): abnormal-when means nothing on an internal point. -/
def polarityChanged (p : Fin 256) (old new : Settings) : Bool :=
  decide (p.val < 224) && decide (old.whenOpen ≠ new.whenOpen)

/-- A point that becomes disabled (R20): pending change, bucket, HELD, shelved and accepted state to their rest values,
QUIET, and its first mark cleared. -/
def becomeDisabled (p : Fin 256) (s : State) : State :=
  let x := nth s.points p
  clearMark p (quieten p (putPoint p
    { x with waiting := none, bucket := 0, held := false, shelved := false, accepted := false } s))

/-- A point that becomes enabled (R20): the filter starts afresh at the apply, the accepted state takes the raw state,
and an abnormal one is handed on as an INITIAL change. -/
def becomeEnabled (p : Fin 256) (s : State) : State :=
  let x := nth s.points p
  let y := { x with
    bucket := 0, held := false, shelved := false, waiting := none, lastTime := s.now, lastStamp := s.stamp,
    lastApprox := false, accepted := x.raw }
  let s1 := State.showPoint p (putPoint p y s)
  if x.raw then takeChange p { abnormal := true, rawTime := s.now, stamp := s.stamp, initial := true } s1 else s1

/-- Whether an apply changed a setting that R28 names. -/
def displayChanged (old new : Settings) : Bool :=
  decide (old.window ≠ new.window) || decide (old.hasWindow ≠ new.hasWindow) || decide (old.zone ≠ new.zone)
    || decide (old.lockIn ≠ new.lockIn) || decide (old.ringback ≠ new.ringback)

/-- A point that stays enabled with unchanged polarity (R21): mirror, first mark when its group changed, and release
when its class now has weight 0.  R21 does not order the last two where both apply to a HELD point: DESIGN CHOICE, the
first mark is cleared before the release, so a mark that the release brings at settle window 0 stands (log entry 19). -/
def stayEnabled (p : Fin 256) (old : Settings) (s : State) : State :=
  let new := (nth s.points p).settings
  let s1 := if displayChanged old new then State.showPoint p s else s
  let s2 := if old.group ≠ new.group then clearMark p s1 else s1
  releaseWeightless s2 p

/-- The treatment of one point of the range (R20 step 4, R21; log entry 19); `old` holds the settings before the apply.
A zone change brings the horns of the old and of the new zone up to date (R28).  A point that stays disabled writes no
mirror entry (R20; log entry 27). -/
def treatPoint (old : Vector Settings 256) (s : State) (p : Fin 256) : State :=
  let o := nth old p
  let n := (nth s.points p).settings
  let s1 :=
    if o.enabled = false then (if n.enabled then becomeEnabled p s else s)
    else if n.enabled = false then becomeDisabled p s
    else if polarityChanged p o n then becomeEnabled p (becomeDisabled p s)
    else stayEnabled p o s
  rejudgeZone n.zone (rejudgeZone o.zone s1)

/-- Whether point p lies in the image's range. -/
def inRange (bs : List Byte) (p : Fin 256) : Bool := (imageSettings bs p).isSome

/-- The apply of R20, within one event: settings, SETTINGS record, settle window, points in ascending order, re-arm. -/
def applyPoints (bs : List Byte) (s : State) : State :=
  let old := tab 256 fun p => (nth s.points p).settings
  let s1 := { s with points := tab 256 fun p => { nth s.points p with settings := settingsAfter bs s p } }
  let s2 := offerInside (settingsRecord .loadPoints s.stamp 0 (wordAt bs 0) (wordAt bs 2) (wordAt bs 2 / 256) 0) s1
  let s3 := { s2 with settleWindow := numAt bs 4 }
  let s4 := ((List.finRange 256).filter (inRange bs)).foldl (treatPoint old) s3
  endAlarm ((List.finRange 16).foldl rearmLoad s4)

/-- The completion of a LOAD POINTS whose image has been read (R19): refused with nothing applied, or applied. -/
def completePoints (bs : List Byte) (s : State) : State × Result × List Byte :=
  match checkPoints bs s with
  | some (r, d) => (s, r, d)
  | none => (applyPoints bs s, .doneOk, bytes2 (wordAt bs 0) ++ bytes2 (wordAt bs 2) ++ [byteAt bs 4])

end Sys2Proof.Machine
end

