-- ==== Sys2Proof/Machine/Supervision.lean ====
section
/-! DEFINITION. The Supervision Unit (chapter 7): feedback, the four checks, fault changes and the trip supply. -/

namespace Sys2Proof.Machine

/-! ## The four timers (R117) -/

/-- A timer judged against its condition: it keeps its deadline while the condition holds, starts when it begins to
hold, and is none when it does not (section 7.3). -/
def runTimer (condition : Bool) (timer : Option Nat) (deadline : Nat) : Option Nat :=
  if condition then some (timer.getD deadline) else none

/-- The operate timer's condition, the supply being PRESENT (R117, R118). -/
def Output.operateWatched (x : Output) : Bool := x.energized && decide (x.fault ≠ .failToOperate) && !x.seen

/-- The release timer's condition (R117, R119). -/
def Output.releaseWatched (x : Output) : Bool :=
  !x.energized && decide (x.fault ≠ .failToRelease) && decide (x.feedback = .current)

/-- The open timer's condition (R117, R120). -/
def Output.openWatched (x : Output) : Bool :=
  !x.energized && x.supervised && !x.isolated && decide (x.fault ≠ .circuitOpen) && decide (x.feedback = .opened)

/-- The clear timer's condition (R117). -/
def Output.clearWatched (x : Output) : Bool :=
  (decide (x.fault = .failToRelease) && decide (x.feedback ≠ .current))
    || (decide (x.fault = .circuitOpen) && !x.energized && decide (x.feedback = .continuity))

/-- The four timers of an output judged at run time `now`; none runs unless the supply state is PRESENT (R117). -/
def Output.judge (x : Output) (present : Bool) (now : Nat) : Output :=
  { x with
    operate := runTimer (present && x.operateWatched) x.operate (now + 20)
    release := runTimer (present && x.releaseWatched) x.release (now + 20)
    opening := runTimer (present && x.openWatched) x.opening (now + 500)
    clearing := runTimer (present && x.clearWatched) x.clearing (now + 500) }

/-- Whether the supply state is PRESENT. -/
def State.supplyPresent (s : State) : Bool := decide (s.supply.state = .present)

/-- The state with an output replaced. -/
def putOutput (o : Fin 24) (x : Output) (s : State) : State := { s with outputs := upd s.outputs o x }

/-! ## Fault changes (R121, R122) -/

/-- Causes of a SUPERVISION record (R122). -/
inductive SupCause where
  | operateWindow | releaseWindow | openPersisted | clearedAtRelease | currentGone | continuityRestored | absent10ms
  | returned | settled
  deriving DecidableEq, Repr

/-- Their codes (section 11.7). -/
def SupCause.code : SupCause → Nat
  | .operateWindow => 1 | .releaseWindow => 2 | .openPersisted => 3 | .clearedAtRelease => 4 | .currentGone => 5
  | .continuityRestored => 6 | .absent10ms => 7 | .returned => 8 | .settled => 9

/-- The SUPERVISION record of a fault change (R122). -/
def faultRecord (o : Fin 24) (before : SupFault) (x : Output) (c : SupCause) (t : Stamp) : Record :=
  Record.stamped
    { kind := .supervision, high := true, subject := byte o.val, x0 := 1, x1 := byte before.code,
      x2 := byte x.fault.code, x3 := byte c.code, x4 := byte (x.feedback.code + 4 * x.state.code) } t

/-- Point 224 + o, the trip circuit fault of output o (R2). -/
def faultPoint (o : Fin 24) : Fin 256 := ⟨224 + o.val, by omega⟩

/-- A fault change, in R121's order.  A change of fault ends the clear timer (R117). -/
def changeFault (o : Fin 24) (f : SupFault) (c : SupCause) (s : State) : State :=
  let x := nth s.outputs o
  let y := Output.judge { x with fault := f, clearing := none } s.supplyPresent s.now
  let s1 := offer (faultRecord o x.fault y c s.stamp) (State.showSup o (putOutput o y s))
  if decide (x.fault = .none) = decide (f = .none) then s1
  else reportCondition (faultPoint o) (decide (f ≠ .none)) s1

/-- An event that reaches an output's supervision: FAIL_TO_OPERATE clears when the output is de-energized without
CURRENT (R118), and every timer is judged against the state that results (R117). -/
def supervise (o : Fin 24) (s : State) : State :=
  let x := nth s.outputs o
  if s.supplyPresent = true ∧ x.fault = .failToOperate ∧ x.energized = false ∧ x.feedback ≠ .current then
    changeFault o .none .clearedAtRelease s
  else putOutput o (x.judge s.supplyPresent s.now) s

/-- The start of a watch for CURRENT, at an energize or a resume: a feedback that is CURRENT then is one seen
(R118, R125). -/
def watchCurrent (o : Fin 24) (s : State) : State :=
  let x := nth s.outputs o
  putOutput o { x with seen := decide (x.feedback = .current) } s

/-! ## Samples and deadlines -/

/-- The feedback condition of the two lines (R115). -/
def decodeFeedback (current continuity : Bool) : Feedback :=
  if current then .current else if continuity then .continuity else .opened

/-- One output of a feedback sample (R115). -/
def sampleOutput (current continuity : BitVec 24) (s : State) (o : Fin 24) : State :=
  let x := nth s.outputs o
  let f := decodeFeedback (current.getLsbD o.val) (continuity.getLsbD o.val)
  let s1 := putOutput o { x with feedback := f, seen := x.seen || decide (f = .current) } s
  supervise o (if f = x.feedback then s1 else State.showSup o s1)

/-- FEEDBACK_SAMPLE: every whole millisecond of run time from 1 on, once (R115). -/
def execFeedbackSample (current continuity : BitVec 24) (s : State) : Host.Outcome State Fault Refusal :=
  .next (if s.sched.feedbackFrom ≤ s.now then
      (List.finRange 24).foldl (sampleOutput current continuity)
        { s with sched := { s.sched with feedbackFrom := s.now + 1 } }
    else s)

/-- OPERATE_DEADLINE: the operate timer expires without CURRENT (R118). -/
def execOperateDeadline (o : Fin 24) (s : State) : Host.Outcome State Fault Refusal :=
  .next (if dueAt (nth s.outputs o).operate s.now then changeFault o .failToOperate .operateWindow s else s)

/-- RELEASE_DEADLINE: the release timer expires with CURRENT flowing (R119). -/
def execReleaseDeadline (o : Fin 24) (s : State) : Host.Outcome State Fault Refusal :=
  .next (if dueAt (nth s.outputs o).release s.now then changeFault o .failToRelease .releaseWindow s else s)

/-- OPEN_DEADLINE: the open timer expires on a supervised de-energized circuit (R120). -/
def execOpenDeadline (o : Fin 24) (s : State) : Host.Outcome State Fault Refusal :=
  .next (if dueAt (nth s.outputs o).opening s.now then changeFault o .circuitOpen .openPersisted s else s)

/-- CLEAR_DEADLINE: the clear timer expires and the fault becomes NONE, with the cause of the fault cleared (R117,
R122). -/
def execClearDeadline (o : Fin 24) (s : State) : Host.Outcome State Fault Refusal :=
  let x := nth s.outputs o
  .next (if dueAt x.clearing s.now then
      changeFault o .none (if x.fault = .circuitOpen then .continuityRestored else .currentGone) s
    else s)

/-! ## Trip supply (section 7.5) -/

/-- How many outputs are energized (R122). -/
def State.energizedCount (s : State) : Nat := (List.finRange 24).countP fun o => (nth s.outputs o).energized

/-- The SUPERVISION record of a supply change: subject 24 (R122). -/
def supplyRecord (before after : SupplyState) (c : SupCause) (s : State) : Record :=
  Record.stamped
    { kind := .supervision, high := true, subject := 24, x0 := 2, x1 := byte before.code, x2 := byte after.code,
      x3 := byte c.code, x4 := byte s.energizedCount } s.stamp

/-- The supply's items replaced, and its entry written when its state or count has changed (R127). -/
def putSupply (x : Supply) (s : State) : State :=
  let s1 := { s with supply := x }
  if x.state = s.supply.state ∧ x.absence = s.supply.absence then s1 else State.showSupply s1

/-- Entering LOST (R124): every timer becomes none, the record is made, and point 255 is reported present. -/
def loseSupply (s : State) : State :=
  let x := s.supply
  let s1 := putSupply { state := .lost, absence := 0, settle := none } s
  let s2 := { s1 with outputs := tab 24 fun o => (nth s1.outputs o).judge false s1.now }
  reportCondition 255 true (offer (supplyRecord x.state .lost .absent10ms s2) s2)

/-- Leaving LOST for SETTLING (R123): the settle timer starts, and point 255 is reported absent. -/
def returnSupply (s : State) : State :=
  let s1 := putSupply { s.supply with state := .settling, settle := some (s.now + 500) } s
  reportCondition 255 false (offer (supplyRecord .lost .settling .returned s1) s1)

/-- The resume of one output: the watch for CURRENT starts, and its checks are judged afresh (R125). -/
def resumeOutput (s : State) (o : Fin 24) : State := supervise o (watchCurrent o s)

/-- The end of the settle time: PRESENT, the record, and every output judged in ascending order (R125). -/
def settleSupply (s : State) : State :=
  let s1 := putSupply { s.supply with state := .present, settle := none } s
  (List.finRange 24).foldl resumeOutput (offer (supplyRecord .settling .present .settled s1) s1)

/-- A sample of the monitor line (R123). -/
def sampleSupply (present : Bool) (s : State) : State :=
  match s.supply.state, present with
  | .lost, true => returnSupply s
  | .lost, false => s
  | _, true => putSupply { s.supply with absence := 0 } s
  | _, false =>
    let s1 := putSupply { s.supply with absence := s.supply.absence + 1 } s
    if 10 ≤ s1.supply.absence then loseSupply s1 else s1

/-- SUPPLY_SAMPLE: every whole millisecond of run time from 1 on, once (R123). -/
def execSupplySample (present : Bool) (s : State) : Host.Outcome State Fault Refusal :=
  .next (if s.sched.supplyFrom ≤ s.now then
      sampleSupply present { s with sched := { s.sched with supplyFrom := s.now + 1 } }
    else s)

/-- SUPPLY_LOST: the tenth consecutive absent sample takes the supply to LOST (R124).  The sample that completes the
ten does so itself; the command finds a count of ten that has not been acted on (log entry 5). -/
def execSupplyLost (s : State) : Host.Outcome State Fault Refusal :=
  .next (if s.supply.state ≠ .lost ∧ 10 ≤ s.supply.absence then loseSupply s else s)

/-- SUPPLY_SETTLE_DEADLINE: the settle deadline of a SETTLING supply has come (R125). -/
def execSupplySettleDeadline (s : State) : Host.Outcome State Fault Refusal :=
  .next (if s.supply.state = .settling ∧ dueAt s.supply.settle s.now = true then settleSupply s else s)

end Sys2Proof.Machine
end

