-- ==== Sys2Proof/Machine/Outputs.lean ====
section
/-! DEFINITION. The Output Unit (chapter 6): the two gates, drives, on-timers and the records of the unit. -/

namespace Sys2Proof.Machine

/-- Causes of an energize or de-energize (R105). -/
inductive OutCause where
  | matrix (i : Fin 32)
  | remote | timer | release | lockoutReset
  deriving DecidableEq, Repr

/-- Their codes (section 11.7). -/
def OutCause.code : OutCause → Nat
  | .matrix _ => 1 | .remote => 2 | .timer => 3 | .release => 4 | .lockoutReset => 5

/-- The input a cause names; 255 for none (R105). -/
def OutCause.input : OutCause → Nat
  | .matrix i => i.val
  | _ => 255

/-- The profile an output selects (R98). -/
def State.profileOf (s : State) (x : Output) : Profile := nth s.profiles x.sel

/-- The TRIP OUTPUT record (R105): SUPPLY_LOST while the supply state is LOST. -/
def tripOutputRecord (o : Fin 24) (before : OutState) (x : Output) (c : OutCause) (s : State) : Record :=
  Record.stamped
    { kind := .tripOutput, high := true, flags := { supplyLost := decide (s.supply.state = .lost) },
      subject := byte o.val, x0 := byte (before.code + 4 * x.state.code + 16 * c.code), x1 := byte c.input,
      x2 := byte (x.sel.val + 4 * (s.profileOf x).mode.code), x3 := byte (s.profileOf x).onTime } s.stamp

/-- The TRIP BLOCKED record (R106); the cause is NOT_IN_SERVICE (1) or ISOLATED (2). -/
def tripBlockedRecord (o : Fin 24) (cause : Nat) (c : OutCause) (s : State) : Record :=
  Record.stamped
    { kind := .tripBlocked, high := true, subject := byte o.val, x0 := byte cause, x1 := byte c.code,
      x2 := byte c.input, x3 := byte s.engine.part.code, x4 := byte (nth s.outputs o).state.code } s.stamp

/-- An energize (R99): state, on-timer and min-time-passed, mirror, record, and the Supervision Unit told. -/
def energize (o : Fin 24) (st : OutState) (timer : Option Nat) (c : OutCause) (s : State) : State :=
  let x := nth s.outputs o
  let y := { x with state := st, onTimer := timer, minPassed := false }
  let s1 := State.showOutput o (putOutput o y s)
  supervise o (watchCurrent o (offer (tripOutputRecord o x.state y c s1) s1))

/-- A de-energize to OFF (R99). -/
def deenergize (o : Fin 24) (c : OutCause) (s : State) : State :=
  let x := nth s.outputs o
  let y := { x with state := .off, onTimer := none, minPassed := false }
  let s1 := State.showOutput o (putOutput o y s)
  supervise o (offer (tripOutputRecord o x.state y c s1) s1)

/-- A rising drive: the two gates (R100), then the output's mode and state (R101). -/
def risingDrive (o : Fin 24) (c : OutCause) (s : State) : State :=
  let x := nth s.outputs o
  if s.engine.part ≠ .inService then offer (tripBlockedRecord o 1 c s) s
  else if x.isolated then offer (tripBlockedRecord o 2 c s) s
  else if x.energized then s
  else match (s.profileOf x).mode with
    | .latch => energize o .latched none c s
    | .pulse => energize o .on (some (s.now + 10 * (s.profileOf x).onTime)) c s
    | .follow => energize o .on (some (s.now + 10 * (s.profileOf x).onTime)) c s

/-- A falling drive releases a FOLLOW output past its minimum time and has no other effect (R103). -/
def fallingDrive (o : Fin 24) (s : State) : State :=
  let x := nth s.outputs o
  if (s.profileOf x).mode = .follow ∧ x.state = .on ∧ x.minPassed = true then deenergize o .release s else s

/-- The on-timer's deadline (R102): the on-timer becomes none, and the output acts by its mode. -/
def expireOnTimer (o : Fin 24) (s : State) : State :=
  let x := nth s.outputs o
  let s1 := putOutput o { x with onTimer := none } s
  match (s.profileOf x).mode with
  | .pulse => deenergize o .timer s1
  | .follow =>
    if s.driven o then State.showOutput o (putOutput o { x with onTimer := none, minPassed := true } s)
    else deenergize o .timer s1
  | .latch => s1

/-- ON_TIMER_EXPIRY: the on-timer deadline of an ON output has come (R102). -/
def execOnTimerExpiry (o : Fin 24) (s : State) : Host.Outcome State Fault Refusal :=
  .next (if (nth s.outputs o).state = .on ∧ dueAt (nth s.outputs o).onTimer s.now = true then expireOnTimer o s else s)

end Sys2Proof.Machine
end

