-- ==== Sys2Proof/Machine/TripInputs.lean ====
section
/-! DEFINITION. The Trip Input Unit and the Matrix Unit's driving sets (chapter 5): samples, qualification, edges. -/

namespace Sys2Proof.Machine

/-- Point 192 + i, trip input i (R84). -/
def tripPoint (i : Fin 32) : Fin 256 := ⟨192 + i.val, by omega⟩

/-- The standby bank: the one that is not active, bank A when none is (R87). -/
def State.standby (s : State) : BankId :=
  match s.active with
  | some .a => .b
  | _ => .a

/-- The TRIP INPUT record of a qualification (R85). -/
def tripInputRecord (i : Fin 32) (new : Bool) (t : Stamp) (s : State) : Record :=
  let m := (s.maskOf i).toNat
  Record.stamped
    { kind := .tripInput, high := true, subject := byte i.val,
      x0 := byte (bit new + 2 * bankCode s.active + 16 * s.qOf i),
      x1 := byte m, x2 := byte (m / 256), x3 := byte (m / 65536) } t

/-- The edge of output o between the driver it had and the one it has now (R93): the Matrix Unit writes the output's
entry, and a set that has filled or emptied hands the Output Unit a rising or a falling drive. -/
def handEdge (before : Vector (Option (Fin 32)) 24) (s : State) (o : Fin 24) : State :=
  let d := s.driver o
  if d = nth before o then s
  else
    let s1 := State.showOutput o s
    match nth before o, d with
    | none, some i => risingDrive o (.matrix i) s1
    | some _, none => fallingDrive o s1
    | _, _ => s1

/-- The drivers of all outputs. -/
def State.drivers (s : State) : Vector (Option (Fin 32)) 24 := tab 24 fun o => s.driver o

/-- Input i qualifies (R82): the qualified state takes the line level, the run ends; mirror, TRIP INPUT record, edges in ascending output order,
and point 192 + i with the run start as raw time. -/
def qualify (i : Fin 32) (s : State) : State :=
  let x := nth s.inputs i
  let new := x.level
  let t := x.start.getD s.moment
  let s1 := State.showInput i { s with inputs := upd s.inputs i { x with qualified := new, run := 0, start := none } }
  let s2 := offer (tripInputRecord i new t.stamp s) s1
  let s3 := (List.finRange 24).foldl (handEdge s.drivers) s2
  takeContact (tripPoint i) (if new then .closed else .opened) t.run t.stamp false s3

/-- Whether the run of an input has reached the count that its latest sample compared it with (R82): a SWITCH BANK
qualifies no run before its next sample (R83). -/
def TripInput.runMet (x : TripInput) : Bool := decide (0 < x.run) && decide (x.qSampled ≤ x.run)

/-- An input's items after a sample of its line (R81). -/
def TripInput.sampled (x : TripInput) (level : Bool) (q : Nat) (m : Receipt) : TripInput :=
  let y := { x with level := level, qShown := q, qSampled := q }
  if level = x.qualified then { y with run := 0, start := none }
  else { y with run := x.run + 1, start := if x.run = 0 then some m else x.start }

/-- Whether a sample has changed an item of the input's mirror entry (R86). -/
def TripInput.shows (x y : TripInput) : Bool :=
  decide (x.level ≠ y.level) || decide (x.run ≠ y.run) || decide (x.qShown ≠ y.qShown)

/-- One input of a sample: its count is updated and then tested for qualification (R81, R82). -/
def sampleInput (lines : BitVec 32) (s : State) (i : Fin 32) : State :=
  let x := nth s.inputs i
  let y := x.sampled (lines.getLsbD i.val) (s.qOf i) s.moment
  let s1 := { s with inputs := upd s.inputs i y }
  let s2 := if x.shows y then State.showInput i s1 else s1
  if y.runMet then qualify i s2 else s2

/-- TRIP_INPUT_SAMPLE: every whole millisecond of run time from 1 on, once; the inputs are taken in ascending order
(R80, R81). -/
def execTripInputSample (lines : BitVec 32) (s : State) : Host.Outcome State Fault Refusal :=
  .next (if s.sched.tripFrom ≤ s.now then
      (List.finRange 32).foldl (sampleInput lines) { s with sched := { s.sched with tripFrom := s.now + 1 } }
    else s)

/-- TRIP_INPUT_QUALIFIED: a run that a sample has brought to its count qualifies the input's new state (R82).  The sample
does so itself; the command finds a run that has met the count of its latest sample and has not been acted on (log
entry 5). -/
def execTripInputQualified (i : Fin 32) (s : State) : Host.Outcome State Fault Refusal :=
  .next (if (nth s.inputs i).runMet then qualify i s else s)

end Sys2Proof.Machine
end

