-- ==== Sys2Proof/Machine/TimeBase.lean ====
section
/-! DEFINITION. The Time Base (chapter 8): the rise of run time, sync pulses and the sync miss timer. -/

namespace Sys2Proof.Machine

/-- Events of a CLOCK record (section 11.7): their codes. -/
inductive ClockEvent where
  | set | step | syncFault | syncRestored
  deriving DecidableEq, Repr

def ClockEvent.code : ClockEvent → Nat
  | .set => 1 | .step => 2 | .syncFault => 3 | .syncRestored => 4

/-- A CLOCK record: LOW, subject 0, stamped with the time of day at the event (R137). -/
def clockRecord (e : ClockEvent) (x1 x2 x3 x4 : Byte) (t : Stamp) : Record :=
  Record.stamped { kind := .clock, high := false, x0 := byte e.code, x1 := x1, x2 := x2, x3 := x3, x4 := x4 } t

/-- A CLOCK record is offered unless the filter mask names CLOCK (R137). -/
def offerClock (r : Record) (s : State) : State := offerUnless .clock r s

/-- The run time a millisecond later; 2^48 - 1 is the last value the spec gives it, and what follows is a free value
(R128, log entry 2). -/
def nextRun (run : Nat) : Nat :=
  if run + 1 < 2 ^ 48 then run + 1 else Config.runTimeAfterEnd.toNat

/-- RUN_TIME_RISE: run time rises by 1, and time of day with it; 86,400,000 carries into the next day, and day 65535 is
followed by day 0 (R128, R129). -/
def execRunTimeRise (s : State) : Host.Outcome State Fault Refusal :=
  let t := carryTime s.time.day s.time.ms 1
  .next { s with time := { s.time with run := nextRun s.time.run, day := t.1, ms := t.2 } }

/-- The clock sync fault becomes present: the clock entry, the CLOCK record, and point 254 (R134, R135). -/
def raiseSyncFault (c : SyncCause) (s : State) : State :=
  let s1 := State.showClock { s with time := { s.time with fault := true, cause := c } }
  reportCondition 254 true (offerClock (clockRecord .syncFault (byte c.code) (byte s1.time.spurious) 0 0 s1.stamp) s1)

/-- The correction to the nearest whole minute (R132). -/
def correction (ms : Nat) : Int := if ms % 60000 < 30000 then -(ms % 60000 : Int) else 60000 - (ms % 60000 : Int)

/-- The day and ms of day a correction leads to, and whether it carried into the next day (R133 step 1). -/
def steppedTime (day ms : Nat) (c : Int) : Nat × Nat × Bool :=
  let m := (ms + c).toNat
  if dayMs ≤ m then ((day + 1) % 65536, m - dayMs, true) else (day, m, false)

/-- An accepted pulse (R133): step, counts and timer, clock entry, STEP record, and the end of a sync fault.  The clock
entry, written once, already shows the fault absent (R138; log entry 29). -/
def acceptPulse (c : Int) (s : State) : State :=
  let t := s.time
  let d := steppedTime t.day t.ms c
  let s1 := State.showClock { s with time := { t with
    day := d.1, ms := d.2.1, spurious := 0, lastCorrection := c, missTimer := some (t.run + 65000),
    lastPulse := t.run, fault := false, cause := .none } }
  let w := signedWord c
  let s2 := if 10 < c.natAbs then
      offerClock (clockRecord .step (loByte w) (hiByte w) (byte (bit d.2.2)) 0 s1.stamp) s1
    else s1
  if t.fault then
    reportCondition 254 false (offerClock (clockRecord .syncRestored 1 (loByte w) (hiByte w) 0 s1.stamp) s2)
  else s2

/-- A spurious pulse (R134): the count rises, saturating at 255, and the third in a row raises the sync fault. -/
def spuriousPulse (s : State) : State :=
  let s1 := State.showClock { s with time := { s.time with spurious := min 255 (s.time.spurious + 1) } }
  if 3 ≤ s1.time.spurious ∧ s1.time.fault = false then raiseSyncFault .spurious s1 else s1

/-- A pulse that is acted on, judged against the time of day (R132). -/
def judgePulse (s : State) : State :=
  let c := correction s.time.ms
  if c.natAbs ≤ 500 then acceptPulse c s else spuriousPulse s

/-- SYNC_PULSE: a rising edge of the sync input; a second edge within one millisecond is the same pulse, and a pulse is
acted on when VALID is set and sync is enabled (R132). -/
def execSyncPulse (s : State) : Host.Outcome State Fault Refusal :=
  .next (if s.time.lastEdge = some s.now then s
    else
      let s1 := { s with time := { s.time with lastEdge := some s.now } }
      if s1.time.valid = true ∧ s1.time.syncEnabled = true then judgePulse s1 else s1)

/-- SYNC_MISS_DEADLINE: the timer becomes none, and the sync fault becomes present with cause NO_PULSE unless it
already is (R135). -/
def execSyncMissDeadline (s : State) : Host.Outcome State Fault Refusal :=
  .next (if dueAt s.time.missTimer s.now then
      let s1 := { s with time := { s.time with missTimer := none } }
      if s1.time.fault then State.showClock s1 else raiseSyncFault .noPulse s1
    else s)

end Sys2Proof.Machine
end

