-- ==== Sys2Proof/Machine/UnitOrders.lean ====
section
/-! DEFINITION. The orders of the links (chapter 4), of the matrix (chapter 5), of the outputs (chapter 6), of the Time
Base (chapter 8), of the journal (chapter 9) and of the Order Engine itself (chapter 10). -/

namespace Sys2Proof.Machine

/-! ## SET LINK and RESTART LINK (R75, R76) -/

/-- The link a byte names, none above 3. -/
def linkOf (n : Nat) : Option (Fin 4) := if h : n < 4 then some ⟨n, h⟩ else none

/-- The link's state change by the enabled setting (R75), from the link x with its new settings; a link that becomes
DISABLED closes its answer window (log entry 17). -/
def switchLink (k : Fin 4) (x : Link) (enabled : Bool) (s : State) : State :=
  match x.state, enabled with
  | .disabled, true => changeLink k { x with state := .starting, miss := 0, validRun := 0 } .enabled s
  | .disabled, false => putLink k x s
  | _, true => putLink k x s
  | before, false =>
    let off := { x with state := .disabled, awaiting := false, rx := [], receipt := none }
    let s1 := changeLink k off .disabled s
    let s2 := if before = .up then leaveUp k s1 else s1
    finishRestart k .refusedState s2

/-- SET LINK (R75).  The SETTINGS record comes after all that the change of link state makes: the LINK record, which
R75 orders, and the records of point 248 + k reported present, which it does not: DESIGN CHOICE (log entry 31). -/
def orderSetLink (d : List Byte) (s : State) : State × Taken :=
  match linkOf (numAt d 0) with
  | none => reply .refusedRange s
  | some k =>
    if 1 < numAt d 1 ∨ 15 < numAt d 3 then reply .refusedRange s
    else
      let en := decide (numAt d 1 = 1)
      let x := { nth s.links k with enabled := en, zones := byteAt d 2, latency := numAt d 3 }
      let s1 := switchLink k x en s
      let s2 := offer (settingsRecord .setLink s.stamp k.val (numAt d 1) (numAt d 2) (numAt d 3) 0) s1
      (State.showLink k s2, .done .doneOk [])

/-- RESTART LINK at its take (R76). -/
def orderRestartLink (n : Fin 16) (d : List Byte) (s : State) : State × Taken :=
  match linkOf (numAt d 0) with
  | none => reply .refusedRange s
  | some k =>
    let l := nth s.links k
    if l.state = .disabled then reply .refusedState s
    else if l.restart ≠ none then reply .refusedBusy s
    else
      let x := { l with state := .starting, validRun := 0, miss := 0, restart := some (n, s.now + 1000) }
      let s1 := changeLink k x .restartOrder s
      let s2 := if l.state = .up then leaveUp k s1 else s1
      (State.showLink k s2, .flying)

/-! ## LOAD MATRIX and SWITCH BANK (R88 to R91) -/

/-- LOAD MATRIX at its take (R88): the standby bank becomes LOADING and gives up its entries (log entry 18). -/
def orderLoadMatrix (n : Fin 16) (d : List Byte) (s : State) : State × Taken :=
  match s.engine.loadMatrix with
  | some _ => reply .refusedBusy s
  | none =>
    let s1 := s.setBank s.standby { state := .loading }
    (State.showMatrix { s1 with engine := { s1.engine with loadMatrix := some (newJob n d s.now) } }, .flying)

/-- The end of a LOAD MATRIX (R89): the bank's new state and entries, the mirror, and the SETTINGS record (R95). -/
def endMatrix (bk : BankId) (x : Bank) (r : Result) (clamped : Nat) (s : State) : State :=
  let s1 := State.showMatrix (s.setBank bk x)
  offer (settingsRecord .loadMatrix s.stamp 0 (bk.code + 4 * x.state.code + 16 * bankCode s.active) r.code clamped 0) s1

/-- A LOAD MATRIX that ends refused leaves its bank EMPTY (R89). -/
def refuseMatrix (r : Result) (d : List Byte) (s : State) : State × Result × List Byte :=
  (endMatrix s.standby {} r 0 s, r, d)

/-- The entries an image writes, counts clamped (R89). -/
def imageEntries (bs : List Byte) : Vector Entry 32 :=
  tab 32 fun i => { entryAt bs i.val with q := clampCount (entryAt bs i.val).q }

/-- Whether the image's count for input i is changed by the clamping (R89). -/
def countClamped (bs : List Byte) (i : Fin 32) : Bool := decide (clampCount (entryAt bs i.val).q ≠ (entryAt bs i.val).q)

/-- The completion of a LOAD MATRIX whose image has been read (R89 outcomes 2 to 4). -/
def completeMatrix (bs : List Byte) (s : State) : State × Result × List Byte :=
  if bs.length ≠ 130 then refuseMatrix .refusedLength [] s
  else
    let sum := wordSum (bs.take 128)
    let found := wordAt bs 128
    if sum ≠ found then refuseMatrix .refusedCheck (dataAt 4 (bytes2 sum ++ bytes2 found)) s
    else
      let bk := s.standby
      let n := (List.finRange 32).countP (countClamped bs)
      let lowest := match (List.finRange 32).find? (countClamped bs) with
        | some i => i.val
        | none => 255
      let r : Result := if n = 0 then .doneOk else .doneClamped
      (endMatrix bk { state := .valid, entries := imageEntries bs } r n s, r, [byte bk.code, byte n, byte lowest])

/-- The lowest active input (R91). -/
def State.lowestActive (s : State) : Option (Fin 32) := (List.finRange 32).find? fun i => (nth s.inputs i).qualified

/-- The entry of an input whose q in force a switch changes (R86). -/
def showNewCount (s : State) (i : Fin 32) : State :=
  let x := nth s.inputs i
  if x.qShown = s.qOf i then s
  else State.showInput i { s with inputs := upd s.inputs i { x with qShown := s.qOf i } }

/-- SWITCH BANK (R91); its locks are judged at the take (R176). -/
def orderSwitchBank (s : State) : State × Taken :=
  let bk := s.standby
  if s.engine.loadMatrix ≠ none then reply .refusedBusy s
  else if (s.bank bk).state ≠ .valid then (s, .done .refusedState [byte bk.code, byte (s.bank bk).state.code])
  else match s.lowestActive with
    | some i => (s, .done .refusedDriven [0, 0, byte i.val])
    | none =>
      let s1 := State.showMatrix (State.showActive { s with active := some bk })
      let s2 := (List.finRange 32).foldl showNewCount s1
      (offer (settingsRecord .switchBank s.stamp 0 bk.code (bankCode s.active) 0 0) s2, .done .doneOk [byte bk.code])

/-! ## SET PROFILES (R108, R109) -/

/-- The lowest profile whose mode names no mode. -/
def failingProfile (d : List Byte) : Option (Fin 4) := (List.finRange 4).find? fun p => (profileAt d p).isNone

/-- The continuity mask of SET PROFILES. -/
def continuityAt (d : List Byte) : Nat := longAt d 20

/-- The lowest output whose selection is above 3, or that the continuity mask names above 23. -/
def failingOutput (d : List Byte) : Option Nat :=
  match (List.finRange 24).find? fun o => decide (3 < selectionAt d o) with
  | some o => some o.val
  | none => (List.range 32).find? fun j => decide (24 ≤ j) && (continuityAt d).testBit j

/-- The profile table of the parameters. -/
def newProfiles (d : List Byte) : Vector Profile 4 := tab 4 fun p => (profileAt d p).getD {}

/-- The selection of output o in the parameters. -/
def newSelection (d : List Byte) (o : Fin 24) : Fin 4 := Fin.ofNat 4 (selectionAt d o)

/-- Whether an energized output would change under the order (R108 check 3). -/
def energizedChange (d : List Byte) (s : State) (o : Fin 24) : Bool :=
  let x := nth s.outputs o
  x.energized && (decide (newSelection d o ≠ x.sel) || decide (nth (newProfiles d) x.sel ≠ nth s.profiles x.sel))

/-- The profiles whose on-time is clamped, bit p for profile p (R109). -/
def clampedProfiles (d : List Byte) : Nat := bitsOf (fun p => decide (numAt d (2 * p + 1) = 0)) 4

/-- The order's part of one output: selection and continuity supervision, its entry when either has changed, and its
open check judged (R109, R120). -/
def applyProfile (d : List Byte) (s : State) (o : Fin 24) : State :=
  let x := nth s.outputs o
  let y := { x with sel := newSelection d o, supervised := (continuityAt d).testBit o.val }
  let s1 := putOutput o y s
  supervise o (if y.sel = x.sel ∧ y.supervised = x.supervised then s1 else State.showOutput o s1)

/-- SET PROFILES (R108, R109); where its refusal data name the profile or the output, log entry 16. -/
def orderSetProfiles (d : List Byte) (s : State) : State × Taken :=
  match failingProfile d, failingOutput d, (List.finRange 24).find? (energizedChange d s) with
  | some p, _, _ => (s, .done .refusedRange [0, byte p.val])
  | none, some o, _ => (s, .done .refusedRange [0, 0, byte o])
  | none, none, some o => (s, .done .refusedEnergized [0, 0, 0, byte o.val])
  | none, none, none =>
    let n := (List.finRange 24).countP fun o => decide (newSelection d o ≠ (nth s.outputs o).sel)
    let c := clampedProfiles d
    let s1 := (List.finRange 4).foldl (fun t p => State.showProfile p t) { s with profiles := newProfiles d }
    let s2 := (List.finRange 24).foldl (applyProfile d) s1
    (offer (settingsRecord .setProfiles s.stamp 0 n c 0 0) s2,
     .done (if c = 0 then .doneOk else .doneClamped) (if c = 0 then [] else [byte c]))

/-! ## Output orders by mask (R110 to R113) -/

/-- A mask that names an output above 23 is out of range (section 6.4). -/
def maskFits (m : Nat) : Bool := decide (m < 2 ^ 24)

/-- The outputs of a mask, in ascending order. -/
def named (m : Nat) : List (Fin 24) := (List.finRange 24).filter fun o => m.testBit o.val

/-- The mask of the outputs of a set. -/
def maskOfSet (f : Fin 24 → Bool) : Nat := (List.finRange 24).foldl (fun n o => n + if f o then 2 ^ o.val else 0) 0

/-- REMOTE TRIP (R110): a rising drive with source REMOTE to each output, in ascending order.  It energizes the named
outputs that are OFF and not isolated, and finds the isolated ones blocked. -/
def orderRemoteTrip (d : List Byte) (s : State) : State × Taken :=
  let m := longAt d 0
  if maskFits m = false then reply .refusedRange s
  else
    let blocked := maskOfSet fun o => m.testBit o.val && (nth s.outputs o).isolated
    let done := maskOfSet fun o => m.testBit o.val && !(nth s.outputs o).isolated && !(nth s.outputs o).energized
    ((named m).foldl (fun t o => risingDrive o .remote t) s,
     .done (if blocked = 0 then .doneOk else .partialDone) (maskBytes done ++ maskBytes blocked))

/-- RESET LOCKOUT of one output: a LATCHED output that is not driven goes OFF (R111). -/
def resetOutput (s : State) (o : Fin 24) : State :=
  if (nth s.outputs o).state = .latched ∧ s.driven o = false then deenergize o .lockoutReset s else s

/-- RESET LOCKOUT (R111). -/
def orderResetLockout (d : List Byte) (s : State) : State × Taken :=
  let m := longAt d 0
  if maskFits m = false then reply .refusedRange s
  else
    let latched := fun o : Fin 24 => m.testBit o.val && decide ((nth s.outputs o).state = .latched)
    let refused := maskOfSet fun o => latched o && s.driven o
    let done := maskOfSet fun o => latched o && !s.driven o
    ((named m).foldl resetOutput s,
     .done (if refused = 0 then .doneOk else .partialDone) (maskBytes done ++ maskBytes refused))

/-- How many outputs are isolated. -/
def State.isolatedCount (s : State) : Nat := (List.finRange 24).countP fun o => (nth s.outputs o).isolated

/-- The isolated flag of one output set or lifted, its entry when it has changed, and its open check judged
(R112, R113, R120). -/
def setIsolated (v : Bool) (s : State) (o : Fin 24) : State :=
  let x := nth s.outputs o
  let s1 := putOutput o { x with isolated := v } s
  supervise o (if x.isolated = v then s1 else State.showOutput o s1)

/-- An isolation order that is applied, with its SETTINGS record (R112, R113). -/
def isolate (k : OrderKind) (v : Bool) (m : Nat) (s : State) : State :=
  let s1 := (named m).foldl (setIsolated v) s
  offer (settingsRecord k s.stamp 0 m (m / 256) (m / 65536) s1.isolatedCount) s1

/-- ISOLATE OUTPUTS (R112). -/
def orderIsolate (d : List Byte) (s : State) : State × Taken :=
  let m := longAt d 0
  if maskFits m = false then reply .refusedRange s
  else match (named m).find? fun o => (nth s.outputs o).energized with
    | some o => (s, .done .refusedEnergized (dataAt 8 [byte o.val]))
    | none => (isolate .isolateOutputs true m s, .done .doneOk [])

/-- RESTORE OUTPUTS (R113). -/
def orderRestore (d : List Byte) (s : State) : State × Taken :=
  let m := longAt d 0
  if maskFits m = false then reply .refusedRange s
  else match (named m).find? fun o => s.driven o with
    | some o => (s, .done .refusedDriven (dataAt 8 [byte o.val]))
    | none => (isolate .restoreOutputs false m s, .done .doneOk [])

/-! ## SET TIME (R131) -/

/-- The result data of SET TIME: the time of day and VALID before it. -/
def timeData (t : TimeBase) : List Byte := bytes2 t.day ++ bytes4 t.ms ++ [byte (bit t.valid)]

/-- SET TIME applied, in R131's order. -/
def setTime (day ms : Nat) (sync : Bool) (s : State) : State :=
  let t := s.time
  let ended := !sync && t.fault
  let s1 := { s with time := { t with
    day := day, ms := ms, valid := true, syncEnabled := sync, spurious := 0,
    missTimer := if sync then some (t.run + 65000) else none,
    fault := t.fault && sync, cause := if sync then t.cause else .none } }
  let s2 := if ended then reportCondition 254 false (offerClock (clockRecord .syncRestored 2 0 0 0 s1.stamp) s1) else s1
  offerClock (clockRecord .set (byte (bit t.valid)) (byte (bit sync)) (byte t.day) (byte (t.day / 256)) s1.stamp)
    s2.showClock

/-- SET TIME (R131). -/
def orderSetTime (d : List Byte) (s : State) : State × Taken :=
  if dayMs ≤ longAt d 2 ∨ 1 < numAt d 6 then reply .refusedRange s
  else (setTime (wordAt d 0) (longAt d 2) (decide (numAt d 6 = 1)) s, .done .doneOk (timeData s.time))

/-! ## SET JOURNAL and FLUSH JOURNAL (R154, R155) -/

/-- SET JOURNAL (R154). -/
def orderSetJournal (d : List Byte) (s : State) : State × Taken :=
  if 32 ≤ numAt d 0 then reply .refusedRange s
  else
    let delay := max 1 (numAt d 1)
    let s1 := State.showJournalSettings { s with journal := { s.journal with mask := byteAt d 0, flushDelay := delay } }
    (offer (settingsRecord .setJournal s.stamp 0 (numAt d 0) delay 0 0) s1,
     .done (if numAt d 1 = 0 then .doneClamped else .doneOk) [byteAt d 0, byte delay])

/-- FLUSH JOURNAL (R155). -/
def orderFlushJournal (s : State) : State × Taken :=
  match s.journal.filling with
  | none => reply .doneOk s
  | some f => (closePage reportNow .flush f s,
      .done .doneOk ([1, byte f.entry.val] ++ bytes2 f.page ++ bytes2 f.pageSeq.toNat ++ [byte f.count]))

/-! ## ENTER SERVICE, LEAVE SERVICE, LOCK, UNLOCK (R174 to R177) -/

/-- The lowest driven output. -/
def State.lowestDriven (s : State) : Option (Fin 24) := (List.finRange 24).find? fun o => s.driven o

/-- The lowest energized output. -/
def State.lowestEnergized (s : State) : Option (Fin 24) := (List.finRange 24).find? fun o => (nth s.outputs o).energized

/-- A change of part state by order, with its SETTINGS record (R174, R175). -/
def changePart (k : OrderKind) (p : PartState) (s : State) : State :=
  let s1 := State.showPart { s with engine := { s.engine with part := p } }
  offer (settingsRecord k s.stamp 0 s.engine.part.code p.code (bankCode s.active) 0) s1

/-- ENTER SERVICE (R174); its DONE_OK data show the active bank and no driven output: d1 is 0 (log entry 13). -/
def orderEnterService (s : State) : State × Taken :=
  if s.engine.part = .inService then (s, .done .doneOk [byte (bankCode s.active)])
  else if s.active = none then (s, .done .refusedState [0])
  else match s.lowestDriven with
    | some o => (s, .done .refusedDriven [0, byte o.val])
    | none => (changePart .enterService .inService s, .done .doneOk [byte (bankCode s.active)])

/-- LEAVE SERVICE (R175); its locks are judged at the take (R176), and its DONE_OK data are 0 (log entry 13). -/
def orderLeaveService (s : State) : State × Taken :=
  if s.engine.part = .standby then reply .doneOk s
  else match s.lowestEnergized with
    | some o => (s, .done .refusedEnergized [0, byte o.val])
    | none => (changePart .leaveService .standby s, .done .doneOk [])

/-- Both locks, as the result data of LOCK and UNLOCK give them (R177). -/
def lockData (e : Engine) : List Byte := [byte (bit e.service + 2 * bit e.commissioning)]

/-- The Order Engine's items replaced by ones with other locks, both places of the locks written, and the SETTINGS
record (R176, R177). -/
def changeLocks (k : OrderKind) (which : Nat) (e : Engine) (s : State) : State :=
  offer (settingsRecord k s.stamp 0 which 0 0 0) (State.showPart { s with engine := e })

/-- LOCK (R177). -/
def orderLock (d : List Byte) (s : State) : State × Taken :=
  let e := s.engine
  if numAt d 0 = 0 then
    let e1 := { e with service := true }
    (if e.service then s else changeLocks .lock 0 e1 s, .done .doneOk (lockData e1))
  else if numAt d 0 = 1 then
    let e1 := { e with commissioning := true }
    (if e.commissioning then s else changeLocks .lock 1 e1 s, .done .doneOk (lockData e1))
  else reply .refusedRange s

/-- UNLOCK (R177). -/
def orderUnlock (s : State) : State × Taken :=
  let e1 := { s.engine with service := false }
  (if s.engine.service then changeLocks .unlock 0 e1 s else s, .done .doneOk (lockData e1))

end Sys2Proof.Machine
end

