-- ==== Sys2Proof/Machine/Engine.lean ====
section
/-! DEFINITION. The Order Engine (chapter 10): walks, takes, segment reads, the host's accesses; and the Journal Unit's
own events. -/

namespace Sys2Proof.Machine

/-! ## Taking a slot (R168) -/

/-- Whether a lock that is set bars an order (section 10.6). -/
def barred (e : Engine) : OrderKind → Bool
  | .loadPoints | .setChatter | .setLink | .setJournal => e.commissioning
  | .loadMatrix | .switchBank | .setProfiles | .leaveService => e.service || e.commissioning
  | .shelvePoint | .unshelvePoint | .readPoint | .acknowledge | .silence | .resetAlarms | .lampTest | .restartLink
  | .remoteTrip | .resetLockout | .isolateOutputs | .restoreOutputs | .setTime | .flushJournal | .enterService
  | .lock | .unlock => false

/-- An order as its owner judges and applies it (R168 step 5), taken from slot n with the parameter bytes d. -/
def applyOrder (k : OrderKind) (n : Fin 16) (d : List Byte) (s : State) : State × Taken :=
  match k with
  | .loadPoints => orderLoadPoints n d s
  | .setChatter => orderSetChatter d s
  | .shelvePoint => orderShelve d s
  | .unshelvePoint => orderUnshelve d s
  | .readPoint => orderReadPoint d s
  | .acknowledge => orderAcknowledge d s
  | .silence => orderSilence d s
  | .resetAlarms => orderResetAlarms d s
  | .lampTest => orderLampTest d s
  | .setLink => orderSetLink d s
  | .restartLink => orderRestartLink n d s
  | .loadMatrix => orderLoadMatrix n d s
  | .switchBank => orderSwitchBank s
  | .setProfiles => orderSetProfiles d s
  | .remoteTrip => orderRemoteTrip d s
  | .resetLockout => orderResetLockout d s
  | .isolateOutputs => orderIsolate d s
  | .restoreOutputs => orderRestore d s
  | .setTime => orderSetTime d s
  | .setJournal => orderSetJournal d s
  | .flushJournal => orderFlushJournal s
  | .enterService => orderEnterService s
  | .leaveService => orderLeaveService s
  | .lock => orderLock d s
  | .unlock => orderUnlock s

/-- Steps 2 to 5 of R168: the kind, the locks, the part state, and the owner. -/
def judgeOrder (kind : Nat) (n : Fin 16) (d : List Byte) (s : State) : State × Taken :=
  match OrderKind.ofCode kind with
  | none => reply .unknownOrder s
  | some k =>
    if barred s.engine k then reply .refusedLocked s
    else if k = .remoteTrip ∧ s.engine.part ≠ .inService then reply .refusedState s
    else applyOrder k n d s

/-- The DONE write of an order that its owner has finished; an order in flight keeps its slot TAKEN (R168, R169). -/
def endTake (n : Fin 16) (x : State × Taken) : State :=
  match x.2 with
  | .done r data => finish n r data x.1
  | .flying => x.1

/-- A slot is taken (R168): its words are read, TAKEN is written, and the order is judged. -/
def takeSlot (n : Fin 16) (s : State) : State :=
  let kind := (s.mem.readWord (slotBase n + 2)).toNat
  let d := s.mem.readBytes (slotBase n + 8) 24
  endTake n (judgeOrder kind n d (s.putWord (slotBase n) 2))

/-! ## Walks (R167) -/

/-- One slot of a walk: it is taken when its state word reads POSTED and it holds no order in flight, and the take
cursor then moves to the slot after it. -/
def walkSlot (s : State) (n : Fin 16) : State :=
  if s.mem.readWord (slotBase n) = 1 ∧ s.inFlight n = false then
    let s1 := takeSlot n s
    { s1 with engine := { s1.engine with cursor := n + 1 } }
  else s

/-- A walk: the sixteen slots in cyclic order from the take cursor. -/
def walk (s : State) : State := ((List.finRange 16).map fun j => s.engine.cursor + j).foldl walkSlot s

/-- The end of STARTING (R173): STANDBY, its two places written, ALERT raised. -/
def leaveStarting (s : State) : State :=
  if s.engine.part = .starting then
    (State.showPart { s with engine := { s.engine with part := .standby } }).raiseAlert
  else s

/-- ORDER_TABLE_WALK: the walk of the 20 ms schedule, at every whole multiple of 20 ms from run time 20 on, once
(R167); the first one ends STARTING (R173). -/
def execOrderTableWalk (s : State) : Host.Outcome State Fault Refusal :=
  .next (if s.now % 20 = 0 ∧ s.sched.walkFrom ≤ s.now then
      walk (leaveStarting { s with sched := { s.sched with walkFrom := s.now + 1 } })
    else s)

/-! ## Registers (R161, R164, R181) -/

/-- The Order Engine's part of a notice: a walk, but none while the part state is STARTING (R161). -/
def noticeWalk (s : State) : State := if s.engine.part = .starting then s else walk s

/-- An opening attempt of a WAITING journal (R149, R150). -/
def retryOpening (s : State) : State := if s.journal.waiting then attempt reportNow s else s

/-- NOTICE: a write of any value; each block takes it in its own event, and either may be first (R161). -/
def execNotice (_value : Word) (order : NoticeOrder) (s : State) : Host.Outcome State Fault Refusal :=
  .next (match order with
    | .walkFirst => retryOpening (noticeWalk s)
    | .journalFirst => noticeWalk (retryOpening s))

/-- ALERT_CLEAR: a write of any value takes ALERT down, takes the seen copies, and writes all four counts (R164). -/
def execAlertClear (_value : Word) (s : State) : Host.Outcome State Fault Refusal :=
  let e := s.engine
  .next (State.putWords
    [(18, e.pagesClosed), (20, e.ordersFinished), (22, e.pagesClosed), (24, e.ordersFinished)]
    { s with engine := { e with alert := false, pagesSeen := e.pagesClosed, ordersSeen := e.ordersFinished } })

/-- DISCARDED_REGISTER_WRITE: a write of CONDITION or of the register words 3 to 7 is discarded, whatever the higher
address lines and the value (R162, R181). -/
def execDiscardedRegisterWrite (_reg : DiscardedReg) (_lines : BitVec 12) (_value : Word) (s : State) :
    Host.Outcome State Fault Refusal :=
  .next s

/-- The slot that holds byte a, if a lies in pages 1 and 2 (section 11.5). -/
def slotAt (a : Nat) : Option (Fin 16) := if 256 ≤ a ∧ a < 768 then some (Fin.ofNat 16 ((a - 256) / 32)) else none

/-- Whether byte a lies in a slot that holds an order in flight (R166). -/
def State.slotLocked (s : State) (a : Nat) : Bool :=
  match slotAt a with
  | none => false
  | some n => s.inFlight n

/-- HOST_WORD_WRITE: a word of exchange memory takes the host's value, and reaches no item of the part; a write to a slot
that holds an order in flight is discarded (R160, R166). -/
def execHostWordWrite (addr : BitVec 15) (value : Word) (s : State) : Host.Outcome State Fault Refusal :=
  .next (if s.slotLocked (2 * addr.toNat) then s else s.putWord (2 * addr.toNat) value)

/-! ## Segment reads (R171, R172) -/

/-- The long order in flight of a kind. -/
def State.job (s : State) : ImageOrder → Option ImageJob
  | .loadPoints => s.engine.loadPoints
  | .loadMatrix => s.engine.loadMatrix

/-- The state with the long order in flight of a kind replaced. -/
def State.setJob (o : ImageOrder) (j : Option ImageJob) (s : State) : State :=
  match o with
  | .loadPoints => { s with engine := { s.engine with loadPoints := j } }
  | .loadMatrix => { s with engine := { s.engine with loadMatrix := j } }

/-- The six checks of a segment read, in order (R171). -/
def segmentFault (j : ImageJob) (index length next : Nat) : Option Result :=
  let total := j.payload.length + length
  if j.page < 7 ∨ 255 < j.page then some .refusedPage
  else if index ≠ j.index then some .refusedChain
  else if length = 0 ∨ 248 < length then some .refusedChain
  else if j.byteLength < total then some .refusedLength
  else if next = 0 ∧ total < j.byteLength then some .refusedLength
  else if next ≠ 0 ∧ 14 ≤ j.index then some .refusedChain
  else none

/-- Where a chain refusal's result data give the segment index and its page (section 11.5). -/
def chainData : ImageOrder → Nat
  | .loadPoints => 6
  | .loadMatrix => 8

/-- The owner ends a long order at a refusal of its chain (R19, R89). -/
def refuseChain (o : ImageOrder) (r : Result) (d : List Byte) (s : State) : State × Result × List Byte :=
  match o with
  | .loadPoints => (s, r, d)
  | .loadMatrix => refuseMatrix r d s

/-- The owner takes a complete image (R172). -/
def completeImage (o : ImageOrder) (bs : List Byte) (s : State) : State × Result × List Byte :=
  match o with
  | .loadPoints => completePoints bs s
  | .loadMatrix => completeMatrix bs s

/-- A long order leaves the orders in flight at its DONE write (R170). -/
def endImage (o : ImageOrder) (n : Fin 16) (x : State × Result × List Byte) : State :=
  finish n x.2.1 x.2.2 (x.1.setJob o none)

/-- A segment read (R171): the header and the payload of the page reached, as they stand.  A chain refusal gives the
segment's place in the chain, whatever index its header holds (log entry 30). -/
def readSegment (o : ImageOrder) (j : ImageJob) (s : State) : State :=
  let base := 256 * j.page
  let length := (s.mem.readWord (base + 2)).toNat
  let next := (s.mem.readWord (base + 4)).toNat
  match segmentFault j (s.mem.readWord base).toNat length next with
  | some r => endImage o j.slot (refuseChain o r (dataAt (chainData o) ([byte j.index, 0] ++ bytes2 j.page)) s)
  | none =>
    let payload := j.payload ++ s.mem.readBytes (base + 8) length
    if next = 0 then endImage o j.slot (completeImage o payload s)
    else s.setJob o (some { j with page := next, index := j.index + 1, payload := payload, nextRead := s.now + 1 })

/-- SEGMENT_READ: the next segment of the long order of a kind is read when its read time has come (R171). -/
def execSegmentRead (image : ImageOrder) (s : State) : Host.Outcome State Fault Refusal :=
  .next (match s.job image with
    | none => s
    | some j => if j.nextRead ≤ s.now then readSegment image j s else s)

/-! ## The Journal Unit's own events (R149, R151, R152) -/

/-- JOURNAL_RESCAN: at every whole multiple of 20 ms of run time from 20 on, once, a WAITING journal makes an opening
attempt (R149, R150). -/
def execJournalRescan (s : State) : Host.Outcome State Fault Refusal :=
  .next (if s.now % 20 = 0 ∧ s.sched.rescanFrom ≤ s.now then
      retryOpening { s with sched := { s.sched with rescanFrom := s.now + 1 } }
    else s)

/-- RECORD_WRITE: while a page is FILLING and a record is staged, the head record is written (R151). -/
def execRecordWrite (s : State) : Host.Outcome State Fault Refusal :=
  .next (if s.journal.filling ≠ none ∧ s.journal.queue ≠ [] then writeEvent reportNow s else s)

/-- FLUSH_DEADLINE: the FILLING page's flush deadline has come, and it closes with cause DELAY (R152). -/
def execFlushDeadline (s : State) : Host.Outcome State Fault Refusal :=
  .next (match s.journal.filling with
    | none => s
    | some f => if f.deadline ≤ s.now then closePage reportNow .delay f s else s)

end Sys2Proof.Machine
end

