-- ==== Sys2Proof/Machine/Resets.lean ====
section
/-! DEFINITION. The two resets (section 10.8 and each chapter's reset rules). -/

namespace Sys2Proof.Machine

/-- POWER_ON_RESET (R157, R178): every item at its Init. value, memory written anew, and the RESTART record offered as
the first record, whose opening attempt finds no entry GIVEN. -/
def execPowerOnReset (s : State) : Host.Outcome State Fault Refusal :=
  .next (offer powerOnRestart { State.init with pending := s.pending })

/-- The memory as the reset line finds it, with a FILLING page closed by steps 1 and 2 of R153 (R158 step 1). -/
def memoryAtReset (s : State) : Memory :=
  match s.journal.filling with
  | none => s.mem
  | some f => (s.mem.writeBytes (256 * f.page) (headerBytes f .reset)).writeWord (mapBase f.entry + 2) 3

/-- Every item at its value after the reset line, before the RESTART record is made: the map, the slots and pages 7 to
255 keep their contents, and the commissioning lock its value (R158, R179 steps 1 and 2). -/
def lineInit (s : State) : State :=
  { State.init with
    pending := s.pending
    mem := (memoryAtReset s).keptAtResetLine.writeWords (initWords (word (512 * bit s.engine.commissioning)))
    engine := { State.init.engine with commissioning := s.engine.commissioning } }

/-- The RESTART record of the reset line (R159): subject 1, the records discarded, the lost counts noted; day 0, ms 0,
TIME_INVALID. -/
def lineRestart (j : Journal) : Record :=
  { powerOnRestart with
    subject := 1, x0 := byte j.queue.length, x1 := byte j.highLost, x2 := byte (j.highLost / 256),
    x3 := byte j.lowLost, x4 := byte (j.lowLost / 256) }

/-- A slot that reads TAKEN is written DONE with ABANDONED (R179 step 3). -/
def abandonSlot (s : State) (n : Fin 16) : State :=
  if s.mem.readWord (slotBase n) = 2 then finish n .abandoned [] s else s

/-- RESET_LINE (R158, R179; log entry 23). -/
def execResetLine (s : State) : Host.Outcome State Fault Refusal :=
  .next ((List.finRange 16).foldl abandonSlot (offer (lineRestart s.journal) (lineInit s)))

end Sys2Proof.Machine
end

