-- ==== Sys2Proof/Machine/Dispatch.lean ====
section
/-! DEFINITION. One arm per command, each a direct call of its meaning. -/

namespace Sys2Proof.Machine

def exec (i : Instr) (s : State) : Host.Outcome State Fault Refusal :=
  match i with
  | .powerOnReset => Sys2Proof.Machine.execPowerOnReset s
  | .resetLine => Sys2Proof.Machine.execResetLine s
  | .notice value order => Sys2Proof.Machine.execNotice value order s
  | .alertClear value => Sys2Proof.Machine.execAlertClear value s
  | .discardedRegisterWrite reg lines value => Sys2Proof.Machine.execDiscardedRegisterWrite reg lines value s
  | .hostWordWrite addr value => Sys2Proof.Machine.execHostWordWrite addr value s
  | .orderTableWalk => Sys2Proof.Machine.execOrderTableWalk s
  | .segmentRead image => Sys2Proof.Machine.execSegmentRead image s
  | .scanFrame k => Sys2Proof.Machine.execScanFrame k s
  | .answerReceipt k bytes => Sys2Proof.Machine.execAnswerReceipt k bytes s
  | .answerLimit k rest => Sys2Proof.Machine.execAnswerLimit k rest s
  | .restartLinkDeadline k => Sys2Proof.Machine.execRestartLinkDeadline k s
  | .pendingChangeDeadline p => Sys2Proof.Machine.execPendingChangeDeadline p s
  | .leakStep => Sys2Proof.Machine.execLeakStep s
  | .settleDeadline g => Sys2Proof.Machine.execSettleDeadline g s
  | .buttonTestEnd k => Sys2Proof.Machine.execButtonTestEnd k s
  | .orderTestEnd k => Sys2Proof.Machine.execOrderTestEnd k s
  | .ringbackToneCycle z => Sys2Proof.Machine.execRingbackToneCycle z s
  | .tripInputSample lines => Sys2Proof.Machine.execTripInputSample lines s
  | .tripInputQualified n => Sys2Proof.Machine.execTripInputQualified n s
  | .onTimerExpiry o => Sys2Proof.Machine.execOnTimerExpiry o s
  | .feedbackSample current continuity => Sys2Proof.Machine.execFeedbackSample current continuity s
  | .operateDeadline o => Sys2Proof.Machine.execOperateDeadline o s
  | .releaseDeadline o => Sys2Proof.Machine.execReleaseDeadline o s
  | .openDeadline o => Sys2Proof.Machine.execOpenDeadline o s
  | .clearDeadline o => Sys2Proof.Machine.execClearDeadline o s
  | .supplySample present => Sys2Proof.Machine.execSupplySample present s
  | .supplyLost => Sys2Proof.Machine.execSupplyLost s
  | .supplySettleDeadline => Sys2Proof.Machine.execSupplySettleDeadline s
  | .syncPulse => Sys2Proof.Machine.execSyncPulse s
  | .syncMissDeadline => Sys2Proof.Machine.execSyncMissDeadline s
  | .journalRescan => Sys2Proof.Machine.execJournalRescan s
  | .recordWrite => Sys2Proof.Machine.execRecordWrite s
  | .flushDeadline => Sys2Proof.Machine.execFlushDeadline s
  | .runTimeRise => Sys2Proof.Machine.execRunTimeRise s

end Sys2Proof.Machine
end

