-- ==== Sys2Proof/Safety.lean ====
section
/-! DEFINITION. What claims are stated in: the relations that the manual says always hold between the items of the
part, and what an event may reach beside its own items. -/

namespace Sys2Proof.Machine

/-! ## Invariants, one per chapter -/

/-- The memory is in its one canonical form (section 10.1). -/
abbrev State.memoryHolds (s : State) : Prop := s.mem.wf = true

/-- The time of day lies within day 0-65535 and ms of day 0-86,399,999 (R129). -/
abbrev State.clockHolds (s : State) : Prop := s.time.day ≤ 65535 ∧ s.time.ms ≤ 86399999

/-- The laws of one point (R9, R10, R11, R17, R24), `w` being the weight of its class. -/
abbrev Point.holds (x : Point) (w : Nat) : Prop :=
  (x.settings.enabled = false → x.waiting = none ∧ x.bucket = 0 ∧ x.held = false ∧ x.shelved = false
    ∧ x.accepted = false ∧ x.seq = .quiet ∧ x.firstMark = false)
  ∧ (x.shelved = true → x.seq = .quiet ∧ x.firstMark = false)
  ∧ (x.shelved = false → (x.accepted = true ↔ x.seq = .alert ∨ x.seq = .standing))
  ∧ x.bucket ≤ 255
  ∧ (x.held = true → 0 < w ∧ x.waiting = none)
  ∧ (∀ c ∈ x.waiting, c.target = x.raw ∧ c.target ≠ x.accepted)

/-- Every point obeys the laws of a point. -/
abbrev State.pointsHold (s : State) : Prop := ∀ p, (nth s.points p).holds (s.classOf (nth s.points p)).weight

/-- No two enabled points that have windows name the same window (R19). -/
abbrev State.windowsHold (s : State) : Prop :=
  ∀ p q, p ≠ q → sharesWindow (nth s.points p).settings (nth s.points q).settings = false

/-- Each zone's counts are those of its points, its horn is the one its counts and flags give, and its line and cycle
follow the horn (R38, R39). -/
abbrev State.hornsHold (s : State) : Prop :=
  ∀ z, let x := nth s.zones z
    x.nAlert = (countZone s z fun q => decide (q = SeqState.alert) || decide (q = SeqState.alertCleared))
    ∧ x.nStanding = (countZone s z fun q => decide (q = SeqState.standing))
    ∧ x.nRingback = (countZone s z fun q => decide (q = SeqState.ringback))
    ∧ x.horn = x.judgeHorn
    ∧ (x.horn = .off → x.line = false)
    ∧ (x.horn = .alertTone → x.line = true)
    ∧ (x.toggle.isSome = true ↔ x.horn = .ringbackTone)

/-- A first mark is held by the candidate of a marked group and by no other point, and a marked group is LATCHED on a
point of its own; an ARMED group has its Init. values, and only a DECIDING group has a deadline (R47, R51, R54). -/
abbrev State.marksHold (s : State) : Prop :=
  (∀ p, (nth s.points p).firstMark = true → ∃ g, (nth s.groups g).marked = true ∧ (nth s.groups g).candidate = some p)
  ∧ ∀ g, let x := nth s.groups g
    (x.state = .armed → x = {})
    ∧ (x.state ≠ .armed → x.candidate ≠ none)
    ∧ (x.deadline.isSome = true ↔ x.state = .deciding)
    ∧ (x.marked = true → x.state = .latched)
    ∧ (∀ p ∈ x.candidate, x.marked = true →
        (nth s.points p).firstMark = true ∧ (nth s.points p).settings.group = some g)

/-- The contact states follow what they report: a trip point its input's qualified state, an internal point its owner's
condition, a field point its panel's contact; a link that is UP has no stale or unreported point (R1, R2, R16). -/
abbrev State.contactsHold (s : State) : Prop :=
  (∀ k j, let x := nth s.points (fieldPoint k j)
    (x.contact = .opened ∨ x.contact = .closed ∨ x.contact = .unreported)
    ∧ ((nth s.links k).state = .up → x.contact ≠ .unreported ∧ x.stale = false))
  ∧ (∀ i, (nth s.points (tripPoint i)).contact = contactOf (nth s.inputs i).qualified)
  ∧ (∀ o, (nth s.points (faultPoint o)).contact
      = if (nth s.outputs o).fault = .none then .absent else .present)
  ∧ (∀ k, (nth s.points (linkPoint k)).contact = if (nth s.links k).state = .up then .absent else .present)
  ∧ (nth s.points 252).contact = (if s.journal.waiting then .present else .absent)
  ∧ (nth s.points 253).contact
      = (if s.journal.highLost = 0 ∧ s.journal.lowLost = 0 then .absent else .present)
  ∧ (nth s.points 254).contact = (if s.time.fault then .present else .absent)
  ∧ (nth s.points 255).contact = (if s.supply.state = .lost then .present else .absent)

/-- The laws of one link (R64, R66, R68, R69, R73, R75, R77). -/
abbrev Link.holds (l : Link) : Prop :=
  (l.state = .disabled ↔ l.enabled = false)
  ∧ (l.state = .up → l.miss ≤ 2 ∧ l.validRun = 0)
  ∧ (l.state ≠ .up → l.buttons = {})
  ∧ (l.restart.isSome = true → l.state = .starting ∨ l.state = .lost)
  ∧ l.validRun ≤ 2 ∧ l.miss ≤ 255 ∧ l.latency ≤ 15 ∧ l.entriesLost ≤ 255
  ∧ (l.state = .disabled → l.awaiting = false)

/-- Every link obeys the laws of a link. -/
abbrev State.linksHold (s : State) : Prop := ∀ k, (nth s.links k).holds

/-- The laws of one trip input: a run counts samples away from the qualified state, has a start, and is short of the
count of its latest sample, which is at most 15 (R81, R82). -/
abbrev TripInput.holds (x : TripInput) : Prop :=
  (x.level = x.qualified ∧ x.run = 0 ∧ x.start = none)
  ∨ (x.level ≠ x.qualified ∧ 0 < x.run ∧ x.run < x.qSampled ∧ x.qSampled ≤ 15 ∧ x.start ≠ none)

/-- Every trip input obeys the laws of an input. -/
abbrev State.inputsHold (s : State) : Prop := ∀ i, (nth s.inputs i).holds

/-- A bank of this state is LOADING exactly while a LOAD MATRIX is in flight into it, and its counts lie in 1-15
(R87 to R89). -/
abbrev bankHolds (s : State) (bk : BankId) : Prop :=
  (s.active = some bk → (s.bank bk).state = .valid)
  ∧ ((s.bank bk).state = .loading ↔ s.engine.loadMatrix.isSome = true ∧ bk = s.standby)
  ∧ ∀ i, 1 ≤ (nth (s.bank bk).entries i).q ∧ (nth (s.bank bk).entries i).q ≤ 15

/-- The active bank is VALID (R91), and both banks obey their laws. -/
abbrev State.banksHold (s : State) : Prop := bankHolds s .a ∧ bankHolds s .b

/-- The laws of one output (R97, R98, R100 to R103), with the mode of its profile and whether it is driven. -/
abbrev Output.holds (x : Output) (m : Mode) (part : PartState) (driven : Bool) : Prop :=
  (x.state = .off → x.onTimer = none ∧ x.minPassed = false)
  ∧ (x.state ≠ .off → part = .inService ∧ x.isolated = false)
  ∧ (x.state = .on → m ≠ .latch ∧ (x.onTimer = none → x.minPassed = true))
  ∧ (x.state = .latched → m = .latch ∧ x.onTimer = none)
  ∧ (x.minPassed = true → m = .follow ∧ x.onTimer = none ∧ driven = true)

/-- No output is energized outside IN_SERVICE or while isolated, and each output's items agree with its state. -/
abbrev State.outputsHold (s : State) : Prop :=
  ∀ o, (nth s.outputs o).holds (s.profileOf (nth s.outputs o)).mode s.engine.part (s.driven o)

/-- A supervision timer runs only while its condition holds (R117, R124). -/
abbrev State.timersHold (s : State) : Prop :=
  ∀ o, let x := nth s.outputs o
    (x.operate.isSome = true → s.supplyPresent = true ∧ x.operateWatched = true)
    ∧ (x.release.isSome = true → s.supplyPresent = true ∧ x.releaseWatched = true)
    ∧ (x.opening.isSome = true → s.supplyPresent = true ∧ x.openWatched = true)
    ∧ (x.clearing.isSome = true → s.supplyPresent = true ∧ x.clearWatched = true)

/-- The trip supply's items agree with its state (R123): below ten absent samples, and a settle deadline in SETTLING
only. -/
abbrev State.supplyHolds (s : State) : Prop :=
  s.supply.absence ≤ 9 ∧ (s.supply.state = .lost → s.supply.absence = 0)
    ∧ (s.supply.settle.isSome = true ↔ s.supply.state = .settling)

/-- The laws of the journal (R140, R143, R144, R147, R149, R154): the queue's bound and its consecutive numbers; the
FILLING page's bounds; records wait without a FILLING page only while the journal is WAITING; a first loss is noted
exactly while a count stands. -/
abbrev State.journalHolds (s : State) : Prop :=
  let j := s.journal
  j.queue.length ≤ 48
  ∧ (∀ i : Fin j.queue.length, j.queue[i].seq = j.nextSeq - BitVec.ofNat 16 (j.queue.length - i.val))
  ∧ (∀ f ∈ j.filling, 1 ≤ f.count ∧ f.count ≤ 14 ∧ 7 ≤ f.page ∧ f.page ≤ 255 ∧ f.entry = j.cursor)
  ∧ (j.waiting = true ↔ j.filling = none ∧ j.queue ≠ [])
  ∧ (j.firstLoss.isSome = true ↔ ¬(j.highLost = 0 ∧ j.lowLost = 0))
  ∧ (j.firstLossHigh.isSome = true ↔ ¬(j.highLost = 0 ∧ j.lowLost = 0))
  ∧ j.highLost ≤ 65535 ∧ j.lowLost ≤ 65535 ∧ 1 ≤ j.flushDelay ∧ j.flushDelay ≤ 255 ∧ j.mask < 32

/-- The slots of the orders in flight (R170). -/
def State.flying (s : State) : List (Fin 16) :=
  (s.engine.loadPoints.toList.map (·.slot)) ++ (s.engine.loadMatrix.toList.map (·.slot))
    ++ (List.finRange 4).filterMap fun k => (nth s.links k).restart.map (·.1)

/-- Every order in flight has a slot of its own, which reads TAKEN (R166, R170). -/
abbrev State.slotsHold (s : State) : Prop :=
  s.flying.Nodup ∧ ∀ n ∈ s.flying, s.mem.readWord (slotBase n) = 2

/-- Between events no condition report waits for the Point Filter (log entry 6). -/
abbrev State.nothingDue (s : State) : Prop := s.due = []

/-- All of them. -/
structure State.Sound (s : State) : Prop where
  memory : s.memoryHolds
  clock : s.clockHolds
  points : s.pointsHold
  windows : s.windowsHold
  horns : s.hornsHold
  marks : s.marksHold
  contacts : s.contactsHold
  links : s.linksHold
  inputs : s.inputsHold
  banks : s.banksHold
  outputs : s.outputsHold
  timers : s.timersHold
  supply : s.supplyHolds
  journal : s.journalHolds
  slots : s.slotsHold
  due : s.nothingDue

/-! ## What an event may reach beside its own items -/

/-- What the making of records and of condition reports may change: memory, points, zones, groups and the journal, and
nothing else of the part. -/
structure SideOnly (s t : State) : Prop where
  pending : t.pending = s.pending
  time : t.time = s.time
  classes : t.classes = s.classes
  panels : t.panels = s.panels
  settleWindow : t.settleWindow = s.settleWindow
  links : t.links = s.links
  inputs : t.inputs = s.inputs
  bankA : t.bankA = s.bankA
  bankB : t.bankB = s.bankB
  active : t.active = s.active
  outputs : t.outputs = s.outputs
  profiles : t.profiles = s.profiles
  supply : t.supply = s.supply
  engine : t.engine = s.engine
  sched : t.sched = s.sched

/-- The bytes that the making of records and of reports of points 252 and 253 may write: the journal map and status
(section 11.6), the two points' mirror words, the zone and group entries, and pages 7 to 255. -/
abbrev recordByte (a : Nat) : Prop :=
  (768 ≤ a ∧ a < 912) ∨ (1528 ≤ a ∧ a < 1532) ∨ (1536 ≤ a ∧ a < 1624) ∨ 1792 ≤ a

/-- Memory differs only at bytes that `A` names. -/
def sameMemoryBut (A : Nat → Prop) (m m' : Memory) : Prop := ∀ a, ¬A a → m'.read a = m.read a

/-- Points differ only where `P` says. -/
def samePointsBut (P : Fin 256 → Prop) (s t : State) : Prop := ∀ p, ¬P p → nth t.points p = nth s.points p

/-- A point of the Journal Unit's own conditions (R2). -/
abbrev journalPoint (p : Fin 256) : Prop := p = 252 ∨ p = 253

/-! ## Records -/

/-- The queue has the places a record of this priority asks for (R143), and its admission leads to no opening attempt: a
page is FILLING or the journal is WAITING (R149). -/
abbrev State.roomy (s : State) (high : Bool) : Prop :=
  s.journal.queue.length + placesNeeded high ≤ 48 ∧ (s.journal.filling ≠ none ∨ s.journal.waiting = true)

/-- When there is room for a record, it is the next one of the queue: it follows those staged before, with the next
record sequence number, and whatever the event brings after it follows it. -/
def recordJoins (r : Record) (s t : State) : Prop :=
  s.roomy r.high → s.journal.queue ++ [{ r with seq := s.journal.nextSeq }] <+: t.journal.queue

/-- When there is room for several records, the last of them of any priority, they are the next ones of the queue, in
this order. -/
def recordsJoin (rs : List Record) (s t : State) : Prop :=
  s.journal.queue.length + rs.length + 8 ≤ 48 → s.journal.filling ≠ none ∨ s.journal.waiting = true →
    s.journal.queue ++ rs.mapIdx (fun i r => { r with seq := s.journal.nextSeq + BitVec.ofNat 16 i }) <+: t.journal.queue

/-! ## The journal map -/

/-- The map entry n places after e, 31 followed by 0. -/
abbrev entryAfter (e : Fin 32) (n : Nat) : Fin 32 := e + Fin.ofNat 32 n

/-- The first n map entries from e on are GIVEN with pages that are not usable (R147, R148). -/
abbrev unusableFrom (m : Memory) (e : Fin 32) (n : Nat) : Prop :=
  n ≤ 32 ∧ ∀ j : Fin 32, j.val < n → m.readWord (mapBase (e + j) + 2) = 1
    ∧ ((m.readWord (mapBase (e + j))).toNat < 7 ∨ 255 < (m.readWord (mapBase (e + j))).toNat)

/-- The first n map entries from e on read REJECTED (R149). -/
abbrev rejectedFrom (m : Memory) (e : Fin 32) (n : Nat) : Prop :=
  ∀ j : Fin 32, j.val < n → m.readWord (mapBase (e + j) + 2) = 4

/-- The bytes of the state words of the first n map entries from e on (section 11.6). -/
abbrev rejectedByte (e : Fin 32) (n : Nat) (a : Nat) : Prop :=
  ∃ j : Fin 32, j.val < n ∧ (a = mapBase (e + j) + 2 ∨ a = mapBase (e + j) + 3)

/-! ## Supervision -/

/-- An output after its supervision has been judged at run time `now` with the supply PRESENT, from the output x with the
feedback and the drive it then has (R117 to R120): FAIL_TO_OPERATE has cleared when the output is de-energized without
CURRENT, and each timer runs on, starts or is none by its condition under the fault that results. -/
def Output.judgedPresent (x : Output) (now : Nat) : Output :=
  let fault := if x.fault = .failToOperate ∧ x.state = .off ∧ x.feedback ≠ .current then SupFault.none else x.fault
  { x with
    fault := fault
    operate := if x.state ≠ .off ∧ fault ≠ .failToOperate ∧ x.seen = false then some (x.operate.getD (now + 20)) else none
    release := if x.state = .off ∧ fault ≠ .failToRelease ∧ x.feedback = .current then
        some (x.release.getD (now + 20)) else none
    opening := if x.state = .off ∧ x.supervised = true ∧ x.isolated = false ∧ fault ≠ .circuitOpen
        ∧ x.feedback = .opened then some (x.opening.getD (now + 500)) else none
    clearing := if (fault = .failToRelease ∧ x.feedback ≠ .current)
        ∨ (fault = .circuitOpen ∧ x.state = .off ∧ x.feedback = .continuity) then
        some (x.clearing.getD (now + 500)) else none }

/-- An output with no supervision timer. -/
def Output.untimed (x : Output) : Output := { x with operate := none, release := none, opening := none, clearing := none }

/-! ## Orders -/

/-- Slot n holds an order of kind k with these 24 parameter bytes (section 11.5). -/
abbrev State.holdsOrder (s : State) (n : Fin 16) (k : OrderKind) (d : List Byte) : Prop :=
  (s.mem.readWord (slotBase n + 2)).toNat = k.code ∧ s.mem.readBytes (slotBase n + 8) 24 = d

/-- Slot n reads DONE with a result code and its result data, 0 where they name nothing (R169). -/
structure SlotDone (m : Memory) (n : Fin 16) (r : Result) (data : List Byte) : Prop where
  state : m.readWord (slotBase n) = 3
  result : m.readWord (slotBase n + 6) = word r.code
  data : m.readBytes (slotBase n + 8) 24 = resultData data

/-- The bytes a DONE write may change: the slot's but for kind and tag, and the orders-finished count of the summary block
(R169). -/
abbrev doneByte (n : Fin 16) (a : Nat) : Prop :=
  (slotBase n ≤ a ∧ a < slotBase n + 2) ∨ (slotBase n + 6 ≤ a ∧ a < slotBase n + 32) ∨ a = 20 ∨ a = 21

/-- The Order Engine's items after a DONE write (R169 steps 4 and 5). -/
def Engine.counted (e : Engine) : Engine := { e with ordersFinished := e.ordersFinished + 1, alert := true }

/-- An order has finished and changed nothing but its slot, the count and ALERT. -/
structure OrderEnds (n : Fin 16) (r : Result) (data : List Byte) (s t : State) : Prop where
  slot : SlotDone t.mem n r data
  rest : t = { s with engine := s.engine.counted, mem := t.mem }
  memory : sameMemoryBut (doneByte n) s.mem t.mem

/-- An order has finished and left the state u but for its DONE write and what its records reach: memory also at the
bytes of `A`, points also at those of `P`. -/
structure OrderDone (n : Fin 16) (r : Result) (data : List Byte) (P : Fin 256 → Prop) (A : Nat → Prop) (s u t : State) :
    Prop where
  slot : SlotDone t.mem n r data
  rest : SideOnly { u with engine := u.engine.counted } t
  points : samePointsBut P u t
  memory : sameMemoryBut (fun a => doneByte n a ∨ A a) s.mem t.mem

/-- The bytes of link k's mirror entry (section 11.9). -/
abbrev linkByte (k : Fin 4) (a : Nat) : Prop := hallBase + 208 + 8 * k.val ≤ a ∧ a < hallBase + 208 + 8 * k.val + 8

/-- The bytes of a point's mirror word (section 11.8). -/
abbrev pointByte (p : Fin 256) (a : Nat) : Prop := a = pointAddr p ∨ a = pointAddr p + 1

/-- The bytes of the point mirror, pages 4 and 5 (section 11.8). -/
abbrev mirrorByte (a : Nat) : Prop := 1024 ≤ a ∧ a < 1536

/-- The bytes of a zone's entry (section 11.9). -/
abbrev zoneByte (z : Fin 8) (a : Nat) : Prop := hallBase + 6 * z.val ≤ a ∧ a < hallBase + 6 * z.val + 6

/-- The bytes of a group's state word and of its candidate word (section 11.9). -/
abbrev groupByte (g : Fin 16) (a : Nat) : Prop :=
  a / 2 = (hallBase + 48) / 2 + g.val / 4 ∨ a / 2 = (hallBase + 56) / 2 + g.val

/-- The bytes of the trip inputs' entries (section 11.9). -/
abbrev inputByte (a : Nat) : Prop := hallBase + 88 ≤ a ∧ a < hallBase + 128

/-- The bytes of the outputs' entries and of the supervision bytes (section 11.9). -/
abbrev outputsByte (a : Nat) : Prop := hallBase + 128 ≤ a ∧ a < hallBase + 200

/-- The bytes of an output's entry and of the word that holds its supervision byte (section 11.9). -/
abbrev outputByte (o : Fin 24) (a : Nat) : Prop :=
  a / 2 = (hallBase + 128) / 2 + o.val ∨ a / 2 = (hallBase + 176) / 2 + o.val / 2

/-- The bytes of the supply entry (section 11.9). -/
abbrev supplyByte (a : Nat) : Prop := a = hallBase + 242 ∨ a = hallBase + 243

end Sys2Proof.Machine
end

