-- ==== Sys2Proof/Certificates/Slice0/Obligations.lean ====
section
/-! DEFINITION. The statements for the provers. -/

section

open Sys2Proof Sys2Proof.Machine

/-! ## The queue of commands and the registers -/

/-- The model's choice (log entry 1): a step takes the command at the front of the queue, with the queue's rest. -/
def Obligations.StepTakesFrontCommand : Prop :=
  ∀ (c : Instr) (rest : List Instr) (s : State), s.pending = c :: rest → step s = exec c { s with pending := rest }

/-- Every command, whatever the state, gives a next state: no rule of the manual stops the part, and a command whose moment
has not come leaves the state as it is (the model's choice, log entry 4). It leaves the commands behind it waiting: the
queue of commands is the model's own (log entry 1). -/
def Obligations.EveryCommandGivesNextState : Prop :=
  ∀ (c : Instr) (s : State), ∃ t, exec c s = .next t ∧ t.pending = s.pending

/-- A read of a register word address, of which only the low three bits count: 0 but at CONDITION, and what CONDITION
shows there (R162, R181, section 11.2). -/
def Obligations.ConditionShowsItems : Prop :=
  ∀ (s : State) (addr : BitVec 15),
    (addr.toNat % 8 ≠ 1 → s.readRegister addr = 0) ∧ (addr.toNat % 8 = 1 → s.readRegister addr = s.condition)
    ∧ (s.condition.extractLsb' 0 2 = match s.engine.part with | .starting => 0 | .standby => 1 | .inService => 2)
    ∧ s.condition.getLsbD 2 = s.engine.alert ∧ s.condition.getLsbD 3 = s.engine.service
    ∧ s.condition.getLsbD 4 = s.engine.commissioning ∧ s.condition.getLsbD 5 = s.journal.waiting
    ∧ s.condition.getLsbD 6 = s.time.valid ∧ s.condition.extractLsb' 7 9 = 0

/-- A write of CONDITION or of register words 3 to 7 is discarded; a write of a register word address is, by its low three
bits alone, a notice, an ALERT CLEAR or such a discarded write (R161, R162, R164, R181). -/
def Obligations.DiscardedWriteChangesNothing : Prop :=
  ∀ (reg : DiscardedReg) (lines : BitVec 12) (v : Word) (addr : BitVec 15) (o : NoticeOrder) (s : State),
    exec (.discardedRegisterWrite reg lines v) s = .next s
    ∧ (addr.toNat % 8 = 0 → registerWrite addr v o = .notice v o)
    ∧ (addr.toNat % 8 = 2 → registerWrite addr v o = .alertClear v)
    ∧ (addr.toNat % 8 = 1 ∨ 3 ≤ addr.toNat % 8 → exec (registerWrite addr v o) s = .next s)

/-- ALERT CLEAR takes ALERT down and takes the seen copies, whatever the value and whether ALERT was raised; the four
counts are written into the summary block, and nothing else changes. A host write of the register is this command, and a
read of it returns 0 (R164). -/
def Obligations.AlertClearTakesSeenCopies : Prop :=
  ∀ (v : Word) (addr : BitVec 15) (o : NoticeOrder) (s : State), s.mem.wf = true →
    (∃ t, exec (.alertClear v) s = .next t
      ∧ t = { s with
          engine := { s.engine with
            alert := false, pagesSeen := s.engine.pagesClosed, ordersSeen := s.engine.ordersFinished }
          mem := t.mem }
      ∧ t.mem.readWord 18 = s.engine.pagesClosed ∧ t.mem.readWord 20 = s.engine.ordersFinished
      ∧ t.mem.readWord 22 = s.engine.pagesClosed ∧ t.mem.readWord 24 = s.engine.ordersFinished
      ∧ sameMemoryBut (fun a => 18 ≤ a ∧ a < 26) s.mem t.mem)
    ∧ (addr.toNat % 8 = 2 → registerWrite addr v o = .alertClear v ∧ s.readRegister addr = 0)

/-- A host write lands in its word and reaches no item of the part, and one to a slot that holds an order in flight is
discarded (R160, R166). -/
def Obligations.HostWriteLandsOrIsDiscarded : Prop :=
  ∀ (addr : BitVec 15) (v : Word) (s : State), s.mem.wf = true →
    ((∀ n, s.inFlight n = true → 2 * addr.toNat < slotBase n ∨ slotBase n + 32 ≤ 2 * addr.toNat) →
      ∃ t, exec (.hostWordWrite addr v) s = .next t ∧ t = { s with mem := t.mem }
        ∧ t.mem.readWord (2 * addr.toNat) = v
        ∧ sameMemoryBut (fun a => a = 2 * addr.toNat ∨ a = 2 * addr.toNat + 1) s.mem t.mem)
    ∧ ∀ n, s.inFlight n = true → slotBase n ≤ 2 * addr.toNat → 2 * addr.toNat < slotBase n + 32 →
      exec (.hostWordWrite addr v) s = .next s

/-! ## Resets -/

/-- Power-on reset puts the whole part to its reset state, whatever it was (R178); the commands behind it wait on.
Model's choice: the reset values of log entry 9. -/
def Obligations.PowerOnResetGivesResetState : Prop :=
  ∀ s : State, exec .powerOnReset s = .next { State.reset with pending := s.pending }

/-- The reset line: every block at its Init. values but the commissioning lock (R179); the FILLING page closed with
cause RESET, and RESTART the one record made (R158, R159), whose opening attempt rejects the n map entries from 0 on that
are GIVEN with unusable pages, and then opens the next one if it is GIVEN, with RESTART as its first record, or leaves
the journal WAITING; every TAKEN slot DONE with ABANDONED, every other slot, every other map entry and the free pages as
they were, and the rest of memory at its Init. values but the commissioning lock, the count and the journal's status
(R179). Model's choices: log entries 9, 11 and 23, and that words which no structure uses are cleared beside the written
ones (log entry 32). -/
def Obligations.ResetLineKeepsWhatItMust : Prop :=
  ∀ (n : Nat) (s : State), s.mem.wf = true → (∀ f ∈ s.journal.filling, 7 ≤ f.page ∧ f.page ≤ 255) →
    let given := fun e : Fin 32 => s.mem.readWord (mapBase e + 2) = 1 ∧ ∀ f ∈ s.journal.filling, f.entry ≠ e
    let usable := fun e : Fin 32 =>
      7 ≤ (s.mem.readWord (mapBase e)).toNat ∧ (s.mem.readWord (mapBase e)).toNat ≤ 255
    n ≤ 32 → (∀ j : Fin 32, j.val < n → given j ∧ ¬usable j) →
    let e : Fin 32 := Fin.ofNat 32 n
    let page := (s.mem.readWord (mapBase e)).toNat
    let opens := n < 32 ∧ given e
    (opens → usable e) →
    let r : Record := { powerOnRestart with
      subject := 1, x0 := byte s.journal.queue.length, x1 := byte s.journal.highLost,
      x2 := byte (s.journal.highLost / 256), x3 := byte s.journal.lowLost, x4 := byte (s.journal.lowLost / 256) }
    ∃ t, exec .resetLine s = .next t
      ∧ SideOnly { State.reset with pending := s.pending, engine := t.engine } t
      ∧ t.zones = State.reset.zones ∧ t.groups = State.reset.groups ∧ t.settleWindow = 0
      ∧ t.engine = { commissioning := s.engine.commissioning, alert := t.engine.alert,
                     ordersFinished := t.engine.ordersFinished }
      ∧ t.engine.ordersFinished
          = BitVec.ofNat 16 ((List.finRange 16).countP fun n => decide (s.mem.readWord (slotBase n) = 2))
      ∧ (t.engine.alert = true ↔ ∃ n, s.mem.readWord (slotBase n) = 2)
      ∧ (∀ n, s.mem.readWord (slotBase n) = 2 → SlotDone t.mem n .abandoned [])
      ∧ (∀ n a, s.mem.readWord (slotBase n) ≠ 2 → slotBase n ≤ a → a < slotBase n + 32 → t.mem.read a = s.mem.read a)
      ∧ (∀ f ∈ s.journal.filling, t.mem.readWord (mapBase f.entry + 2) = 3
          ∧ t.mem.readBytes (256 * f.page) 16 = headerBytes f .reset)
      ∧ rejectedFrom t.mem 0 n
      ∧ (∀ a, 768 ≤ a → a < 896 → (∀ f ∈ s.journal.filling, a ≠ mapBase f.entry + 2 ∧ a ≠ mapBase f.entry + 3) →
          ¬rejectedByte 0 n a → ¬(opens ∧ (a = mapBase e + 2 ∨ a = mapBase e + 3)) → t.mem.read a = s.mem.read a)
      ∧ (∀ a, 1792 ≤ a → (∀ f ∈ s.journal.filling, ¬(256 * f.page ≤ a ∧ a < 256 * f.page + 16)) →
          ¬(opens ∧ 256 * page + 16 ≤ a ∧ a < 256 * page + 32) → t.mem.read a = s.mem.read a)
      ∧ (∀ a, (a < 256 ∧ a ≠ 17 ∧ a ≠ 20 ∧ a ≠ 21) ∨ (896 ≤ a ∧ a < 1792 ∧ ¬(opens ∧ a < 910) ∧ a ≠ 899) →
          t.mem.read a = State.reset.mem.read a)
      ∧ t.mem.read 17 = byte (2 * bit s.engine.commissioning) ∧ t.mem.readWord 20 = t.engine.ordersFinished
      ∧ t.mem.read 899 = byte e.val
      ∧ (¬opens → t.points = State.reset.points
          ∧ t.journal = { State.reset.journal with queue := [r], cursor := e })
      ∧ (opens → t.points = State.init.points
          ∧ t.journal = { State.init.journal with
              nextSeq := 1, nextPage := 1, cursor := e,
              filling := some { entry := e, page := page, pageSeq := 0, count := 1, firstSeq := 0, deadline := 500 } }
          ∧ t.mem.readWord (mapBase e + 2) = 2 ∧ t.mem.readBytes (256 * page + 16) 16 = r.bytes
          ∧ t.mem.readWord 896 = 0 ∧ t.mem.read 898 = 0 ∧ t.mem.readWord 900 = 0 ∧ t.mem.readWord 902 = 0
          ∧ t.mem.readWord 904 = word (e.val + 256) ∧ t.mem.readWord 906 = 1 ∧ t.mem.readWord 908 = 1)

/-! ## The journal -/

/-- A record offered within an event of the alarm side (R143, R144). It is admitted while its priority's places are
free: it joins the tail with the next record sequence number, and the occupancy and that number are written; with a page
FILLING or the journal WAITING nothing else changes. With neither, and no other record staged, the admission makes an
opening attempt (R149): the n entries at the cursor that are GIVEN with unusable pages are rejected; then an entry that
is not GIVEN leaves the journal WAITING with point 252 reported present (R150), and one with a usable page is opened and
takes the record. Otherwise the record is counted in the lost count of its priority, which saturates and is written; the
first loss notes the stamp and the priority and reports point 253 present, and a later one changes the count alone.
Model's choice: the reports of points 252 and 253 wait in `due` (log entry 6). -/
def Obligations.RecordAdmittedOrCounted : Prop :=
  ∀ (n : Nat) (r : Record) (s : State),
    let places := if r.high then 1 else 9
    let t := offerInside r s
    let numbered := { r with seq := s.journal.nextSeq }
    (s.journal.queue.length + places ≤ 48 → (s.journal.filling ≠ none ∨ s.journal.waiting = true) →
      t = { s with
        journal := { s.journal with
          queue := s.journal.queue ++ [numbered], nextSeq := s.journal.nextSeq + 1 }
        mem := t.mem }
      ∧ sameMemoryBut (fun a => (898 ≤ a ∧ a < 900) ∨ (906 ≤ a ∧ a < 908)) s.mem t.mem
      ∧ (s.mem.wf = true → t.mem.readWord 898 = word (s.journal.queue.length + 1 + 256 * s.journal.cursor.val)
          ∧ t.mem.readWord 906 = s.journal.nextSeq + 1))
    ∧ (s.journal.queue = [] → s.journal.filling = none → s.journal.waiting = false → s.mem.wf = true →
      unusableFrom s.mem s.journal.cursor n →
      let e := entryAfter s.journal.cursor n
      let page := (s.mem.readWord (mapBase e)).toNat
      (n = 32 ∨ s.mem.readWord (mapBase e + 2) ≠ 1 →
        t = { s with
          journal := { s.journal with
            queue := [numbered], nextSeq := s.journal.nextSeq + 1, cursor := e, waiting := true }
          due := s.due ++ [{ point := 252, present := true, run := s.now, stamp := s.stamp }]
          mem := t.mem }
        ∧ rejectedFrom t.mem s.journal.cursor n ∧ t.mem.readWord 896 = 1 ∧ t.mem.readWord 898 = word (1 + 256 * e.val)
        ∧ t.mem.readWord 906 = s.journal.nextSeq + 1
        ∧ sameMemoryBut (fun a => (896 ≤ a ∧ a < 900) ∨ (906 ≤ a ∧ a < 908) ∨ rejectedByte s.journal.cursor n a)
            s.mem t.mem)
      ∧ (n < 32 → s.mem.readWord (mapBase e + 2) = 1 → 7 ≤ page → page ≤ 255 → s.journal.highLost = 0 →
        s.journal.lowLost = 0 →
        t = { s with
          journal := { s.journal with
            nextSeq := s.journal.nextSeq + 1, nextPage := s.journal.nextPage + 1, cursor := e,
            filling := some {
              entry := e, page := page, pageSeq := s.journal.nextPage, count := 1, firstSeq := s.journal.nextSeq,
              deadline := s.now + 10 * s.journal.flushDelay } }
          mem := t.mem }
        ∧ rejectedFrom t.mem s.journal.cursor n ∧ t.mem.readWord (mapBase e + 2) = 2
        ∧ t.mem.readBytes (256 * page + 16) 16 = numbered.bytes ∧ t.mem.readWord 898 = word (256 * e.val)
        ∧ t.mem.readWord 904 = word (e.val + 256) ∧ t.mem.readWord 906 = s.journal.nextSeq + 1
        ∧ t.mem.readWord 908 = s.journal.nextPage + 1
        ∧ sameMemoryBut (fun a => (898 ≤ a ∧ a < 900) ∨ (904 ≤ a ∧ a < 910) ∨ rejectedByte s.journal.cursor n a
            ∨ a = mapBase e + 2 ∨ a = mapBase e + 3 ∨ (256 * page + 16 ≤ a ∧ a < 256 * page + 32)) s.mem t.mem))
    ∧ (48 < s.journal.queue.length + places →
      let first : Prop := s.journal.highLost = 0 ∧ s.journal.lowLost = 0
      t = { s with
        journal := { s.journal with
          highLost := t.journal.highLost, lowLost := t.journal.lowLost, firstLoss := t.journal.firstLoss,
          firstLossHigh := t.journal.firstLossHigh }
        due := t.due
        mem := t.mem }
      ∧ t.journal.highLost = (if r.high then min 65535 (s.journal.highLost + 1) else s.journal.highLost)
      ∧ t.journal.lowLost = (if r.high then s.journal.lowLost else min 65535 (s.journal.lowLost + 1))
      ∧ (first → t.journal.firstLoss = some s.stamp ∧ t.journal.firstLossHigh = some r.high
          ∧ t.due = s.due ++ [{ point := 253, present := true, run := s.now, stamp := s.stamp }])
      ∧ (¬first → t.journal.firstLoss = s.journal.firstLoss ∧ t.journal.firstLossHigh = s.journal.firstLossHigh
          ∧ t.due = s.due)
      ∧ (s.mem.wf = true → t.mem.readWord 900 = word t.journal.highLost ∧ t.mem.readWord 902 = word t.journal.lowLost)
      ∧ sameMemoryBut (fun a => 900 ≤ a ∧ a < 904) s.mem t.mem)

/-- RECORD_WRITE short of the 15th record: the head record's 16 bytes go into the next position of the FILLING page
and its place frees; with no loss counted nothing else changes but the count, and with one the OVERFLOW record of the
counts follows the records staged, and only point 253 and the bytes of the journal, of that point and of the zones and
groups can change beside (R151, R145). -/
def Obligations.RecordWriteMovesHeadIntoPage : Prop :=
  ∀ (f : Filling) (r : Record) (rest : List Record) (s : State), s.mem.wf = true → s.due = [] →
    s.journal.filling = some f → s.journal.queue = r :: rest → 7 ≤ f.page → f.page ≤ 255 → f.count < 14 →
    ∃ t, exec .recordWrite s = .next t
      ∧ t.mem.readBytes (256 * f.page + 16 + 16 * f.count) 16 = r.bytes
      ∧ t.journal.filling
          = some { f with count := f.count + 1, firstSeq := if f.count = 0 then r.seq else f.firstSeq }
      ∧ (s.journal.highLost = 0 → s.journal.lowLost = 0 →
          t = { s with journal := { s.journal with queue := rest, filling := t.journal.filling }, mem := t.mem }
          ∧ sameMemoryBut (fun a => (256 * f.page + 16 + 16 * f.count ≤ a ∧ a < 256 * f.page + 32 + 16 * f.count)
              ∨ (898 ≤ a ∧ a < 900) ∨ (904 ≤ a ∧ a < 906)) s.mem t.mem)
      ∧ (¬(s.journal.highLost = 0 ∧ s.journal.lowLost = 0) →
          rest ++ [{ Record.stamped
            { kind := .overflow, high := true, x0 := byte s.journal.highLost, x1 := byte (s.journal.highLost / 256),
              x2 := byte s.journal.lowLost, x3 := byte (s.journal.lowLost / 256),
              x4 := byte (bit (s.journal.firstLossHigh.getD false)) } (s.journal.firstLoss.getD {}) with
            seq := s.journal.nextSeq }] <+: t.journal.queue
          ∧ SideOnly s t ∧ samePointsBut (fun p => p = 253) s t ∧ sameMemoryBut recordByte s.mem t.mem)

/-- What a close leaves: the header in the page, the map entry CLOSED with its page number as it was, the pages-closed
count and ALERT raised, no page FILLING and the cursor one on (R153). -/
def pageClosed (f : Filling) (c : CloseCause) (s t : State) : Prop :=
  t.mem.readBytes (256 * f.page) 16 = headerBytes f c
  ∧ t.mem.readWord (mapBase f.entry + 2) = 3 ∧ t.mem.readWord (mapBase f.entry) = s.mem.readWord (mapBase f.entry)
  ∧ t.mem.readWord 18 = s.engine.pagesClosed + 1
  ∧ t = { s with
      engine := { s.engine with pagesClosed := s.engine.pagesClosed + 1, alert := true }
      journal := { s.journal with filling := none, cursor := s.journal.cursor + 1, queue := [] }
      mem := t.mem }

/-- With no record left to open another page for: the 15th record closes the page with cause FULL in the event of its
write, the flush deadline closes it with cause DELAY, and FLUSH JOURNAL with cause FLUSH, its result data naming the
entry, the page, the page's number and the records; with no page FILLING FLUSH JOURNAL changes nothing (R151 to R153,
R155). Model's choices: log entries 4 and 11. -/
def Obligations.PageClosesFullOrAtDeadline : Prop :=
  ∀ (n : Fin 16) (d : List Byte) (f : Filling) (r : Record) (s : State), s.mem.wf = true →
    (s.journal.filling = none → s.holdsOrder n .flushJournal d → OrderEnds n .doneOk [] s (takeSlot n s))
    ∧ (s.journal.filling = some f → 7 ≤ f.page → f.page ≤ 255 →
      (f.count = 14 → s.journal.queue = [r] → s.journal.highLost = 0 → s.journal.lowLost = 0 →
        ∃ t, exec .recordWrite s = .next t ∧ pageClosed { f with count := 15 } .full s t
          ∧ t.mem.readBytes (256 * f.page + 240) 16 = r.bytes
          ∧ sameMemoryBut (fun a => (256 * f.page ≤ a ∧ a < 256 * f.page + 16)
              ∨ (256 * f.page + 240 ≤ a ∧ a < 256 * f.page + 256) ∨ (mapBase f.entry + 2 ≤ a ∧ a < mapBase f.entry + 4)
              ∨ (898 ≤ a ∧ a < 900) ∨ (904 ≤ a ∧ a < 906) ∨ (18 ≤ a ∧ a < 20)) s.mem t.mem)
      ∧ (s.journal.queue = [] → f.deadline ≤ s.now →
        ∃ t, exec .flushDeadline s = .next t ∧ pageClosed f .delay s t
          ∧ sameMemoryBut (fun a => (256 * f.page ≤ a ∧ a < 256 * f.page + 16)
              ∨ (mapBase f.entry + 2 ≤ a ∧ a < mapBase f.entry + 4)
              ∨ (898 ≤ a ∧ a < 900) ∨ (904 ≤ a ∧ a < 906) ∨ (18 ≤ a ∧ a < 20)) s.mem t.mem)
      ∧ (s.journal.queue = [] → s.holdsOrder n .flushJournal d →
        let t := takeSlot n s
        SlotDone t.mem n .doneOk
            ([1, byte f.entry.val] ++ bytes2 f.page ++ bytes2 f.pageSeq.toNat ++ [byte f.count])
        ∧ t.mem.readBytes (256 * f.page) 16 = headerBytes f .flush
        ∧ t.mem.readWord (mapBase f.entry + 2) = 3
        ∧ t.mem.readWord (mapBase f.entry) = s.mem.readWord (mapBase f.entry)
        ∧ t.mem.readWord 18 = s.engine.pagesClosed + 1
        ∧ t = { s with
            engine := { s.engine.counted with pagesClosed := s.engine.pagesClosed + 1 }
            journal := { s.journal with filling := none, cursor := s.journal.cursor + 1 }
            mem := t.mem }
        ∧ sameMemoryBut (fun a => doneByte n a ∨ (256 * f.page ≤ a ∧ a < 256 * f.page + 16)
            ∨ (mapBase f.entry + 2 ≤ a ∧ a < mapBase f.entry + 4)
            ∨ (898 ≤ a ∧ a < 900) ∨ (904 ≤ a ∧ a < 906) ∨ (18 ≤ a ∧ a < 20)) s.mem t.mem))

/-- A WAITING journal meets the 20 ms rescan, or a notice in STARTING, which makes no walk: the n entries at the cursor
that are GIVEN with pages that are not usable are rejected and the cursor passes them; then an entry that is not GIVEN
changes nothing more, and one GIVEN with a usable page is opened, takes the head record in the same event and ends the
WAITING (R149, R150, R161). Model's choices: log entries 4 and 6. -/
def Obligations.WaitingJournalOpensGivenPage : Prop :=
  ∀ (n : Nat) (cmd : Instr) (u : State) (r : Record) (rest : List Record) (s : State),
    (cmd = .journalRescan ∧ s.now % 20 = 0 ∧ s.sched.rescanFrom ≤ s.now
        ∧ u = { s with sched := { s.sched with rescanFrom := s.now + 1 } })
      ∨ ((∃ v o, cmd = .notice v o) ∧ s.engine.part = .starting ∧ u = s) →
    s.mem.wf = true → s.due = [] → s.journal.waiting = true → s.journal.filling = none → s.journal.queue = r :: rest →
    unusableFrom s.mem s.journal.cursor n →
    let e := entryAfter s.journal.cursor n
    let page := (s.mem.readWord (mapBase e)).toNat
    (n = 32 ∨ s.mem.readWord (mapBase e + 2) ≠ 1 → ∃ t, exec cmd s = .next t
      ∧ t = { u with journal := { s.journal with cursor := e }, mem := t.mem } ∧ (n = 0 → t.mem = s.mem)
      ∧ rejectedFrom t.mem s.journal.cursor n
      ∧ (0 < n → t.mem.readWord 898 = word (s.journal.queue.length + 256 * e.val))
      ∧ sameMemoryBut (fun a => (898 ≤ a ∧ a < 900) ∨ rejectedByte s.journal.cursor n a) s.mem t.mem)
    ∧ (n < 32 → s.mem.readWord (mapBase e + 2) = 1 → 7 ≤ page → page ≤ 255 →
      ∃ t, exec cmd s = .next t
        ∧ t.journal.filling = some {
            entry := e, page := page, pageSeq := s.journal.nextPage, count := 1, firstSeq := r.seq,
            deadline := s.now + 10 * s.journal.flushDelay }
        ∧ t.journal.waiting = false ∧ t.journal.nextPage = s.journal.nextPage + 1 ∧ t.journal.cursor = e
        ∧ rest <+: t.journal.queue ∧ rejectedFrom t.mem s.journal.cursor n
        ∧ t.mem.readWord (mapBase e + 2) = 2 ∧ t.mem.readBytes (256 * page + 16) 16 = r.bytes
        ∧ SideOnly u t ∧ samePointsBut journalPoint s t
        ∧ sameMemoryBut (fun a => recordByte a ∧ (1792 ≤ a → 256 * page + 16 ≤ a ∧ a < 256 * page + 32)) s.mem t.mem)

/-! ## Walks and takes -/

/-- A walk takes the one slot that reads POSTED and holds no order in flight, whatever the cursor, and the cursor
moves to the slot after it; a walk that finds none leaves the cursor (R161, R167). The same for a notice out of
STARTING. With several such slots, the walk takes them in cyclic order from the cursor, each take on the state the one
before has left, while the slots of the orders in flight and the journal obey their laws. Model's choices: log entries 3
and 4. -/
def Obligations.WalkTakesThePostedSlot : Prop :=
  ∀ (n : Fin 16) (v : Word) (o : NoticeOrder) (s : State), s.engine.part ≠ .starting →
    let moved := fun (m : Fin 16) (u : State) => { u with engine := { u.engine with cursor := m + 1 } }
    let s' := { s with sched := { s.sched with walkFrom := s.now + 1 } }
    ((∀ m, m ≠ n → s.mem.readWord (slotBase m) ≠ 1) →
      (s.mem.readWord (slotBase n) = 1 → s.inFlight n = false →
        (s.now % 20 = 0 → s.sched.walkFrom ≤ s.now →
          let u := takeSlot n s'
          (∀ m, m ≠ n → u.mem.readWord (slotBase m) ≠ 1) → exec .orderTableWalk s = .next (moved n u))
        ∧ (s.journal.waiting = false →
          let u := takeSlot n s
          (∀ m, m ≠ n → u.mem.readWord (slotBase m) ≠ 1) → u.journal.waiting = false →
            exec (.notice v o) s = .next (moved n u)))
      ∧ (s.mem.readWord (slotBase n) ≠ 1 → s.now % 20 = 0 → s.sched.walkFrom ≤ s.now →
          exec .orderTableWalk s = .next s'))
    ∧ (s.mem.wf = true → s.slotsHold → s.journalHolds → s.now % 20 = 0 → s.sched.walkFrom ≤ s.now →
      let posted := fun m : Fin 16 => s.mem.readWord (slotBase m) = 1 ∧ s.inFlight m = false
      let order := ((List.finRange 16).map fun j => s.engine.cursor + j).filter fun m => decide (posted m)
      exec .orderTableWalk s = .next (order.foldl (fun u m => moved m (takeSlot m u)) s'))

/-- The first walk, at a multiple of 20 ms: STARTING ends in STANDBY, the summary block shows it and ALERT is raised;
with no slot POSTED nothing else changes (R173). Model's choice: log entry 4. -/
def Obligations.FirstWalkEndsStarting : Prop :=
  ∀ s : State, s.mem.wf = true → s.engine.part = .starting → s.now % 20 = 0 → s.sched.walkFrom ≤ s.now →
    (∀ n, s.mem.readWord (slotBase n) ≠ 1) →
    ∃ t, exec .orderTableWalk s = .next t
      ∧ t = { s with
          engine := { s.engine with part := .standby, alert := true }
          sched := { s.sched with walkFrom := s.now + 1 }
          mem := t.mem }
      ∧ t.mem.read 16 = 1 ∧ t.mem.read 17 = byte (bit s.engine.service + 2 * bit s.engine.commissioning)
      ∧ sameMemoryBut (fun a => 16 ≤ a ∧ a < 18) s.mem t.mem

/-- The common checks of a take, in their order: a kind that names no order, a lock that bars the order, a REMOTE TRIP out
of IN_SERVICE; each ends the order with nothing else changed (R168, section 10.6). -/
def Obligations.CommonChecksRefuse : Prop :=
  ∀ (n : Fin 16) (kind : Nat) (s : State), s.mem.wf = true → (s.mem.readWord (slotBase n + 2)).toNat = kind →
    let byService := kind = 12 ∨ kind = 13 ∨ kind = 14 ∨ kind = 23
    let byCommissioning := byService ∨ kind = 1 ∨ kind = 2 ∨ kind = 10 ∨ kind = 20
    (kind = 0 ∨ 25 < kind → OrderEnds n .unknownOrder [] s (takeSlot n s))
    ∧ (byService → s.engine.service = true → OrderEnds n .refusedLocked [] s (takeSlot n s))
    ∧ (byCommissioning → s.engine.commissioning = true → OrderEnds n .refusedLocked [] s (takeSlot n s))
    ∧ (kind = 15 → s.engine.part ≠ .inService → OrderEnds n .refusedState [] s (takeSlot n s))

/-! ## Orders of the Order Engine, the Time Base and the journal -/

/-- LOCK sets the lock it names and UNLOCK clears the service lock, whatever the locks and the part state are, each with
its SETTINGS record when the lock changes; a lock name that is none ends REFUSED_RANGE; the data give both locks. A
power-on reset clears the commissioning lock and the reset line keeps it. An order that the lock bars, taken after the
LOCK, is refused (R177). -/
def Obligations.LockOrdersChangeLocks : Prop :=
  ∀ (n m : Fin 16) (d : List Byte) (s : State), s.mem.wf = true → s.due = [] →
    let e := s.engine
    let kind := (s.mem.readWord (slotBase m + 2)).toNat
    let barred := m ≠ n → OrderEnds m .refusedLocked [] (takeSlot n s) (takeSlot m (takeSlot n s))
    let wrote := fun a => (16 ≤ a ∧ a < 18) ∨ recordByte a
    (s.holdsOrder n .lock d → numAt d 0 = 0 → e.service = false →
      OrderDone n .doneOk [byte (1 + 2 * bit e.commissioning)] journalPoint wrote s
        { s with engine := { e with service := true } } (takeSlot n s)
      ∧ recordJoins (settingsRecord .lock s.stamp 0 0 0 0 0) s (takeSlot n s))
    ∧ (s.holdsOrder n .lock d → numAt d 0 = 1 → e.commissioning = false →
      OrderDone n .doneOk [byte (bit e.service + 2)] journalPoint wrote s
        { s with engine := { e with commissioning := true } } (takeSlot n s)
      ∧ recordJoins (settingsRecord .lock s.stamp 0 1 0 0 0) s (takeSlot n s))
    ∧ (s.holdsOrder n .lock d → (numAt d 0 = 0 ∧ e.service = true) ∨ (numAt d 0 = 1 ∧ e.commissioning = true) →
      OrderEnds n .doneOk [byte (bit e.service + 2 * bit e.commissioning)] s (takeSlot n s))
    ∧ (s.holdsOrder n .lock d → 1 < numAt d 0 → OrderEnds n .refusedRange [] s (takeSlot n s))
    ∧ (s.holdsOrder n .unlock d → e.service = true →
      OrderDone n .doneOk [byte (2 * bit e.commissioning)] journalPoint wrote s
        { s with engine := { e with service := false } } (takeSlot n s)
      ∧ recordJoins (settingsRecord .unlock s.stamp 0 0 0 0 0) s (takeSlot n s))
    ∧ (s.holdsOrder n .unlock d → e.service = false →
      OrderEnds n .doneOk [byte (2 * bit e.commissioning)] s (takeSlot n s))
    ∧ (s.holdsOrder n .lock d → numAt d 0 ≤ 1 → kind = 12 ∨ kind = 13 ∨ kind = 14 ∨ kind = 23 → barred)
    ∧ (s.holdsOrder n .lock d → numAt d 0 = 1 → kind = 1 ∨ kind = 2 ∨ kind = 10 ∨ kind = 20 → barred)
    ∧ (∃ t, exec .powerOnReset s = .next t ∧ t.engine.commissioning = false)
    ∧ (∃ t, exec .resetLine s = .next t ∧ t.engine.commissioning = e.commissioning)

/-- ENTER SERVICE and LEAVE SERVICE: no active bank, then a driven output, bar the one; an energized output bars the
other (its locks apart); otherwise the part state changes, with its SETTINGS record; in the state it would lead to each
finishes with nothing changed (R174, R175). Model's choice: the DONE_OK data, whose d0 shows the active bank of ENTER
SERVICE and whose d1 is 0 (log entry 13). -/
def Obligations.ServiceOrdersChangePartState : Prop :=
  ∀ (n : Fin 16) (bk : BankId) (d : List Byte) (s : State), s.mem.wf = true → s.due = [] →
    let wrote := fun a => (16 ≤ a ∧ a < 18) ∨ recordByte a
    (s.holdsOrder n .enterService d → s.engine.part = .inService →
      OrderEnds n .doneOk [byte (bankCode s.active)] s (takeSlot n s))
    ∧ (s.holdsOrder n .enterService d → s.engine.part = .standby →
      (s.active = none → OrderEnds n .refusedState [0] s (takeSlot n s))
      ∧ (∀ o, s.active ≠ none → s.driven o = true → (∀ o' < o, s.driven o' = false) →
          OrderEnds n .refusedDriven [0, byte o.val] s (takeSlot n s))
      ∧ (s.active = some bk → (∀ o, s.driven o = false) →
          OrderDone n .doneOk [byte bk.code] journalPoint wrote s
            { s with engine := { s.engine with part := .inService } } (takeSlot n s)
          ∧ recordJoins (settingsRecord .enterService s.stamp 0 1 2 bk.code 0) s (takeSlot n s)))
    ∧ (s.holdsOrder n .leaveService d → s.engine.service = false → s.engine.commissioning = false →
      (s.engine.part = .standby → OrderEnds n .doneOk [] s (takeSlot n s))
      ∧ (∀ o, s.engine.part = .inService → (nth s.outputs o).state ≠ .off →
          (∀ o' < o, (nth s.outputs o').state = .off) →
          OrderEnds n .refusedEnergized [0, byte o.val] s (takeSlot n s))
      ∧ (s.engine.part = .inService → (∀ o, (nth s.outputs o).state = .off) →
          OrderDone n .doneOk [] journalPoint wrote s
            { s with engine := { s.engine with part := .standby } } (takeSlot n s)
          ∧ recordJoins (settingsRecord .leaveService s.stamp 0 2 1 (bankCode s.active) 0) s (takeSlot n s)))

/-- SET TIME: a ms of day or a sync-enable value out of range is refused; otherwise time of day, VALID, the sync flag, the
spurious count and the miss timer take their values, run time stands, a sync fault ends when sync is disabled, and the
result data give the time before (R131). SET JOURNAL: a filter mask above 31 is refused; otherwise the filter mask and the
flush delay, 0 taken as 1, are the ones given, the journal's status and the result data show them, and the SETTINGS
record is made (R154). -/
def Obligations.SetTimeSetsTheClock : Prop :=
  ∀ (n : Fin 16) (d : List Byte) (s : State), s.mem.wf = true → s.due = [] →
    (s.holdsOrder n .setTime d → 86400000 ≤ longAt d 2 ∨ 1 < numAt d 6 → OrderEnds n .refusedRange [] s (takeSlot n s))
    ∧ (s.holdsOrder n .setTime d → longAt d 2 < 86400000 → numAt d 6 ≤ 1 →
      let on := decide (numAt d 6 = 1)
      OrderDone n .doneOk (bytes2 s.time.day ++ bytes4 s.time.ms ++ [byte (bit s.time.valid)])
        (fun p => p = 254 ∨ journalPoint p) (fun a => (32 ≤ a ∧ a < 42) ∨ pointByte 254 a ∨ recordByte a) s
        { s with time := { s.time with
            day := wordAt d 0, ms := longAt d 2, valid := true, syncEnabled := on, spurious := 0,
            missTimer := if on then some (s.time.run + 65000) else none,
            fault := s.time.fault && on, cause := if on then s.time.cause else .none } } (takeSlot n s)
      ∧ (s.time.fault = true → on = false → (nth (takeSlot n s).points 254).contact = .absent)
      ∧ ((s.time.fault = false ∨ on = true) → s.filters .clock = false →
          recordJoins (clockRecord .set (byte (bit s.time.valid)) (byte (bit on)) (byte s.time.day)
            (byte (s.time.day / 256)) { day := wordAt d 0, ms := longAt d 2, valid := true }) s (takeSlot n s)))
    ∧ (s.holdsOrder n .setJournal d → s.engine.commissioning = false →
      (32 ≤ numAt d 0 → OrderEnds n .refusedRange [] s (takeSlot n s))
      ∧ (numAt d 0 < 32 →
        let delay := if numAt d 1 = 0 then 1 else numAt d 1
        OrderDone n (if numAt d 1 = 0 then .doneClamped else .doneOk) [byteAt d 0, byte delay] journalPoint recordByte s s
          (takeSlot n s)
        ∧ (takeSlot n s).journal.mask = byteAt d 0 ∧ (takeSlot n s).journal.flushDelay = delay
        ∧ (takeSlot n s).mem.readWord 910 = word (numAt d 0 + 256 * delay)
        ∧ recordJoins (settingsRecord .setJournal s.stamp 0 (numAt d 0) delay 0 0) s (takeSlot n s)))

/-! ## Orders of the other blocks -/

/-- ISOLATE OUTPUTS and RESTORE OUTPUTS: the lowest energized output bars the one and the lowest driven output the
other, with no output changed; otherwise each output of the mask is isolated, or is not, and no output's state,
on-timer, min-time-passed or selection changes, no output out of the mask changes, and nothing changes beside but what
records and the trip circuit faults bring (R112, R113). SET PROFILES, by the first refusal that applies: a mode that is
none, a selection above 3, a continuity bit above 23, an energized output that would change; otherwise the four profiles,
on-times of 0 as 1, every selection and every continuity flag are the ones given, no output's drive changes, and with no
FAIL_TO_OPERATE standing the SETTINGS record is the next one (R108, R109). Model's choice: where the refusal data name
the profile or the output (log entry 16). -/
def Obligations.IsolationOrdersSetFlags : Prop :=
  ∀ (n : Fin 16) (d : List Byte) (s : State), s.mem.wf = true →
    let named := fun o : Fin 24 => (longAt d 0).testBit o.val
    let flags := fun (v : Bool) (t : State) => SlotDone t.mem n .doneOk [] ∧ ∀ o,
      (nth t.outputs o).isolated = (if named o then v else (nth s.outputs o).isolated)
      ∧ (nth t.outputs o).state = (nth s.outputs o).state ∧ (nth t.outputs o).onTimer = (nth s.outputs o).onTimer
      ∧ (nth t.outputs o).minPassed = (nth s.outputs o).minPassed ∧ (nth t.outputs o).sel = (nth s.outputs o).sel
      ∧ (nth t.outputs o).supervised = (nth s.outputs o).supervised
      ∧ (named o = false → nth t.outputs o = nth s.outputs o)
    let frame := fun t : State => SideOnly { s with outputs := t.outputs, engine := s.engine.counted } t
      ∧ sameMemoryBut (fun a => doneByte n a ∨ mirrorByte a ∨ outputsByte a ∨ recordByte a) s.mem t.mem
    (s.holdsOrder n .isolateOutputs d → longAt d 0 < 2 ^ 24 →
      (∀ o, named o = true → (nth s.outputs o).state ≠ .off →
          (∀ o' < o, named o' = true → (nth s.outputs o').state = .off) →
          OrderEnds n .refusedEnergized (List.replicate 8 0 ++ [byte o.val]) s (takeSlot n s))
      ∧ ((∀ o, named o = true → (nth s.outputs o).state = .off) → flags true (takeSlot n s) ∧ frame (takeSlot n s)))
    ∧ (s.holdsOrder n .restoreOutputs d → longAt d 0 < 2 ^ 24 →
      (∀ o, named o = true → s.driven o = true → (∀ o' < o, named o' = true → s.driven o' = false) →
          OrderEnds n .refusedDriven (List.replicate 8 0 ++ [byte o.val]) s (takeSlot n s))
      ∧ ((∀ o, named o = true → s.driven o = false) → flags false (takeSlot n s) ∧ frame (takeSlot n s)))
    ∧ (s.holdsOrder n .isolateOutputs d ∨ s.holdsOrder n .restoreOutputs d → 2 ^ 24 ≤ longAt d 0 →
      OrderEnds n .refusedRange [] s (takeSlot n s))
    ∧ (s.holdsOrder n .setProfiles d → s.engine.service = false → s.engine.commissioning = false →
      let mode := fun p : Fin 4 => numAt d (2 * p.val)
      let onTime := fun p : Fin 4 => if numAt d (2 * p.val + 1) = 0 then 1 else numAt d (2 * p.val + 1)
      let sel := fun o : Fin 24 => numAt d (8 + o.val / 2) / 16 ^ (o.val % 2) % 16
      let continuity := fun j : Fin 32 => (longAt d 20).testBit j.val
      let modesOk := ∀ p, mode p ≤ 2
      let outputsOk := (∀ o, sel o ≤ 3) ∧ ∀ j : Fin 32, 24 ≤ j.val → continuity j = false
      let changes := fun o : Fin 24 =>
        let x := nth s.outputs o
        x.state ≠ .off ∧ (sel o ≠ x.sel.val ∨ mode x.sel ≠ (nth s.profiles x.sel).mode.code
          ∨ onTime x.sel ≠ (nth s.profiles x.sel).onTime)
      (∀ p, 2 < mode p → (∀ p' < p, mode p' ≤ 2) → OrderEnds n .refusedRange [0, byte p.val] s (takeSlot n s))
      ∧ (∀ o, modesOk → 3 < sel o → (∀ o' < o, sel o' ≤ 3) →
          OrderEnds n .refusedRange [0, 0, byte o.val] s (takeSlot n s))
      ∧ (∀ j : Fin 32, modesOk → (∀ o, sel o ≤ 3) → 24 ≤ j.val → continuity j = true →
          (∀ j' < j, 24 ≤ j'.val → continuity j' = false) →
          OrderEnds n .refusedRange [0, 0, byte j.val] s (takeSlot n s))
      ∧ (∀ o, modesOk → outputsOk → changes o → (∀ o' < o, ¬changes o') →
          OrderEnds n .refusedEnergized [0, 0, 0, byte o.val] s (takeSlot n s))
      ∧ (modesOk → outputsOk → (∀ o, ¬changes o) →
        let t := takeSlot n s
        let clamped := (List.finRange 4).foldl
          (fun m p => m + if numAt d (2 * p.val + 1) = 0 then 2 ^ p.val else 0) 0
        (∀ p, (nth t.profiles p).mode.code = mode p ∧ (nth t.profiles p).onTime = onTime p)
        ∧ (∀ o, (nth t.outputs o).sel.val = sel o
          ∧ (nth t.outputs o).supervised = (longAt d 20).testBit o.val
          ∧ (nth t.outputs o).state = (nth s.outputs o).state ∧ (nth t.outputs o).onTimer = (nth s.outputs o).onTimer
          ∧ (nth t.outputs o).minPassed = (nth s.outputs o).minPassed
          ∧ (nth t.outputs o).isolated = (nth s.outputs o).isolated)
        ∧ (clamped = 0 → SlotDone t.mem n .doneOk []) ∧ (clamped ≠ 0 → SlotDone t.mem n .doneClamped [byte clamped])
        ∧ SideOnly { s with outputs := t.outputs, profiles := t.profiles, engine := s.engine.counted } t
        ∧ sameMemoryBut (fun a => doneByte n a ∨ mirrorByte a ∨ (hallBase + 128 ≤ a ∧ a < hallBase + 208)
            ∨ recordByte a) s.mem t.mem
        ∧ (s.due = [] → (∀ o, (nth s.outputs o).fault ≠ .failToOperate) →
            recordJoins (settingsRecord .setProfiles s.stamp 0
              ((List.finRange 24).countP fun o => decide (sel o ≠ (nth s.outputs o).sel.val)) clamped 0 0) s t)))

/-- SWITCH BANK, by the first refusal that applies: a load in flight, a standby bank that is not VALID, an active trip
input; otherwise the standby bank becomes the active one and every input's q is the new bank's (R91, R86). -/
def Obligations.SwitchBankChangesActiveBank : Prop :=
  ∀ (n : Fin 16) (d : List Byte) (s : State), s.mem.wf = true → s.due = [] → s.holdsOrder n .switchBank d →
    s.engine.service = false → s.engine.commissioning = false →
    let bk : BankId := if s.active = some .a then .b else .a
    (s.engine.loadMatrix ≠ none → OrderEnds n .refusedBusy [] s (takeSlot n s))
    ∧ (s.engine.loadMatrix = none → (s.bank bk).state ≠ .valid →
      OrderEnds n .refusedState [byte bk.code, byte (s.bank bk).state.code] s (takeSlot n s))
    ∧ (∀ i, s.engine.loadMatrix = none → (s.bank bk).state = .valid → (nth s.inputs i).qualified = true →
      (∀ i' < i, (nth s.inputs i').qualified = false) →
      OrderEnds n .refusedDriven [0, 0, byte i.val] s (takeSlot n s))
    ∧ (s.engine.loadMatrix = none → (s.bank bk).state = .valid → (∀ i, (nth s.inputs i).qualified = false) →
      OrderDone n .doneOk [byte bk.code] journalPoint
        (fun a => a = 26 ∨ a = 27 ∨ (hallBase + 88 ≤ a ∧ a < hallBase + 128) ∨ a = hallBase + 240
          ∨ a = hallBase + 241 ∨ recordByte a) s
        { s with
          active := some bk
          inputs := tab 32 fun i => { nth s.inputs i with qShown := (nth (s.bank bk).entries i).q } } (takeSlot n s)
      ∧ recordJoins (settingsRecord .switchBank s.stamp 0 bk.code (bankCode s.active) 0 0) s (takeSlot n s))

/-- SHELVE POINT: out of range and disabled points are refused, a shelved point is left; otherwise the point is shelved and
QUIET with no first mark, and its filter goes on as it was, with its SETTINGS record (R17). UNSHELVE POINT: a point that
is not shelved is left; otherwise the flag clears, a pending change is dropped, the accepted state takes the raw state,
and an abnormal one brings an INITIAL alert behind the SETTINGS record (R18). READ POINT shows the point's filter state
in the result data and changes nothing (R23). -/
def Obligations.ShelvePointQuietsThePoint : Prop :=
  ∀ (n : Fin 16) (d : List Byte) (s : State), s.mem.wf = true → s.due = [] →
    (256 ≤ wordAt d 0 → s.holdsOrder n .shelvePoint d ∨ s.holdsOrder n .unshelvePoint d ∨ s.holdsOrder n .readPoint d →
      OrderEnds n .refusedRange [] s (takeSlot n s))
    ∧ ∀ p : Fin 256, wordAt d 0 = p.val →
      let x := nth s.points p
      let t := takeSlot n s
      (s.holdsOrder n .shelvePoint d → x.settings.enabled = false → OrderEnds n .refusedState [] s t)
      ∧ (s.holdsOrder n .shelvePoint d → x.settings.enabled = true → x.shelved = true → OrderEnds n .doneOk [] s t)
      ∧ (s.holdsOrder n .shelvePoint d → x.settings.enabled = true → x.shelved = false →
          OrderDone n .doneOk [] (fun q => q = p ∨ journalPoint q) (fun a => pointByte p a ∨ recordByte a) s s t
          ∧ (¬journalPoint p → nth t.points p = { x with shelved := true, seq := .quiet, firstMark := false })
          ∧ recordJoins (settingsRecord .shelvePoint s.stamp p.val 0 0 0 0) s t)
      ∧ (s.holdsOrder n .unshelvePoint d → x.shelved = false → OrderEnds n .doneOk [] s t)
      ∧ (s.holdsOrder n .unshelvePoint d → x.shelved = true →
          let q : SeqState := if x.raw then x.seq.move true x.settings.lockIn x.settings.ringback else x.seq
          OrderDone n .doneOk [] (fun q => q = p ∨ journalPoint q) (fun a => pointByte p a ∨ recordByte a) s s t
          ∧ (¬journalPoint p → nth t.points p = { x with
              shelved := false, waiting := none, accepted := x.raw, seq := q, firstMark := (nth t.points p).firstMark }
            ∧ (x.seq = .quiet → x.raw = true → (nth t.points p).seq = .alert))
          ∧ recordJoins (settingsRecord .unshelvePoint s.stamp p.val 0 0 0 0) s t
          ∧ (x.raw = true → recordsJoin [settingsRecord .unshelvePoint s.stamp p.val 0 0 0 0,
              Record.stamped
                { kind := .point, high := x.settings.high, flags := { initial := true }, subject := byte p.val, x0 := 1,
                  x1 := byte x.seq.code, x2 := byte q.code, x3 := byte x.settings.zone.val, x4 := byte (bit x.firstMark) }
                s.stamp] s t))
      ∧ (s.holdsOrder n .readPoint d →
          let at8 := fun j => t.mem.read (slotBase n + 8 + j)
          let wordAt8 := fun j => t.mem.readWord (slotBase n + 8 + j)
          t = { s with engine := s.engine.counted, mem := t.mem } ∧ sameMemoryBut (doneByte n) s.mem t.mem
          ∧ t.mem.readWord (slotBase n) = 3 ∧ t.mem.readWord (slotBase n + 6) = word Result.doneOk.code
          ∧ at8 0 = byte x.bucket ∧ at8 1 = byte x.settings.cls.val
          ∧ (at8 2).getLsbD 0 = x.held ∧ (at8 2).getLsbD 1 = x.stale ∧ (at8 2).getLsbD 2 = x.shelved
          ∧ (at8 2).getLsbD 3 = x.settings.enabled ∧ (at8 2).getLsbD 4 = x.raw ∧ (at8 2).getLsbD 5 = x.accepted
          ∧ (at8 2).getLsbD 6 = x.lastApprox ∧ (at8 2).getLsbD 7 = false
          ∧ at8 3 = (match x.contact with | .opened => 0 | .closed => 1 | .unreported => 2 | .absent => 0 | .present => 1)
          ∧ at8 4 = (match x.waiting with | none => 0 | some c => if c.target then 2 else 1) ∧ at8 5 = 0
          ∧ wordAt8 6 = (match x.waiting with | none => 0 | some c => word (c.deadline - s.now))
          ∧ wordAt8 8 = word x.lastTime ∧ wordAt8 10 = word (x.lastTime / 65536)
          ∧ wordAt8 12 = word (x.lastTime / 4294967296)
          ∧ wordAt8 14 = word x.lastStamp.day ∧ wordAt8 16 = word x.lastStamp.ms
          ∧ wordAt8 18 = word (x.lastStamp.ms / 65536) ∧ wordAt8 20 = 0 ∧ wordAt8 22 = 0)

/-! ## Segment reads -/

/-- A segment read of a LOAD POINTS or a LOAD MATRIX whose time has come: the six checks in their order, each ending the
order with its refusal and the segment's index and page (a LOAD MATRIX with its standby bank EMPTY and the SETTINGS
record of its end); a segment that passes and names a next page joins the payload, and the next read falls a millisecond
on (R171, R19, R89). Model's choices: the read times (log entry 4), that the index is the segment's place in the
chain (log entry 30), and that the bank which a refused LOAD MATRIX leaves EMPTY holds the Init. entries (log entry 18).
-/
def Obligations.SegmentReadChecksChain : Prop :=
  ∀ (o : ImageOrder) (j : ImageJob) (s : State), s.mem.wf = true → s.job o = some j → j.nextRead ≤ s.now →
    let base := 256 * j.page
    let index := (s.mem.readWord base).toNat
    let length := (s.mem.readWord (base + 2)).toNat
    let next := (s.mem.readWord (base + 4)).toNat
    let total := j.payload.length + length
    let place := [byte j.index, 0] ++ bytes2 j.page
    let refused := fun r : Result => ∃ t, exec (.segmentRead o) s = .next t
      ∧ (o = .loadPoints → OrderEnds j.slot r (List.replicate 6 0 ++ place)
          { s with engine := { s.engine with loadPoints := none } } t)
      ∧ (o = .loadMatrix → s.due = [] →
          OrderDone j.slot r (List.replicate 8 0 ++ place) journalPoint
            (fun a => a = hallBase + 240 ∨ a = hallBase + 241 ∨ recordByte a) s
            { s.setBank s.standby {} with engine := { s.engine with loadMatrix := none } } t
          ∧ recordJoins (settingsRecord .loadMatrix s.stamp 0 (s.standby.code + 16 * bankCode s.active) r.code 0 0) s t)
    (j.page < 7 ∨ 255 < j.page → refused .refusedPage)
    ∧ (7 ≤ j.page → j.page ≤ 255 → index ≠ j.index ∨ length = 0 ∨ 248 < length → refused .refusedChain)
    ∧ (7 ≤ j.page → j.page ≤ 255 → index = j.index → 1 ≤ length → length ≤ 248 →
        j.byteLength < total ∨ (next = 0 ∧ total < j.byteLength) → refused .refusedLength)
    ∧ (7 ≤ j.page → j.page ≤ 255 → index = j.index → 1 ≤ length → length ≤ 248 → total ≤ j.byteLength →
        next ≠ 0 → 14 ≤ j.index → refused .refusedChain)
    ∧ (7 ≤ j.page → j.page ≤ 255 → index = j.index → 1 ≤ length → length ≤ 248 → total ≤ j.byteLength →
        next ≠ 0 → j.index < 14 → exec (.segmentRead o) s = .next (s.setJob o (some { j with
          page := next, index := j.index + 1, payload := j.payload ++ s.mem.readBytes (base + 8) length,
          nextRead := s.now + 1 })))

/-- A LOAD POINTS that has not been refused changes a point of the image's range from x, with its settings s' after the
apply, at run time `now` and with the stamp read then (R20, R21): but for its first mark, and with the polarity of a
contact point counting. A point that stays disabled gains no first mark; one that it holds (in a state no run reaches) is
cleared where the re-arm of its group finds it. -/
def pointLoaded (p : Fin 256) (x : Point) (new : Settings) (weight now : Nat) (stamp : Stamp) (y : Point) : Prop :=
  let z := { x with settings := new }
  let turned := p.val < 224 ∧ x.settings.whenOpen ≠ new.whenOpen
  y.settings = new ∧ y.contact = x.contact ∧ y.stale = x.stale
  ∧ (x.settings.enabled = false → new.enabled = false →
      y = { z with firstMark := y.firstMark } ∧ (x.firstMark = false → y.firstMark = false))
  ∧ (x.settings.enabled = true → new.enabled = false →
      y = { z with waiting := none, bucket := 0, held := false, shelved := false, accepted := false, seq := .quiet,
                   firstMark := false })
  ∧ (new.enabled = true → (x.settings.enabled = false ∧ x.seq = .quiet) ∨ (x.settings.enabled = true ∧ turned) →
      y = { z with
        waiting := none, bucket := 0, held := false, shelved := false, accepted := z.raw, lastTime := now,
        lastStamp := stamp, lastApprox := false, seq := if z.raw then .alert else .quiet, firstMark := y.firstMark })
  ∧ (new.enabled = true → x.settings.enabled = true → ¬turned → x.held = false ∨ 0 < weight →
      y = { z with firstMark := y.firstMark }
      ∧ (x.settings.group ≠ new.group → x.firstMark = true → y.firstMark = false))
  ∧ (new.enabled = true → x.settings.enabled = true → ¬turned → x.held = true → weight = 0 →
      y.held = false ∧ y.accepted = z.raw ∧ y.bucket = x.bucket ∧ y.shelved = x.shelved)

/-- LOAD POINTS and LOAD MATRIX from take to end. At the take each is refused while another of its kind is in flight;
otherwise its slot reads TAKEN, its image is to be read from the next millisecond on, and a LOAD MATRIX puts its standby
bank to LOADING (R19, R88, R171). The segment read that completes an image of LOAD MATRIX: a length other than 130 ends
REFUSED_LENGTH, a wrong check word REFUSED_CHECK, each with the bank left EMPTY; otherwise the bank becomes VALID with
the image's masks and its counts brought into 1 to 15, and the order ends DONE_OK or, with a count changed,
DONE_CLAMPED with the number of them and the lowest input; the other bank stands, and nothing changes beside but what
the SETTINGS record brings (R172, R89). The one that completes an image of LOAD POINTS: by the first of R19's five
checks that fails the order ends with nothing applied; otherwise the settle window and the settings of the points in the
range are the image's, each of them is treated by R20 or R21, and the SETTINGS record is made. Model's choices: the read
times (log entry 4), the entries while LOADING (log entry 18), the points one by one (log entry 19), no mirror write of
a point that stays disabled (log entry 27). -/
def Obligations.LoadOrdersComplete : Prop :=
  ∀ (n : Fin 16) (d : List Byte) (j : ImageJob) (bs : List Byte) (s : State), s.mem.wf = true → s.due = [] →
    let job : ImageJob := { slot := n, byteLength := wordAt d 2, page := wordAt d 0, nextRead := s.now + 1 }
    let bk := s.standby
    let taken := fun (u t : State) (A : Nat → Prop) => t = { u with mem := t.mem } ∧ t.mem.readWord (slotBase n) = 2
      ∧ sameMemoryBut (fun a => a = slotBase n ∨ a = slotBase n + 1 ∨ A a) s.mem t.mem
    (s.holdsOrder n .loadPoints d → s.engine.commissioning = false →
      (s.engine.loadPoints ≠ none → OrderEnds n .refusedBusy [] s (takeSlot n s))
      ∧ (s.engine.loadPoints = none →
        taken { s with engine := { s.engine with loadPoints := some job } } (takeSlot n s) fun _ => False))
    ∧ (s.holdsOrder n .loadMatrix d → s.engine.service = false → s.engine.commissioning = false →
      (s.engine.loadMatrix ≠ none → OrderEnds n .refusedBusy [] s (takeSlot n s))
      ∧ (s.engine.loadMatrix = none →
        taken { s.setBank bk { state := .loading } with engine := { s.engine with loadMatrix := some job } } (takeSlot n s)
          fun a => a = hallBase + 240 ∨ a = hallBase + 241))
    ∧ (7 ≤ j.page → j.page ≤ 255 → (s.mem.readWord (256 * j.page)).toNat = j.index →
      let length := (s.mem.readWord (256 * j.page + 2)).toNat
      1 ≤ length → length ≤ 248 → s.mem.readWord (256 * j.page + 4) = 0 →
      bs = j.payload ++ s.mem.readBytes (256 * j.page + 8) length → bs.length = j.byteLength → j.nextRead ≤ s.now →
      (s.engine.loadMatrix = some j →
        let q := fun i : Fin 32 => numAt bs (4 * i.val + 3)
        let off := fun i : Fin 32 => decide (q i = 0) || decide (15 < q i)
        ∃ t, exec (.segmentRead .loadMatrix) s = .next t
          ∧ SideOnly { (s.setBank bk (t.bank bk)) with engine := Engine.counted { s.engine with loadMatrix := none } } t
          ∧ samePointsBut journalPoint s t
          ∧ sameMemoryBut (fun a => doneByte j.slot a ∨ a = hallBase + 240 ∨ a = hallBase + 241 ∨ recordByte a)
              s.mem t.mem
          ∧ (bs.length ≠ 130 → t.bank bk = {} ∧ SlotDone t.mem j.slot .refusedLength [])
          ∧ (bs.length = 130 → wordSum (bs.take 128) ≠ wordAt bs 128 → t.bank bk = {}
              ∧ SlotDone t.mem j.slot .refusedCheck
                  (List.replicate 4 0 ++ bytes2 (wordSum (bs.take 128)) ++ bytes2 (wordAt bs 128)))
          ∧ (bs.length = 130 → wordSum (bs.take 128) = wordAt bs 128 → (t.bank bk).state = .valid
              ∧ (∀ i : Fin 32, (nth (t.bank bk).entries i).q = (if q i = 0 then 1 else if 15 < q i then 15 else q i)
                ∧ ∀ o : Fin 24, (nth (t.bank bk).entries i).mask.getLsbD o.val
                    = bitAt bs (4 * i.val + o.val / 8) (o.val % 8))
              ∧ ((∀ i, off i = false) → SlotDone t.mem j.slot .doneOk [byte bk.code, 0, 255])
              ∧ (∀ i, off i = true → (∀ i' < i, off i' = false) → SlotDone t.mem j.slot .doneClamped
                  [byte bk.code, byte ((List.finRange 32).countP off), byte i.val])))
      ∧ (s.engine.loadPoints = some j →
        let first := wordAt bs 0
        let count := wordAt bs 2
        let inside := fun p : Fin 256 => first ≤ p.val ∧ p.val < first + count
        let new := fun p : Fin 256 =>
          if inside p then settingsAt bs (8 + 8 * (p.val - first)) else (nth s.points p).settings
        let fits := fun p : Fin 256 =>
          let at' := 8 + 8 * (p.val - first)
          numAt bs (at' + 2) ≤ 7 ∧ (numAt bs (at' + 3) ≤ 15 ∨ numAt bs (at' + 3) = 255) ∧ numAt bs (at' + 4) ≤ 3
        let shares := fun p q : Fin 256 => p ≠ q ∧ (new p).enabled = true ∧ (new q).enabled = true
          ∧ (new p).hasWindow = true ∧ (new q).hasWindow = true ∧ (new p).window = (new q).window
        let lengthOk := bs.length = 8 + 8 * count + 2
        let checkOk := wordSum (bs.take (8 + 8 * count)) = wordAt bs (8 + 8 * count)
        let rangeOk := 1 ≤ count ∧ count ≤ 256 ∧ first + count ≤ 256
        let fieldsOk := ∀ p, inside p → fits p
        let u := { s with engine := { s.engine with loadPoints := none } }
        ∃ t, exec (.segmentRead .loadPoints) s = .next t
          ∧ (¬lengthOk → OrderEnds j.slot .refusedLength [] u t)
          ∧ (lengthOk → ¬checkOk → OrderEnds j.slot .refusedCheck [] u t)
          ∧ (lengthOk → checkOk → ¬rangeOk → OrderEnds j.slot .refusedRange (bytes2 65535) u t)
          ∧ (∀ p, lengthOk → checkOk → rangeOk → inside p → ¬fits p → (∀ p' < p, inside p' → fits p') →
              OrderEnds j.slot .refusedRange (bytes2 p.val) u t)
          ∧ (∀ p, lengthOk → checkOk → rangeOk → fieldsOk → (∃ q, shares p q) → (∀ p' < p, ∀ q, ¬shares p' q) →
              OrderEnds j.slot .refusedDuplicate (bytes2 p.val) u t)
          ∧ (lengthOk → checkOk → rangeOk → fieldsOk → (∀ p q, ¬shares p q) →
              SlotDone t.mem j.slot .doneOk (bytes2 first ++ bytes2 count ++ [byteAt bs 4])
              ∧ t.settleWindow = numAt bs 4
              ∧ SideOnly { u with settleWindow := numAt bs 4, engine := u.engine.counted } t
              ∧ sameMemoryBut (fun a => doneByte j.slot a ∨ mirrorByte a ∨ recordByte a) s.mem t.mem
              ∧ recordJoins (settingsRecord .loadPoints s.stamp 0 first count (count / 256) 0) s t
              ∧ (∀ p, (nth t.points p).settings = new p)
              ∧ (∀ p, ¬journalPoint p → ¬inside p →
                  nth t.points p = { nth s.points p with firstMark := (nth t.points p).firstMark })
              ∧ (∀ p, ¬journalPoint p → inside p →
                  pointLoaded p (nth s.points p) (new p) (nth s.classes (new p).cls).weight s.now s.stamp
                    (nth t.points p)))))

/-! ## Links -/

/-- A scan of an enabled link at its scheduled time: the frame of 30 bytes with start mark, address, sequence number,
control byte, the lamp codes of its 64 windows as they stand and the check word; the sequence number rises, and the
answer window of the scan is to come, with its answer limit 3 ms on. A DISABLED link sends nothing (R60, R61, R62,
section 11.11). Model's choices: log entries 4 and 20. -/
def Obligations.ScanFrameCarriesLampCodes : Prop :=
  ∀ (k : Fin 4) (s : State), s.mem.wf = true →
    let l := nth s.links k
    (l.state = .disabled → exec (.scanFrame k) s = .next s)
    ∧ (l.state ≠ .disabled → s.now % 5 = k.val → l.scanFrom ≤ s.now →
      ∃ t, exec (.scanFrame k) s = .next t
        ∧ nth t.links k = { l with
            frame := (nth t.links k).frame, carried := l.scanSeq, scanSeq := l.scanSeq + 1, awaiting := true,
            limit := s.now + 3, rx := [], receipt := none, scanFrom := s.now + 1 }
        ∧ t = { s with links := upd s.links k (nth t.links k), mem := t.mem }
        ∧ (let fr := (nth t.links k).frame
          fr.length = 30 ∧ fr.take 4 = [0xA5, byte k.val, l.scanSeq, if l.state = .up then 0 else 1]
          ∧ wordAt fr 28 = byteSum ((fr.drop 1).take 27)
          ∧ ∀ w : Fin 64, ((List.range 24).foldr (fun i x => numAt fr (4 + i) + 256 * x) 0) / 8 ^ w.val % 8
              = s.lamp ⟨64 * k.val + w.val, by omega⟩)
        ∧ sameMemoryBut (linkByte k) s.mem t.mem)

/-- The bytes of an open answer window are gathered, and those that complete an answer note the receipt time, once;
bytes outside a window, at its answer limit or later, or of a DISABLED link, are discarded (R62). Model's choice: log
entry 20. -/
def Obligations.AnswerReceiptNotesTime : Prop :=
  ∀ (k : Fin 4) (bytes : List RxByte) (s : State),
    let l := nth s.links k
    (l.state = .disabled ∨ l.awaiting = false ∨ l.limit ≤ s.now → exec (.answerReceipt k bytes) s = .next s)
    ∧ (l.state ≠ .disabled → l.awaiting = true → s.now < l.limit →
      exec (.answerReceipt k bytes) s = .next { s with links := upd s.links k { l with
        rx := l.rx ++ bytes
        receipt := if l.receipt = none ∧ answerComplete ((l.rx ++ bytes).map (·.value)) = true then
            some ⟨s.now, s.stamp⟩ else l.receipt } })

/-- Before the answer limit, and with no answer window, nothing is judged. A miss that does not take the link to LOST:
the last error kind, the miss count and, out of UP, the valid run; the panel's points and buttons keep what they held
(R64).  No byte at all is a TIMEOUT (R63). Model's choices: log entries 4 and 20. -/
def Obligations.MissIsCounted : Prop :=
  ∀ (k : Fin 4) (rest : List RxByte) (e : LinkError) (s : State), s.mem.wf = true →
    let l := nth s.links k
    (l.state = .disabled ∨ l.awaiting = false ∨ s.now < l.limit → exec (.answerLimit k rest) s = .next s)
    ∧ (l.state ≠ .disabled → l.awaiting = true → l.limit ≤ s.now → (l.state = .up → l.miss < 2) →
      answerFault k l.carried (l.rx ++ rest) = some e →
      ∃ t, exec (.answerLimit k rest) s = .next t
        ∧ t = { s with
            links := upd s.links k { l with
              awaiting := false, rx := [], receipt := none, lastError := e, miss := min 255 (l.miss + 1)
              validRun := if l.state = .up then l.validRun else 0 }
            mem := t.mem }
        ∧ (l.rx = [] → rest = [] → e = .timeout) ∧ sameMemoryBut (linkByte k) s.mem t.mem)

/-- The third miss in a row of an UP link, at the answer limit: LOST, its LINK record, the panel's points stale with no
pending change and their contact and accepted states held, point 248 + k present, the buttons released and a pressed TEST
let go (R67, R73, R16). Model's choices: log entries 4 and 20, by which a judgement at the answer limit, 3 ms after the
scan's start, or later is taken when it comes. -/
def Obligations.ThirdMissLosesLink : Prop :=
  ∀ (k : Fin 4) (rest : List RxByte) (e : LinkError) (s : State), s.mem.wf = true → s.due = [] →
    let l := nth s.links k
    l.state = .up → l.awaiting = true → l.limit ≤ s.now → l.miss = 2 →
    answerFault k l.carried (l.rx ++ rest) = some e →
    ∃ t, exec (.answerLimit k rest) s = .next t
      ∧ nth t.links k = { l with
          state := .lost, awaiting := false, rx := [], receipt := none, lastError := e, miss := 3, validRun := 0,
          buttons := {} }
      ∧ (∀ j, nth t.points (fieldPoint k j) = { nth s.points (fieldPoint k j) with stale := true, waiting := none })
      ∧ (nth t.points (linkPoint k)).contact = .present
      ∧ samePointsBut (fun p => (∃ j, p = fieldPoint k j) ∨ p = linkPoint k ∨ journalPoint p) s t
      ∧ (∀ j, j ≠ k → nth t.links j = nth s.links j ∧ nth t.panels j = nth s.panels j)
      ∧ nth t.panels k = (if l.buttons.test then { nth s.panels k with buttonEnd := none } else nth s.panels k)
      ∧ SideOnly { s with links := t.links, panels := t.panels } t
      ∧ sameMemoryBut (fun a => linkByte k a ∨ mirrorByte a ∨ recordByte a) s.mem t.mem
      ∧ (s.filters .link = false → recordJoins (linkRecord k .up { l with state := .lost, lastError := e } .misses 3
          s.stamp) s t)

/-- A valid answer that brings a link no further than STARTING: on a LOST link it starts the valid run at 1 with its LINK
record, on a STARTING one short of the third it raises the run; the miss count becomes 0, and no point or button changes
(R65, R68). Model's choices: log entries 4 and 20, by which a judgement at the answer limit, 3 ms after the scan's start,
or later is taken when it comes. -/
def Obligations.ValidAnswerRaisesRun : Prop :=
  ∀ (k : Fin 4) (rest : List RxByte) (s : State), s.mem.wf = true → s.due = [] →
    let l := nth s.links k
    l.awaiting = true → l.limit ≤ s.now → answerFault k l.carried (l.rx ++ rest) = none →
    l.state = .lost ∨ (l.state = .starting ∧ l.validRun < 2) →
    ∃ t, exec (.answerLimit k rest) s = .next t
      ∧ nth t.links k = { l with
          state := .starting, awaiting := false, rx := [], receipt := none, miss := 0,
          validRun := if l.state = .lost then 1 else l.validRun + 1 }
      ∧ SideOnly { s with links := upd s.links k (nth t.links k) } t ∧ samePointsBut journalPoint s t
      ∧ sameMemoryBut (fun a => linkByte k a ∨ recordByte a) s.mem t.mem
      ∧ (l.state = .lost → s.filters .link = false →
          recordJoins (linkRecord k .lost { l with state := .starting } .answer l.miss s.stamp) s t)

/-- The third valid answer in a row of a STARTING link, and any valid answer of an UP link: the link is UP with no
miss counted, its 48 points hold the contact states the answer reports, and its buttons are the answer's; on the way
UP its LINK record is made, the points stop being stale and point 248 + k is reported absent, and a RESTART LINK in flight
finishes DONE_OK; no other link or panel and no block of the trip side changes (R66, R71, R72, R77). A valid answer of an UP link is taken in
full, in this order: its change entries in the order of the frame; an overflow flag, which raises the entries-lost count
up to 255 and makes its ENTRIES_LOST record unless the mask names LINK; the comparison of its input vector; its buttons
(R65, R70). A button that goes from released to pressed is a press: ACK, SILENCE and RESET, in this order, are each an
action of origin PANEL k on the link's zone mask, then TEST is a test press; a TEST that goes from pressed to released is a
test release, after the presses; other releases do nothing (R33, R72). Model's choices: log entries 4 and 20, by which a
judgement at the answer limit, 3 ms after the scan's start, or later is taken when it comes; log entry 7, by which the
receipt is the judgement where none was noted; log entry 28, by which the 30,000 ms of a TEST press count from the
judgement; log entry 6, by which the reports of points 252 and 253 that an action's records make wait until it ends. -/
def Obligations.ValidAnswerSetsContacts : Prop :=
  ∀ (k : Fin 4) (rest : List RxByte) (new : Buttons) (s : State),
    let l := nth s.links k
    let a := readAnswer ((l.rx ++ rest).map (·.value))
    let r : Receipt := l.receipt.getD ⟨s.now, s.stamp⟩
    let lost := min 255 (l.entriesLost + 1)
    let press := fun (now before : Bool) (f : State → State) (u : State) =>
      if now = true ∧ before = false then f u else u
    let act := fun (c : Action) (u : State) => endAlarm (applyAction c (.zones (nth u.links k).zones) k.val u)
    (takeButtons k new s =
      let u := { s with links := upd s.links k { l with buttons := new } }
      let v := press new.reset l.buttons.reset (act .reset) (press new.silence l.buttons.silence (act .silence)
        (press new.ack l.buttons.ack (act .acknowledge) u))
      press l.buttons.test new.test (testRelease k) (press new.test l.buttons.test (testPress k) v))
    ∧ (s.due = [] →
      let u := countEntriesLost k s
      SideOnly { s with links := upd s.links k { l with entriesLost := lost } } u ∧ samePointsBut journalPoint s u
      ∧ sameMemoryBut recordByte s.mem u.mem
      ∧ (s.filters .link = true → u = { s with links := u.links })
      ∧ (s.filters .link = false → recordJoins (Record.stamped
          { kind := .link, high := false, subject := byte k.val, x0 := byte (1 + 2 * l.state.code + 8 * l.state.code)
            x1 := byte l.lastError.code, x2 := 0, x3 := byte lost } s.stamp) s u))
    ∧ (s.mem.wf = true → s.due = [] → l.awaiting = true → l.limit ≤ s.now →
      answerFault k l.carried (l.rx ++ rest) = none → l.state = .up ∨ (l.state = .starting ∧ l.validRun = 2) →
      ∃ t, exec (.answerLimit k rest) s = .next t
        ∧ nth t.links k = { l with
            state := .up, awaiting := false, rx := [], receipt := none, miss := 0, buttons := a.buttons
            validRun := if l.state = .up then l.validRun else 0
            restart := if l.state = .up then l.restart else none
            entriesLost := if l.state = .up ∧ a.overflow = true then lost else l.entriesLost }
        ∧ (∀ j, (nth t.points (fieldPoint k j)).contact = if nth a.inputs j then .closed else .opened)
        ∧ (l.state = .starting →
            (∀ j, (nth t.points (fieldPoint k j)).stale = false) ∧ (nth t.points (linkPoint k)).contact = .absent
            ∧ (s.filters .link = false →
                recordJoins (linkRecord k .starting { l with state := .up } .validAnswers l.miss s.stamp) s t))
        ∧ nth t.panels k = (if l.state = .up ∧ a.buttons.test = true ∧ l.buttons.test = false then
              { nth s.panels k with buttonEnd := some (s.now + 30000) }
            else if l.state = .up ∧ a.buttons.test = false ∧ l.buttons.test = true then
              { nth s.panels k with buttonEnd := none }
            else nth s.panels k)
        ∧ (l.state = .up → t =
            let u := { s with links := upd s.links k { l with awaiting := false, rx := [], receipt := none, miss := 0 } }
            let v := a.entries.foldl (takeEntry k r l.latency) u
            let w := if a.overflow = true then countEntriesLost k v else v
            State.showLink k (takeButtons k a.buttons (compareInputs k r a.inputs w)))
        ∧ (∀ k', k' ≠ k → nth t.links k' = nth s.links k' ∧ nth t.panels k' = nth s.panels k')
        ∧ SideOnly { s with links := t.links, panels := t.panels, engine := t.engine } t
        ∧ (l.state = .up ∨ l.restart = none → t.engine = s.engine)
        ∧ (∀ n d, l.state = .starting → l.restart = some (n, d) → t.engine = s.engine.counted
            ∧ SlotDone t.mem n .doneOk [byte (nth t.links k).state.code, byte (nth t.links k).miss,
                byte (nth t.links k).lastError.code])
        ∧ sameMemoryBut (fun a => linkByte k a ∨ mirrorByte a ∨ recordByte a
            ∨ ∃ x ∈ l.restart, l.state = .starting ∧ doneByte x.1 a) s.mem t.mem)

/-- What leaving UP does beside the link's own record (R67 steps 3 to 5, R69, R73, R16): the panel's points stale with no
pending change, point 248 + k present and a pressed TEST let go; and nothing of them where the link was not UP. -/
def leftUp (k : Fin 4) (s t : State) : Prop :=
  let l := nth s.links k
  (l.state = .up →
    (∀ j, nth t.points (fieldPoint k j) = { nth s.points (fieldPoint k j) with stale := true, waiting := none })
    ∧ (nth t.points (linkPoint k)).contact = .present
    ∧ samePointsBut (fun p => (∃ j, p = fieldPoint k j) ∨ p = linkPoint k ∨ journalPoint p) s t
    ∧ t.panels = upd s.panels k
        (if l.buttons.test then { nth s.panels k with buttonEnd := none } else nth s.panels k))
  ∧ (l.state ≠ .up → samePointsBut journalPoint s t ∧ t.panels = s.panels)

/-- RESTART LINK: a link above 3, a DISABLED link and one with a RESTART LINK in flight refuse it; otherwise its slot
stays TAKEN, the link is STARTING afresh with the order in flight for 1,000 ms, its LINK record is made and an UP link
leaves UP (R76); at its deadline the order ends LINK_NO_ANSWER with the link's state, miss count and last error kind, and
the link goes on (R77). SET LINK: a link above 3, an enabled setting above 1 and a latency above 15 are refused;
otherwise the link takes the three settings, and is DISABLED or, from DISABLED, STARTING as they say, with its LINK and
SETTINGS records; a link that becomes DISABLED ends a RESTART LINK in flight with REFUSED_STATE and leaves UP (R75).
Model's choices: a late deadline is taken when it comes (log entry 4), a link that becomes DISABLED closes its answer
window (log entry 17). -/
def Obligations.RestartLinkDeadlineEndsOrder : Prop :=
  ∀ (k : Fin 4) (n m : Fin 16) (d : Nat) (b : List Byte) (s : State), s.mem.wf = true →
    let l := nth s.links k
    let t := takeSlot n s
    (l.restart = some (m, d) → d ≤ s.now →
      ∃ t, exec (.restartLinkDeadline k) s = .next t
        ∧ t = { s with
            links := upd s.links k { l with restart := none }
            engine := s.engine.counted
            mem := t.mem }
        ∧ SlotDone t.mem m .linkNoAnswer [byte l.state.code, byte l.miss, byte l.lastError.code]
        ∧ sameMemoryBut (fun a => doneByte m a ∨ linkByte k a) s.mem t.mem)
    ∧ (s.holdsOrder n .restartLink b → 4 ≤ numAt b 0 → OrderEnds n .refusedRange [] s t)
    ∧ (s.holdsOrder n .restartLink b → numAt b 0 = k.val → l.state = .disabled → OrderEnds n .refusedState [] s t)
    ∧ (s.holdsOrder n .restartLink b → numAt b 0 = k.val → l.state ≠ .disabled → l.restart ≠ none →
        OrderEnds n .refusedBusy [] s t)
    ∧ (s.holdsOrder n .restartLink b → numAt b 0 = k.val → l.state ≠ .disabled → l.restart = none → s.due = [] →
        t.links = upd s.links k { l with
          state := .starting, validRun := 0, miss := 0, restart := some (n, s.now + 1000),
          buttons := if l.state = .up then {} else l.buttons }
        ∧ t.mem.readWord (slotBase n) = 2 ∧ leftUp k s t
        ∧ SideOnly { s with links := t.links, panels := t.panels } t
        ∧ sameMemoryBut (fun a => a = slotBase n ∨ a = slotBase n + 1 ∨ linkByte k a ∨ mirrorByte a ∨ recordByte a)
            s.mem t.mem
        ∧ (s.filters .link = false →
            recordJoins (linkRecord k l.state { l with state := .starting } .restartOrder l.miss s.stamp) s t))
    ∧ (s.holdsOrder n .setLink b → s.engine.commissioning = false → 4 ≤ numAt b 0 ∨ 1 < numAt b 1 ∨ 15 < numAt b 3 →
        OrderEnds n .refusedRange [] s t)
    ∧ (s.holdsOrder n .setLink b → s.engine.commissioning = false → numAt b 0 = k.val → numAt b 1 ≤ 1 →
        numAt b 3 ≤ 15 → s.due = [] → s.inFlight n = false →
        let on := numAt b 1 = 1
        let y := { l with enabled := decide on, zones := byteAt b 2, latency := numAt b 3 }
        let ends := l.state ≠ .disabled ∧ ¬on
        let e := if ends ∧ l.restart ≠ none then s.engine.counted.counted else s.engine.counted
        SlotDone t.mem n .doneOk []
        ∧ (l.state = .disabled → on → t.links = upd s.links k { y with state := .starting, miss := 0, validRun := 0 })
        ∧ ((l.state = .disabled ↔ ¬on) → t.links = upd s.links k y)
        ∧ (ends → t.links = upd s.links k { y with
            state := .disabled, awaiting := false, rx := [], receipt := none, restart := none,
            buttons := if l.state = .up then {} else l.buttons })
        ∧ (ends → leftUp k s t) ∧ (¬ends → samePointsBut journalPoint s t ∧ t.panels = s.panels)
        ∧ (∀ m d, ends → l.restart = some (m, d) → SlotDone t.mem m .refusedState
            [byte LinkState.disabled.code, byte l.miss, byte l.lastError.code])
        ∧ SideOnly { s with links := t.links, panels := t.panels, engine := e } t
        ∧ sameMemoryBut (fun a => doneByte n a ∨ (∃ x ∈ l.restart, ends ∧ doneByte x.1 a) ∨ linkByte k a ∨ mirrorByte a
            ∨ recordByte a) s.mem t.mem
        ∧ (s.filters .link = false → l.state = .disabled → on →
            recordJoins (linkRecord k .disabled { y with state := .starting } .enabled l.miss s.stamp) s t)
        ∧ (s.filters .link = false → ends →
            recordJoins (linkRecord k l.state { y with state := .disabled } .disabled l.miss s.stamp) s t)
        ∧ ((l.state = .disabled ↔ ¬on) →
            recordJoins (settingsRecord .setLink s.stamp k.val (numAt b 1) (numAt b 2) (numAt b 3) 0) s t))

/-! ## The Point Filter -/

/-- A raw transition of an enabled point: a raw run time earlier than the last one is raised to it and the stamp moved
forward with it; the bucket rises by its class's weight, saturating; a point not HELD whose level
reaches the suppress level becomes HELD with no pending change and makes its CHATTER record; a HELD point takes no change;
otherwise a change that differs from the accepted state waits for its deadline or, with the deadline come, is accepted at
once, and one that does not drops a pending change (R6, R9, R10, R13, R14). A report to a disabled point, and one that
leaves the raw state, changes the contact state alone (R1, R6). A change entry of an answer is reported with the receipt
less its age less the latency, in run time and in time of day, where day 0 borrows to day 65535, and is skipped when its
input is 48 or above (R5, R70). Model's choice: the reports of points 252 and 253 that the transition's records make wait
until it ends, so no point but p changes in it (log entry 6). -/
def Obligations.RawTransitionTakenWhole : Prop :=
  ∀ (p : Fin 256) (c : Contact) (run : Int) (stamp : Stamp) (approx : Bool) (link : Fin 4) (r : Receipt) (latency : Nat)
      (e : ChangeEntry) (s : State),
    let x := nth s.points p
    let y := { x with contact := c }
    let k := nth s.classes x.settings.cls
    let level := min 255 (x.bucket + k.weight)
    let t := contactReport p c run stamp approx s
    let delay := 10 * (if y.raw then x.settings.alarmDelay.toNat else x.settings.clearDelay.toNat)
    let late := (x.lastTime - run).toNat
    let time := if run < x.lastTime then x.lastTime else run.toNat
    let timed : Stamp := if run < x.lastTime then { stamp with
        day := (stamp.day + (stamp.ms + late) / 86400000) % 65536, ms := (stamp.ms + late) % 86400000 }
      else stamp
    (x.settings.enabled = false ∨ y.raw = x.raw → t = { s with points := upd s.points p y })
    ∧ (x.settings.enabled = true → y.raw ≠ x.raw →
      (nth t.points p).bucket = level ∧ (nth t.points p).contact = c ∧ (nth t.points p).lastTime = time
      ∧ (nth t.points p).lastStamp = timed ∧ (nth t.points p).lastApprox = approx
      ∧ SideOnly s t ∧ samePointsBut (fun q => q = p) s t
      ∧ sameMemoryBut (fun a => pointByte p a ∨ recordByte a) s.mem t.mem
      ∧ (x.held = true → (nth t.points p).held = true ∧ (nth t.points p).accepted = x.accepted
          ∧ (nth t.points p).waiting = x.waiting ∧ (nth t.points p).seq = x.seq ∧ t.journal = s.journal)
      ∧ (x.held = false → 0 < k.weight → k.suppress ≤ level →
          (nth t.points p).held = true ∧ (nth t.points p).waiting = none ∧ (nth t.points p).accepted = x.accepted
          ∧ (nth t.points p).seq = x.seq
          ∧ (s.filters .chatter = false →
              recordJoins (Record.stamped
                { kind := .chatter, high := false, subject := byte p.val, x0 := 1, x1 := byte level,
                  x2 := byte x.settings.cls.val } s.stamp) s t))
      ∧ (x.held = false → ¬(0 < k.weight ∧ k.suppress ≤ level) → (nth t.points p).held = false
          ∧ (y.raw ≠ x.accepted → s.now < time + delay →
              (nth t.points p).waiting = some ⟨y.raw, time + delay, time, timed, approx⟩
              ∧ (nth t.points p).accepted = x.accepted ∧ (nth t.points p).seq = x.seq ∧ t.journal = s.journal)
          ∧ (y.raw ≠ x.accepted → time + delay ≤ s.now →
              (nth t.points p).waiting = none ∧ (nth t.points p).accepted = y.raw)
          ∧ (y.raw = x.accepted → (nth t.points p).waiting = none ∧ (nth t.points p).accepted = x.accepted
              ∧ (nth t.points p).seq = x.seq ∧ t.journal = s.journal)))
    ∧ (∀ h : e.input < 48, r.stamp.day ≤ 65535 →
      let back := e.age + latency
      takeEntry link r latency s e = endAlarm (contactReport (fieldPoint link ⟨e.input, h⟩)
        (if e.closed then .closed else .opened) ((r.run : Int) - e.age - latency)
        (if back ≤ r.stamp.ms then { r.stamp with ms := r.stamp.ms - back }
          else { r.stamp with
            day := if r.stamp.day = 0 then 65535 else r.stamp.day - 1, ms := r.stamp.ms + 86400000 - back })
        false s))
    ∧ (48 ≤ e.input → takeEntry link r latency s e = s)

/-- The moves of R25. -/
def sequenceMove (q : SeqState) (abnormal lockIn ringback : Bool) : SeqState :=
  match q, abnormal with
  | .quiet, true | .alert, true | .alertCleared, true | .ringback, true => .alert
  | .standing, true => .standing
  | .quiet, false => .quiet
  | .alert, false => if lockIn then .alertCleared else .quiet
  | .alertCleared, false => .alertCleared
  | .standing, false => if ringback then .ringback else .quiet
  | .ringback, false => .ringback

/-- The deadline of a pending change: the accepted state takes its target, the pending change clears, the sequence
moves by R25's table (a shelved point stays QUIET), and the POINT record is made unless the mask names returns to
normal (R15, R25, R27). Model's choice: a late deadline is taken when it comes (log entry 4). -/
def Obligations.PendingChangeIsAccepted : Prop :=
  ∀ (p : Fin 256) (c : PendingChange) (s : State), s.due = [] → ¬journalPoint p →
    let x := nth s.points p
    x.waiting = some c → c.deadline ≤ s.now →
    ∃ t, exec (.pendingChangeDeadline p) s = .next t
      ∧ (let q := if x.shelved then .quiet
          else sequenceMove x.seq c.target x.settings.lockIn x.settings.ringback
        nth t.points p = { x with
          accepted := c.target, waiting := none, seq := q, firstMark := (nth t.points p).firstMark }
        ∧ (c.target = true ∨ s.filters .pointNormal = false →
            recordJoins (Record.stamped
              { kind := .point, high := x.settings.high, flags := { approx := c.approx, shelved := x.shelved },
                subject := byte p.val, x0 := byte (bit c.target), x1 := byte x.seq.code, x2 := byte q.code,
                x3 := byte x.settings.zone.val, x4 := byte (bit x.firstMark) } c.stamp) s t))
      ∧ samePointsBut (fun q => q = p ∨ journalPoint q) s t ∧ SideOnly s t
      ∧ sameMemoryBut (fun a => pointByte p a ∨ recordByte a) s.mem t.mem

/-- A leak step, at a multiple of 100 ms: every bucket falls by its class's leak to no less than 0, and of the HELD
points those at or below their release level, and no others, are released; nothing outside the alarm side and the
journal changes (R11, R12). SET CHATTER: the lowest class out of range is named in its refusal; otherwise the four
classes are the ones given, and of the HELD points those whose class now has weight 0, and no others, are released,
with every bucket as it was (R22). Model's choices: log entries 4, 6 and 14. -/
def Obligations.LeakStepDrainsAndReleases : Prop :=
  ∀ (n : Fin 16) (d : List Byte) (s : State), s.due = [] →
    (s.now % 100 = 0 → s.sched.leakFrom ≤ s.now →
      ∃ t, exec .leakStep s = .next t
        ∧ (∀ p, ¬journalPoint p →
            let x := nth s.points p
            let k := nth s.classes x.settings.cls
            (nth t.points p).bucket = x.bucket - k.leak
            ∧ (nth t.points p).held = (x.held && decide (k.release < x.bucket - k.leak))
            ∧ (nth t.points p).contact = x.contact ∧ (nth t.points p).settings = x.settings
            ∧ (x.held = false → (nth t.points p).accepted = x.accepted ∧ (nth t.points p).seq = x.seq
                ∧ (nth t.points p).waiting = x.waiting)
            ∧ (x.held = true → x.bucket - k.leak ≤ k.release → (nth t.points p).accepted = x.raw))
        ∧ SideOnly { s with sched := { s.sched with leakFrom := s.now + 1 } } t
        ∧ sameMemoryBut (fun a => mirrorByte a ∨ recordByte a) s.mem t.mem)
    ∧ (s.mem.wf = true → s.holdsOrder n .setChatter d → s.engine.commissioning = false →
      let given := fun c : Fin 4 => ({
        weight := numAt d (4 * c.val), leak := numAt d (4 * c.val + 1), suppress := numAt d (4 * c.val + 2)
        release := numAt d (4 * c.val + 3) } : ChatterClass)
      let fits := fun c : Fin 4 => (given c).weight ≤ 63 ∧ 1 ≤ (given c).leak ∧ (given c).leak ≤ 63
        ∧ 1 ≤ (given c).suppress ∧ (given c).release < (given c).suppress
      let t := takeSlot n s
      (∀ c, ¬fits c → (∀ c' < c, fits c') → OrderEnds n .refusedRange [byte c.val] s t)
      ∧ ((∀ c, fits c) → SlotDone t.mem n .doneOk [] ∧ (∀ c, nth t.classes c = given c)
        ∧ (∀ p, ¬journalPoint p →
            let x := nth s.points p
            let w := (given x.settings.cls).weight
            (nth t.points p).bucket = x.bucket ∧ (nth t.points p).held = (x.held && decide (w ≠ 0))
            ∧ (nth t.points p).contact = x.contact ∧ (nth t.points p).settings = x.settings
            ∧ (x.held = false ∨ w ≠ 0 → (nth t.points p).accepted = x.accepted ∧ (nth t.points p).seq = x.seq
                ∧ (nth t.points p).waiting = x.waiting)
            ∧ (x.held = true → w = 0 → (nth t.points p).accepted = x.raw))
        ∧ SideOnly { s with classes := t.classes, engine := s.engine.counted } t
        ∧ sameMemoryBut (fun a => doneByte n a ∨ mirrorByte a ∨ recordByte a) s.mem t.mem
        ∧ ((∀ p, (nth s.points p).held = false) →
            recordJoins (settingsRecord .setChatter s.stamp 0 0 0 0 0) s t)))

/-! ## The Sequence Unit -/

/-- Acknowledge and reset, point by point (R29, R30): the moves of the two tables, the ringback-silenced flag of the zone
cleared by a move into RINGBACK, nothing of the First-Out Unit or of any other point touched; and silence moves no
sequence state. An action applied whole does so to every point it reaches (R31); it sets both silence flags of the zones
of a silence's mask and clears the ringback-silenced flag of a zone with a move into RINGBACK (R37), works out every
horn, makes its ACTION record with the points moved (R32), and a reset re-arms every LATCHED group left with all points
QUIET (R56). ACKNOWLEDGE, SILENCE and RESET ALARMS apply it with origin STATION (R34 to R36). Model's choice: the reports
of points 252 and 253 that the action's records make wait until it ends, so `applyAction` takes none of them and
`endAlarm` does (log entry 6). -/
def Obligations.ActionsMovePoints : Prop :=
  ∀ (a : Action) (t : Target) (origin : Nat) (n : Fin 16) (d : List Byte) (s : State) (p : Fin 256),
    let moves := fun (a : Action) (x : Point) => (match a, x.seq with
      | .acknowledge, .alert => .standing
      | .acknowledge, .alertCleared => if x.settings.ringback then .ringback else .quiet
      | .reset, .ringback => .quiet
      | _, q => q : SeqState)
    let reached := fun (t : Target) (p : Fin 256) => (match t with
      | .zones m => (nth s.points p).settings.enabled && m.getLsbD (nth s.points p).settings.zone.val
      | .point q => decide (p = q) : Bool)
    let count := fun (a : Action) (t : Target) => min 255 ((List.finRange 256).countP fun p =>
      reached t p && decide (moves a (nth s.points p) ≠ (nth s.points p).seq))
    let x := nth s.points p
    let q := moves a x
    let u := actPoint a t s p
    let v := applyAction a t origin s
    let y := fun p => if reached t p then { nth s.points p with seq := moves a (nth s.points p) } else nth s.points p
    let rearms := fun g : Fin 16 => a = .reset ∧ (nth s.groups g).state = .latched
      ∧ ∀ p, (nth s.points p).settings.group = some g → (y p).seq = .quiet
    let inMask := fun z : Fin 8 => (match t with | .zones m => m.getLsbD z.val | .point _ => false : Bool)
    let inZone := fun (z : Fin 8) (f : SeqState → Bool) =>
      (List.finRange 256).countP fun p => decide ((nth s.points p).settings.zone = z) && f (y p).seq
    let w := s.putWord (slotBase n) 2
    let done := fun (a : Action) (t : Target) (data : List Byte) =>
      SlotDone (takeSlot n s).mem n .doneOk data
      ∧ takeSlot n s = { endAlarm (applyAction a t 4 w) with engine := s.engine.counted, mem := (takeSlot n s).mem }
      ∧ sameMemoryBut (doneByte n) (endAlarm (applyAction a t 4 w)).mem (takeSlot n s).mem
    ((t.reaches p x = true → nth u.points p = { x with seq := q }
      ∧ (q = .ringback → x.seq ≠ .ringback → (nth u.zones x.settings.zone).rbSilenced = false))
    ∧ (t.reaches p x = false → u = s)
    ∧ (∀ p', p' ≠ p → nth u.points p' = nth s.points p') ∧ u.groups = s.groups ∧ u.journal = s.journal
    ∧ SideOnly s u ∧ sameMemoryBut (pointByte p) s.mem u.mem)
    ∧ ((∀ p, nth v.points p = { y p with firstMark := (nth v.points p).firstMark })
    ∧ (∀ p, (nth v.points p).firstMark = true ↔ (nth s.points p).firstMark = true
        ∧ ∀ g, rearms g → (nth s.groups g).marked = true → (nth s.groups g).candidate ≠ some p)
    ∧ (∀ g, (rearms g → nth v.groups g = {}) ∧ (¬rearms g → nth v.groups g = nth s.groups g))
    ∧ (∀ z, let h := nth v.zones z
        (h.silenced = true ↔ (nth s.zones z).silenced = true ∨ (a = .silence ∧ inMask z = true))
        ∧ (h.rbSilenced = true ↔ (a = .silence ∧ inMask z = true) ∨ ((nth s.zones z).rbSilenced = true
            ∧ ∀ p, (nth s.points p).settings.zone = z → (y p).seq = .ringback → (nth s.points p).seq = .ringback))
        ∧ h.nAlert = inZone z (fun q => decide (q = SeqState.alert) || decide (q = SeqState.alertCleared))
        ∧ h.nStanding = inZone z (fun q => decide (q = SeqState.standing))
        ∧ h.nRingback = inZone z (fun q => decide (q = SeqState.ringback))
        ∧ h.horn = if h.nAlert ≠ 0 ∧ h.silenced = false then .alertTone
          else if h.nRingback ≠ 0 ∧ h.rbSilenced = false then .ringbackTone else .off)
    ∧ SideOnly s v ∧ sameMemoryBut (fun b => mirrorByte b ∨ recordByte b) s.mem v.mem
    ∧ (s.filters .action = false → recordJoins (Record.stamped
        { kind := .action, high := false, subject := (match t with | .zones _ => 0 | .point q => byte q.val)
          x0 := (match a with | .acknowledge => 1 | .silence => 2 | .reset => 3), x1 := byte origin
          x2 := (match t with | .zones _ => 0 | .point _ => 1), x3 := (match t with | .zones m => m | .point _ => 0)
          x4 := byte (count a t) } s.stamp) s v))
    ∧ (s.mem.wf = true →
      (s.holdsOrder n .acknowledge d → numAt d 0 = 0 →
        done .acknowledge (.zones (byteAt d 1)) [byte (count .acknowledge (.zones (byteAt d 1)))])
      ∧ (s.holdsOrder n .acknowledge d → numAt d 0 = 1 → wordAt d 2 = p.val →
        done .acknowledge (.point p) [byte (count .acknowledge (.point p))])
      ∧ (s.holdsOrder n .acknowledge d → 2 ≤ numAt d 0 ∨ (numAt d 0 = 1 ∧ 256 ≤ wordAt d 2) →
        OrderEnds n .refusedRange [] s (takeSlot n s))
      ∧ (s.holdsOrder n .silence d → done .silence (.zones (byteAt d 1)) [])
      ∧ (s.holdsOrder n .resetAlarms d →
        done .reset (.zones (byteAt d 1)) [byte (count .reset (.zones (byteAt d 1)))]))

/-- The horn of a zone, when it is worked out again (R38): the counts of the zone's points, and from them and the two
flags the horn; its line follows (R39). -/
def Obligations.HornFollowsCounts : Prop :=
  ∀ (z : Fin 8) (s : State),
    let inZone := fun (f : SeqState → Bool) =>
      (List.finRange 256).countP fun p => decide ((nth s.points p).settings.zone = z) && f (nth s.points p).seq
    let y := nth (rejudgeZone z s).zones z
    y.nAlert = inZone (fun q => decide (q = SeqState.alert) || decide (q = SeqState.alertCleared))
    ∧ y.nStanding = inZone (fun q => decide (q = SeqState.standing))
    ∧ y.nRingback = inZone (fun q => decide (q = SeqState.ringback))
    ∧ y.silenced = (nth s.zones z).silenced ∧ y.rbSilenced = (nth s.zones z).rbSilenced
    ∧ (y.nAlert ≠ 0 → y.silenced = false → y.horn = .alertTone)
    ∧ (y.nAlert = 0 ∨ y.silenced = true → y.nRingback ≠ 0 → y.rbSilenced = false → y.horn = .ringbackTone)
    ∧ (y.nAlert = 0 ∨ y.silenced = true → y.nRingback = 0 ∨ y.rbSilenced = true → y.horn = .off)
    ∧ (y.horn ≠ (nth s.zones z).horn → y.line = decide (y.horn ≠ .off)
        ∧ y.toggle = if y.horn = .ringbackTone then some (s.now + 500) else none)
    ∧ (∀ z', z' ≠ z → nth (rejudgeZone z s).zones z' = nth s.zones z')
    ∧ (rejudgeZone z s).points = s.points ∧ (rejudgeZone z s).journal = s.journal ∧ SideOnly s (rejudgeZone z s)
    ∧ sameMemoryBut (zoneByte z) s.mem (rejudgeZone z s).mem

/-- The lamp code of a window (R41), in a state in which no two points name one window (R19): TEST while a lamp test runs
on its panel; OFF when no enabled point with a window names it; otherwise the code of its point's sequence state and first
mark. -/
def Obligations.LampCodeOfWindow : Prop :=
  ∀ (s : State) (w : Fin 256), s.windowsHold →
    let panel : Fin 4 := ⟨w.val / 64, by omega⟩
    let testing := (nth s.panels panel).buttonEnd ≠ none ∨ (nth s.panels panel).orderEnd ≠ none
    let names := fun p : Fin 256 => (nth s.points p).settings.enabled = true
      ∧ (nth s.points p).settings.hasWindow = true ∧ (nth s.points p).settings.window = w
    (testing → s.lamp w = 6) ∧ (¬testing → (∀ p, ¬names p) → s.lamp w = 0)
    ∧ ∀ p, ¬testing → names p →
      s.lamp w = match (nth s.points p).seq, (nth s.points p).firstMark with
        | .quiet, _ => 0
        | .alert, false | .alertCleared, false => 2
        | .alert, true | .alertCleared, true => 4
        | .standing, false => 1
        | .standing, true => 5
        | .ringback, _ => 3

/-- A lamp test end that has come clears, and the test of the panel is over when the other end is clear too; the flag
of the link entry is written then, and nothing else changes (R43, R45). A TEST press sets the button test end 30,000 ms
on and the flag (R43), its release clears that end, and LAMP TEST sets the order test end of every panel of its mask, a duration of 0 taken as 1 s and one
above 30 as 30 s, or is refused for a panel above 3 (R44). Model's choices: a late end is taken when it comes (log entry
4), an empty mask with any duration ends DONE_OK (log entry 15), the press is counted from the answer's judgement (log
entry 28). -/
def Obligations.LampTestEndsClear : Prop :=
  ∀ (k : Fin 4) (n : Fin 16) (d : Nat) (b : List Byte) (s : State),
    let flagIs := fun (k : Fin 4) (m : Memory) (v : Bool) =>
      s.mem.wf = true → (m.read (hallBase + 208 + 8 * k.val)).getLsbD 4 = v
    (d ≤ s.now → (nth s.panels k).buttonEnd = some d → ∃ t, exec (.buttonTestEnd k) s = .next t
      ∧ t = { s with panels := upd s.panels k { nth s.panels k with buttonEnd := none }, mem := t.mem }
      ∧ (t.testing k = true ↔ (nth s.panels k).orderEnd ≠ none)
      ∧ ((nth s.panels k).orderEnd ≠ none → t.mem = s.mem) ∧ ((nth s.panels k).orderEnd = none → flagIs k t.mem false)
      ∧ sameMemoryBut (fun a => linkByte k a ∧ a < hallBase + 208 + 8 * k.val + 2) s.mem t.mem)
    ∧ (d ≤ s.now → (nth s.panels k).orderEnd = some d → ∃ t, exec (.orderTestEnd k) s = .next t
      ∧ t = { s with panels := upd s.panels k { nth s.panels k with orderEnd := none }, mem := t.mem }
      ∧ (t.testing k = true ↔ (nth s.panels k).buttonEnd ≠ none)
      ∧ ((nth s.panels k).buttonEnd ≠ none → t.mem = s.mem) ∧ ((nth s.panels k).buttonEnd = none → flagIs k t.mem false)
      ∧ sameMemoryBut (fun a => linkByte k a ∧ a < hallBase + 208 + 8 * k.val + 2) s.mem t.mem)
    ∧ (let t := testPress k s
      t = { s with
        panels := upd s.panels k { nth s.panels k with buttonEnd := some (s.now + 30000) }
        mem := t.mem }
      ∧ (s.testing k = true → t.mem = s.mem) ∧ (s.testing k = false → flagIs k t.mem true)
      ∧ sameMemoryBut (fun a => linkByte k a ∧ a < hallBase + 208 + 8 * k.val + 2) s.mem t.mem)
    ∧ (let t := testRelease k s
      t = { s with panels := upd s.panels k { nth s.panels k with buttonEnd := none }, mem := t.mem }
      ∧ ((nth s.panels k).buttonEnd = none ∨ (nth s.panels k).orderEnd ≠ none → t.mem = s.mem)
      ∧ ((nth s.panels k).buttonEnd ≠ none → (nth s.panels k).orderEnd = none → flagIs k t.mem false)
      ∧ sameMemoryBut (fun a => linkByte k a ∧ a < hallBase + 208 + 8 * k.val + 2) s.mem t.mem)
    ∧ (s.mem.wf = true → s.holdsOrder n .lampTest b → 16 ≤ numAt b 0 → OrderEnds n .refusedRange [] s (takeSlot n s))
    ∧ (s.mem.wf = true → s.holdsOrder n .lampTest b → numAt b 0 < 16 →
      let t := takeSlot n s
      let seconds := if numAt b 1 = 0 then 1 else if 30 < numAt b 1 then 30 else numAt b 1
      SlotDone t.mem n (if seconds = numAt b 1 ∨ numAt b 0 = 0 then .doneOk else .doneClamped) []
      ∧ (∀ k, nth t.panels k = if (numAt b 0).testBit k.val then
            { nth s.panels k with orderEnd := some (s.now + 1000 * seconds) } else nth s.panels k)
      ∧ (∀ k : Fin 4, (numAt b 0).testBit k.val = true → s.testing k = false → flagIs k t.mem true)
      ∧ t = { s with panels := t.panels, engine := s.engine.counted, mem := t.mem }
      ∧ sameMemoryBut (fun a => doneByte n a ∨ ∃ k : Fin 4, (numAt b 0).testBit k.val = true ∧ linkByte k a
          ∧ a < hallBase + 208 + 8 * k.val + 2) s.mem t.mem)

/-- The ringback tone: its line is active for 500 ms and inactive for 1,500 ms, on run time; nothing else changes, and a
horn in another state has no cycle (R39). Model's choice: a late toggle is taken when it comes, and the next one is
counted from the time it was due (log entry 4). -/
def Obligations.RingbackToneCycles : Prop :=
  ∀ (z : Fin 8) (s : State),
    let x := nth s.zones z
    (∀ d, x.horn = .ringbackTone → x.toggle = some d → d ≤ s.now →
      exec (.ringbackToneCycle z) s = .next { s with zones := upd s.zones z { x with
        line := !x.line, toggle := some (if x.line then d + 1500 else d + 500) } })
    ∧ (x.horn ≠ .ringbackTone → exec (.ringbackToneCycle z) s = .next s)

/-! ## The First-Out Unit -/

/-- What the settle of a group g finds of point p (R51, R53): whether it is marked, and the outcome of the FIRST OUT
record. -/
def markOutcome (g : Fin 16) (x : Point) : Bool × FirstOutcome :=
  if x.settings.enabled = false then (false, .notMarkedDisabled)
  else if x.shelved then (false, .notMarkedShelved)
  else if x.settings.group ≠ some g then (false, .notMarkedLeft) else (true, .marked)

/-- Reports of new alerts to a group. ARMED: the point is the candidate and the deadline is the settle window on; with a
settle window of 0 the group latches at once with its mark and its FIRST OUT record (R48). DECIDING: an earlier raw time,
or the same one of a lower point, displaces the candidate, whose raw time becomes the runner-up's; any other, and any of
the candidate itself, is compared with the runner-up; the contenders count rises and the deadline stands (R49). LATCHED:
the group is left as it is (R50). Model's choices: a report of the candidate itself displaces nothing even where it is
earlier (log entry 26), and the reports of points 252 and 253 that the FIRST OUT record of a latch makes wait until the
event ends, so no point but p changes (log entry 6). -/
def Obligations.AlertReportsAreCompared : Prop :=
  ∀ (g : Fin 16) (p c : Fin 256) (run : Nat) (s : State),
    let x := nth s.groups g
    let t := alertReport g p run s
    let y := nth t.groups g
    let others := (∀ g', g' ≠ g → nth t.groups g' = nth s.groups g') ∧ SideOnly s t
    let written := s.mem.wf = true →
      t.mem.readWord (hallBase + 56 + 2 * g.val) = word ((y.candidate.getD 0).val + 256 * y.contenders)
      ∧ t.mem.readWord (hallBase + 48 + 2 * (g.val / 4)) >>> (4 * (g.val % 4)) &&& 15
        = word ((match y.state with | .armed => 0 | .deciding => 1 | .latched => 2) + 4 * bit y.marked
          + 8 * bit y.candidate.isSome)
    (x.state = .latched → t = s)
    ∧ (x.state = .deciding → x.candidate = some c →
      y.state = .deciding ∧ y.deadline = x.deadline ∧ y.contenders = min 255 (x.contenders + 1)
      ∧ (p ≠ c → run < x.candidateTime ∨ (run = x.candidateTime ∧ p < c) →
          y.candidate = some p ∧ y.candidateTime = run ∧ y.runnerUp = some x.candidateTime)
      ∧ (p = c ∨ x.candidateTime < run ∨ (run = x.candidateTime ∧ c ≤ p) →
          y.candidate = some c ∧ y.candidateTime = x.candidateTime
          ∧ y.runnerUp = some (match x.runnerUp with | none => run | some r => min r run))
      ∧ others ∧ (y.contenders ≤ 255 → y.marked = x.marked ∧ written)
      ∧ t.points = s.points ∧ t.journal = s.journal ∧ sameMemoryBut (groupByte g) s.mem t.mem)
    ∧ (x.state = .armed → 0 < s.settleWindow →
      y = { state := .deciding, candidate := some p, candidateTime := run, runnerUp := none, contenders := 1,
            deadline := some (s.now + s.settleWindow), marked := false }
      ∧ others ∧ written
      ∧ t.points = s.points ∧ t.journal = s.journal ∧ sameMemoryBut (groupByte g) s.mem t.mem)
    ∧ (x.state = .armed → s.settleWindow = 0 →
      let m := markOutcome g (nth s.points p)
      y = { state := .latched, candidate := some p, candidateTime := run, runnerUp := none, contenders := 1,
            deadline := none, marked := m.1 }
      ∧ others ∧ t.points = upd s.points p { nth s.points p with firstMark := (nth s.points p).firstMark || m.1 }
      ∧ recordJoins (firstOutRecord g { state := .deciding, candidate := some p, candidateTime := run, contenders := 1 }
          m.2 s.stamp) s t
      ∧ sameMemoryBut (fun a => pointByte p a ∨ recordByte a) s.mem t.mem)

/-- The settle deadline of a DECIDING group: LATCHED with no deadline, and its candidate is marked exactly when it is
enabled, not shelved and still of the group; its FIRST OUT record is made, and no other point is marked (R51, R53).
Model's choice: a late deadline is taken when it comes (log entry 4). -/
def Obligations.SettleDeadlineLatches : Prop :=
  ∀ (g : Fin 16) (p : Fin 256) (d : Nat) (s : State), s.due = [] → ¬journalPoint p →
    let x := nth s.groups g
    let c := nth s.points p
    x.state = .deciding → x.deadline = some d → d ≤ s.now → x.candidate = some p →
    let mark := c.settings.enabled && !c.shelved && decide (c.settings.group = some g)
    let outcome : FirstOutcome := if c.settings.enabled = false then .notMarkedDisabled
      else if c.shelved then .notMarkedShelved
      else if c.settings.group ≠ some g then .notMarkedLeft else .marked
    ∃ t, exec (.settleDeadline g) s = .next t
      ∧ nth t.groups g = { x with state := .latched, deadline := none, marked := mark }
      ∧ nth t.points p = { c with firstMark := c.firstMark || mark }
      ∧ samePointsBut (fun q => q = p ∨ journalPoint q) s t ∧ SideOnly s t
      ∧ recordJoins (firstOutRecord g x outcome s.stamp) s t
      ∧ sameMemoryBut (fun a => pointByte p a ∨ recordByte a) s.mem t.mem

/-! ## Trip inputs and outputs -/

/-- A sample of the trip lines: each input takes its level; a level equal to the qualified state ends its run; another
one lengthens it, noting its start, until the count in force is reached, when the input qualifies to that level with
no run left; only inputs, outputs, points, records and their mirrors can change, and a sample that shows every
qualified state changes no output, point or record (R81, R82). The inputs are taken in ascending order, each with its
mirror entry where it changes (R86) and with its qualification, whose effects are those of TRIP_INPUT_QUALIFIED, complete
before the next (R81). Model's choices: log entries 4 and 5. -/
def Obligations.TripSampleCountsRuns : Prop :=
  ∀ (lines : BitVec 32) (s : State), s.sched.tripFrom ≤ s.now →
    ∃ t, exec (.tripInputSample lines) s = .next t
      ∧ (∀ i,
          let x := nth s.inputs i
          let level := lines.getLsbD i.val
          let q := s.qOf i
          nth t.inputs i =
            if level = x.qualified then
              { level := level, qualified := x.qualified, run := 0, start := none, qShown := q, qSampled := q }
            else if q ≤ x.run + 1 then
              { level := level, qualified := level, run := 0, start := none, qShown := q, qSampled := q }
            else { level := level, qualified := x.qualified, run := x.run + 1,
                   start := if x.run = 0 then some ⟨s.now, s.stamp⟩ else x.start, qShown := q, qSampled := q })
      ∧ SideOnly { s with
          inputs := t.inputs, outputs := t.outputs, sched := { s.sched with tripFrom := s.now + 1 } } t
      ∧ ((∀ i, lines.getLsbD i.val = (nth s.inputs i).qualified) →
          t.outputs = s.outputs ∧ t.points = s.points ∧ t.journal = s.journal)
      ∧ (let taken := fun (u : State) (i : Fin 32) =>
            let x := nth u.inputs i
            let level := lines.getLsbD i.val
            let q := u.qOf i
            let same := level = x.qualified
            let y := { x with
              level := level, qShown := q, qSampled := q, run := if same then 0 else x.run + 1
              start := if same then none else if x.run = 0 then some ⟨u.now, u.stamp⟩ else x.start }
            let v := { u with inputs := upd u.inputs i y }
            let w := if x.level = y.level ∧ x.run = y.run ∧ x.qShown = y.qShown then v else State.showInput i v
            match exec (.tripInputQualified i) w with
            | .next z => z
            | _ => w
        t = (List.finRange 32).foldl taken { s with sched := { s.sched with tripFrom := s.now + 1 } })
      ∧ sameMemoryBut (fun a => inputByte a ∨ outputsByte a ∨ mirrorByte a ∨ recordByte a) s.mem t.mem

/-- A run that its latest sample has brought to the count in force then qualifies its input: the qualified state, the
TRIP INPUT record stamped at the run start, the point's contact state, and, with no output in the input's mask, no output
touched (R82, R84, R85). An output whose driving set was empty and is not after it is driven by input i: IN_SERVICE, not
isolated and OFF it goes ON or LATCHED by its mode, and else it is left as it was; one whose set has emptied goes OFF if it
is an ON one of FOLLOW mode past its minimum time, and else is left; no other output changes; the edges of the outputs
are handed on in ascending order, after the TRIP INPUT record and before the point's contact state (R82, R93). The
driver of an output is the lowest input whose qualified state is active and whose mask in the active bank names it
(section 5.7). A run short of that count changes nothing, whatever count a SWITCH BANK has brought since: it
waits for its next sample (R83). Model's choice: the command beside the sample (log entry 5). -/
def Obligations.TripInputQualifies : Prop :=
  ∀ (i : Fin 32) (r : Receipt) (s : State), s.due = [] →
    let x := nth s.inputs i
    let inSet := fun (j : Fin 32) (o : Fin 24) => (nth s.inputs j).qualified = true ∧ (s.maskOf j).getLsbD o.val = true
    let record := Record.stamped
      { kind := .tripInput, high := true, subject := byte i.val,
        x0 := byte (bit x.level + 2 * bankCode s.active + 16 * s.qOf i), x1 := byte (s.maskOf i).toNat,
        x2 := byte ((s.maskOf i).toNat / 256), x3 := byte ((s.maskOf i).toNat / 65536) } r.stamp
    (∀ o j, s.driver o = some j ↔ inSet j o ∧ ∀ j' < j, ¬inSet j' o)
    ∧ (s.active = none → ∀ o, s.driver o = none)
    ∧ (x.run = 0 ∨ x.run < x.qSampled → exec (.tripInputQualified i) s = .next s)
    ∧ (0 < x.run → x.qSampled ≤ x.run → x.start = some r →
      ∃ t, exec (.tripInputQualified i) s = .next t
        ∧ t.inputs = upd s.inputs i { x with qualified := x.level, run := 0, start := none }
        ∧ (nth t.points (tripPoint i)).contact = (if x.level then .closed else .opened)
        ∧ recordJoins record s t
        ∧ (s.maskOf i = 0 → t.outputs = s.outputs)
        ∧ (∀ o, s.driver o = none → t.driver o ≠ none →
            let b := nth s.outputs o
            let y := nth t.outputs o
            let profile := nth s.profiles b.sel
            t.driver o = some i
            ∧ (s.engine.part ≠ .inService ∨ b.isolated = true ∨ b.state ≠ .off → y = b)
            ∧ (s.engine.part = .inService → b.isolated = false → b.state = .off →
              y.state = (if profile.mode = .latch then .latched else .on)
              ∧ y.onTimer = (if profile.mode = .latch then none else some (s.now + 10 * profile.onTime))
              ∧ y.minPassed = false ∧ y.sel = b.sel ∧ y.isolated = false ∧ y.supervised = b.supervised
              ∧ y.feedback = b.feedback ∧ y.fault = b.fault))
        ∧ (∀ o, s.driver o ≠ none → t.driver o = none →
            let b := nth s.outputs o
            let y := nth t.outputs o
            let goes := (nth s.profiles b.sel).mode = .follow ∧ b.state = .on ∧ b.minPassed = true
            (¬goes → y = b)
            ∧ (goes → y.state = .off ∧ y.onTimer = none ∧ y.minPassed = false ∧ y.sel = b.sel
              ∧ y.isolated = b.isolated ∧ y.supervised = b.supervised ∧ y.feedback = b.feedback))
        ∧ (∀ o, (s.driver o = none ↔ t.driver o = none) → nth t.outputs o = nth s.outputs o)
        ∧ t = takeContact (tripPoint i) (if x.level then .closed else .opened) r.run r.stamp false
            ((List.finRange 24).foldl (handEdge s.drivers) (offer record (State.showInput i { s with inputs := t.inputs })))
        ∧ SideOnly { s with inputs := t.inputs, outputs := t.outputs } t
        ∧ sameMemoryBut (fun a => inputByte a ∨ outputsByte a ∨ mirrorByte a ∨ recordByte a) s.mem t.mem)

/-- A mask of outputs as the result data give it: bit o for output o (section 11.5). -/
def outputMask (f : Fin 24 → Bool) : List Byte :=
  bytes4 ((List.finRange 24).foldr (fun o m => bit (f o) + 2 * m) 0)

/-- A rising drive (R100, R101): out of IN_SERVICE and on an isolated output it is blocked with its TRIP BLOCKED record and
no output changes; an energized output is left whole; an OFF one goes ON with its on-timer in PULSE and FOLLOW, LATCHED
with none in LATCH. REMOTE TRIP: a mask that names an output above 23 is refused; otherwise each output of the mask is
driven so with source REMOTE, and the result data give the outputs it energized and those it found isolated, PARTIAL when
there is one of these (R110). -/
def Obligations.RisingDriveActsByMode : Prop :=
  ∀ (o : Fin 24) (c : OutCause) (n : Fin 16) (d : List Byte) (s : State), s.due = [] →
    let x := nth s.outputs o
    let t := risingDrive o c s
    let profile := nth s.profiles x.sel
    sameMemoryBut (fun a => outputByte o a ∨ pointByte (faultPoint o) a ∨ recordByte a) s.mem t.mem
    ∧ samePointsBut (fun p => p = faultPoint o ∨ journalPoint p) s t ∧
    (s.engine.part ≠ .inService → SideOnly s t
      ∧ recordJoins (Record.stamped
          { kind := .tripBlocked, high := true, subject := byte o.val, x0 := 1, x1 := byte c.code, x2 := byte c.input,
            x3 := byte s.engine.part.code, x4 := byte x.state.code } s.stamp) s t)
    ∧ (s.engine.part = .inService → x.isolated = true → SideOnly s t
      ∧ recordJoins (Record.stamped
          { kind := .tripBlocked, high := true, subject := byte o.val, x0 := 2, x1 := byte c.code, x2 := byte c.input,
            x3 := byte s.engine.part.code, x4 := byte x.state.code } s.stamp) s t)
    ∧ (s.engine.part = .inService → x.isolated = false → x.state ≠ .off → t = s)
    ∧ (s.engine.part = .inService → x.isolated = false → x.state = .off →
      (nth t.outputs o).state = (if profile.mode = .latch then .latched else .on)
      ∧ (nth t.outputs o).onTimer = (if profile.mode = .latch then none else some (s.now + 10 * profile.onTime))
      ∧ (nth t.outputs o).minPassed = false ∧ (nth t.outputs o).sel = x.sel
      ∧ (∀ o', o' ≠ o → nth t.outputs o' = nth s.outputs o') ∧ SideOnly { s with outputs := t.outputs } t
      ∧ recordJoins (tripOutputRecord o .off (nth t.outputs o) c s) s t)
    ∧ (s.mem.wf = true → s.holdsOrder n .remoteTrip d → s.engine.part = .inService →
      let t := takeSlot n s
      (2 ^ 24 ≤ longAt d 0 → OrderEnds n .refusedRange [] s t)
      ∧ (longAt d 0 < 2 ^ 24 →
        let blocked := fun o : Fin 24 => (longAt d 0).testBit o.val && (nth s.outputs o).isolated
        let goes := fun o : Fin 24 => (longAt d 0).testBit o.val && !(nth s.outputs o).isolated
          && decide ((nth s.outputs o).state = .off)
        SlotDone t.mem n (if ∀ o, blocked o = false then .doneOk else .partialDone) (outputMask goes ++ outputMask blocked)
        ∧ (∀ o, goes o = false → nth t.outputs o = nth s.outputs o)
        ∧ (∀ o, goes o = true →
            let x := nth s.outputs o
            let profile := nth s.profiles x.sel
            let y := nth t.outputs o
            y.state = (if profile.mode = .latch then .latched else .on)
            ∧ y.onTimer = (if profile.mode = .latch then none else some (s.now + 10 * profile.onTime))
            ∧ y.minPassed = false ∧ y.sel = x.sel ∧ y.isolated = false ∧ y.supervised = x.supervised
            ∧ y.feedback = x.feedback ∧ y.fault = x.fault)
        ∧ SideOnly { s with outputs := t.outputs, engine := s.engine.counted } t ∧ samePointsBut journalPoint s t
        ∧ sameMemoryBut (fun a => doneByte n a ∨ outputsByte a ∨ recordByte a) s.mem t.mem
        ∧ (∀ o, goes o = true → (∀ o' < o, goes o' = false ∧ blocked o' = false) →
            recordJoins (tripOutputRecord o .off (nth t.outputs o) .remote s) s t)
        ∧ (∀ o, blocked o = true → (∀ o' < o, goes o' = false ∧ blocked o' = false) →
            recordJoins (Record.stamped
              { kind := .tripBlocked, high := true, subject := byte o.val, x0 := 2, x1 := 2, x2 := 255, x3 := 2,
                x4 := byte (nth s.outputs o).state.code } s.stamp) s t)))

/-- How an output lets go. A falling drive (R103): an ON output in FOLLOW mode whose minimum time has passed goes OFF with
cause RELEASE; in every other mode and state it has no effect; and a change of the driving input alone changes no output
and makes no record. The edge of an output at a qualification (R93): with the driver it had nothing is handed on; with
another its mirror entry shows it (R94), and where the set was empty that is a rising drive with the driver as cause,
where it has emptied a falling drive, and else no more. The on-timer's deadline (R102): a PULSE output, and a FOLLOW output that is not driven, go OFF with
cause TIMER; a driven FOLLOW output stays ON with its minimum time passed, and nothing but its mirror entry is written;
before the deadline, and with none, nothing changes. RESET LOCKOUT (R111): a mask that names an output above 23 is
refused; otherwise the LATCHED outputs of the mask that are not driven go OFF with cause LOCKOUT_RESET, and the result
data give them and the LATCHED ones that are driven, PARTIAL when there is one of these. Model's choice: a late deadline
is taken when it comes (log entry 4). -/
def Obligations.OutputsLetGoByMode : Prop :=
  ∀ (o : Fin 24) (before : Vector (Option (Fin 32)) 24) (i i' : Fin 32) (due : Nat) (n : Fin 16) (d : List Byte)
      (s : State),
    let x := nth s.outputs o
    let mode := (nth s.profiles x.sel).mode
    let shown := State.showOutput o s
    let letGo := fun (c : OutCause) (t : State) =>
      (nth t.outputs o).state = .off ∧ (nth t.outputs o).minPassed = false ∧ (nth t.outputs o).onTimer = none
      ∧ (nth t.outputs o).sel = x.sel ∧ (nth t.outputs o).isolated = x.isolated
      ∧ (∀ o', o' ≠ o → nth t.outputs o' = nth s.outputs o')
      ∧ recordJoins (tripOutputRecord o .on { x with state := .off } c s) s t
      ∧ SideOnly { s with outputs := t.outputs } t
      ∧ samePointsBut (fun p => p = faultPoint o ∨ journalPoint p) s t
      ∧ sameMemoryBut (fun a => outputByte o a ∨ pointByte (faultPoint o) a ∨ recordByte a) s.mem t.mem
    (mode = .pulse ∨ mode = .latch ∨ x.state ≠ .on ∨ x.minPassed = false → fallingDrive o s = s)
    ∧ (s.driver o = nth before o → handEdge before s o = s)
    ∧ (nth before o = none → s.driver o = some i → handEdge before s o = risingDrive o (.matrix i) shown)
    ∧ (nth before o = some i → s.driver o = none → handEdge before s o = fallingDrive o shown)
    ∧ (nth before o = some i → s.driver o = some i' → i ≠ i' → handEdge before s o = shown)
    ∧ shown = { s with mem := shown.mem }
    ∧ sameMemoryBut (fun a => a = hallBase + 128 + 2 * o.val ∨ a = hallBase + 129 + 2 * o.val) s.mem shown.mem
    ∧ (s.mem.wf = true →
        let word := shown.mem.readWord (hallBase + 128 + 2 * o.val)
        word.getLsbD 7 = s.driven o ∧ (s.driver o = some i' → (word.extractLsb' 8 5).toNat = i'.val))
    ∧ (s.due = [] → mode = .follow → x.state = .on → x.minPassed = true → letGo .release (fallingDrive o s))
    ∧ (nth before o = some i → s.driver o = some i' →
      (handEdge before s o).outputs = s.outputs ∧ (handEdge before s o).journal = s.journal)
    ∧ (x.state ≠ .on ∨ x.onTimer = none ∨ (x.onTimer = some due ∧ s.now < due) →
      exec (.onTimerExpiry o) s = .next s)
    ∧ (s.due = [] → x.state = .on → x.onTimer = some due → due ≤ s.now →
      (mode = .pulse ∨ (mode = .follow ∧ s.driven o = false) →
        ∃ t, exec (.onTimerExpiry o) s = .next t ∧ letGo .timer t)
      ∧ (mode = .follow → s.driven o = true → ∃ t, exec (.onTimerExpiry o) s = .next t
        ∧ t = { s with outputs := upd s.outputs o { x with onTimer := none, minPassed := true }, mem := t.mem }
        ∧ sameMemoryBut (fun a => a = hallBase + 128 + 2 * o.val ∨ a = hallBase + 129 + 2 * o.val) s.mem t.mem))
    ∧ (s.due = [] → s.mem.wf = true → s.holdsOrder n .resetLockout d →
      let t := takeSlot n s
      (2 ^ 24 ≤ longAt d 0 → OrderEnds n .refusedRange [] s t)
      ∧ (longAt d 0 < 2 ^ 24 →
        let latched := fun o : Fin 24 => (longAt d 0).testBit o.val && decide ((nth s.outputs o).state = .latched)
        let refused := fun o => latched o && s.driven o
        let goes := fun o => latched o && !s.driven o
        SlotDone t.mem n (if ∀ o, refused o = false then .doneOk else .partialDone) (outputMask goes ++ outputMask refused)
        ∧ (∀ o, goes o = false → nth t.outputs o = nth s.outputs o)
        ∧ (∀ o, goes o = true →
            let x := nth s.outputs o
            let y := nth t.outputs o
            y.state = .off ∧ y.onTimer = none ∧ y.minPassed = false ∧ y.sel = x.sel ∧ y.isolated = x.isolated
            ∧ y.supervised = x.supervised ∧ y.feedback = x.feedback)
        ∧ SideOnly { s with outputs := t.outputs, engine := s.engine.counted } t
        ∧ samePointsBut (fun p => (∃ o, goes o = true ∧ p = faultPoint o) ∨ journalPoint p) s t
        ∧ sameMemoryBut (fun a => doneByte n a ∨ outputsByte a ∨ mirrorByte a ∨ recordByte a) s.mem t.mem
        ∧ (∀ o, goes o = true → (∀ o' < o, goes o' = false) →
            recordJoins (tripOutputRecord o .latched { nth s.outputs o with state := .off } .lockoutReset s) s t)))

/-! ## Supervision -/

/-- A feedback sample (R115, R117 to R120): each output takes the condition of its two lines and keeps its drive
items. With the supply PRESENT each of its four timers runs on, starts or ends by its condition, and FAIL_TO_OPERATE clears
on a de-energized output without CURRENT, whose fault point is reported absent; with the supply not PRESENT no timer runs
and no fault changes. Nothing changes beside but the fault points and what records bring; a second sample within a
millisecond changes nothing. Model's choice: log entry 4. -/
def Obligations.FeedbackSampleJudgesTimers : Prop :=
  ∀ (current continuity : BitVec 24) (s : State), s.due = [] →
    (s.now < s.sched.feedbackFrom → exec (.feedbackSample current continuity) s = .next s)
    ∧ (s.sched.feedbackFrom ≤ s.now → ∃ t, exec (.feedbackSample current continuity) s = .next t
      ∧ SideOnly { s with outputs := t.outputs, sched := { s.sched with feedbackFrom := s.now + 1 } } t
      ∧ samePointsBut (fun p => (∃ o, p = faultPoint o) ∨ journalPoint p) s t
      ∧ sameMemoryBut (fun a => outputsByte a ∨ mirrorByte a ∨ recordByte a) s.mem t.mem
      ∧ ∀ o,
        let x := nth s.outputs o
        let f : Feedback := if current.getLsbD o.val then .current
          else if continuity.getLsbD o.val then .continuity else .opened
        let y := { x with feedback := f, seen := x.seen || decide (f = Feedback.current) }
        (s.supply.state = .present → nth t.outputs o = y.judgedPresent s.now)
        ∧ (s.supply.state ≠ .present → nth t.outputs o = y.untimed)
        ∧ ((nth t.outputs o).fault ≠ x.fault → (nth t.points (faultPoint o)).contact = .absent)
        ∧ ((nth t.outputs o).fault = x.fault → nth t.points (faultPoint o) = nth s.points (faultPoint o)))

/-- The deadlines of the operate, release, open and clear timers (R117 to R122): the fault each brings, or its end;
the timer is gone, the SUPERVISION record is made, point 224 + o follows the fault, and the output's drive items and
every other output stand. Model's choice: a late deadline is taken when it comes (log entry 4). -/
def Obligations.SupervisionDeadlinesSetFaults : Prop :=
  ∀ (o : Fin 24) (d : Nat) (s : State), s.due = [] → d ≤ s.now →
    let x := nth s.outputs o
    let faulted := fun (f : SupFault) (cause : Nat) (t : State) =>
      let y := nth t.outputs o
      y.fault = f ∧ y.state = x.state ∧ y.onTimer = x.onTimer ∧ y.minPassed = x.minPassed ∧ y.sel = x.sel
      ∧ y.feedback = x.feedback ∧ y.isolated = x.isolated ∧ y.supervised = x.supervised
      ∧ (∀ o', o' ≠ o → nth t.outputs o' = nth s.outputs o')
      ∧ SideOnly { s with outputs := t.outputs } t
      ∧ samePointsBut (fun p => p = faultPoint o ∨ journalPoint p) s t
      ∧ sameMemoryBut (fun a => outputByte o a ∨ pointByte (faultPoint o) a ∨ recordByte a) s.mem t.mem
      ∧ (¬(x.fault = .none ↔ f = .none) →
          (nth t.points (faultPoint o)).contact = if f = .none then .absent else .present)
      ∧ recordJoins (Record.stamped
          { kind := .supervision, high := true, subject := byte o.val, x0 := 1, x1 := byte x.fault.code,
            x2 := byte f.code, x3 := byte cause, x4 := byte (x.feedback.code + 4 * x.state.code) } s.stamp) s t
    (x.operate = some d → ∃ t, exec (.operateDeadline o) s = .next t ∧ (nth t.outputs o).operate = none
      ∧ faulted .failToOperate 1 t)
    ∧ (x.release = some d → ∃ t, exec (.releaseDeadline o) s = .next t ∧ (nth t.outputs o).release = none
      ∧ faulted .failToRelease 2 t)
    ∧ (x.opening = some d → ∃ t, exec (.openDeadline o) s = .next t ∧ (nth t.outputs o).opening = none
      ∧ faulted .circuitOpen 3 t)
    ∧ (x.clearing = some d → ∃ t, exec (.clearDeadline o) s = .next t ∧ (nth t.outputs o).clearing = none
      ∧ faulted .none (if x.fault = .circuitOpen then 6 else 5) t)

/-- A sample of the trip supply by its state, and the loss of a supply whose tenth absent sample has been counted:
absent samples count up to ten in a row, the tenth takes it to LOST with every supervision timer stopped and point 255
present; a present sample of a LOST supply starts the settle time (R123, R124). Model's choices: log entries 4 and 5. -/
def Obligations.SupplySamplesAreCounted : Prop :=
  ∀ s : State, s.due = [] →
    let reach := fun t : State => samePointsBut (fun p => p = 255 ∨ journalPoint p) s t
      ∧ sameMemoryBut (fun a => supplyByte a ∨ pointByte 255 a ∨ recordByte a) s.mem t.mem
    let lost := fun (u t : State) => t.supply = { state := .lost, absence := 0, settle := none }
      ∧ (∀ o, (nth t.outputs o).operate = none ∧ (nth t.outputs o).release = none ∧ (nth t.outputs o).opening = none
          ∧ (nth t.outputs o).clearing = none ∧ (nth t.outputs o).fault = (nth s.outputs o).fault
          ∧ (nth t.outputs o).state = (nth s.outputs o).state)
      ∧ (nth t.points 255).contact = .present
      ∧ SideOnly { u with supply := t.supply, outputs := t.outputs } t ∧ reach t
    let u := { s with sched := { s.sched with supplyFrom := s.now + 1 } }
    (s.sched.supplyFrom ≤ s.now →
      (s.supply.state ≠ .lost → ∃ t, exec (.supplySample true) s = .next t
        ∧ t = { u with supply := { s.supply with absence := 0 }, mem := t.mem } ∧ sameMemoryBut supplyByte s.mem t.mem)
      ∧ (s.supply.state ≠ .lost → s.supply.absence < 9 → ∃ t, exec (.supplySample false) s = .next t
        ∧ t = { u with supply := { s.supply with absence := s.supply.absence + 1 }, mem := t.mem }
        ∧ sameMemoryBut supplyByte s.mem t.mem)
      ∧ (s.supply.state ≠ .lost → s.supply.absence = 9 → ∃ t, exec (.supplySample false) s = .next t ∧ lost u t)
      ∧ (s.supply.state = .lost → exec (.supplySample false) s = .next u)
      ∧ (s.supply.state = .lost → ∃ t, exec (.supplySample true) s = .next t
        ∧ t.supply = { s.supply with state := .settling, settle := some (s.now + 500) }
        ∧ (nth t.points 255).contact = .absent ∧ SideOnly { u with supply := t.supply } t ∧ reach t))
    ∧ (s.supply.state ≠ .lost → 10 ≤ s.supply.absence → ∃ t, exec .supplyLost s = .next t ∧ lost s t)

/-- The end of the settle time: PRESENT, the supply record, and every output judged afresh, a feedback that is CURRENT
then being one seen: an energized one without CURRENT runs its operate timer, a de-energized one with CURRENT its release
timer, and so the open and clear timers by their conditions, each from this moment, since none has run while the supply
was not PRESENT; and FAIL_TO_OPERATE clears on a de-energized output without CURRENT, whose fault point is reported absent
(R125). Model's choice: a late deadline is taken when it comes (log entry 4). -/
def Obligations.SupplySettlesAndResumes : Prop :=
  ∀ (d : Nat) (s : State), s.due = [] → s.supply.state = .settling → s.supply.settle = some d →
    (s.now < d → exec .supplySettleDeadline s = .next s)
    ∧ (d ≤ s.now → ∃ t, exec .supplySettleDeadline s = .next t
      ∧ t.supply = { s.supply with state := .present, settle := none }
      ∧ (∀ o,
          let x := nth s.outputs o
          let y := { x with seen := decide (x.feedback = Feedback.current) }
          nth t.outputs o = y.judgedPresent s.now
          ∧ ((nth t.outputs o).fault ≠ x.fault → (nth t.points (faultPoint o)).contact = .absent)
          ∧ ((nth t.outputs o).fault = x.fault → nth t.points (faultPoint o) = nth s.points (faultPoint o)))
      ∧ SideOnly { s with supply := t.supply, outputs := t.outputs } t
      ∧ samePointsBut (fun p => (∃ o, p = faultPoint o) ∨ journalPoint p) s t
      ∧ sameMemoryBut (fun a => supplyByte a ∨ outputsByte a ∨ mirrorByte a ∨ recordByte a) s.mem t.mem
      ∧ recordJoins (Record.stamped
          { kind := .supervision, high := true, subject := 24, x0 := 2, x1 := 2, x2 := 0, x3 := 9,
            x4 := byte ((List.finRange 24).countP fun o => decide ((nth s.outputs o).state ≠ .off)) } s.stamp) s t)

/-! ## The Time Base -/

/-- A millisecond: run time and ms of day rise by 1, 86,400,000 begins the next day, and day 65535 is followed by day 0;
nothing else changes, while run time is below its last value (R128, R129). -/
def Obligations.RunTimeRisesWithTheDay : Prop :=
  ∀ s : State, s.time.run + 1 < 2 ^ 48 → s.clockHolds →
    exec .runTimeRise s = .next { s with time := { s.time with
      run := s.time.run + 1
      ms := if s.time.ms = 86399999 then 0 else s.time.ms + 1
      day := if s.time.ms = 86399999 then (if s.time.day = 65535 then 0 else s.time.day + 1) else s.time.day } }

/-- A sync pulse (R132 to R134): a second edge within a millisecond changes nothing; one that finds VALID clear or
sync disabled changes no item of the spec; one within 500 ms of a whole minute steps the time of day to it, clears the
spurious count and the fault and restarts the miss timer; any other raises the spurious count, and the third in a row
the fault. Model's choice: the item that holds the latest edge (log entry 21). -/
def Obligations.SyncPulseIsJudged : Prop :=
  ∀ s : State, s.clockHolds →
    let r : Nat := s.time.ms % 60000
    let edge := { s.time with lastEdge := some s.now }
    (s.time.lastEdge = some s.now → exec .syncPulse s = .next s)
    ∧ (s.time.lastEdge ≠ some s.now → s.time.valid = false ∨ s.time.syncEnabled = false →
      exec .syncPulse s = .next { s with time := edge })
    ∧ (s.time.lastEdge ≠ some s.now → s.time.valid = true → s.time.syncEnabled = true → s.due = [] →
      ∃ t, exec .syncPulse s = .next t ∧ SideOnly { s with time := t.time } t
        ∧ samePointsBut (fun p => p = 254 ∨ journalPoint p) s t
        ∧ sameMemoryBut (fun a => (32 ≤ a ∧ a < 42) ∨ pointByte 254 a ∨ recordByte a) s.mem t.mem
        ∧ (r ≤ 500 → t.time = { edge with
            ms := s.time.ms - r, spurious := 0, lastCorrection := -(r : Int), missTimer := some (s.now + 65000),
            lastPulse := s.now, fault := false, cause := .none })
        ∧ (59500 ≤ r → t.time = { edge with
            ms := if s.time.ms - r + 60000 = 86400000 then 0 else s.time.ms - r + 60000
            day := if s.time.ms - r + 60000 = 86400000 then (if s.time.day = 65535 then 0 else s.time.day + 1)
              else s.time.day
            spurious := 0, lastCorrection := 60000 - (r : Int), missTimer := some (s.now + 65000), lastPulse := s.now,
            fault := false, cause := .none })
        ∧ (500 < r → r < 59500 → s.time.spurious < 2 ∨ s.time.fault = true →
            t.time = { edge with spurious := min 255 (s.time.spurious + 1) })
        ∧ (500 < r → r < 59500 → 2 ≤ s.time.spurious → s.time.fault = false →
            t.time = { edge with spurious := min 255 (s.time.spurious + 1), fault := true, cause := .spurious }
            ∧ (nth t.points 254).contact = .present))

/-- The sync miss timer's deadline: the timer is gone; with no fault present it becomes present with cause NO_PULSE,
point 254 is reported present and the CLOCK record is made; with one present only the timer and the clock entry change
(R135). Model's choice: a late deadline is taken when it comes (log entry 4). -/
def Obligations.SyncMissRaisesFault : Prop :=
  ∀ (d : Nat) (s : State), s.due = [] → s.time.missTimer = some d → d ≤ s.now →
    (s.time.fault = true → ∃ t, exec .syncMissDeadline s = .next t
      ∧ t = { s with time := { s.time with missTimer := none }, mem := t.mem }
      ∧ sameMemoryBut (fun a => 32 ≤ a ∧ a < 42) s.mem t.mem)
    ∧ (s.time.fault = false → ∃ t, exec .syncMissDeadline s = .next t
      ∧ SideOnly { s with time := { s.time with missTimer := none, fault := true, cause := .noPulse } } t
      ∧ (nth t.points 254).contact = .present ∧ samePointsBut (fun p => p = 254 ∨ journalPoint p) s t
      ∧ sameMemoryBut (fun a => (32 ≤ a ∧ a < 42) ∨ pointByte 254 a ∨ recordByte a) s.mem t.mem
      ∧ (s.filters .clock = false →
          recordJoins (clockRecord .syncFault 2 (byte s.time.spurious) 0 0 s.stamp) s t))

/-! ## What every step keeps -/

/-- Right after reset every law of the part holds. Model's choice: the reset values of log entry 9. -/
def Obligations.ResetStateIsSound : Prop := State.reset.Sound

/-- The memory keeps its canonical form, in which equal memories are equal data: the form is the model's own (log entry
8). -/
def Obligations.StepKeepsMemoryForm : Prop := ∀ s t : State, s.memoryHolds → step s = .next t → t.memoryHolds

/-- The time of day stays within day 0-65535 and ms of day 0-86,399,999 (R129). -/
def Obligations.StepKeepsClockInRange : Prop := ∀ s t : State, s.clockHolds → step s = .next t → t.clockHolds

/-- No two enabled points with windows come to name one window (R19). -/
def Obligations.StepKeepsWindowsApart : Prop := ∀ s t : State, s.windowsHold → step s = .next t → t.windowsHold

/-- Links keep their laws: an UP link never stands at three misses, a link not UP has its buttons released, a RESTART LINK
is in flight on a STARTING or LOST link only (R67, R73, R75 to R77); and a DISABLED link has no open answer window, which
is the model's reading (log entry 17). -/
def Obligations.StepKeepsLinkLaws : Prop := ∀ s t : State, s.linksHold → step s = .next t → t.linksHold

/-- The active bank stays VALID, a bank is LOADING exactly while a LOAD MATRIX is in flight into it, and every count stays
in 1 to 15; and a trip input's run stands short of the count its latest sample compared it with, which is at most 15
(R81, R82, R87 to R91). -/
def Obligations.StepKeepsBankAndInputLaws : Prop :=
  ∀ s t : State, s.banksHold → s.inputsHold → step s = .next t → t.banksHold ∧ t.inputsHold

/-- No trip output is energized while the part is not IN_SERVICE or while it is isolated, and each output's items agree
with its state, mode and drive (R97, R98, R100 to R103). -/
def Obligations.StepKeepsOutputsGated : Prop := ∀ s t : State, s.outputsHold → step s = .next t → t.outputsHold

/-- The journal keeps its bounds: at most 48 records staged with consecutive numbers, a FILLING page in 7 to 255 with 1 to
14 records, records waiting without a page only while WAITING (R140 to R154). -/
def Obligations.StepKeepsJournalLaws : Prop := ∀ s t : State, s.journalHolds → step s = .next t → t.journalHolds

/-- Every law of the part is kept by every step: beside the laws above, those of the points (R9 to R11, R17, R24), of the
zones' counts and horns (R38, R39), of the groups and their first marks (R47, R51, R54), of the contact states (R1, R2,
R16), of the supervision timers and the trip supply (R117, R123, R124), of the slots of the orders in flight (R166, R170)
and of the reports that wait for the Point Filter (the model's own, log entry 6). -/
def Obligations.StepKeepsSound : Prop := ∀ s t : State, s.Sound → step s = .next t → t.Sound

end
end

