-- ==== Sys2Proof/Laws/Memory.lean ====
section
/-! SUPPORT. The laws of the exchange memory: a read after a write, and every write keeps the canonical form. -/

namespace Sys2Proof.Machine

/-! ## One byte -/

/-- A write leaves every other byte alone. -/
theorem Memory.read_write_other {m : Memory} {x y : Nat} (v : Byte) (h : y ≠ x) : (m.write x v).read y = m.read y := by
  induction m with
  | nil =>
    simp only [Memory.write]
    split <;> simp [Memory.read, h]
  | cons c m ih =>
    obtain ⟨a, b⟩ := c
    simp only [Memory.write]
    split
    · split <;> simp [Memory.read, h]
    · split
      · next e => subst e; split <;> simp [Memory.read, h]
      · simp only [Memory.read]; split <;> simp [ih]

/-- Below the first address of a canonical memory every byte reads 0. -/
theorem Memory.read_below {m : Memory} {lo x : Nat} (w : Memory.wfFrom lo m = true) (h : x < lo) : m.read x = 0 := by
  induction m generalizing lo with
  | nil => rfl
  | cons c m ih =>
    obtain ⟨a, b⟩ := c
    simp only [Memory.wfFrom, Bool.and_eq_true, decide_eq_true_eq] at w
    simp only [Memory.read, if_neg (show x ≠ a by omega)]
    exact ih w.2 (by omega)

/-- A canonical memory reads back the byte just written, at any of its 65,536 addresses. -/
theorem Memory.read_write_same {m : Memory} {lo x : Nat} (v : Byte) (w : Memory.wfFrom lo m = true) (h : x < 65536) :
    (m.write x v).read x = v := by
  induction m generalizing lo with
  | nil =>
    simp only [Memory.write]
    split
    · next z =>
      obtain rfl : v = 0 := z.resolve_right (by omega)
      rfl
    · simp [Memory.read]
  | cons c m ih =>
    obtain ⟨a, b⟩ := c
    simp only [Memory.wfFrom, Bool.and_eq_true, decide_eq_true_eq] at w
    simp only [Memory.write]
    split
    · next e =>
      split
      · next z =>
        obtain rfl : v = 0 := z.resolve_right (by omega)
        simp only [Memory.read, if_neg (show x ≠ a by omega)]
        exact Memory.read_below w.2 (by omega)
      · simp [Memory.read]
    · split
      · next e =>
        subst e
        split
        · next z => subst z; exact Memory.read_below w.2 (by omega)
        · simp [Memory.read]
      · next e => simp only [Memory.read, if_neg e]; exact ih w.2

/-- A canonical memory holds its form from a lower bound too. -/
theorem Memory.wfFrom_mono {m : Memory} {lo lo' : Nat} (w : Memory.wfFrom lo m = true) (h : lo' ≤ lo) :
    Memory.wfFrom lo' m = true := by
  cases m with
  | nil => rfl
  | cons c m =>
    simp only [Memory.wfFrom, Bool.and_eq_true, decide_eq_true_eq] at w ⊢
    exact ⟨⟨⟨by omega, w.1.1.2⟩, w.1.2⟩, w.2⟩

theorem Memory.wfFrom_write {m : Memory} {lo x : Nat} (v : Byte) (w : Memory.wfFrom lo m = true) (h : lo ≤ x) :
    Memory.wfFrom lo (m.write x v) = true := by
  induction m generalizing lo with
  | nil =>
    simp only [Memory.write]
    split
    · rfl
    · next e => simp [Memory.wfFrom]; exact ⟨⟨h, by omega⟩, fun z => e (.inl z)⟩
  | cons c m ih =>
    obtain ⟨a, b⟩ := c
    simp only [Memory.wfFrom, Bool.and_eq_true, decide_eq_true_eq] at w
    simp only [Memory.write]
    split
    · next l =>
      split
      · simp [Memory.wfFrom]; exact ⟨⟨⟨w.1.1.1, w.1.1.2⟩, w.1.2⟩, w.2⟩
      · next e =>
        simp [Memory.wfFrom]
        exact ⟨⟨⟨h, by omega⟩, fun z => e (.inl z)⟩, ⟨⟨by omega, w.1.1.2⟩, w.1.2⟩, w.2⟩
    · split
      · next e =>
        subst e
        split
        · exact Memory.wfFrom_mono w.2 (by omega)
        · next e => simp [Memory.wfFrom]; exact ⟨⟨⟨h, w.1.1.2⟩, e⟩, w.2⟩
      · next l e =>
        simp only [Memory.wfFrom, Bool.and_eq_true, decide_eq_true_eq]
        exact ⟨w.1, ih w.2 (by omega)⟩

/-- A write keeps the canonical form. -/
theorem Memory.wf_write {m : Memory} (x : Nat) (v : Byte) (w : m.wf = true) : (m.write x v).wf = true :=
  Memory.wfFrom_write v w (Nat.zero_le x)

/-! ## Words and runs of bytes -/

theorem Memory.wf_writeWord {m : Memory} (a : Nat) (x : Word) (w : m.wf = true) : (m.writeWord a x).wf = true :=
  Memory.wf_write _ _ (Memory.wf_write _ _ w)

theorem Memory.wf_writeBytes {m : Memory} (a : Nat) (bs : List Byte) (w : m.wf = true) :
    (m.writeBytes a bs).wf = true := by
  induction bs generalizing m a with
  | nil => exact w
  | cons b bs ih => exact ih _ (Memory.wf_write _ _ w)

theorem Memory.wf_writeWords {m : Memory} (ws : List (Nat × Word)) (w : m.wf = true) :
    (m.writeWords ws).wf = true := by
  induction ws generalizing m with
  | nil => exact w
  | cons x ws ih => exact ih (Memory.wf_writeWord _ _ w)

theorem Memory.wfFrom_filter {m : Memory} {lo : Nat} (f : Host.Cell → Bool) (w : Memory.wfFrom lo m = true) :
    Memory.wfFrom lo (m.filter f) = true := by
  induction m generalizing lo with
  | nil => rfl
  | cons c m ih =>
    obtain ⟨a, b⟩ := c
    simp only [Memory.wfFrom, Bool.and_eq_true, decide_eq_true_eq] at w
    by_cases h : f (a, b) = true
    · simp only [List.filter_cons, h, if_true, Memory.wfFrom, Bool.and_eq_true, decide_eq_true_eq]
      exact ⟨w.1, ih w.2⟩
    · simp only [List.filter_cons, h]
      exact ih (Memory.wfFrom_mono w.2 (by omega))

/-- What the reset line keeps has the canonical form. -/
theorem Memory.wf_kept {m : Memory} (w : m.wf = true) : m.keptAtResetLine.wf = true := Memory.wfFrom_filter _ w

/-- The places the reset line keeps read as before, the others 0. -/
theorem Memory.read_kept {m : Memory} (a : Nat) :
    m.keptAtResetLine.read a = if rewrittenAtResetLine a then 0 else m.read a := by
  induction m with
  | nil => simp [Memory.keptAtResetLine, Memory.read]
  | cons c m ih =>
    obtain ⟨x, b⟩ := c
    simp only [Memory.keptAtResetLine] at ih ⊢
    by_cases h : rewrittenAtResetLine x = true
    · simp only [List.filter_cons, h, Bool.not_true, Bool.false_eq_true, if_false, ih, Memory.read]
      by_cases e : a = x
      · subst e; simp [h]
      · simp [e]
    · simp only [List.filter_cons, h, Bool.not_false, if_true, Memory.read]
      by_cases e : a = x
      · subst e; simp [h]
      · simp only [e, if_false, ih]

theorem Memory.read_writeWord_other {m : Memory} {a y : Nat} (x : Word) (h : y < a ∨ a + 2 ≤ y) :
    (m.writeWord a x).read y = m.read y := by
  simp only [Memory.writeWord]
  rw [Memory.read_write_other _ (by omega), Memory.read_write_other _ (by omega)]

theorem Memory.read_writeWord {m : Memory} {a : Nat} (x : Word) (w : m.wf = true) (h : a + 1 < 65536) (y : Nat) :
    (m.writeWord a x).read y = if y = a then loByte x else if y = a + 1 then hiByte x else m.read y := by
  simp only [Memory.writeWord]
  by_cases h1 : y = a
  · subst h1
    rw [Memory.read_write_other _ (by omega), Memory.read_write_same _ w (by omega)]; simp
  · by_cases h2 : y = a + 1
    · subst h2; rw [Memory.read_write_same _ (Memory.wf_write _ _ w) h]; simp
    · rw [Memory.read_write_other _ h2, Memory.read_write_other _ h1]; simp [h1, h2]

theorem wordOf_lo_hi (x : Word) : wordOf (loByte x) (hiByte x) = x := by
  unfold wordOf loByte hiByte
  apply BitVec.eq_of_getLsbD_eq
  intro i hi
  simp only [BitVec.getLsbD_append, BitVec.getLsbD_extractLsb']
  split
  · simp_all
  · simp_all
    intro; omega

/-- A word reads back as it was written (R160). -/
theorem Memory.readWord_writeWord_same {m : Memory} {a : Nat} (x : Word) (w : m.wf = true) (h : a + 1 < 65536) :
    (m.writeWord a x).readWord a = x := by
  simp only [Memory.readWord, Memory.read_writeWord x w h]
  simp [wordOf_lo_hi]

theorem Memory.readWord_writeWord_other {m : Memory} {a y : Nat} (x : Word) (h : y + 2 ≤ a ∨ a + 2 ≤ y) :
    (m.writeWord a x).readWord y = m.readWord y := by
  simp only [Memory.readWord]
  rw [Memory.read_writeWord_other x (by omega), Memory.read_writeWord_other x (by omega)]

theorem Memory.read_writeBytes_other {m : Memory} {a y : Nat} (bs : List Byte) (h : y < a ∨ a + bs.length ≤ y) :
    (m.writeBytes a bs).read y = m.read y := by
  induction bs generalizing m a with
  | nil => rfl
  | cons b bs ih =>
    simp only [List.length_cons] at h
    simp only [Memory.writeBytes]
    rw [ih (by omega), Memory.read_write_other _ (by omega)]

/-- A run of bytes reads back as it was written. -/
theorem Memory.read_writeBytes {m : Memory} {a : Nat} (bs : List Byte) (w : m.wf = true) (h : a + bs.length ≤ 65536)
    (i : Nat) (hi : i < bs.length) : (m.writeBytes a bs).read (a + i) = bs[i] := by
  induction bs generalizing m a i with
  | nil => simp at hi
  | cons b bs ih =>
    simp only [List.length_cons] at h hi
    simp only [Memory.writeBytes]
    cases i with
    | zero =>
      rw [Memory.read_writeBytes_other _ (by omega)]
      simpa using Memory.read_write_same b w (by omega)
    | succ i =>
      have := ih (a := a + 1) (Memory.wf_write a b w) (by omega) i (by omega)
      simpa [Nat.add_assoc, Nat.add_comm 1] using this

theorem Memory.read_writeWords_other {m : Memory} {y : Nat} (ws : List (Nat × Word))
    (h : ∀ c ∈ ws, y < c.1 ∨ c.1 + 2 ≤ y) : (m.writeWords ws).read y = m.read y := by
  induction ws generalizing m with
  | nil => rfl
  | cons c ws ih =>
    simp only [Memory.writeWords]
    rw [ih (fun d hd => h d (List.mem_cons_of_mem _ hd)),
      Memory.read_writeWord_other _ (h c (List.mem_cons_self))]

theorem Memory.length_readBytes (m : Memory) (a n : Nat) : (m.readBytes a n).length = n := by
  induction n generalizing a with
  | zero => rfl
  | succ n ih => simp [Memory.readBytes, ih]

end Sys2Proof.Machine
end

