-- ==== Sys2Proof/Laws/State.lean ====
section
/-! SUPPORT. What each update of the state leaves alone, field by field. -/

namespace Sys2Proof.Machine

@[simp] theorem State.putWord_pending (a : Nat) (w : Word) (s : State) : (State.putWord a w s).pending = s.pending := rfl
@[simp] theorem State.putWord_time (a : Nat) (w : Word) (s : State) : (State.putWord a w s).time = s.time := rfl
@[simp] theorem State.putWord_classes (a : Nat) (w : Word) (s : State) : (State.putWord a w s).classes = s.classes := rfl
@[simp] theorem State.putWord_points (a : Nat) (w : Word) (s : State) : (State.putWord a w s).points = s.points := rfl
@[simp] theorem State.putWord_zones (a : Nat) (w : Word) (s : State) : (State.putWord a w s).zones = s.zones := rfl
@[simp] theorem State.putWord_panels (a : Nat) (w : Word) (s : State) : (State.putWord a w s).panels = s.panels := rfl
@[simp] theorem State.putWord_groups (a : Nat) (w : Word) (s : State) : (State.putWord a w s).groups = s.groups := rfl
@[simp] theorem State.putWord_settleWindow (a : Nat) (w : Word) (s : State) : (State.putWord a w s).settleWindow = s.settleWindow := rfl
@[simp] theorem State.putWord_links (a : Nat) (w : Word) (s : State) : (State.putWord a w s).links = s.links := rfl
@[simp] theorem State.putWord_inputs (a : Nat) (w : Word) (s : State) : (State.putWord a w s).inputs = s.inputs := rfl
@[simp] theorem State.putWord_bankA (a : Nat) (w : Word) (s : State) : (State.putWord a w s).bankA = s.bankA := rfl
@[simp] theorem State.putWord_bankB (a : Nat) (w : Word) (s : State) : (State.putWord a w s).bankB = s.bankB := rfl
@[simp] theorem State.putWord_active (a : Nat) (w : Word) (s : State) : (State.putWord a w s).active = s.active := rfl
@[simp] theorem State.putWord_outputs (a : Nat) (w : Word) (s : State) : (State.putWord a w s).outputs = s.outputs := rfl
@[simp] theorem State.putWord_profiles (a : Nat) (w : Word) (s : State) : (State.putWord a w s).profiles = s.profiles := rfl
@[simp] theorem State.putWord_supply (a : Nat) (w : Word) (s : State) : (State.putWord a w s).supply = s.supply := rfl
@[simp] theorem State.putWord_journal (a : Nat) (w : Word) (s : State) : (State.putWord a w s).journal = s.journal := rfl
@[simp] theorem State.putWord_engine (a : Nat) (w : Word) (s : State) : (State.putWord a w s).engine = s.engine := rfl
@[simp] theorem State.putWord_sched (a : Nat) (w : Word) (s : State) : (State.putWord a w s).sched = s.sched := rfl
@[simp] theorem State.putWord_due (a : Nat) (w : Word) (s : State) : (State.putWord a w s).due = s.due := rfl

@[simp] theorem State.putBytes_pending (a : Nat) (bs : List Byte) (s : State) : (State.putBytes a bs s).pending = s.pending := rfl
@[simp] theorem State.putBytes_time (a : Nat) (bs : List Byte) (s : State) : (State.putBytes a bs s).time = s.time := rfl
@[simp] theorem State.putBytes_classes (a : Nat) (bs : List Byte) (s : State) : (State.putBytes a bs s).classes = s.classes := rfl
@[simp] theorem State.putBytes_points (a : Nat) (bs : List Byte) (s : State) : (State.putBytes a bs s).points = s.points := rfl
@[simp] theorem State.putBytes_zones (a : Nat) (bs : List Byte) (s : State) : (State.putBytes a bs s).zones = s.zones := rfl
@[simp] theorem State.putBytes_panels (a : Nat) (bs : List Byte) (s : State) : (State.putBytes a bs s).panels = s.panels := rfl
@[simp] theorem State.putBytes_groups (a : Nat) (bs : List Byte) (s : State) : (State.putBytes a bs s).groups = s.groups := rfl
@[simp] theorem State.putBytes_settleWindow (a : Nat) (bs : List Byte) (s : State) : (State.putBytes a bs s).settleWindow = s.settleWindow := rfl
@[simp] theorem State.putBytes_links (a : Nat) (bs : List Byte) (s : State) : (State.putBytes a bs s).links = s.links := rfl
@[simp] theorem State.putBytes_inputs (a : Nat) (bs : List Byte) (s : State) : (State.putBytes a bs s).inputs = s.inputs := rfl
@[simp] theorem State.putBytes_bankA (a : Nat) (bs : List Byte) (s : State) : (State.putBytes a bs s).bankA = s.bankA := rfl
@[simp] theorem State.putBytes_bankB (a : Nat) (bs : List Byte) (s : State) : (State.putBytes a bs s).bankB = s.bankB := rfl
@[simp] theorem State.putBytes_active (a : Nat) (bs : List Byte) (s : State) : (State.putBytes a bs s).active = s.active := rfl
@[simp] theorem State.putBytes_outputs (a : Nat) (bs : List Byte) (s : State) : (State.putBytes a bs s).outputs = s.outputs := rfl
@[simp] theorem State.putBytes_profiles (a : Nat) (bs : List Byte) (s : State) : (State.putBytes a bs s).profiles = s.profiles := rfl
@[simp] theorem State.putBytes_supply (a : Nat) (bs : List Byte) (s : State) : (State.putBytes a bs s).supply = s.supply := rfl
@[simp] theorem State.putBytes_journal (a : Nat) (bs : List Byte) (s : State) : (State.putBytes a bs s).journal = s.journal := rfl
@[simp] theorem State.putBytes_engine (a : Nat) (bs : List Byte) (s : State) : (State.putBytes a bs s).engine = s.engine := rfl
@[simp] theorem State.putBytes_sched (a : Nat) (bs : List Byte) (s : State) : (State.putBytes a bs s).sched = s.sched := rfl
@[simp] theorem State.putBytes_due (a : Nat) (bs : List Byte) (s : State) : (State.putBytes a bs s).due = s.due := rfl

@[simp] theorem State.putWords_pending (ws : List (Nat × Word)) (s : State) : (State.putWords ws s).pending = s.pending := rfl
@[simp] theorem State.putWords_time (ws : List (Nat × Word)) (s : State) : (State.putWords ws s).time = s.time := rfl
@[simp] theorem State.putWords_classes (ws : List (Nat × Word)) (s : State) : (State.putWords ws s).classes = s.classes := rfl
@[simp] theorem State.putWords_points (ws : List (Nat × Word)) (s : State) : (State.putWords ws s).points = s.points := rfl
@[simp] theorem State.putWords_zones (ws : List (Nat × Word)) (s : State) : (State.putWords ws s).zones = s.zones := rfl
@[simp] theorem State.putWords_panels (ws : List (Nat × Word)) (s : State) : (State.putWords ws s).panels = s.panels := rfl
@[simp] theorem State.putWords_groups (ws : List (Nat × Word)) (s : State) : (State.putWords ws s).groups = s.groups := rfl
@[simp] theorem State.putWords_settleWindow (ws : List (Nat × Word)) (s : State) : (State.putWords ws s).settleWindow = s.settleWindow := rfl
@[simp] theorem State.putWords_links (ws : List (Nat × Word)) (s : State) : (State.putWords ws s).links = s.links := rfl
@[simp] theorem State.putWords_inputs (ws : List (Nat × Word)) (s : State) : (State.putWords ws s).inputs = s.inputs := rfl
@[simp] theorem State.putWords_bankA (ws : List (Nat × Word)) (s : State) : (State.putWords ws s).bankA = s.bankA := rfl
@[simp] theorem State.putWords_bankB (ws : List (Nat × Word)) (s : State) : (State.putWords ws s).bankB = s.bankB := rfl
@[simp] theorem State.putWords_active (ws : List (Nat × Word)) (s : State) : (State.putWords ws s).active = s.active := rfl
@[simp] theorem State.putWords_outputs (ws : List (Nat × Word)) (s : State) : (State.putWords ws s).outputs = s.outputs := rfl
@[simp] theorem State.putWords_profiles (ws : List (Nat × Word)) (s : State) : (State.putWords ws s).profiles = s.profiles := rfl
@[simp] theorem State.putWords_supply (ws : List (Nat × Word)) (s : State) : (State.putWords ws s).supply = s.supply := rfl
@[simp] theorem State.putWords_journal (ws : List (Nat × Word)) (s : State) : (State.putWords ws s).journal = s.journal := rfl
@[simp] theorem State.putWords_engine (ws : List (Nat × Word)) (s : State) : (State.putWords ws s).engine = s.engine := rfl
@[simp] theorem State.putWords_sched (ws : List (Nat × Word)) (s : State) : (State.putWords ws s).sched = s.sched := rfl
@[simp] theorem State.putWords_due (ws : List (Nat × Word)) (s : State) : (State.putWords ws s).due = s.due := rfl

@[simp] theorem State.showPoint_pending (p : Fin 256) (s : State) : (State.showPoint p s).pending = s.pending := rfl
@[simp] theorem State.showPoint_time (p : Fin 256) (s : State) : (State.showPoint p s).time = s.time := rfl
@[simp] theorem State.showPoint_classes (p : Fin 256) (s : State) : (State.showPoint p s).classes = s.classes := rfl
@[simp] theorem State.showPoint_points (p : Fin 256) (s : State) : (State.showPoint p s).points = s.points := rfl
@[simp] theorem State.showPoint_zones (p : Fin 256) (s : State) : (State.showPoint p s).zones = s.zones := rfl
@[simp] theorem State.showPoint_panels (p : Fin 256) (s : State) : (State.showPoint p s).panels = s.panels := rfl
@[simp] theorem State.showPoint_groups (p : Fin 256) (s : State) : (State.showPoint p s).groups = s.groups := rfl
@[simp] theorem State.showPoint_settleWindow (p : Fin 256) (s : State) : (State.showPoint p s).settleWindow = s.settleWindow := rfl
@[simp] theorem State.showPoint_links (p : Fin 256) (s : State) : (State.showPoint p s).links = s.links := rfl
@[simp] theorem State.showPoint_inputs (p : Fin 256) (s : State) : (State.showPoint p s).inputs = s.inputs := rfl
@[simp] theorem State.showPoint_bankA (p : Fin 256) (s : State) : (State.showPoint p s).bankA = s.bankA := rfl
@[simp] theorem State.showPoint_bankB (p : Fin 256) (s : State) : (State.showPoint p s).bankB = s.bankB := rfl
@[simp] theorem State.showPoint_active (p : Fin 256) (s : State) : (State.showPoint p s).active = s.active := rfl
@[simp] theorem State.showPoint_outputs (p : Fin 256) (s : State) : (State.showPoint p s).outputs = s.outputs := rfl
@[simp] theorem State.showPoint_profiles (p : Fin 256) (s : State) : (State.showPoint p s).profiles = s.profiles := rfl
@[simp] theorem State.showPoint_supply (p : Fin 256) (s : State) : (State.showPoint p s).supply = s.supply := rfl
@[simp] theorem State.showPoint_journal (p : Fin 256) (s : State) : (State.showPoint p s).journal = s.journal := rfl
@[simp] theorem State.showPoint_engine (p : Fin 256) (s : State) : (State.showPoint p s).engine = s.engine := rfl
@[simp] theorem State.showPoint_sched (p : Fin 256) (s : State) : (State.showPoint p s).sched = s.sched := rfl
@[simp] theorem State.showPoint_due (p : Fin 256) (s : State) : (State.showPoint p s).due = s.due := rfl

@[simp] theorem State.showZone_pending (z : Fin 8) (s : State) : (State.showZone z s).pending = s.pending := rfl
@[simp] theorem State.showZone_time (z : Fin 8) (s : State) : (State.showZone z s).time = s.time := rfl
@[simp] theorem State.showZone_classes (z : Fin 8) (s : State) : (State.showZone z s).classes = s.classes := rfl
@[simp] theorem State.showZone_points (z : Fin 8) (s : State) : (State.showZone z s).points = s.points := rfl
@[simp] theorem State.showZone_zones (z : Fin 8) (s : State) : (State.showZone z s).zones = s.zones := rfl
@[simp] theorem State.showZone_panels (z : Fin 8) (s : State) : (State.showZone z s).panels = s.panels := rfl
@[simp] theorem State.showZone_groups (z : Fin 8) (s : State) : (State.showZone z s).groups = s.groups := rfl
@[simp] theorem State.showZone_settleWindow (z : Fin 8) (s : State) : (State.showZone z s).settleWindow = s.settleWindow := rfl
@[simp] theorem State.showZone_links (z : Fin 8) (s : State) : (State.showZone z s).links = s.links := rfl
@[simp] theorem State.showZone_inputs (z : Fin 8) (s : State) : (State.showZone z s).inputs = s.inputs := rfl
@[simp] theorem State.showZone_bankA (z : Fin 8) (s : State) : (State.showZone z s).bankA = s.bankA := rfl
@[simp] theorem State.showZone_bankB (z : Fin 8) (s : State) : (State.showZone z s).bankB = s.bankB := rfl
@[simp] theorem State.showZone_active (z : Fin 8) (s : State) : (State.showZone z s).active = s.active := rfl
@[simp] theorem State.showZone_outputs (z : Fin 8) (s : State) : (State.showZone z s).outputs = s.outputs := rfl
@[simp] theorem State.showZone_profiles (z : Fin 8) (s : State) : (State.showZone z s).profiles = s.profiles := rfl
@[simp] theorem State.showZone_supply (z : Fin 8) (s : State) : (State.showZone z s).supply = s.supply := rfl
@[simp] theorem State.showZone_journal (z : Fin 8) (s : State) : (State.showZone z s).journal = s.journal := rfl
@[simp] theorem State.showZone_engine (z : Fin 8) (s : State) : (State.showZone z s).engine = s.engine := rfl
@[simp] theorem State.showZone_sched (z : Fin 8) (s : State) : (State.showZone z s).sched = s.sched := rfl
@[simp] theorem State.showZone_due (z : Fin 8) (s : State) : (State.showZone z s).due = s.due := rfl

@[simp] theorem State.showGroup_pending (g : Fin 16) (s : State) : (State.showGroup g s).pending = s.pending := rfl
@[simp] theorem State.showGroup_time (g : Fin 16) (s : State) : (State.showGroup g s).time = s.time := rfl
@[simp] theorem State.showGroup_classes (g : Fin 16) (s : State) : (State.showGroup g s).classes = s.classes := rfl
@[simp] theorem State.showGroup_points (g : Fin 16) (s : State) : (State.showGroup g s).points = s.points := rfl
@[simp] theorem State.showGroup_zones (g : Fin 16) (s : State) : (State.showGroup g s).zones = s.zones := rfl
@[simp] theorem State.showGroup_panels (g : Fin 16) (s : State) : (State.showGroup g s).panels = s.panels := rfl
@[simp] theorem State.showGroup_groups (g : Fin 16) (s : State) : (State.showGroup g s).groups = s.groups := rfl
@[simp] theorem State.showGroup_settleWindow (g : Fin 16) (s : State) : (State.showGroup g s).settleWindow = s.settleWindow := rfl
@[simp] theorem State.showGroup_links (g : Fin 16) (s : State) : (State.showGroup g s).links = s.links := rfl
@[simp] theorem State.showGroup_inputs (g : Fin 16) (s : State) : (State.showGroup g s).inputs = s.inputs := rfl
@[simp] theorem State.showGroup_bankA (g : Fin 16) (s : State) : (State.showGroup g s).bankA = s.bankA := rfl
@[simp] theorem State.showGroup_bankB (g : Fin 16) (s : State) : (State.showGroup g s).bankB = s.bankB := rfl
@[simp] theorem State.showGroup_active (g : Fin 16) (s : State) : (State.showGroup g s).active = s.active := rfl
@[simp] theorem State.showGroup_outputs (g : Fin 16) (s : State) : (State.showGroup g s).outputs = s.outputs := rfl
@[simp] theorem State.showGroup_profiles (g : Fin 16) (s : State) : (State.showGroup g s).profiles = s.profiles := rfl
@[simp] theorem State.showGroup_supply (g : Fin 16) (s : State) : (State.showGroup g s).supply = s.supply := rfl
@[simp] theorem State.showGroup_journal (g : Fin 16) (s : State) : (State.showGroup g s).journal = s.journal := rfl
@[simp] theorem State.showGroup_engine (g : Fin 16) (s : State) : (State.showGroup g s).engine = s.engine := rfl
@[simp] theorem State.showGroup_sched (g : Fin 16) (s : State) : (State.showGroup g s).sched = s.sched := rfl
@[simp] theorem State.showGroup_due (g : Fin 16) (s : State) : (State.showGroup g s).due = s.due := rfl

@[simp] theorem State.showLink_pending (k : Fin 4) (s : State) : (State.showLink k s).pending = s.pending := rfl
@[simp] theorem State.showLink_time (k : Fin 4) (s : State) : (State.showLink k s).time = s.time := rfl
@[simp] theorem State.showLink_classes (k : Fin 4) (s : State) : (State.showLink k s).classes = s.classes := rfl
@[simp] theorem State.showLink_points (k : Fin 4) (s : State) : (State.showLink k s).points = s.points := rfl
@[simp] theorem State.showLink_zones (k : Fin 4) (s : State) : (State.showLink k s).zones = s.zones := rfl
@[simp] theorem State.showLink_panels (k : Fin 4) (s : State) : (State.showLink k s).panels = s.panels := rfl
@[simp] theorem State.showLink_groups (k : Fin 4) (s : State) : (State.showLink k s).groups = s.groups := rfl
@[simp] theorem State.showLink_settleWindow (k : Fin 4) (s : State) : (State.showLink k s).settleWindow = s.settleWindow := rfl
@[simp] theorem State.showLink_links (k : Fin 4) (s : State) : (State.showLink k s).links = s.links := rfl
@[simp] theorem State.showLink_inputs (k : Fin 4) (s : State) : (State.showLink k s).inputs = s.inputs := rfl
@[simp] theorem State.showLink_bankA (k : Fin 4) (s : State) : (State.showLink k s).bankA = s.bankA := rfl
@[simp] theorem State.showLink_bankB (k : Fin 4) (s : State) : (State.showLink k s).bankB = s.bankB := rfl
@[simp] theorem State.showLink_active (k : Fin 4) (s : State) : (State.showLink k s).active = s.active := rfl
@[simp] theorem State.showLink_outputs (k : Fin 4) (s : State) : (State.showLink k s).outputs = s.outputs := rfl
@[simp] theorem State.showLink_profiles (k : Fin 4) (s : State) : (State.showLink k s).profiles = s.profiles := rfl
@[simp] theorem State.showLink_supply (k : Fin 4) (s : State) : (State.showLink k s).supply = s.supply := rfl
@[simp] theorem State.showLink_journal (k : Fin 4) (s : State) : (State.showLink k s).journal = s.journal := rfl
@[simp] theorem State.showLink_engine (k : Fin 4) (s : State) : (State.showLink k s).engine = s.engine := rfl
@[simp] theorem State.showLink_sched (k : Fin 4) (s : State) : (State.showLink k s).sched = s.sched := rfl
@[simp] theorem State.showLink_due (k : Fin 4) (s : State) : (State.showLink k s).due = s.due := rfl

@[simp] theorem State.showTest_pending (k : Fin 4) (s : State) : (State.showTest k s).pending = s.pending := rfl
@[simp] theorem State.showTest_time (k : Fin 4) (s : State) : (State.showTest k s).time = s.time := rfl
@[simp] theorem State.showTest_classes (k : Fin 4) (s : State) : (State.showTest k s).classes = s.classes := rfl
@[simp] theorem State.showTest_points (k : Fin 4) (s : State) : (State.showTest k s).points = s.points := rfl
@[simp] theorem State.showTest_zones (k : Fin 4) (s : State) : (State.showTest k s).zones = s.zones := rfl
@[simp] theorem State.showTest_panels (k : Fin 4) (s : State) : (State.showTest k s).panels = s.panels := rfl
@[simp] theorem State.showTest_groups (k : Fin 4) (s : State) : (State.showTest k s).groups = s.groups := rfl
@[simp] theorem State.showTest_settleWindow (k : Fin 4) (s : State) : (State.showTest k s).settleWindow = s.settleWindow := rfl
@[simp] theorem State.showTest_links (k : Fin 4) (s : State) : (State.showTest k s).links = s.links := rfl
@[simp] theorem State.showTest_inputs (k : Fin 4) (s : State) : (State.showTest k s).inputs = s.inputs := rfl
@[simp] theorem State.showTest_bankA (k : Fin 4) (s : State) : (State.showTest k s).bankA = s.bankA := rfl
@[simp] theorem State.showTest_bankB (k : Fin 4) (s : State) : (State.showTest k s).bankB = s.bankB := rfl
@[simp] theorem State.showTest_active (k : Fin 4) (s : State) : (State.showTest k s).active = s.active := rfl
@[simp] theorem State.showTest_outputs (k : Fin 4) (s : State) : (State.showTest k s).outputs = s.outputs := rfl
@[simp] theorem State.showTest_profiles (k : Fin 4) (s : State) : (State.showTest k s).profiles = s.profiles := rfl
@[simp] theorem State.showTest_supply (k : Fin 4) (s : State) : (State.showTest k s).supply = s.supply := rfl
@[simp] theorem State.showTest_journal (k : Fin 4) (s : State) : (State.showTest k s).journal = s.journal := rfl
@[simp] theorem State.showTest_engine (k : Fin 4) (s : State) : (State.showTest k s).engine = s.engine := rfl
@[simp] theorem State.showTest_sched (k : Fin 4) (s : State) : (State.showTest k s).sched = s.sched := rfl
@[simp] theorem State.showTest_due (k : Fin 4) (s : State) : (State.showTest k s).due = s.due := rfl

@[simp] theorem State.showInput_pending (i : Fin 32) (s : State) : (State.showInput i s).pending = s.pending := rfl
@[simp] theorem State.showInput_time (i : Fin 32) (s : State) : (State.showInput i s).time = s.time := rfl
@[simp] theorem State.showInput_classes (i : Fin 32) (s : State) : (State.showInput i s).classes = s.classes := rfl
@[simp] theorem State.showInput_points (i : Fin 32) (s : State) : (State.showInput i s).points = s.points := rfl
@[simp] theorem State.showInput_zones (i : Fin 32) (s : State) : (State.showInput i s).zones = s.zones := rfl
@[simp] theorem State.showInput_panels (i : Fin 32) (s : State) : (State.showInput i s).panels = s.panels := rfl
@[simp] theorem State.showInput_groups (i : Fin 32) (s : State) : (State.showInput i s).groups = s.groups := rfl
@[simp] theorem State.showInput_settleWindow (i : Fin 32) (s : State) : (State.showInput i s).settleWindow = s.settleWindow := rfl
@[simp] theorem State.showInput_links (i : Fin 32) (s : State) : (State.showInput i s).links = s.links := rfl
@[simp] theorem State.showInput_inputs (i : Fin 32) (s : State) : (State.showInput i s).inputs = s.inputs := rfl
@[simp] theorem State.showInput_bankA (i : Fin 32) (s : State) : (State.showInput i s).bankA = s.bankA := rfl
@[simp] theorem State.showInput_bankB (i : Fin 32) (s : State) : (State.showInput i s).bankB = s.bankB := rfl
@[simp] theorem State.showInput_active (i : Fin 32) (s : State) : (State.showInput i s).active = s.active := rfl
@[simp] theorem State.showInput_outputs (i : Fin 32) (s : State) : (State.showInput i s).outputs = s.outputs := rfl
@[simp] theorem State.showInput_profiles (i : Fin 32) (s : State) : (State.showInput i s).profiles = s.profiles := rfl
@[simp] theorem State.showInput_supply (i : Fin 32) (s : State) : (State.showInput i s).supply = s.supply := rfl
@[simp] theorem State.showInput_journal (i : Fin 32) (s : State) : (State.showInput i s).journal = s.journal := rfl
@[simp] theorem State.showInput_engine (i : Fin 32) (s : State) : (State.showInput i s).engine = s.engine := rfl
@[simp] theorem State.showInput_sched (i : Fin 32) (s : State) : (State.showInput i s).sched = s.sched := rfl
@[simp] theorem State.showInput_due (i : Fin 32) (s : State) : (State.showInput i s).due = s.due := rfl

@[simp] theorem State.showOutput_pending (o : Fin 24) (s : State) : (State.showOutput o s).pending = s.pending := rfl
@[simp] theorem State.showOutput_time (o : Fin 24) (s : State) : (State.showOutput o s).time = s.time := rfl
@[simp] theorem State.showOutput_classes (o : Fin 24) (s : State) : (State.showOutput o s).classes = s.classes := rfl
@[simp] theorem State.showOutput_points (o : Fin 24) (s : State) : (State.showOutput o s).points = s.points := rfl
@[simp] theorem State.showOutput_zones (o : Fin 24) (s : State) : (State.showOutput o s).zones = s.zones := rfl
@[simp] theorem State.showOutput_panels (o : Fin 24) (s : State) : (State.showOutput o s).panels = s.panels := rfl
@[simp] theorem State.showOutput_groups (o : Fin 24) (s : State) : (State.showOutput o s).groups = s.groups := rfl
@[simp] theorem State.showOutput_settleWindow (o : Fin 24) (s : State) : (State.showOutput o s).settleWindow = s.settleWindow := rfl
@[simp] theorem State.showOutput_links (o : Fin 24) (s : State) : (State.showOutput o s).links = s.links := rfl
@[simp] theorem State.showOutput_inputs (o : Fin 24) (s : State) : (State.showOutput o s).inputs = s.inputs := rfl
@[simp] theorem State.showOutput_bankA (o : Fin 24) (s : State) : (State.showOutput o s).bankA = s.bankA := rfl
@[simp] theorem State.showOutput_bankB (o : Fin 24) (s : State) : (State.showOutput o s).bankB = s.bankB := rfl
@[simp] theorem State.showOutput_active (o : Fin 24) (s : State) : (State.showOutput o s).active = s.active := rfl
@[simp] theorem State.showOutput_outputs (o : Fin 24) (s : State) : (State.showOutput o s).outputs = s.outputs := rfl
@[simp] theorem State.showOutput_profiles (o : Fin 24) (s : State) : (State.showOutput o s).profiles = s.profiles := rfl
@[simp] theorem State.showOutput_supply (o : Fin 24) (s : State) : (State.showOutput o s).supply = s.supply := rfl
@[simp] theorem State.showOutput_journal (o : Fin 24) (s : State) : (State.showOutput o s).journal = s.journal := rfl
@[simp] theorem State.showOutput_engine (o : Fin 24) (s : State) : (State.showOutput o s).engine = s.engine := rfl
@[simp] theorem State.showOutput_sched (o : Fin 24) (s : State) : (State.showOutput o s).sched = s.sched := rfl
@[simp] theorem State.showOutput_due (o : Fin 24) (s : State) : (State.showOutput o s).due = s.due := rfl

@[simp] theorem State.showSup_pending (o : Fin 24) (s : State) : (State.showSup o s).pending = s.pending := rfl
@[simp] theorem State.showSup_time (o : Fin 24) (s : State) : (State.showSup o s).time = s.time := rfl
@[simp] theorem State.showSup_classes (o : Fin 24) (s : State) : (State.showSup o s).classes = s.classes := rfl
@[simp] theorem State.showSup_points (o : Fin 24) (s : State) : (State.showSup o s).points = s.points := rfl
@[simp] theorem State.showSup_zones (o : Fin 24) (s : State) : (State.showSup o s).zones = s.zones := rfl
@[simp] theorem State.showSup_panels (o : Fin 24) (s : State) : (State.showSup o s).panels = s.panels := rfl
@[simp] theorem State.showSup_groups (o : Fin 24) (s : State) : (State.showSup o s).groups = s.groups := rfl
@[simp] theorem State.showSup_settleWindow (o : Fin 24) (s : State) : (State.showSup o s).settleWindow = s.settleWindow := rfl
@[simp] theorem State.showSup_links (o : Fin 24) (s : State) : (State.showSup o s).links = s.links := rfl
@[simp] theorem State.showSup_inputs (o : Fin 24) (s : State) : (State.showSup o s).inputs = s.inputs := rfl
@[simp] theorem State.showSup_bankA (o : Fin 24) (s : State) : (State.showSup o s).bankA = s.bankA := rfl
@[simp] theorem State.showSup_bankB (o : Fin 24) (s : State) : (State.showSup o s).bankB = s.bankB := rfl
@[simp] theorem State.showSup_active (o : Fin 24) (s : State) : (State.showSup o s).active = s.active := rfl
@[simp] theorem State.showSup_outputs (o : Fin 24) (s : State) : (State.showSup o s).outputs = s.outputs := rfl
@[simp] theorem State.showSup_profiles (o : Fin 24) (s : State) : (State.showSup o s).profiles = s.profiles := rfl
@[simp] theorem State.showSup_supply (o : Fin 24) (s : State) : (State.showSup o s).supply = s.supply := rfl
@[simp] theorem State.showSup_journal (o : Fin 24) (s : State) : (State.showSup o s).journal = s.journal := rfl
@[simp] theorem State.showSup_engine (o : Fin 24) (s : State) : (State.showSup o s).engine = s.engine := rfl
@[simp] theorem State.showSup_sched (o : Fin 24) (s : State) : (State.showSup o s).sched = s.sched := rfl
@[simp] theorem State.showSup_due (o : Fin 24) (s : State) : (State.showSup o s).due = s.due := rfl

@[simp] theorem State.showProfile_pending (p : Fin 4) (s : State) : (State.showProfile p s).pending = s.pending := rfl
@[simp] theorem State.showProfile_time (p : Fin 4) (s : State) : (State.showProfile p s).time = s.time := rfl
@[simp] theorem State.showProfile_classes (p : Fin 4) (s : State) : (State.showProfile p s).classes = s.classes := rfl
@[simp] theorem State.showProfile_points (p : Fin 4) (s : State) : (State.showProfile p s).points = s.points := rfl
@[simp] theorem State.showProfile_zones (p : Fin 4) (s : State) : (State.showProfile p s).zones = s.zones := rfl
@[simp] theorem State.showProfile_panels (p : Fin 4) (s : State) : (State.showProfile p s).panels = s.panels := rfl
@[simp] theorem State.showProfile_groups (p : Fin 4) (s : State) : (State.showProfile p s).groups = s.groups := rfl
@[simp] theorem State.showProfile_settleWindow (p : Fin 4) (s : State) : (State.showProfile p s).settleWindow = s.settleWindow := rfl
@[simp] theorem State.showProfile_links (p : Fin 4) (s : State) : (State.showProfile p s).links = s.links := rfl
@[simp] theorem State.showProfile_inputs (p : Fin 4) (s : State) : (State.showProfile p s).inputs = s.inputs := rfl
@[simp] theorem State.showProfile_bankA (p : Fin 4) (s : State) : (State.showProfile p s).bankA = s.bankA := rfl
@[simp] theorem State.showProfile_bankB (p : Fin 4) (s : State) : (State.showProfile p s).bankB = s.bankB := rfl
@[simp] theorem State.showProfile_active (p : Fin 4) (s : State) : (State.showProfile p s).active = s.active := rfl
@[simp] theorem State.showProfile_outputs (p : Fin 4) (s : State) : (State.showProfile p s).outputs = s.outputs := rfl
@[simp] theorem State.showProfile_profiles (p : Fin 4) (s : State) : (State.showProfile p s).profiles = s.profiles := rfl
@[simp] theorem State.showProfile_supply (p : Fin 4) (s : State) : (State.showProfile p s).supply = s.supply := rfl
@[simp] theorem State.showProfile_journal (p : Fin 4) (s : State) : (State.showProfile p s).journal = s.journal := rfl
@[simp] theorem State.showProfile_engine (p : Fin 4) (s : State) : (State.showProfile p s).engine = s.engine := rfl
@[simp] theorem State.showProfile_sched (p : Fin 4) (s : State) : (State.showProfile p s).sched = s.sched := rfl
@[simp] theorem State.showProfile_due (p : Fin 4) (s : State) : (State.showProfile p s).due = s.due := rfl

@[simp] theorem State.showMatrix_pending (s : State) : (State.showMatrix s).pending = s.pending := rfl
@[simp] theorem State.showMatrix_time (s : State) : (State.showMatrix s).time = s.time := rfl
@[simp] theorem State.showMatrix_classes (s : State) : (State.showMatrix s).classes = s.classes := rfl
@[simp] theorem State.showMatrix_points (s : State) : (State.showMatrix s).points = s.points := rfl
@[simp] theorem State.showMatrix_zones (s : State) : (State.showMatrix s).zones = s.zones := rfl
@[simp] theorem State.showMatrix_panels (s : State) : (State.showMatrix s).panels = s.panels := rfl
@[simp] theorem State.showMatrix_groups (s : State) : (State.showMatrix s).groups = s.groups := rfl
@[simp] theorem State.showMatrix_settleWindow (s : State) : (State.showMatrix s).settleWindow = s.settleWindow := rfl
@[simp] theorem State.showMatrix_links (s : State) : (State.showMatrix s).links = s.links := rfl
@[simp] theorem State.showMatrix_inputs (s : State) : (State.showMatrix s).inputs = s.inputs := rfl
@[simp] theorem State.showMatrix_bankA (s : State) : (State.showMatrix s).bankA = s.bankA := rfl
@[simp] theorem State.showMatrix_bankB (s : State) : (State.showMatrix s).bankB = s.bankB := rfl
@[simp] theorem State.showMatrix_active (s : State) : (State.showMatrix s).active = s.active := rfl
@[simp] theorem State.showMatrix_outputs (s : State) : (State.showMatrix s).outputs = s.outputs := rfl
@[simp] theorem State.showMatrix_profiles (s : State) : (State.showMatrix s).profiles = s.profiles := rfl
@[simp] theorem State.showMatrix_supply (s : State) : (State.showMatrix s).supply = s.supply := rfl
@[simp] theorem State.showMatrix_journal (s : State) : (State.showMatrix s).journal = s.journal := rfl
@[simp] theorem State.showMatrix_engine (s : State) : (State.showMatrix s).engine = s.engine := rfl
@[simp] theorem State.showMatrix_sched (s : State) : (State.showMatrix s).sched = s.sched := rfl
@[simp] theorem State.showMatrix_due (s : State) : (State.showMatrix s).due = s.due := rfl

@[simp] theorem State.showSupply_pending (s : State) : (State.showSupply s).pending = s.pending := rfl
@[simp] theorem State.showSupply_time (s : State) : (State.showSupply s).time = s.time := rfl
@[simp] theorem State.showSupply_classes (s : State) : (State.showSupply s).classes = s.classes := rfl
@[simp] theorem State.showSupply_points (s : State) : (State.showSupply s).points = s.points := rfl
@[simp] theorem State.showSupply_zones (s : State) : (State.showSupply s).zones = s.zones := rfl
@[simp] theorem State.showSupply_panels (s : State) : (State.showSupply s).panels = s.panels := rfl
@[simp] theorem State.showSupply_groups (s : State) : (State.showSupply s).groups = s.groups := rfl
@[simp] theorem State.showSupply_settleWindow (s : State) : (State.showSupply s).settleWindow = s.settleWindow := rfl
@[simp] theorem State.showSupply_links (s : State) : (State.showSupply s).links = s.links := rfl
@[simp] theorem State.showSupply_inputs (s : State) : (State.showSupply s).inputs = s.inputs := rfl
@[simp] theorem State.showSupply_bankA (s : State) : (State.showSupply s).bankA = s.bankA := rfl
@[simp] theorem State.showSupply_bankB (s : State) : (State.showSupply s).bankB = s.bankB := rfl
@[simp] theorem State.showSupply_active (s : State) : (State.showSupply s).active = s.active := rfl
@[simp] theorem State.showSupply_outputs (s : State) : (State.showSupply s).outputs = s.outputs := rfl
@[simp] theorem State.showSupply_profiles (s : State) : (State.showSupply s).profiles = s.profiles := rfl
@[simp] theorem State.showSupply_supply (s : State) : (State.showSupply s).supply = s.supply := rfl
@[simp] theorem State.showSupply_journal (s : State) : (State.showSupply s).journal = s.journal := rfl
@[simp] theorem State.showSupply_engine (s : State) : (State.showSupply s).engine = s.engine := rfl
@[simp] theorem State.showSupply_sched (s : State) : (State.showSupply s).sched = s.sched := rfl
@[simp] theorem State.showSupply_due (s : State) : (State.showSupply s).due = s.due := rfl

@[simp] theorem State.showPart_pending (s : State) : (State.showPart s).pending = s.pending := rfl
@[simp] theorem State.showPart_time (s : State) : (State.showPart s).time = s.time := rfl
@[simp] theorem State.showPart_classes (s : State) : (State.showPart s).classes = s.classes := rfl
@[simp] theorem State.showPart_points (s : State) : (State.showPart s).points = s.points := rfl
@[simp] theorem State.showPart_zones (s : State) : (State.showPart s).zones = s.zones := rfl
@[simp] theorem State.showPart_panels (s : State) : (State.showPart s).panels = s.panels := rfl
@[simp] theorem State.showPart_groups (s : State) : (State.showPart s).groups = s.groups := rfl
@[simp] theorem State.showPart_settleWindow (s : State) : (State.showPart s).settleWindow = s.settleWindow := rfl
@[simp] theorem State.showPart_links (s : State) : (State.showPart s).links = s.links := rfl
@[simp] theorem State.showPart_inputs (s : State) : (State.showPart s).inputs = s.inputs := rfl
@[simp] theorem State.showPart_bankA (s : State) : (State.showPart s).bankA = s.bankA := rfl
@[simp] theorem State.showPart_bankB (s : State) : (State.showPart s).bankB = s.bankB := rfl
@[simp] theorem State.showPart_active (s : State) : (State.showPart s).active = s.active := rfl
@[simp] theorem State.showPart_outputs (s : State) : (State.showPart s).outputs = s.outputs := rfl
@[simp] theorem State.showPart_profiles (s : State) : (State.showPart s).profiles = s.profiles := rfl
@[simp] theorem State.showPart_supply (s : State) : (State.showPart s).supply = s.supply := rfl
@[simp] theorem State.showPart_journal (s : State) : (State.showPart s).journal = s.journal := rfl
@[simp] theorem State.showPart_engine (s : State) : (State.showPart s).engine = s.engine := rfl
@[simp] theorem State.showPart_sched (s : State) : (State.showPart s).sched = s.sched := rfl
@[simp] theorem State.showPart_due (s : State) : (State.showPart s).due = s.due := rfl

@[simp] theorem State.showActive_pending (s : State) : (State.showActive s).pending = s.pending := rfl
@[simp] theorem State.showActive_time (s : State) : (State.showActive s).time = s.time := rfl
@[simp] theorem State.showActive_classes (s : State) : (State.showActive s).classes = s.classes := rfl
@[simp] theorem State.showActive_points (s : State) : (State.showActive s).points = s.points := rfl
@[simp] theorem State.showActive_zones (s : State) : (State.showActive s).zones = s.zones := rfl
@[simp] theorem State.showActive_panels (s : State) : (State.showActive s).panels = s.panels := rfl
@[simp] theorem State.showActive_groups (s : State) : (State.showActive s).groups = s.groups := rfl
@[simp] theorem State.showActive_settleWindow (s : State) : (State.showActive s).settleWindow = s.settleWindow := rfl
@[simp] theorem State.showActive_links (s : State) : (State.showActive s).links = s.links := rfl
@[simp] theorem State.showActive_inputs (s : State) : (State.showActive s).inputs = s.inputs := rfl
@[simp] theorem State.showActive_bankA (s : State) : (State.showActive s).bankA = s.bankA := rfl
@[simp] theorem State.showActive_bankB (s : State) : (State.showActive s).bankB = s.bankB := rfl
@[simp] theorem State.showActive_active (s : State) : (State.showActive s).active = s.active := rfl
@[simp] theorem State.showActive_outputs (s : State) : (State.showActive s).outputs = s.outputs := rfl
@[simp] theorem State.showActive_profiles (s : State) : (State.showActive s).profiles = s.profiles := rfl
@[simp] theorem State.showActive_supply (s : State) : (State.showActive s).supply = s.supply := rfl
@[simp] theorem State.showActive_journal (s : State) : (State.showActive s).journal = s.journal := rfl
@[simp] theorem State.showActive_engine (s : State) : (State.showActive s).engine = s.engine := rfl
@[simp] theorem State.showActive_sched (s : State) : (State.showActive s).sched = s.sched := rfl
@[simp] theorem State.showActive_due (s : State) : (State.showActive s).due = s.due := rfl

@[simp] theorem State.showClock_pending (s : State) : (State.showClock s).pending = s.pending := rfl
@[simp] theorem State.showClock_time (s : State) : (State.showClock s).time = s.time := rfl
@[simp] theorem State.showClock_classes (s : State) : (State.showClock s).classes = s.classes := rfl
@[simp] theorem State.showClock_points (s : State) : (State.showClock s).points = s.points := rfl
@[simp] theorem State.showClock_zones (s : State) : (State.showClock s).zones = s.zones := rfl
@[simp] theorem State.showClock_panels (s : State) : (State.showClock s).panels = s.panels := rfl
@[simp] theorem State.showClock_groups (s : State) : (State.showClock s).groups = s.groups := rfl
@[simp] theorem State.showClock_settleWindow (s : State) : (State.showClock s).settleWindow = s.settleWindow := rfl
@[simp] theorem State.showClock_links (s : State) : (State.showClock s).links = s.links := rfl
@[simp] theorem State.showClock_inputs (s : State) : (State.showClock s).inputs = s.inputs := rfl
@[simp] theorem State.showClock_bankA (s : State) : (State.showClock s).bankA = s.bankA := rfl
@[simp] theorem State.showClock_bankB (s : State) : (State.showClock s).bankB = s.bankB := rfl
@[simp] theorem State.showClock_active (s : State) : (State.showClock s).active = s.active := rfl
@[simp] theorem State.showClock_outputs (s : State) : (State.showClock s).outputs = s.outputs := rfl
@[simp] theorem State.showClock_profiles (s : State) : (State.showClock s).profiles = s.profiles := rfl
@[simp] theorem State.showClock_supply (s : State) : (State.showClock s).supply = s.supply := rfl
@[simp] theorem State.showClock_journal (s : State) : (State.showClock s).journal = s.journal := rfl
@[simp] theorem State.showClock_engine (s : State) : (State.showClock s).engine = s.engine := rfl
@[simp] theorem State.showClock_sched (s : State) : (State.showClock s).sched = s.sched := rfl
@[simp] theorem State.showClock_due (s : State) : (State.showClock s).due = s.due := rfl

@[simp] theorem State.showWaiting_pending (s : State) : (State.showWaiting s).pending = s.pending := rfl
@[simp] theorem State.showWaiting_time (s : State) : (State.showWaiting s).time = s.time := rfl
@[simp] theorem State.showWaiting_classes (s : State) : (State.showWaiting s).classes = s.classes := rfl
@[simp] theorem State.showWaiting_points (s : State) : (State.showWaiting s).points = s.points := rfl
@[simp] theorem State.showWaiting_zones (s : State) : (State.showWaiting s).zones = s.zones := rfl
@[simp] theorem State.showWaiting_panels (s : State) : (State.showWaiting s).panels = s.panels := rfl
@[simp] theorem State.showWaiting_groups (s : State) : (State.showWaiting s).groups = s.groups := rfl
@[simp] theorem State.showWaiting_settleWindow (s : State) : (State.showWaiting s).settleWindow = s.settleWindow := rfl
@[simp] theorem State.showWaiting_links (s : State) : (State.showWaiting s).links = s.links := rfl
@[simp] theorem State.showWaiting_inputs (s : State) : (State.showWaiting s).inputs = s.inputs := rfl
@[simp] theorem State.showWaiting_bankA (s : State) : (State.showWaiting s).bankA = s.bankA := rfl
@[simp] theorem State.showWaiting_bankB (s : State) : (State.showWaiting s).bankB = s.bankB := rfl
@[simp] theorem State.showWaiting_active (s : State) : (State.showWaiting s).active = s.active := rfl
@[simp] theorem State.showWaiting_outputs (s : State) : (State.showWaiting s).outputs = s.outputs := rfl
@[simp] theorem State.showWaiting_profiles (s : State) : (State.showWaiting s).profiles = s.profiles := rfl
@[simp] theorem State.showWaiting_supply (s : State) : (State.showWaiting s).supply = s.supply := rfl
@[simp] theorem State.showWaiting_journal (s : State) : (State.showWaiting s).journal = s.journal := rfl
@[simp] theorem State.showWaiting_engine (s : State) : (State.showWaiting s).engine = s.engine := rfl
@[simp] theorem State.showWaiting_sched (s : State) : (State.showWaiting s).sched = s.sched := rfl
@[simp] theorem State.showWaiting_due (s : State) : (State.showWaiting s).due = s.due := rfl

@[simp] theorem State.showQueue_pending (s : State) : (State.showQueue s).pending = s.pending := rfl
@[simp] theorem State.showQueue_time (s : State) : (State.showQueue s).time = s.time := rfl
@[simp] theorem State.showQueue_classes (s : State) : (State.showQueue s).classes = s.classes := rfl
@[simp] theorem State.showQueue_points (s : State) : (State.showQueue s).points = s.points := rfl
@[simp] theorem State.showQueue_zones (s : State) : (State.showQueue s).zones = s.zones := rfl
@[simp] theorem State.showQueue_panels (s : State) : (State.showQueue s).panels = s.panels := rfl
@[simp] theorem State.showQueue_groups (s : State) : (State.showQueue s).groups = s.groups := rfl
@[simp] theorem State.showQueue_settleWindow (s : State) : (State.showQueue s).settleWindow = s.settleWindow := rfl
@[simp] theorem State.showQueue_links (s : State) : (State.showQueue s).links = s.links := rfl
@[simp] theorem State.showQueue_inputs (s : State) : (State.showQueue s).inputs = s.inputs := rfl
@[simp] theorem State.showQueue_bankA (s : State) : (State.showQueue s).bankA = s.bankA := rfl
@[simp] theorem State.showQueue_bankB (s : State) : (State.showQueue s).bankB = s.bankB := rfl
@[simp] theorem State.showQueue_active (s : State) : (State.showQueue s).active = s.active := rfl
@[simp] theorem State.showQueue_outputs (s : State) : (State.showQueue s).outputs = s.outputs := rfl
@[simp] theorem State.showQueue_profiles (s : State) : (State.showQueue s).profiles = s.profiles := rfl
@[simp] theorem State.showQueue_supply (s : State) : (State.showQueue s).supply = s.supply := rfl
@[simp] theorem State.showQueue_journal (s : State) : (State.showQueue s).journal = s.journal := rfl
@[simp] theorem State.showQueue_engine (s : State) : (State.showQueue s).engine = s.engine := rfl
@[simp] theorem State.showQueue_sched (s : State) : (State.showQueue s).sched = s.sched := rfl
@[simp] theorem State.showQueue_due (s : State) : (State.showQueue s).due = s.due := rfl

@[simp] theorem State.showLost_pending (s : State) : (State.showLost s).pending = s.pending := rfl
@[simp] theorem State.showLost_time (s : State) : (State.showLost s).time = s.time := rfl
@[simp] theorem State.showLost_classes (s : State) : (State.showLost s).classes = s.classes := rfl
@[simp] theorem State.showLost_points (s : State) : (State.showLost s).points = s.points := rfl
@[simp] theorem State.showLost_zones (s : State) : (State.showLost s).zones = s.zones := rfl
@[simp] theorem State.showLost_panels (s : State) : (State.showLost s).panels = s.panels := rfl
@[simp] theorem State.showLost_groups (s : State) : (State.showLost s).groups = s.groups := rfl
@[simp] theorem State.showLost_settleWindow (s : State) : (State.showLost s).settleWindow = s.settleWindow := rfl
@[simp] theorem State.showLost_links (s : State) : (State.showLost s).links = s.links := rfl
@[simp] theorem State.showLost_inputs (s : State) : (State.showLost s).inputs = s.inputs := rfl
@[simp] theorem State.showLost_bankA (s : State) : (State.showLost s).bankA = s.bankA := rfl
@[simp] theorem State.showLost_bankB (s : State) : (State.showLost s).bankB = s.bankB := rfl
@[simp] theorem State.showLost_active (s : State) : (State.showLost s).active = s.active := rfl
@[simp] theorem State.showLost_outputs (s : State) : (State.showLost s).outputs = s.outputs := rfl
@[simp] theorem State.showLost_profiles (s : State) : (State.showLost s).profiles = s.profiles := rfl
@[simp] theorem State.showLost_supply (s : State) : (State.showLost s).supply = s.supply := rfl
@[simp] theorem State.showLost_journal (s : State) : (State.showLost s).journal = s.journal := rfl
@[simp] theorem State.showLost_engine (s : State) : (State.showLost s).engine = s.engine := rfl
@[simp] theorem State.showLost_sched (s : State) : (State.showLost s).sched = s.sched := rfl
@[simp] theorem State.showLost_due (s : State) : (State.showLost s).due = s.due := rfl

@[simp] theorem State.showFilling_pending (s : State) : (State.showFilling s).pending = s.pending := rfl
@[simp] theorem State.showFilling_time (s : State) : (State.showFilling s).time = s.time := rfl
@[simp] theorem State.showFilling_classes (s : State) : (State.showFilling s).classes = s.classes := rfl
@[simp] theorem State.showFilling_points (s : State) : (State.showFilling s).points = s.points := rfl
@[simp] theorem State.showFilling_zones (s : State) : (State.showFilling s).zones = s.zones := rfl
@[simp] theorem State.showFilling_panels (s : State) : (State.showFilling s).panels = s.panels := rfl
@[simp] theorem State.showFilling_groups (s : State) : (State.showFilling s).groups = s.groups := rfl
@[simp] theorem State.showFilling_settleWindow (s : State) : (State.showFilling s).settleWindow = s.settleWindow := rfl
@[simp] theorem State.showFilling_links (s : State) : (State.showFilling s).links = s.links := rfl
@[simp] theorem State.showFilling_inputs (s : State) : (State.showFilling s).inputs = s.inputs := rfl
@[simp] theorem State.showFilling_bankA (s : State) : (State.showFilling s).bankA = s.bankA := rfl
@[simp] theorem State.showFilling_bankB (s : State) : (State.showFilling s).bankB = s.bankB := rfl
@[simp] theorem State.showFilling_active (s : State) : (State.showFilling s).active = s.active := rfl
@[simp] theorem State.showFilling_outputs (s : State) : (State.showFilling s).outputs = s.outputs := rfl
@[simp] theorem State.showFilling_profiles (s : State) : (State.showFilling s).profiles = s.profiles := rfl
@[simp] theorem State.showFilling_supply (s : State) : (State.showFilling s).supply = s.supply := rfl
@[simp] theorem State.showFilling_journal (s : State) : (State.showFilling s).journal = s.journal := rfl
@[simp] theorem State.showFilling_engine (s : State) : (State.showFilling s).engine = s.engine := rfl
@[simp] theorem State.showFilling_sched (s : State) : (State.showFilling s).sched = s.sched := rfl
@[simp] theorem State.showFilling_due (s : State) : (State.showFilling s).due = s.due := rfl

@[simp] theorem State.showNextSeq_pending (s : State) : (State.showNextSeq s).pending = s.pending := rfl
@[simp] theorem State.showNextSeq_time (s : State) : (State.showNextSeq s).time = s.time := rfl
@[simp] theorem State.showNextSeq_classes (s : State) : (State.showNextSeq s).classes = s.classes := rfl
@[simp] theorem State.showNextSeq_points (s : State) : (State.showNextSeq s).points = s.points := rfl
@[simp] theorem State.showNextSeq_zones (s : State) : (State.showNextSeq s).zones = s.zones := rfl
@[simp] theorem State.showNextSeq_panels (s : State) : (State.showNextSeq s).panels = s.panels := rfl
@[simp] theorem State.showNextSeq_groups (s : State) : (State.showNextSeq s).groups = s.groups := rfl
@[simp] theorem State.showNextSeq_settleWindow (s : State) : (State.showNextSeq s).settleWindow = s.settleWindow := rfl
@[simp] theorem State.showNextSeq_links (s : State) : (State.showNextSeq s).links = s.links := rfl
@[simp] theorem State.showNextSeq_inputs (s : State) : (State.showNextSeq s).inputs = s.inputs := rfl
@[simp] theorem State.showNextSeq_bankA (s : State) : (State.showNextSeq s).bankA = s.bankA := rfl
@[simp] theorem State.showNextSeq_bankB (s : State) : (State.showNextSeq s).bankB = s.bankB := rfl
@[simp] theorem State.showNextSeq_active (s : State) : (State.showNextSeq s).active = s.active := rfl
@[simp] theorem State.showNextSeq_outputs (s : State) : (State.showNextSeq s).outputs = s.outputs := rfl
@[simp] theorem State.showNextSeq_profiles (s : State) : (State.showNextSeq s).profiles = s.profiles := rfl
@[simp] theorem State.showNextSeq_supply (s : State) : (State.showNextSeq s).supply = s.supply := rfl
@[simp] theorem State.showNextSeq_journal (s : State) : (State.showNextSeq s).journal = s.journal := rfl
@[simp] theorem State.showNextSeq_engine (s : State) : (State.showNextSeq s).engine = s.engine := rfl
@[simp] theorem State.showNextSeq_sched (s : State) : (State.showNextSeq s).sched = s.sched := rfl
@[simp] theorem State.showNextSeq_due (s : State) : (State.showNextSeq s).due = s.due := rfl

@[simp] theorem State.showNextPage_pending (s : State) : (State.showNextPage s).pending = s.pending := rfl
@[simp] theorem State.showNextPage_time (s : State) : (State.showNextPage s).time = s.time := rfl
@[simp] theorem State.showNextPage_classes (s : State) : (State.showNextPage s).classes = s.classes := rfl
@[simp] theorem State.showNextPage_points (s : State) : (State.showNextPage s).points = s.points := rfl
@[simp] theorem State.showNextPage_zones (s : State) : (State.showNextPage s).zones = s.zones := rfl
@[simp] theorem State.showNextPage_panels (s : State) : (State.showNextPage s).panels = s.panels := rfl
@[simp] theorem State.showNextPage_groups (s : State) : (State.showNextPage s).groups = s.groups := rfl
@[simp] theorem State.showNextPage_settleWindow (s : State) : (State.showNextPage s).settleWindow = s.settleWindow := rfl
@[simp] theorem State.showNextPage_links (s : State) : (State.showNextPage s).links = s.links := rfl
@[simp] theorem State.showNextPage_inputs (s : State) : (State.showNextPage s).inputs = s.inputs := rfl
@[simp] theorem State.showNextPage_bankA (s : State) : (State.showNextPage s).bankA = s.bankA := rfl
@[simp] theorem State.showNextPage_bankB (s : State) : (State.showNextPage s).bankB = s.bankB := rfl
@[simp] theorem State.showNextPage_active (s : State) : (State.showNextPage s).active = s.active := rfl
@[simp] theorem State.showNextPage_outputs (s : State) : (State.showNextPage s).outputs = s.outputs := rfl
@[simp] theorem State.showNextPage_profiles (s : State) : (State.showNextPage s).profiles = s.profiles := rfl
@[simp] theorem State.showNextPage_supply (s : State) : (State.showNextPage s).supply = s.supply := rfl
@[simp] theorem State.showNextPage_journal (s : State) : (State.showNextPage s).journal = s.journal := rfl
@[simp] theorem State.showNextPage_engine (s : State) : (State.showNextPage s).engine = s.engine := rfl
@[simp] theorem State.showNextPage_sched (s : State) : (State.showNextPage s).sched = s.sched := rfl
@[simp] theorem State.showNextPage_due (s : State) : (State.showNextPage s).due = s.due := rfl

@[simp] theorem State.showJournalSettings_pending (s : State) : (State.showJournalSettings s).pending = s.pending := rfl
@[simp] theorem State.showJournalSettings_time (s : State) : (State.showJournalSettings s).time = s.time := rfl
@[simp] theorem State.showJournalSettings_classes (s : State) : (State.showJournalSettings s).classes = s.classes := rfl
@[simp] theorem State.showJournalSettings_points (s : State) : (State.showJournalSettings s).points = s.points := rfl
@[simp] theorem State.showJournalSettings_zones (s : State) : (State.showJournalSettings s).zones = s.zones := rfl
@[simp] theorem State.showJournalSettings_panels (s : State) : (State.showJournalSettings s).panels = s.panels := rfl
@[simp] theorem State.showJournalSettings_groups (s : State) : (State.showJournalSettings s).groups = s.groups := rfl
@[simp] theorem State.showJournalSettings_settleWindow (s : State) : (State.showJournalSettings s).settleWindow = s.settleWindow := rfl
@[simp] theorem State.showJournalSettings_links (s : State) : (State.showJournalSettings s).links = s.links := rfl
@[simp] theorem State.showJournalSettings_inputs (s : State) : (State.showJournalSettings s).inputs = s.inputs := rfl
@[simp] theorem State.showJournalSettings_bankA (s : State) : (State.showJournalSettings s).bankA = s.bankA := rfl
@[simp] theorem State.showJournalSettings_bankB (s : State) : (State.showJournalSettings s).bankB = s.bankB := rfl
@[simp] theorem State.showJournalSettings_active (s : State) : (State.showJournalSettings s).active = s.active := rfl
@[simp] theorem State.showJournalSettings_outputs (s : State) : (State.showJournalSettings s).outputs = s.outputs := rfl
@[simp] theorem State.showJournalSettings_profiles (s : State) : (State.showJournalSettings s).profiles = s.profiles := rfl
@[simp] theorem State.showJournalSettings_supply (s : State) : (State.showJournalSettings s).supply = s.supply := rfl
@[simp] theorem State.showJournalSettings_journal (s : State) : (State.showJournalSettings s).journal = s.journal := rfl
@[simp] theorem State.showJournalSettings_engine (s : State) : (State.showJournalSettings s).engine = s.engine := rfl
@[simp] theorem State.showJournalSettings_sched (s : State) : (State.showJournalSettings s).sched = s.sched := rfl
@[simp] theorem State.showJournalSettings_due (s : State) : (State.showJournalSettings s).due = s.due := rfl

@[simp] theorem State.putMapState_pending (e : Fin 32) (c : Word) (s : State) : (State.putMapState e c s).pending = s.pending := rfl
@[simp] theorem State.putMapState_time (e : Fin 32) (c : Word) (s : State) : (State.putMapState e c s).time = s.time := rfl
@[simp] theorem State.putMapState_classes (e : Fin 32) (c : Word) (s : State) : (State.putMapState e c s).classes = s.classes := rfl
@[simp] theorem State.putMapState_points (e : Fin 32) (c : Word) (s : State) : (State.putMapState e c s).points = s.points := rfl
@[simp] theorem State.putMapState_zones (e : Fin 32) (c : Word) (s : State) : (State.putMapState e c s).zones = s.zones := rfl
@[simp] theorem State.putMapState_panels (e : Fin 32) (c : Word) (s : State) : (State.putMapState e c s).panels = s.panels := rfl
@[simp] theorem State.putMapState_groups (e : Fin 32) (c : Word) (s : State) : (State.putMapState e c s).groups = s.groups := rfl
@[simp] theorem State.putMapState_settleWindow (e : Fin 32) (c : Word) (s : State) : (State.putMapState e c s).settleWindow = s.settleWindow := rfl
@[simp] theorem State.putMapState_links (e : Fin 32) (c : Word) (s : State) : (State.putMapState e c s).links = s.links := rfl
@[simp] theorem State.putMapState_inputs (e : Fin 32) (c : Word) (s : State) : (State.putMapState e c s).inputs = s.inputs := rfl
@[simp] theorem State.putMapState_bankA (e : Fin 32) (c : Word) (s : State) : (State.putMapState e c s).bankA = s.bankA := rfl
@[simp] theorem State.putMapState_bankB (e : Fin 32) (c : Word) (s : State) : (State.putMapState e c s).bankB = s.bankB := rfl
@[simp] theorem State.putMapState_active (e : Fin 32) (c : Word) (s : State) : (State.putMapState e c s).active = s.active := rfl
@[simp] theorem State.putMapState_outputs (e : Fin 32) (c : Word) (s : State) : (State.putMapState e c s).outputs = s.outputs := rfl
@[simp] theorem State.putMapState_profiles (e : Fin 32) (c : Word) (s : State) : (State.putMapState e c s).profiles = s.profiles := rfl
@[simp] theorem State.putMapState_supply (e : Fin 32) (c : Word) (s : State) : (State.putMapState e c s).supply = s.supply := rfl
@[simp] theorem State.putMapState_journal (e : Fin 32) (c : Word) (s : State) : (State.putMapState e c s).journal = s.journal := rfl
@[simp] theorem State.putMapState_engine (e : Fin 32) (c : Word) (s : State) : (State.putMapState e c s).engine = s.engine := rfl
@[simp] theorem State.putMapState_sched (e : Fin 32) (c : Word) (s : State) : (State.putMapState e c s).sched = s.sched := rfl
@[simp] theorem State.putMapState_due (e : Fin 32) (c : Word) (s : State) : (State.putMapState e c s).due = s.due := rfl

@[simp] theorem State.raiseAlert_pending (s : State) : (State.raiseAlert s).pending = s.pending := rfl
@[simp] theorem State.raiseAlert_mem (s : State) : (State.raiseAlert s).mem = s.mem := rfl
@[simp] theorem State.raiseAlert_time (s : State) : (State.raiseAlert s).time = s.time := rfl
@[simp] theorem State.raiseAlert_classes (s : State) : (State.raiseAlert s).classes = s.classes := rfl
@[simp] theorem State.raiseAlert_points (s : State) : (State.raiseAlert s).points = s.points := rfl
@[simp] theorem State.raiseAlert_zones (s : State) : (State.raiseAlert s).zones = s.zones := rfl
@[simp] theorem State.raiseAlert_panels (s : State) : (State.raiseAlert s).panels = s.panels := rfl
@[simp] theorem State.raiseAlert_groups (s : State) : (State.raiseAlert s).groups = s.groups := rfl
@[simp] theorem State.raiseAlert_settleWindow (s : State) : (State.raiseAlert s).settleWindow = s.settleWindow := rfl
@[simp] theorem State.raiseAlert_links (s : State) : (State.raiseAlert s).links = s.links := rfl
@[simp] theorem State.raiseAlert_inputs (s : State) : (State.raiseAlert s).inputs = s.inputs := rfl
@[simp] theorem State.raiseAlert_bankA (s : State) : (State.raiseAlert s).bankA = s.bankA := rfl
@[simp] theorem State.raiseAlert_bankB (s : State) : (State.raiseAlert s).bankB = s.bankB := rfl
@[simp] theorem State.raiseAlert_active (s : State) : (State.raiseAlert s).active = s.active := rfl
@[simp] theorem State.raiseAlert_outputs (s : State) : (State.raiseAlert s).outputs = s.outputs := rfl
@[simp] theorem State.raiseAlert_profiles (s : State) : (State.raiseAlert s).profiles = s.profiles := rfl
@[simp] theorem State.raiseAlert_supply (s : State) : (State.raiseAlert s).supply = s.supply := rfl
@[simp] theorem State.raiseAlert_journal (s : State) : (State.raiseAlert s).journal = s.journal := rfl
@[simp] theorem State.raiseAlert_sched (s : State) : (State.raiseAlert s).sched = s.sched := rfl
@[simp] theorem State.raiseAlert_due (s : State) : (State.raiseAlert s).due = s.due := rfl

@[simp] theorem putPoint_pending (p : Fin 256) (x : Point) (s : State) : (putPoint p x s).pending = s.pending := rfl
@[simp] theorem putPoint_mem (p : Fin 256) (x : Point) (s : State) : (putPoint p x s).mem = s.mem := rfl
@[simp] theorem putPoint_time (p : Fin 256) (x : Point) (s : State) : (putPoint p x s).time = s.time := rfl
@[simp] theorem putPoint_classes (p : Fin 256) (x : Point) (s : State) : (putPoint p x s).classes = s.classes := rfl
@[simp] theorem putPoint_zones (p : Fin 256) (x : Point) (s : State) : (putPoint p x s).zones = s.zones := rfl
@[simp] theorem putPoint_panels (p : Fin 256) (x : Point) (s : State) : (putPoint p x s).panels = s.panels := rfl
@[simp] theorem putPoint_groups (p : Fin 256) (x : Point) (s : State) : (putPoint p x s).groups = s.groups := rfl
@[simp] theorem putPoint_settleWindow (p : Fin 256) (x : Point) (s : State) : (putPoint p x s).settleWindow = s.settleWindow := rfl
@[simp] theorem putPoint_links (p : Fin 256) (x : Point) (s : State) : (putPoint p x s).links = s.links := rfl
@[simp] theorem putPoint_inputs (p : Fin 256) (x : Point) (s : State) : (putPoint p x s).inputs = s.inputs := rfl
@[simp] theorem putPoint_bankA (p : Fin 256) (x : Point) (s : State) : (putPoint p x s).bankA = s.bankA := rfl
@[simp] theorem putPoint_bankB (p : Fin 256) (x : Point) (s : State) : (putPoint p x s).bankB = s.bankB := rfl
@[simp] theorem putPoint_active (p : Fin 256) (x : Point) (s : State) : (putPoint p x s).active = s.active := rfl
@[simp] theorem putPoint_outputs (p : Fin 256) (x : Point) (s : State) : (putPoint p x s).outputs = s.outputs := rfl
@[simp] theorem putPoint_profiles (p : Fin 256) (x : Point) (s : State) : (putPoint p x s).profiles = s.profiles := rfl
@[simp] theorem putPoint_supply (p : Fin 256) (x : Point) (s : State) : (putPoint p x s).supply = s.supply := rfl
@[simp] theorem putPoint_journal (p : Fin 256) (x : Point) (s : State) : (putPoint p x s).journal = s.journal := rfl
@[simp] theorem putPoint_engine (p : Fin 256) (x : Point) (s : State) : (putPoint p x s).engine = s.engine := rfl
@[simp] theorem putPoint_sched (p : Fin 256) (x : Point) (s : State) : (putPoint p x s).sched = s.sched := rfl
@[simp] theorem putPoint_due (p : Fin 256) (x : Point) (s : State) : (putPoint p x s).due = s.due := rfl

@[simp] theorem putOutput_pending (o : Fin 24) (x : Output) (s : State) : (putOutput o x s).pending = s.pending := rfl
@[simp] theorem putOutput_mem (o : Fin 24) (x : Output) (s : State) : (putOutput o x s).mem = s.mem := rfl
@[simp] theorem putOutput_time (o : Fin 24) (x : Output) (s : State) : (putOutput o x s).time = s.time := rfl
@[simp] theorem putOutput_classes (o : Fin 24) (x : Output) (s : State) : (putOutput o x s).classes = s.classes := rfl
@[simp] theorem putOutput_points (o : Fin 24) (x : Output) (s : State) : (putOutput o x s).points = s.points := rfl
@[simp] theorem putOutput_zones (o : Fin 24) (x : Output) (s : State) : (putOutput o x s).zones = s.zones := rfl
@[simp] theorem putOutput_panels (o : Fin 24) (x : Output) (s : State) : (putOutput o x s).panels = s.panels := rfl
@[simp] theorem putOutput_groups (o : Fin 24) (x : Output) (s : State) : (putOutput o x s).groups = s.groups := rfl
@[simp] theorem putOutput_settleWindow (o : Fin 24) (x : Output) (s : State) : (putOutput o x s).settleWindow = s.settleWindow := rfl
@[simp] theorem putOutput_links (o : Fin 24) (x : Output) (s : State) : (putOutput o x s).links = s.links := rfl
@[simp] theorem putOutput_inputs (o : Fin 24) (x : Output) (s : State) : (putOutput o x s).inputs = s.inputs := rfl
@[simp] theorem putOutput_bankA (o : Fin 24) (x : Output) (s : State) : (putOutput o x s).bankA = s.bankA := rfl
@[simp] theorem putOutput_bankB (o : Fin 24) (x : Output) (s : State) : (putOutput o x s).bankB = s.bankB := rfl
@[simp] theorem putOutput_active (o : Fin 24) (x : Output) (s : State) : (putOutput o x s).active = s.active := rfl
@[simp] theorem putOutput_profiles (o : Fin 24) (x : Output) (s : State) : (putOutput o x s).profiles = s.profiles := rfl
@[simp] theorem putOutput_supply (o : Fin 24) (x : Output) (s : State) : (putOutput o x s).supply = s.supply := rfl
@[simp] theorem putOutput_journal (o : Fin 24) (x : Output) (s : State) : (putOutput o x s).journal = s.journal := rfl
@[simp] theorem putOutput_engine (o : Fin 24) (x : Output) (s : State) : (putOutput o x s).engine = s.engine := rfl
@[simp] theorem putOutput_sched (o : Fin 24) (x : Output) (s : State) : (putOutput o x s).sched = s.sched := rfl
@[simp] theorem putOutput_due (o : Fin 24) (x : Output) (s : State) : (putOutput o x s).due = s.due := rfl

@[simp] theorem putLink_pending (k : Fin 4) (x : Link) (s : State) : (putLink k x s).pending = s.pending := rfl
@[simp] theorem putLink_mem (k : Fin 4) (x : Link) (s : State) : (putLink k x s).mem = s.mem := rfl
@[simp] theorem putLink_time (k : Fin 4) (x : Link) (s : State) : (putLink k x s).time = s.time := rfl
@[simp] theorem putLink_classes (k : Fin 4) (x : Link) (s : State) : (putLink k x s).classes = s.classes := rfl
@[simp] theorem putLink_points (k : Fin 4) (x : Link) (s : State) : (putLink k x s).points = s.points := rfl
@[simp] theorem putLink_zones (k : Fin 4) (x : Link) (s : State) : (putLink k x s).zones = s.zones := rfl
@[simp] theorem putLink_panels (k : Fin 4) (x : Link) (s : State) : (putLink k x s).panels = s.panels := rfl
@[simp] theorem putLink_groups (k : Fin 4) (x : Link) (s : State) : (putLink k x s).groups = s.groups := rfl
@[simp] theorem putLink_settleWindow (k : Fin 4) (x : Link) (s : State) : (putLink k x s).settleWindow = s.settleWindow := rfl
@[simp] theorem putLink_inputs (k : Fin 4) (x : Link) (s : State) : (putLink k x s).inputs = s.inputs := rfl
@[simp] theorem putLink_bankA (k : Fin 4) (x : Link) (s : State) : (putLink k x s).bankA = s.bankA := rfl
@[simp] theorem putLink_bankB (k : Fin 4) (x : Link) (s : State) : (putLink k x s).bankB = s.bankB := rfl
@[simp] theorem putLink_active (k : Fin 4) (x : Link) (s : State) : (putLink k x s).active = s.active := rfl
@[simp] theorem putLink_outputs (k : Fin 4) (x : Link) (s : State) : (putLink k x s).outputs = s.outputs := rfl
@[simp] theorem putLink_profiles (k : Fin 4) (x : Link) (s : State) : (putLink k x s).profiles = s.profiles := rfl
@[simp] theorem putLink_supply (k : Fin 4) (x : Link) (s : State) : (putLink k x s).supply = s.supply := rfl
@[simp] theorem putLink_journal (k : Fin 4) (x : Link) (s : State) : (putLink k x s).journal = s.journal := rfl
@[simp] theorem putLink_engine (k : Fin 4) (x : Link) (s : State) : (putLink k x s).engine = s.engine := rfl
@[simp] theorem putLink_sched (k : Fin 4) (x : Link) (s : State) : (putLink k x s).sched = s.sched := rfl
@[simp] theorem putLink_due (k : Fin 4) (x : Link) (s : State) : (putLink k x s).due = s.due := rfl

@[simp] theorem putGroup_pending (g : Fin 16) (x : Group) (s : State) : (putGroup g x s).pending = s.pending := rfl
@[simp] theorem putGroup_time (g : Fin 16) (x : Group) (s : State) : (putGroup g x s).time = s.time := rfl
@[simp] theorem putGroup_classes (g : Fin 16) (x : Group) (s : State) : (putGroup g x s).classes = s.classes := rfl
@[simp] theorem putGroup_points (g : Fin 16) (x : Group) (s : State) : (putGroup g x s).points = s.points := rfl
@[simp] theorem putGroup_zones (g : Fin 16) (x : Group) (s : State) : (putGroup g x s).zones = s.zones := rfl
@[simp] theorem putGroup_panels (g : Fin 16) (x : Group) (s : State) : (putGroup g x s).panels = s.panels := rfl
@[simp] theorem putGroup_settleWindow (g : Fin 16) (x : Group) (s : State) : (putGroup g x s).settleWindow = s.settleWindow := rfl
@[simp] theorem putGroup_links (g : Fin 16) (x : Group) (s : State) : (putGroup g x s).links = s.links := rfl
@[simp] theorem putGroup_inputs (g : Fin 16) (x : Group) (s : State) : (putGroup g x s).inputs = s.inputs := rfl
@[simp] theorem putGroup_bankA (g : Fin 16) (x : Group) (s : State) : (putGroup g x s).bankA = s.bankA := rfl
@[simp] theorem putGroup_bankB (g : Fin 16) (x : Group) (s : State) : (putGroup g x s).bankB = s.bankB := rfl
@[simp] theorem putGroup_active (g : Fin 16) (x : Group) (s : State) : (putGroup g x s).active = s.active := rfl
@[simp] theorem putGroup_outputs (g : Fin 16) (x : Group) (s : State) : (putGroup g x s).outputs = s.outputs := rfl
@[simp] theorem putGroup_profiles (g : Fin 16) (x : Group) (s : State) : (putGroup g x s).profiles = s.profiles := rfl
@[simp] theorem putGroup_supply (g : Fin 16) (x : Group) (s : State) : (putGroup g x s).supply = s.supply := rfl
@[simp] theorem putGroup_journal (g : Fin 16) (x : Group) (s : State) : (putGroup g x s).journal = s.journal := rfl
@[simp] theorem putGroup_engine (g : Fin 16) (x : Group) (s : State) : (putGroup g x s).engine = s.engine := rfl
@[simp] theorem putGroup_sched (g : Fin 16) (x : Group) (s : State) : (putGroup g x s).sched = s.sched := rfl
@[simp] theorem putGroup_due (g : Fin 16) (x : Group) (s : State) : (putGroup g x s).due = s.due := rfl

@[simp] theorem setMark_pending (p : Fin 256) (m : Bool) (s : State) : (setMark p m s).pending = s.pending := rfl
@[simp] theorem setMark_time (p : Fin 256) (m : Bool) (s : State) : (setMark p m s).time = s.time := rfl
@[simp] theorem setMark_classes (p : Fin 256) (m : Bool) (s : State) : (setMark p m s).classes = s.classes := rfl
@[simp] theorem setMark_zones (p : Fin 256) (m : Bool) (s : State) : (setMark p m s).zones = s.zones := rfl
@[simp] theorem setMark_panels (p : Fin 256) (m : Bool) (s : State) : (setMark p m s).panels = s.panels := rfl
@[simp] theorem setMark_groups (p : Fin 256) (m : Bool) (s : State) : (setMark p m s).groups = s.groups := rfl
@[simp] theorem setMark_settleWindow (p : Fin 256) (m : Bool) (s : State) : (setMark p m s).settleWindow = s.settleWindow := rfl
@[simp] theorem setMark_links (p : Fin 256) (m : Bool) (s : State) : (setMark p m s).links = s.links := rfl
@[simp] theorem setMark_inputs (p : Fin 256) (m : Bool) (s : State) : (setMark p m s).inputs = s.inputs := rfl
@[simp] theorem setMark_bankA (p : Fin 256) (m : Bool) (s : State) : (setMark p m s).bankA = s.bankA := rfl
@[simp] theorem setMark_bankB (p : Fin 256) (m : Bool) (s : State) : (setMark p m s).bankB = s.bankB := rfl
@[simp] theorem setMark_active (p : Fin 256) (m : Bool) (s : State) : (setMark p m s).active = s.active := rfl
@[simp] theorem setMark_outputs (p : Fin 256) (m : Bool) (s : State) : (setMark p m s).outputs = s.outputs := rfl
@[simp] theorem setMark_profiles (p : Fin 256) (m : Bool) (s : State) : (setMark p m s).profiles = s.profiles := rfl
@[simp] theorem setMark_supply (p : Fin 256) (m : Bool) (s : State) : (setMark p m s).supply = s.supply := rfl
@[simp] theorem setMark_journal (p : Fin 256) (m : Bool) (s : State) : (setMark p m s).journal = s.journal := rfl
@[simp] theorem setMark_engine (p : Fin 256) (m : Bool) (s : State) : (setMark p m s).engine = s.engine := rfl
@[simp] theorem setMark_sched (p : Fin 256) (m : Bool) (s : State) : (setMark p m s).sched = s.sched := rfl
@[simp] theorem setMark_due (p : Fin 256) (m : Bool) (s : State) : (setMark p m s).due = s.due := rfl

@[simp] theorem keepReport_pending (r : Report) (s : State) : (keepReport r s).pending = s.pending := rfl
@[simp] theorem keepReport_mem (r : Report) (s : State) : (keepReport r s).mem = s.mem := rfl
@[simp] theorem keepReport_time (r : Report) (s : State) : (keepReport r s).time = s.time := rfl
@[simp] theorem keepReport_classes (r : Report) (s : State) : (keepReport r s).classes = s.classes := rfl
@[simp] theorem keepReport_points (r : Report) (s : State) : (keepReport r s).points = s.points := rfl
@[simp] theorem keepReport_zones (r : Report) (s : State) : (keepReport r s).zones = s.zones := rfl
@[simp] theorem keepReport_panels (r : Report) (s : State) : (keepReport r s).panels = s.panels := rfl
@[simp] theorem keepReport_groups (r : Report) (s : State) : (keepReport r s).groups = s.groups := rfl
@[simp] theorem keepReport_settleWindow (r : Report) (s : State) : (keepReport r s).settleWindow = s.settleWindow := rfl
@[simp] theorem keepReport_links (r : Report) (s : State) : (keepReport r s).links = s.links := rfl
@[simp] theorem keepReport_inputs (r : Report) (s : State) : (keepReport r s).inputs = s.inputs := rfl
@[simp] theorem keepReport_bankA (r : Report) (s : State) : (keepReport r s).bankA = s.bankA := rfl
@[simp] theorem keepReport_bankB (r : Report) (s : State) : (keepReport r s).bankB = s.bankB := rfl
@[simp] theorem keepReport_active (r : Report) (s : State) : (keepReport r s).active = s.active := rfl
@[simp] theorem keepReport_outputs (r : Report) (s : State) : (keepReport r s).outputs = s.outputs := rfl
@[simp] theorem keepReport_profiles (r : Report) (s : State) : (keepReport r s).profiles = s.profiles := rfl
@[simp] theorem keepReport_supply (r : Report) (s : State) : (keepReport r s).supply = s.supply := rfl
@[simp] theorem keepReport_journal (r : Report) (s : State) : (keepReport r s).journal = s.journal := rfl
@[simp] theorem keepReport_engine (r : Report) (s : State) : (keepReport r s).engine = s.engine := rfl
@[simp] theorem keepReport_sched (r : Report) (s : State) : (keepReport r s).sched = s.sched := rfl

@[simp] theorem stage_pending (r : Record) (s : State) : (stage r s).pending = s.pending := rfl
@[simp] theorem stage_time (r : Record) (s : State) : (stage r s).time = s.time := rfl
@[simp] theorem stage_classes (r : Record) (s : State) : (stage r s).classes = s.classes := rfl
@[simp] theorem stage_points (r : Record) (s : State) : (stage r s).points = s.points := rfl
@[simp] theorem stage_zones (r : Record) (s : State) : (stage r s).zones = s.zones := rfl
@[simp] theorem stage_panels (r : Record) (s : State) : (stage r s).panels = s.panels := rfl
@[simp] theorem stage_groups (r : Record) (s : State) : (stage r s).groups = s.groups := rfl
@[simp] theorem stage_settleWindow (r : Record) (s : State) : (stage r s).settleWindow = s.settleWindow := rfl
@[simp] theorem stage_links (r : Record) (s : State) : (stage r s).links = s.links := rfl
@[simp] theorem stage_inputs (r : Record) (s : State) : (stage r s).inputs = s.inputs := rfl
@[simp] theorem stage_bankA (r : Record) (s : State) : (stage r s).bankA = s.bankA := rfl
@[simp] theorem stage_bankB (r : Record) (s : State) : (stage r s).bankB = s.bankB := rfl
@[simp] theorem stage_active (r : Record) (s : State) : (stage r s).active = s.active := rfl
@[simp] theorem stage_outputs (r : Record) (s : State) : (stage r s).outputs = s.outputs := rfl
@[simp] theorem stage_profiles (r : Record) (s : State) : (stage r s).profiles = s.profiles := rfl
@[simp] theorem stage_supply (r : Record) (s : State) : (stage r s).supply = s.supply := rfl
@[simp] theorem stage_engine (r : Record) (s : State) : (stage r s).engine = s.engine := rfl
@[simp] theorem stage_sched (r : Record) (s : State) : (stage r s).sched = s.sched := rfl
@[simp] theorem stage_due (r : Record) (s : State) : (stage r s).due = s.due := rfl

/-! What each update writes. -/

@[simp] theorem putPoint_points (p : Fin 256) (x : Point) (s : State) : (putPoint p x s).points = upd s.points p x := rfl
@[simp] theorem putOutput_outputs (o : Fin 24) (x : Output) (s : State) :
    (putOutput o x s).outputs = upd s.outputs o x := rfl
@[simp] theorem putLink_links (k : Fin 4) (x : Link) (s : State) : (putLink k x s).links = upd s.links k x := rfl
@[simp] theorem putGroup_groups (g : Fin 16) (x : Group) (s : State) : (putGroup g x s).groups = upd s.groups g x := rfl
@[simp] theorem setMark_points (p : Fin 256) (m : Bool) (s : State) :
    (setMark p m s).points = upd s.points p { nth s.points p with firstMark := m } := rfl
@[simp] theorem keepReport_due (r : Report) (s : State) : (keepReport r s).due = s.due ++ [r] := rfl
@[simp] theorem State.raiseAlert_engine (s : State) : s.raiseAlert.engine = { s.engine with alert := true } := rfl
@[simp] theorem stage_journal (r : Record) (s : State) : (stage r s).journal = { s.journal with
    queue := s.journal.queue ++ [{ r with seq := s.journal.nextSeq }], nextSeq := s.journal.nextSeq + 1 } := rfl
@[simp] theorem State.putWord_mem (a : Nat) (w : Word) (s : State) : (s.putWord a w).mem = s.mem.writeWord a w := rfl
@[simp] theorem State.putBytes_mem (a : Nat) (bs : List Byte) (s : State) :
    (s.putBytes a bs).mem = s.mem.writeBytes a bs := rfl
@[simp] theorem State.putWords_mem (ws : List (Nat × Word)) (s : State) :
    (s.putWords ws).mem = s.mem.writeWords ws := rfl

/-! ## Group records, trip inputs and register reads -/

/-- The candidate's own report displaces nothing (R49). -/
theorem Group.displaces_own (x : Group) (p : Fin 256) (t : Nat) (h : x.candidate = some p) : x.displaces p t = false := by
  simp [Group.displaces, h]

/-- What a comparison leaves, whatever it finds (R49). -/
@[simp] theorem Group.compare_state (x : Group) (p : Fin 256) (t : Nat) : (x.compare p t).state = x.state := by
  unfold Group.compare; dsimp only; split <;> rfl
@[simp] theorem Group.compare_deadline (x : Group) (p : Fin 256) (t : Nat) : (x.compare p t).deadline = x.deadline := by
  unfold Group.compare; dsimp only; split <;> rfl
@[simp] theorem Group.compare_marked (x : Group) (p : Fin 256) (t : Nat) : (x.compare p t).marked = x.marked := by
  unfold Group.compare; dsimp only; split <;> rfl
@[simp] theorem Group.compare_contenders (x : Group) (p : Fin 256) (t : Nat) :
    (x.compare p t).contenders = min 255 (x.contenders + 1) := by
  unfold Group.compare; dsimp only; split <;> rfl

/-- When a run is one that qualifies (R82, R83). -/
theorem TripInput.runMet_iff (x : TripInput) : x.runMet = true ↔ 0 < x.run ∧ x.qSampled ≤ x.run := by
  simp [TripInput.runMet]

/-- A sample leaves the qualified state, and compares the run with the count in force (R81, R82). -/
@[simp] theorem TripInput.sampled_qualified (x : TripInput) (l : Bool) (q : Nat) (m : Receipt) :
    (x.sampled l q m).qualified = x.qualified := by
  unfold TripInput.sampled; dsimp only; split <;> rfl
@[simp] theorem TripInput.sampled_qSampled (x : TripInput) (l : Bool) (q : Nat) (m : Receipt) :
    (x.sampled l q m).qSampled = q := by
  unfold TripInput.sampled; dsimp only; split <;> rfl
@[simp] theorem TripInput.sampled_level (x : TripInput) (l : Bool) (q : Nat) (m : Receipt) :
    (x.sampled l q m).level = l := by
  unfold TripInput.sampled; dsimp only; split <;> rfl

end Sys2Proof.Machine
end

