-- ==== Sys2Proof/Laws/Side.lean ====
section
/-! SUPPORT. What the alarm side and the journal can reach, said once: every operation of the Point Filter, the Sequence
Unit and the First-Out Unit, and every offer of a record, is made of a few kinds of update.  A relation between states
that those updates keep is kept by every such operation. -/

namespace Sys2Proof.Machine

/-- The page of a FILLING page is one already being filled or one of the free pages. -/
def pageFrom (j j' : Journal) : Prop := ∀ f ∈ j'.filling, 7 ≤ f.page ∨ ∃ g ∈ j.filling, f.page = g.page

theorem pageFrom_same {j j' : Journal} (e : j'.filling = j.filling) : pageFrom j j' :=
  fun f hf => .inr ⟨f, e ▸ hf, rfl⟩

theorem Journal.lose_filling (j : Journal) (b : Bool) : (j.lose b).filling = j.filling := by
  cases b <;> rfl

/-- A relation kept by the updates that the alarm side and the journal are made of: bytes that `A` names, points that `P`
names, zones, groups, the journal, and the waiting reports. -/
structure SideClosed (P : Fin 256 → Prop) (A : Nat → Prop) (R : State → State → Prop) : Prop where
  refl : ∀ s, R s s
  trans : ∀ {s t u}, R s t → R t u → R s u
  write : ∀ s a v, A a → R s { s with mem := s.mem.write a v }
  journal : ∀ s j, pageFrom s.journal j → R s { s with journal := j }
  zones : ∀ s v, R s { s with zones := v }
  groups : ∀ s v, R s { s with groups := v }
  keep : ∀ s r, journalPoint r.point → R s (keepReport r s)
  pop : ∀ s r rest, s.due = r :: rest → R s { s with due := rest }
  point : ∀ s p x, P p → R s { s with points := upd s.points p x }
  record : ∀ a, recordByte a → A a
  mirror : ∀ p, P p → A (pointAddr p) ∧ A (pointAddr p + 1)
  own : ∀ p, journalPoint p → P p

namespace SideClosed

variable {P : Fin 256 → Prop} {A : Nat → Prop} {R : State → State → Prop} (h : SideClosed P A R)
include h

/-! ## Memory -/

theorem putWord (a : Nat) (w : Word) (s : State) (h1 : A a) (h2 : A (a + 1)) : R s (s.putWord a w) :=
  h.trans (h.write s a (loByte w) h1) (h.write { s with mem := s.mem.write a (loByte w) } (a + 1) (hiByte w) h2)

theorem putWords (ws : List (Nat × Word)) (s : State) (hs : ∀ c ∈ ws, A c.1 ∧ A (c.1 + 1)) : R s (s.putWords ws) := by
  induction ws generalizing s with
  | nil => exact h.refl s
  | cons c ws ih =>
    obtain ⟨h1, h2⟩ := hs c List.mem_cons_self
    exact h.trans (h.putWord c.1 c.2 s h1 h2) (ih (s.putWord c.1 c.2) fun d hd => hs d (List.mem_cons_of_mem _ hd))

theorem putBytes (a : Nat) (bs : List Byte) (s : State) (hs : ∀ i < bs.length, A (a + i)) : R s (s.putBytes a bs) := by
  induction bs generalizing s a with
  | nil => exact h.refl s
  | cons b bs ih =>
    refine h.trans (h.write s a b (hs 0 (by simp))) (ih (a + 1) { s with mem := s.mem.write a b } fun i hi => ?_)
    have := hs (i + 1) (by simpa using hi)
    rwa [show a + 1 + i = a + (i + 1) by omega]

theorem status (d : Nat) (w : Word) (s : State) (hd : d < 15) : R s (s.putWord (statusBase + d) w) :=
  h.putWord _ _ s (h.record _ (by simp only [statusBase]; omega)) (h.record _ (by simp only [statusBase]; omega))

theorem showPoint (p : Fin 256) (s : State) (hp : P p) : R s (s.showPoint p) :=
  h.putWord _ _ s (h.mirror p hp).1 (h.mirror p hp).2

theorem showZone (z : Fin 8) (s : State) : R s (s.showZone z) := by
  have := z.isLt
  refine h.putWords _ s fun c hc => ?_
  simp only [List.mem_cons, List.not_mem_nil, or_false] at hc
  rcases hc with rfl | rfl | rfl <;> exact ⟨h.record _ (by simp only [hallBase]; omega), h.record _ (by simp only [hallBase]; omega)⟩

theorem showGroup (g : Fin 16) (s : State) : R s (s.showGroup g) := by
  have := g.isLt
  refine h.putWords _ s fun c hc => ?_
  simp only [List.mem_cons, List.not_mem_nil, or_false] at hc
  rcases hc with rfl | rfl <;> exact ⟨h.record _ (by simp only [hallBase]; omega), h.record _ (by simp only [hallBase]; omega)⟩

theorem putMapState (e : Fin 32) (c : Word) (s : State) : R s (s.putMapState e c) := by
  have := e.isLt
  exact h.putWord _ _ s (h.record _ (by simp only [mapBase]; omega)) (h.record _ (by simp only [mapBase]; omega))

theorem showQueue (s : State) : R s (State.showQueue s) := h.status 2 _ s (by omega)
theorem showNextSeq (s : State) : R s (State.showNextSeq s) := h.status 10 _ s (by omega)
theorem showNextPage (s : State) : R s (State.showNextPage s) := h.status 12 _ s (by omega)
theorem showFilling (s : State) : R s (State.showFilling s) := h.status 8 _ s (by omega)
theorem showWaiting (s : State) : R s (State.showWaiting s) := h.status 0 _ s (by omega)

theorem showLost (s : State) : R s (State.showLost s) := by
  refine h.putWords _ s fun c hc => ?_
  simp only [List.mem_cons, List.not_mem_nil, or_false] at hc
  rcases hc with rfl | rfl <;>
    exact ⟨h.record _ (by simp only [statusBase]; omega), h.record _ (by simp only [statusBase]; omega)⟩

/-! ## Folds -/

theorem foldl {α : Type} (f : State → α → State) (l : List α) (s : State) (hf : ∀ s a, a ∈ l → R s (f s a)) :
    R s (l.foldl f s) := by
  induction l generalizing s with
  | nil => exact h.refl s
  | cons a l ih =>
    exact h.trans (hf s a List.mem_cons_self) (ih (f s a) fun t b hb => hf t b (List.mem_cons_of_mem _ hb))

/-! ## The journal, with any treatment of its reports that keeps the relation -/

theorem stage (r : Record) (s : State) : R s (Machine.stage r s) :=
  h.trans (h.trans (h.journal s _ (by exact pageFrom_same rfl)) (h.showQueue _)) (h.showNextSeq _)

theorem rejectEntry (s : State) : R s (Machine.rejectEntry s) :=
  h.trans (h.trans (h.putMapState _ _ s) (h.journal _ _ (by exact pageFrom_same rfl))) (h.showQueue _)

section journal
variable (rep : Report → State → State) (hr : ∀ r s, journalPoint r.point → R s (rep r s))
include hr

theorem refuse (b : Bool) (s : State) : R s (Machine.refuse rep b s) := by
  unfold Machine.refuse
  split
  · exact h.trans (h.trans (h.journal s _ (by exact pageFrom_same (Journal.lose_filling _ _))) (h.showLost _)) (hr _ _ (Or.inr rfl))
  · exact h.trans (h.journal s _ (by exact pageFrom_same (Journal.lose_filling _ _))) (h.showLost _)

theorem overflow (s : State) : R s (Machine.overflow rep s) := by
  unfold Machine.overflow
  split
  · exact h.refl s
  · exact h.trans (h.trans (h.trans (h.stage _ s) (h.journal _ _ (by exact pageFrom_same rfl))) (h.showLost _)) (hr _ _ (Or.inr rfl))

/-- The head record written into a FILLING page whose bytes, and those above it, `A` names. -/
theorem writeHead (s : State) (hp : ∀ f ∈ s.journal.filling, ∀ a, 256 * f.page ≤ a → A a) : R s (Machine.writeHead rep s) := by
  unfold Machine.writeHead
  split
  · next r rest f e1 e2 =>
    have hf := hp f e2
    refine h.trans (h.trans (h.trans (h.trans (h.trans (h.putBytes _ _ s fun i hi => hf _ ?_)
      (h.journal _ _ ?_)) (h.showQueue _)) (h.overflow rep hr _)) (h.journal _ _ ?_)) (h.showFilling _)
    · simp only [recordAddr]
      omega
    · intro g hg
      simp only [Option.mem_def, Option.some.injEq] at hg
      exact .inr ⟨f, e2, hg ▸ rfl⟩
    · intro g hg
      simp only [Option.mem_def, Option.map_eq_some_iff] at hg
      obtain ⟨x, hx, rfl⟩ := hg
      exact .inr ⟨x, hx, rfl⟩
  · exact h.refl s

theorem noPage (s : State) : R s (Machine.noPage rep s) := by
  unfold Machine.noPage
  split
  · exact h.refl s
  · exact h.trans (h.trans (h.journal s _ (by exact pageFrom_same rfl)) (h.showWaiting _)) (hr _ _ (Or.inl rfl))

theorem openPage (page : Nat) (s : State) (hp : 7 ≤ page) : R s (Machine.openPage rep page s) := by
  unfold Machine.openPage
  have h1 : ∀ f, f.page = page → R s (Machine.writeHead rep (State.showNextPage (State.showFilling
      { s.putMapState s.journal.cursor 2 with
        journal := { s.journal with nextPage := s.journal.nextPage + 1, filling := some f } }))) := by
    intro f hf
    refine h.trans (h.trans (h.trans (h.trans (h.putMapState _ _ s) (h.journal _ _ ?_)) (h.showFilling _))
      (h.showNextPage _)) (h.writeHead rep hr _ ?_)
    all_goals intro g hg
    · simp only [Option.mem_def, Option.some.injEq] at hg
      subst hg
      exact .inl (by omega)
    simp only [State.showNextPage_journal, State.showFilling_journal, Option.mem_def, Option.some.injEq] at hg
    subst hg
    exact fun a ha => h.record a (by omega)
  dsimp only
  split
  · exact h.trans (h.trans (h.trans (h1 _ rfl) (h.journal _ _ (by exact pageFrom_same rfl))) (h.showWaiting _)) (hr _ _ (Or.inl rfl))
  · exact h1 _ rfl

theorem attemptFrom (n : Nat) (s : State) : R s (Machine.attemptFrom rep n s) := by
  induction n generalizing s with
  | zero => exact h.noPage rep hr s
  | succ n ih =>
    unfold Machine.attemptFrom
    split
    · exact h.noPage rep hr s
    · split
      · next e => exact h.openPage rep hr _ s (by simp [usablePage] at e; omega)
      · exact h.trans (h.rejectEntry s) (ih _)

theorem attempt (s : State) : R s (Machine.attempt rep s) := by
  unfold Machine.attempt
  split
  · exact h.attemptFrom rep hr 32 s
  · exact h.refl s

theorem offerWith (r : Record) (s : State) : R s (Machine.offerWith rep r s) := by
  unfold Machine.offerWith
  split
  · dsimp only
    split
    · exact h.trans (h.stage r s) (h.attempt rep hr _)
    · exact h.stage r s
  · exact h.refuse rep hr _ s

end journal

/-! ## The First-Out Unit -/

theorem offerInside (r : Record) (s : State) : R s (Machine.offerInside r s) :=
  h.offerWith _ (fun r s hp => h.keep s r hp) r s

theorem offerFiltered (f : Filterable) (r : Record) (s : State) : R s (Machine.offerFiltered f r s) := by
  unfold Machine.offerFiltered
  split
  · exact h.refl s
  · exact h.offerInside r s

theorem putPoint (p : Fin 256) (x : Point) (s : State) (hp : P p) : R s (Machine.putPoint p x s) := h.point s p x hp

theorem setMark (p : Fin 256) (m : Bool) (s : State) (hp : P p) : R s (Machine.setMark p m s) :=
  h.trans (h.point s p _ hp) (h.showPoint p _ hp)

theorem putGroup (g : Fin 16) (x : Group) (s : State) : R s (Machine.putGroup g x s) :=
  h.trans (h.groups s _) (h.showGroup g _)

theorem latch (g : Fin 16) (s : State) (hp : ∀ p ∈ (nth s.groups g).candidate, P p) : R s (Machine.latch g s) := by
  unfold Machine.latch
  dsimp only
  split
  · exact h.putGroup g _ s
  · next p e =>
    split
    · exact h.trans (h.trans (h.setMark p _ s (hp p e)) (h.putGroup g _ _)) (h.offerInside _ _)
    · exact h.trans (h.putGroup g _ _) (h.offerInside _ _)

theorem alertReport (g : Fin 16) (p : Fin 256) (t : Nat) (s : State) (hp : P p) :
    R s (Machine.alertReport g p t s) := by
  unfold Machine.alertReport
  dsimp only
  split
  · split
    · refine h.trans (h.putGroup g _ s) (h.latch g _ ?_)
      intro q hq
      simp at hq
      exact hq ▸ hp
    · exact h.putGroup g _ s
  · exact h.putGroup g _ s
  · exact h.refl s

/-! ## The Sequence Unit -/

theorem putZone (z : Fin 8) (x : Zone) (s : State) : R s (Machine.putZone z x s) := by
  unfold Machine.putZone
  dsimp only
  split
  · exact h.refl s
  · exact h.trans (h.zones s _) (h.showZone z _)

theorem rejudgeZone (z : Fin 8) (s : State) : R s (Machine.rejudgeZone z s) := h.putZone z _ s

theorem takeChange (p : Fin 256) (c : Change) (s : State) (hp : P p) : R s (Machine.takeChange p c s) := by
  unfold Machine.takeChange
  dsimp only
  have h1 : ∀ y, R s (Machine.offerPoint p y (nth s.points p).seq c
      (State.showPoint p { s with points := upd s.points p y })) := by
    intro y
    refine h.trans (h.trans (h.point s p y hp) (h.showPoint p _ hp)) ?_
    unfold Machine.offerPoint
    split
    · exact h.offerInside _ _
    · exact h.offerFiltered _ _ _
  split
  · exact h.trans (h.trans (h1 _) (h.alertReport _ p _ _ hp)) (h.putZone _ _ _)
  · exact h.trans (h1 _) (h.putZone _ _ _)

theorem quieten (p : Fin 256) (s : State) (hp : P p) : R s (Machine.quieten p s) :=
  h.trans (h.trans (h.point s p _ hp) (h.showPoint p _ hp)) (h.rejudgeZone _ _)

/-! ## The Point Filter -/

theorem accept (p : Fin 256) (c : Change) (s : State) (hp : P p) : R s (Machine.accept p c s) :=
  h.trans (h.trans (h.putPoint p _ s hp) (h.showPoint p _ hp)) (h.takeChange p c _ hp)

theorem startChange (p : Fin 256) (t : Nat) (st : Stamp) (a : Bool) (s : State) (hp : P p) :
    R s (Machine.startChange p t st a s) := by
  unfold Machine.startChange
  dsimp only
  split
  · exact h.accept p _ s hp
  · exact h.putPoint p _ s hp

theorem transition (p : Fin 256) (x : Point) (t : Int) (st : Stamp) (a : Bool) (s : State) (hp : P p) :
    R s (Machine.transition p x t st a s) := by
  unfold Machine.transition
  dsimp only
  split
  · exact h.putPoint p _ s hp
  · split
    · exact h.trans (h.trans (h.putPoint p _ s hp) (h.showPoint p _ hp)) (h.offerFiltered _ _ _)
    · split
      · exact h.trans (h.putPoint p _ s hp) (h.startChange p _ _ _ _ hp)
      · exact h.putPoint p _ s hp

theorem contactReport (p : Fin 256) (c : Contact) (t : Int) (st : Stamp) (a : Bool) (s : State) (hp : P p) :
    R s (Machine.contactReport p c t st a s) := by
  unfold Machine.contactReport
  dsimp only
  split
  · exact h.putPoint p _ s hp
  · exact h.transition p _ t st a s hp

theorem takeReport (r : Report) (s : State) (hp : P r.point) : R s (Machine.takeReport r s) :=
  h.contactReport _ _ _ _ _ _ hp

theorem releaseHold (p : Fin 256) (s : State) (hp : P p) : R s (Machine.releaseHold p s) := by
  unfold Machine.releaseHold
  dsimp only
  have h1 : ∀ x r, R s (Machine.offerFiltered .chatter r (State.showPoint p (Machine.putPoint p x s))) := fun x r =>
    h.trans (h.trans (h.putPoint p x s hp) (h.showPoint p _ hp)) (h.offerFiltered _ r _)
  split
  · exact h.trans (h1 _ _) (h.accept p _ _ hp)
  · exact h1 _ _

end SideClosed

/-! ## The reports that waited

Every report that joins the waiting ones is of point 252 or 253, so the relation is kept while they are taken. -/

/-- Every waiting report is of a point that `P` names. -/
def dueIn (P : Fin 256 → Prop) (s : State) : Prop := ∀ r ∈ s.due, P r.point

theorem dueIn_nil {P : Fin 256 → Prop} {s : State} (h : s.due = []) : dueIn P s := by simp [dueIn, h]

/-- The relation together with the points of the waiting reports. -/
def tracked (P : Fin 256 → Prop) (R : State → State → Prop) (s t : State) : Prop := dueIn P s → dueIn P t ∧ R s t

namespace SideClosed

variable {P : Fin 256 → Prop} {A : Nat → Prop} {R : State → State → Prop} (h : SideClosed P A R)
include h

theorem tracked : SideClosed P A (tracked P R) where
  refl s hd := ⟨hd, h.refl s⟩
  trans h1 h2 hd := ⟨(h2 (h1 hd).1).1, h.trans (h1 hd).2 (h2 (h1 hd).1).2⟩
  write s a v ha hd := ⟨hd, h.write s a v ha⟩
  journal s j hj hd := ⟨hd, h.journal s j hj⟩
  zones s v hd := ⟨hd, h.zones s v⟩
  groups s v hd := ⟨hd, h.groups s v⟩
  keep s r hp hd := by
    refine ⟨fun x hx => ?_, h.keep s r hp⟩
    rcases List.mem_append.mp hx with hx | hx
    · exact hd x hx
    · rw [List.mem_singleton.mp hx]; exact h.own _ hp
  pop s r rest e hd := ⟨fun x hx => hd x (e ▸ List.mem_cons_of_mem _ hx), h.pop s r rest e⟩
  point s p x hp hd := ⟨hd, h.point s p x hp⟩
  record := h.record
  mirror := h.mirror
  own := h.own

theorem takeWaiting (n : Nat) (s : State) : Machine.tracked P R s (Machine.takeWaiting n s) := by
  induction n generalizing s with
  | zero => exact h.tracked.refl s
  | succ n ih =>
    unfold Machine.takeWaiting
    split
    · exact h.tracked.refl s
    · next r rest e =>
      intro hd
      exact h.tracked.trans (h.tracked.trans (h.tracked.pop s r rest e)
        (h.tracked.takeReport r _ (hd r (e ▸ List.mem_cons_self)))) (ih _) hd

theorem endAlarm (s : State) : Machine.tracked P R s (Machine.endAlarm s) := h.takeWaiting _ s

/-- A report of a point that `P` names, taken at once. -/
theorem reportNow (r : Report) (s : State) (hp : P r.point) : Machine.tracked P R s (Machine.reportNow r s) :=
  h.tracked.trans (h.tracked.takeReport r s hp) (h.endAlarm _)

theorem offer (r : Record) (s : State) : Machine.tracked P R s (Machine.offer r s) :=
  h.tracked.offerWith _ (fun r s hp => h.reportNow r s (h.own _ hp)) r s

theorem offerUnless (f : Filterable) (r : Record) (s : State) : Machine.tracked P R s (Machine.offerUnless f r s) := by
  unfold Machine.offerUnless
  split
  · exact h.tracked.refl s
  · exact h.offer r s

theorem reportCondition (p : Fin 256) (b : Bool) (s : State) (hp : P p) :
    Machine.tracked P R s (Machine.reportCondition p b s) := h.reportNow _ s hp

theorem takeContact (p : Fin 256) (c : Contact) (t : Int) (st : Stamp) (a : Bool) (s : State) (hp : P p) :
    Machine.tracked P R s (Machine.takeContact p c t st a s) :=
  h.tracked.trans (h.tracked.contactReport p c t st a s hp) (h.endAlarm _)

theorem attemptNow (s : State) : Machine.tracked P R s (Machine.attempt Machine.reportNow s) :=
  h.tracked.attempt _ (fun r s hp => h.reportNow r s (h.own _ hp)) s

theorem writeHeadNow (s : State) (hp : ∀ f ∈ s.journal.filling, ∀ a, 256 * f.page ≤ a → A a) :
    Machine.tracked P R s (Machine.writeHead Machine.reportNow s) :=
  h.tracked.writeHead _ (fun r s hp => h.reportNow r s (h.own _ hp)) s hp

end SideClosed

/-! ## Three relations of this kind -/

/-- Memory keeps its form and differs only where `A` says. -/
structure MemoryReach (A : Nat → Prop) (s t : State) : Prop where
  wf : s.mem.wf = true → t.mem.wf = true
  same : sameMemoryBut A s.mem t.mem

theorem sideOnly_closed {P : Fin 256 → Prop} {A : Nat → Prop} (hr : ∀ a, recordByte a → A a)
    (hm : ∀ p, P p → A (pointAddr p) ∧ A (pointAddr p + 1)) (ho : ∀ p, journalPoint p → P p) :
    SideClosed P A SideOnly where
  refl _ := ⟨rfl, rfl, rfl, rfl, rfl, rfl, rfl, rfl, rfl, rfl, rfl, rfl, rfl, rfl, rfl⟩
  trans h k := ⟨k.1.trans h.1, k.2.trans h.2, k.3.trans h.3, k.4.trans h.4, k.5.trans h.5, k.6.trans h.6,
    k.7.trans h.7, k.8.trans h.8, k.9.trans h.9, k.10.trans h.10, k.11.trans h.11, k.12.trans h.12, k.13.trans h.13,
    k.14.trans h.14, k.15.trans h.15⟩
  write _ _ _ _ := ⟨rfl, rfl, rfl, rfl, rfl, rfl, rfl, rfl, rfl, rfl, rfl, rfl, rfl, rfl, rfl⟩
  journal _ _ _ := ⟨rfl, rfl, rfl, rfl, rfl, rfl, rfl, rfl, rfl, rfl, rfl, rfl, rfl, rfl, rfl⟩
  zones _ _ := ⟨rfl, rfl, rfl, rfl, rfl, rfl, rfl, rfl, rfl, rfl, rfl, rfl, rfl, rfl, rfl⟩
  groups _ _ := ⟨rfl, rfl, rfl, rfl, rfl, rfl, rfl, rfl, rfl, rfl, rfl, rfl, rfl, rfl, rfl⟩
  keep _ _ _ := ⟨rfl, rfl, rfl, rfl, rfl, rfl, rfl, rfl, rfl, rfl, rfl, rfl, rfl, rfl, rfl⟩
  pop _ _ _ _ := ⟨rfl, rfl, rfl, rfl, rfl, rfl, rfl, rfl, rfl, rfl, rfl, rfl, rfl, rfl, rfl⟩
  point _ _ _ _ := ⟨rfl, rfl, rfl, rfl, rfl, rfl, rfl, rfl, rfl, rfl, rfl, rfl, rfl, rfl, rfl⟩
  record := hr
  mirror := hm
  own := ho

theorem memoryReach_closed {P : Fin 256 → Prop} {A : Nat → Prop} (hr : ∀ a, recordByte a → A a)
    (hm : ∀ p, P p → A (pointAddr p) ∧ A (pointAddr p + 1)) (ho : ∀ p, journalPoint p → P p) :
    SideClosed P A (MemoryReach A) where
  refl _ := ⟨id, fun _ _ => rfl⟩
  trans h k := ⟨fun w => k.wf (h.wf w), fun a ha => (k.same a ha).trans (h.same a ha)⟩
  write _ a v ha := ⟨fun w => Memory.wf_write a v w, fun _ hb => Memory.read_write_other v (fun e => hb (e ▸ ha))⟩
  journal _ _ _ := ⟨id, fun _ _ => rfl⟩
  zones _ _ := ⟨id, fun _ _ => rfl⟩
  groups _ _ := ⟨id, fun _ _ => rfl⟩
  keep _ _ _ := ⟨id, fun _ _ => rfl⟩
  pop _ _ _ _ := ⟨id, fun _ _ => rfl⟩
  point _ _ _ _ := ⟨id, fun _ _ => rfl⟩
  record := hr
  mirror := hm
  own := ho

theorem samePointsBut_closed {P : Fin 256 → Prop} {A : Nat → Prop} (hr : ∀ a, recordByte a → A a)
    (hm : ∀ p, P p → A (pointAddr p) ∧ A (pointAddr p + 1)) (ho : ∀ p, journalPoint p → P p) :
    SideClosed P A (samePointsBut P) where
  refl _ _ _ := rfl
  trans h k p hp := (k p hp).trans (h p hp)
  write _ _ _ _ _ _ := rfl
  journal _ _ _ _ _ := rfl
  zones _ _ _ _ := rfl
  groups _ _ _ _ := rfl
  keep _ _ _ _ _ := rfl
  pop _ _ _ _ _ _ := rfl
  point _ _ _ hp _ hq := nth_upd_other _ _ (fun e => hq (e ▸ hp))
  record := hr
  mirror := hm
  own := ho

/-- The bytes reachable when the points of `P` are touched: what the journal reaches, and those points' mirror words. -/
def reachOf (P : Fin 256 → Prop) (a : Nat) : Prop :=
  recordByte a ∨ ∃ p, P p ∧ (a = pointAddr p ∨ a = pointAddr p + 1)

theorem reachOf_record {P : Fin 256 → Prop} (a : Nat) (h : recordByte a) : reachOf P a := .inl h

theorem reachOf_mirror {P : Fin 256 → Prop} (p : Fin 256) (h : P p) :
    reachOf P (pointAddr p) ∧ reachOf P (pointAddr p + 1) := ⟨.inr ⟨p, h, .inl rfl⟩, .inr ⟨p, h, .inr rfl⟩⟩

/-- The points of the journal's own conditions have their mirror words among the bytes the journal reaches. -/
theorem reachOf_journalPoint (a : Nat) (h : reachOf journalPoint a) : recordByte a := by
  rcases h with h | ⟨p, hp, h⟩
  · exact h
  · rcases hp with rfl | rfl <;> rcases h with rfl | rfl <;> decide

/-- All three at once. -/
structure SideReach (P : Fin 256 → Prop) (A : Nat → Prop) (s t : State) : Prop where
  only : SideOnly s t
  memory : MemoryReach A s t
  points : samePointsBut P s t

theorem sideReach_closed {P : Fin 256 → Prop} {A : Nat → Prop} (hr : ∀ a, recordByte a → A a)
    (hm : ∀ p, P p → A (pointAddr p) ∧ A (pointAddr p + 1)) (ho : ∀ p, journalPoint p → P p) :
    SideClosed P A (SideReach P A) :=
  let c1 := sideOnly_closed hr hm ho
  let c2 := memoryReach_closed hr hm ho
  let c3 := samePointsBut_closed hr hm ho
  { refl := fun s => ⟨c1.refl s, c2.refl s, c3.refl s⟩
    trans := fun h k => ⟨c1.trans h.1 k.1, c2.trans h.2 k.2, c3.trans h.3 k.3⟩
    write := fun s a v ha => ⟨c1.write s a v ha, c2.write s a v ha, c3.write s a v ha⟩
    journal := fun s j hj => ⟨c1.journal s j hj, c2.journal s j hj, c3.journal s j hj⟩
    zones := fun s j => ⟨c1.zones s j, c2.zones s j, c3.zones s j⟩
    groups := fun s j => ⟨c1.groups s j, c2.groups s j, c3.groups s j⟩
    keep := fun s r hp => ⟨c1.keep s r hp, c2.keep s r hp, c3.keep s r hp⟩
    pop := fun s r rest e => ⟨c1.pop s r rest e, c2.pop s r rest e, c3.pop s r rest e⟩
    point := fun s p x hp => ⟨c1.point s p x hp, c2.point s p x hp, c3.point s p x hp⟩
    record := hr
    mirror := hm
    own := ho }

/-- What making a record can reach, when no report waits: the journal, its own two points, and their zones and
groups. -/
theorem offer_reach (r : Record) (s : State) (hd : s.due = []) :
    SideReach journalPoint recordByte s (offer r s) :=
  ((sideReach_closed (fun _ h => h) (fun p hp => by rcases hp with rfl | rfl <;> decide) (fun _ h => h)).offer r s
    (dueIn_nil hd)).2

/-- What a report of point p can reach, when no report waits. -/
theorem reportNow_reach (r : Report) (s : State) (hd : s.due = []) :
    SideReach (fun p => p = r.point ∨ journalPoint p) (reachOf fun p => p = r.point ∨ journalPoint p) s
      (reportNow r s) :=
  ((sideReach_closed (P := fun p => p = r.point ∨ journalPoint p) reachOf_record reachOf_mirror
    (fun _ h => Or.inr h)).reportNow r s (Or.inl rfl) (dueIn_nil hd)).2

end Sys2Proof.Machine
end

