-- ==== Sys2Proof/Laws/Reach.lean ====
section
/-! SUPPORT. Where each operation of the part may write, said once for every operation: a relation that is kept by writes
at the places of `A`, and by every change outside memory and the queue that fills no page below 7, is kept by every operation. -/

namespace Sys2Proof.Machine

/-- The bytes the part writes outside the slots and the identity: the summary block, the journal map and status, the
mirrors, and the free pages. -/
abbrev partByte (a : Nat) : Prop := (16 ≤ a ∧ a < 42) ∨ (768 ≤ a ∧ a < 912) ∨ 1024 ≤ a

/-- The bytes from a FILLING page on are bytes of `A`: so they are when `A` names every byte, and when it names the free
pages and the page is one of them. -/
abbrev pageOk (A : Nat → Prop) (s : State) : Prop := ∀ f ∈ s.journal.filling, ∀ a, 256 * f.page ≤ a → A a

theorem pageFrom_ok {A : Nat → Prop} (hA : ∀ a, partByte a → A a) {s t : State} (h : pageFrom s.journal t.journal)
    (w : pageOk A s) : pageOk A t := by
  intro f hf a ha
  rcases h f hf with h | ⟨g, hg, e⟩
  · exact hA a (by simp only [partByte]; omega)
  · exact w g hg a (e ▸ ha)

/-- A relation kept by every update of the part. -/
structure AnyClosed (A : Nat → Prop) (R : State → State → Prop) : Prop where
  refl : ∀ s, R s s
  trans : ∀ {s t u}, R s t → R t u → R s u
  write : ∀ s a v, A a → R s { s with mem := s.mem.write a v }
  still : ∀ s t, t.mem = s.mem → t.pending = s.pending → pageFrom s.journal t.journal → R s t
  part : ∀ a, partByte a → A a

/-- The relation together with the page being filled. -/
def paged (A : Nat → Prop) (R : State → State → Prop) (s t : State) : Prop := pageOk A s → pageOk A t ∧ R s t

namespace AnyClosed

variable {A : Nat → Prop} {R : State → State → Prop} (h : AnyClosed A R)
include h

theorem quiet {s t : State} (e1 : t.mem = s.mem) (e2 : t.journal = s.journal)
    (e3 : t.pending = s.pending := by rfl) : R s t :=
  h.still s t e1 e3 (pageFrom_same (congrArg Journal.filling e2))

/-- The last step first, so that the state between is read from the goal. -/
theorem back {s t u : State} (k : R t u) (j : R s t) : R s u := h.trans j k

theorem side : SideClosed (fun _ => True) A R where
  refl := h.refl
  trans := h.trans
  write := h.write
  journal _ _ hj := h.still _ _ rfl rfl hj
  zones _ _ := h.quiet rfl rfl
  groups _ _ := h.quiet rfl rfl
  keep _ _ _ := h.quiet rfl rfl
  pop _ _ _ _ := h.quiet rfl rfl
  point _ _ _ _ := h.quiet rfl rfl
  record a ha := h.part a (by simp only [recordByte, partByte] at *; omega)
  mirror p _ := ⟨h.part _ (by simp only [pointAddr, partByte]; omega), h.part _ (by simp only [pointAddr, partByte]; omega)⟩
  own _ _ := trivial

theorem paged : AnyClosed A (paged A R) where
  refl s w := ⟨w, h.refl s⟩
  trans h1 h2 w := ⟨(h2 (h1 w).1).1, h.trans (h1 w).2 (h2 (h1 w).1).2⟩
  write s a v ha w := ⟨w, h.write s a v ha⟩
  still s t e e' hj w := ⟨pageFrom_ok h.part hj w, h.still s t e e' hj⟩
  part := h.part

/-! ## Records and reports -/

theorem offer (r : Record) (s : State) : R s (Machine.offer r s) := (h.side.offer r s (fun _ _ => trivial)).2
theorem offerUnless (f : Filterable) (r : Record) (s : State) : R s (Machine.offerUnless f r s) :=
  (h.side.offerUnless f r s (fun _ _ => trivial)).2
theorem reportNow (r : Report) (s : State) : R s (Machine.reportNow r s) :=
  (h.side.reportNow r s trivial (fun _ _ => trivial)).2
theorem reportCondition (p : Fin 256) (b : Bool) (s : State) : R s (Machine.reportCondition p b s) := h.reportNow _ s
theorem endAlarm (s : State) : R s (Machine.endAlarm s) := (h.side.endAlarm s (fun _ _ => trivial)).2
theorem takeContact (p : Fin 256) (c : Contact) (t : Int) (st : Stamp) (a : Bool) (s : State) :
    R s (Machine.takeContact p c t st a s) := (h.side.takeContact p c t st a s trivial (fun _ _ => trivial)).2
theorem attempt (s : State) : R s (Machine.attempt Machine.reportNow s) :=
  (h.side.attemptNow s (fun _ _ => trivial)).2
theorem writeHead (s : State) (w : pageOk A s) : R s (Machine.writeHead Machine.reportNow s) :=
  (h.side.writeHeadNow s w (fun _ _ => trivial)).2

/-! ## Mirror writes -/

theorem word (a : Nat) (w : Word) (s : State) (h1 : partByte a) (h2 : partByte (a + 1)) : R s (s.putWord a w) :=
  h.side.putWord a w s (h.part _ h1) (h.part _ h2)

theorem words (ws : List (Nat × Word)) (s : State) (hs : ∀ c ∈ ws, partByte c.1 ∧ partByte (c.1 + 1)) :
    R s (s.putWords ws) :=
  h.side.putWords ws s fun c hc => ⟨h.part _ (hs c hc).1, h.part _ (hs c hc).2⟩

theorem hall (d : Nat) (w : Word) (s : State) : R s (s.putWord (hallBase + d) w) :=
  h.word _ w s (by simp only [hallBase, partByte]; omega) (by simp only [hallBase, partByte]; omega)

theorem showOutput (o : Fin 24) (s : State) : R s (s.showOutput o) := by
  rw [State.showOutput, Nat.add_assoc]; exact h.hall _ _ s
theorem showSup (o : Fin 24) (s : State) : R s (s.showSup o) := by
  dsimp only [State.showSup]; rw [Nat.add_assoc]; exact h.hall _ _ s
theorem showProfile (p : Fin 4) (s : State) : R s (s.showProfile p) := by
  rw [State.showProfile, Nat.add_assoc]; exact h.hall _ _ s
theorem showMatrix (s : State) : R s s.showMatrix := h.hall 240 _ s
theorem showSupply (s : State) : R s s.showSupply := h.hall 242 _ s
theorem showTest (k : Fin 4) (s : State) : R s (s.showTest k) := by
  rw [State.showTest, Nat.add_assoc]; exact h.hall _ _ s
theorem showPart (s : State) : R s s.showPart := h.word _ _ s (by decide) (by decide)
theorem showActive (s : State) : R s s.showActive := h.word _ _ s (by decide) (by decide)

theorem showLink (k : Fin 4) (s : State) : R s (s.showLink k) := by
  refine h.words _ s fun c hc => ?_
  simp only [List.mem_map, List.mem_range] at hc
  obtain ⟨j, _, rfl⟩ := hc
  constructor <;> (simp only [hallBase, partByte]; omega)

theorem showInput (i : Fin 32) (s : State) : R s (s.showInput i) := by
  refine h.words _ s fun c hc => ?_
  simp only [List.mem_cons, List.not_mem_nil, or_false] at hc
  rcases hc with rfl | rfl | rfl <;> constructor <;> (simp only [hallBase, partByte]; omega)

theorem showClock (s : State) : R s s.showClock := by
  refine h.trans (h.words _ s fun c hc => ?_) (h.side.putBytes _ _ _ fun i hi => h.part _ ?_)
  · simp only [List.mem_cons, List.not_mem_nil, or_false] at hc
    rcases hc with rfl | rfl <;> constructor <;> (simp only [partByte]; omega)
  · simp only [bytes6, bytes4, bytes2, List.length_append, List.length_cons, List.length_nil] at hi
    simp only [partByte]
    omega

theorem showJournalSettings (s : State) : R s (State.showJournalSettings s) :=
  h.side.status 14 _ s (by omega)

/-! ## Supervision -/

theorem putOutput (o : Fin 24) (x : Output) (s : State) : R s (Machine.putOutput o x s) := h.quiet rfl rfl

theorem changeFault (o : Fin 24) (f : SupFault) (c : SupCause) (s : State) : R s (Machine.changeFault o f c s) := by
  unfold Machine.changeFault
  dsimp only
  split
  · exact h.back (h.offer _ _) (h.back (h.showSup o _) (h.putOutput o _ s))
  · exact h.back (h.reportCondition _ _ _) (h.back (h.offer _ _) (h.back (h.showSup o _) (h.putOutput o _ s)))

theorem supervise (o : Fin 24) (s : State) : R s (Machine.supervise o s) := by
  unfold Machine.supervise
  dsimp only
  split
  · exact h.changeFault o _ _ s
  · exact h.putOutput o _ s

theorem watchCurrent (o : Fin 24) (s : State) : R s (Machine.watchCurrent o s) := h.putOutput o _ s

theorem sampleOutput (c1 c2 : BitVec 24) (s : State) (o : Fin 24) : R s (Machine.sampleOutput c1 c2 s o) := by
  unfold Machine.sampleOutput
  dsimp only
  refine h.back (h.supervise o _) ?_
  split
  · exact h.putOutput o _ s
  · exact h.back (h.showSup o _) (h.putOutput o _ s)

theorem putSupply (x : Supply) (s : State) : R s (Machine.putSupply x s) := by
  unfold Machine.putSupply
  dsimp only
  split
  · exact h.quiet rfl rfl
  · exact h.back (h.showSupply _) (h.quiet rfl rfl)

theorem loseSupply (s : State) : R s (Machine.loseSupply s) := by
  unfold Machine.loseSupply
  dsimp only
  exact h.back (h.reportCondition _ _ _) (h.back (h.offer _ _) (h.back
    (h.quiet (s := Machine.putSupply { state := .lost, absence := 0, settle := none } s) rfl rfl) (h.putSupply _ s)))

theorem returnSupply (s : State) : R s (Machine.returnSupply s) :=
  h.back (h.reportCondition _ _ _) (h.back (h.offer _ _) (h.putSupply _ s))

theorem settleSupply (s : State) : R s (Machine.settleSupply s) :=
  h.back (h.side.foldl _ _ _ fun _ _ _ => h.back (h.supervise _ _) (h.watchCurrent _ _)) (h.back (h.offer _ _) (h.putSupply _ s))

theorem sampleSupply (b : Bool) (s : State) : R s (Machine.sampleSupply b s) := by
  unfold Machine.sampleSupply
  split
  · exact h.returnSupply s
  · exact h.refl s
  · exact h.putSupply _ s
  · dsimp only
    split
    · exact h.back (h.loseSupply _) (h.putSupply _ s)
    · exact h.putSupply _ s

/-! ## Outputs -/

theorem energize (o : Fin 24) (st : OutState) (t : Option Nat) (c : OutCause) (s : State) :
    R s (Machine.energize o st t c s) :=
  h.back (h.supervise o _) (h.back (h.watchCurrent o _) (h.back (h.offer _ _) (h.back (h.showOutput o _) (h.putOutput o _ s))))

theorem deenergize (o : Fin 24) (c : OutCause) (s : State) : R s (Machine.deenergize o c s) :=
  h.back (h.supervise o _) (h.back (h.offer _ _) (h.back (h.showOutput o _) (h.putOutput o _ s)))

theorem risingDrive (o : Fin 24) (c : OutCause) (s : State) : R s (Machine.risingDrive o c s) := by
  unfold Machine.risingDrive
  dsimp only
  split
  · exact h.offer _ s
  · split
    · exact h.offer _ s
    · split
      · exact h.refl s
      · split <;> exact h.energize o _ _ _ s

theorem fallingDrive (o : Fin 24) (s : State) : R s (Machine.fallingDrive o s) := by
  unfold Machine.fallingDrive
  dsimp only
  split
  · exact h.deenergize o _ s
  · exact h.refl s

theorem expireOnTimer (o : Fin 24) (s : State) : R s (Machine.expireOnTimer o s) := by
  unfold Machine.expireOnTimer
  dsimp only
  split
  · exact h.back (h.deenergize o _ _) (h.putOutput o _ s)
  · split
    · exact h.back (h.showOutput o _) (h.putOutput o _ s)
    · exact h.back (h.deenergize o _ _) (h.putOutput o _ s)
  · exact h.putOutput o _ s

/-! ## Trip inputs -/

theorem handEdge (b : Vector (Option (Fin 32)) 24) (s : State) (o : Fin 24) : R s (Machine.handEdge b s o) := by
  unfold Machine.handEdge
  dsimp only
  split
  · exact h.refl s
  · split
    · exact h.back (h.risingDrive o _ _) (h.showOutput o s)
    · exact h.back (h.fallingDrive o _) (h.showOutput o s)
    · exact h.showOutput o s

theorem qualify (i : Fin 32) (s : State) : R s (Machine.qualify i s) :=
  h.back (h.takeContact _ _ _ _ _ _) (h.back (h.side.foldl _ _ _ fun t o _ => h.handEdge _ t o) (h.back (h.offer _ _) (h.back (h.showInput i _) (h.quiet rfl rfl))))

theorem sampleInput (l : BitVec 32) (s : State) (i : Fin 32) : R s (Machine.sampleInput l s i) := by
  unfold Machine.sampleInput
  dsimp only
  generalize TripInput.sampled (nth s.inputs i) (l.getLsbD i.val) (s.qOf i) s.moment = y
  have h1 : R s (if (nth s.inputs i).shows y = true then
      State.showInput i { s with inputs := upd s.inputs i y } else { s with inputs := upd s.inputs i y }) := by
    split
    · exact h.back (h.showInput i _) (h.quiet rfl rfl)
    · exact h.quiet rfl rfl
  generalize (if (nth s.inputs i).shows y = true then
      State.showInput i { s with inputs := upd s.inputs i y } else { s with inputs := upd s.inputs i y }) = u at h1
  split
  · exact h.back (h.qualify i _) h1
  · exact h1

/-! ## Time Base -/

theorem offerClock (r : Record) (s : State) : R s (Machine.offerClock r s) := h.offerUnless _ r s

theorem raiseSyncFault (c : SyncCause) (s : State) : R s (Machine.raiseSyncFault c s) :=
  h.back (h.reportCondition _ _ _) (h.back (h.offerClock _ _) (h.back (h.showClock _) (h.quiet rfl rfl)))

theorem acceptPulse (c : Int) (s : State) : R s (Machine.acceptPulse c s) := by
  unfold Machine.acceptPulse
  dsimp only
  have h1 : ∀ t, R s (State.showClock { s with time := t }) := fun t => h.back (h.showClock _) (h.quiet rfl rfl)
  have h2 : ∀ (p : Prop) [Decidable p] t r, R s (if p then Machine.offerClock r (State.showClock { s with time := t })
      else State.showClock { s with time := t }) := by
    intro p _ t r
    split
    · exact h.back (h.offerClock r _) (h1 t)
    · exact h1 t
  split
  · exact h.back (h.reportCondition _ _ _) (h.back (h.offerClock _ _) (h2 _ _ _))
  · exact h2 _ _ _

theorem spuriousPulse (s : State) : R s (Machine.spuriousPulse s) := by
  unfold Machine.spuriousPulse
  dsimp only
  split
  · exact h.back (h.raiseSyncFault _ _) (h.back (h.showClock _) (h.quiet rfl rfl))
  · exact h.back (h.showClock _) (h.quiet rfl rfl)

theorem judgePulse (s : State) : R s (Machine.judgePulse s) := by
  unfold Machine.judgePulse
  dsimp only
  split
  · exact h.acceptPulse _ s
  · exact h.spuriousPulse s

/-! ## Actions and lamp tests -/

theorem applyAction (a : Action) (t : Target) (o : Nat) (s : State) : R s (Machine.applyAction a t o s) := by
  unfold Machine.applyAction
  dsimp only
  have h1 : ∀ t' r, R s (Machine.offerFiltered .action r ((List.finRange 8).foldl (actZone a t s.zones)
      ((List.finRange 256).foldl (actPoint a t') s))) := by
    intro t' r
    refine h.back (h.side.offerFiltered _ _ _) (h.back (h.side.foldl _ _ _ fun u z _ => ?_) (h.side.foldl _ _ _ fun u p _ => ?_))
    · unfold actZone
      dsimp only
      split
      · exact h.quiet rfl rfl
      · exact h.back (h.side.showZone z _) (h.quiet rfl rfl)
    · unfold actPoint
      dsimp only
      split
      · exact h.back (h.quiet (s := State.showPoint p _) rfl rfl)
          (h.back (h.side.showPoint p _ trivial) (h.quiet rfl rfl))
      · exact h.refl u
  split
  · refine h.back (h.side.foldl _ _ _ fun u g _ => ?_) (h1 _ _)
    unfold rearmReset
    split
    · unfold rearm
      dsimp only
      split
      · exact h.back (h.side.putGroup _ _ _) (h.back (h.side.offerInside _ _) (h.side.setMark _ _ _ trivial))
      · exact h.back (h.side.putGroup _ _ _) (h.side.offerInside _ _)
    · exact h.refl u
  · exact h1 _ _

theorem putPanel (k : Fin 4) (x : Panel) (s : State) : R s (Machine.putPanel k x s) := by
  unfold Machine.putPanel
  dsimp only
  split
  · exact h.quiet rfl rfl
  · exact h.back (h.showTest k _) (h.quiet rfl rfl)

/-! ## Leak steps, stale points, recovery -/

theorem releaseHold (p : Fin 256) (s : State) : R s (Machine.releaseHold p s) := h.side.releaseHold p s trivial

theorem leak (s : State) : R s (Machine.leak s) := by
  refine h.back (h.endAlarm _) (h.back (h.side.foldl _ _ _ fun u p _ => ?_) (h.quiet rfl rfl))
  unfold leakRelease
  dsimp only
  split
  · exact h.releaseHold p u
  · exact h.refl u

theorem panelStale (k : Fin 4) (s : State) : R s (Machine.panelStale k s) :=
  h.side.foldl _ _ _ fun _ _ _ => h.back (h.side.showPoint _ _ trivial) (h.side.putPoint _ _ _ trivial)

theorem recovered (k : Fin 4) (r : Receipt) (s : State) : R s (Machine.recovered k r s) := by
  refine h.back (h.endAlarm _) (h.back (h.side.foldl _ _ _ fun u j _ => ?_) (h.side.foldl _ _ _ fun u j _ => ?_))
  · unfold recoverPoint
    dsimp only
    split
    · exact h.side.startChange _ _ _ _ _ trivial
    · exact h.refl u
  · exact h.back (h.side.showPoint _ _ trivial) (h.side.putPoint _ _ _ trivial)

/-! ## Links, the orders they end apart -/

theorem putLink (k : Fin 4) (x : Link) (s : State) : R s (Machine.putLink k x s) := h.quiet rfl rfl

theorem offerLink (r : Record) (s : State) : R s (Machine.offerLink r s) := h.offerUnless _ r s

theorem changeLink (k : Fin 4) (x : Link) (c : LinkCause) (s : State) : R s (Machine.changeLink k x c s) :=
  h.back (h.offerLink _ _) (h.putLink k x s)

theorem releaseButtons (k : Fin 4) (s : State) : R s (Machine.releaseButtons k s) := by
  unfold Machine.releaseButtons
  dsimp only
  split
  · exact h.back (h.putPanel k _ _) (h.putLink k _ s)
  · exact h.putLink k _ s

theorem leaveUp (k : Fin 4) (s : State) : R s (Machine.leaveUp k s) :=
  h.back (h.releaseButtons k _) (h.back (h.reportCondition _ _ _) (h.panelStale k s))

theorem missScan (k : Fin 4) (e : LinkError) (s : State) : R s (Machine.missScan k e s) := by
  unfold Machine.missScan
  dsimp only
  refine h.back (h.showLink k _) ?_
  split
  · split
    · exact h.back (h.leaveUp k _) (h.back (h.changeLink k _ _ _) (h.putLink k _ s))
    · exact h.putLink k _ s
  · exact h.putLink k _ s
  · exact h.putLink k _ s
  · exact h.refl s

theorem onlyIf (b : Bool) (f : State → State) (s : State) (hf : R s (f s)) : R s (Machine.onlyIf b f s) := by
  unfold Machine.onlyIf
  split
  · exact hf
  · exact h.refl s

theorem panelAction (k : Fin 4) (a : Action) (s : State) : R s (Machine.panelAction k a s) :=
  h.back (h.endAlarm _) (h.applyAction _ _ _ s)

theorem takeButtons (k : Fin 4) (b : Buttons) (s : State) : R s (Machine.takeButtons k b s) := by
  unfold Machine.takeButtons
  dsimp only
  exact h.back (h.onlyIf _ _ _ (h.putPanel k _ _)) (h.back (h.onlyIf _ _ _ (h.putPanel k _ _)) (h.back (h.onlyIf _ _ _ (h.panelAction k _ _)) (h.back (h.onlyIf _ _ _ (h.panelAction k _ _)) (h.back (h.onlyIf _ _ _ (h.panelAction k _ _)) (h.putLink k _ s)))))

theorem takeEntry (k : Fin 4) (r : Receipt) (l : Nat) (s : State) (e : ChangeEntry) :
    R s (Machine.takeEntry k r l s e) := by
  unfold Machine.takeEntry
  split
  · exact h.takeContact _ _ _ _ _ s
  · exact h.refl s

theorem compareInputs (k : Fin 4) (r : Receipt) (v : Vector Bool 48) (s : State) :
    R s (Machine.compareInputs k r v s) := by
  refine h.side.foldl _ _ _ fun u j _ => ?_
  unfold compareInput
  dsimp only
  split
  · exact h.takeContact _ _ _ _ _ u
  · exact h.refl u

theorem takeAnswer (k : Fin 4) (a : Answer) (r : Receipt) (s : State) : R s (Machine.takeAnswer k a r s) := by
  unfold Machine.takeAnswer
  dsimp only
  refine h.back (h.takeButtons k _ _) (h.back (h.compareInputs k r _ _) (h.back (h.onlyIf _ _ _ ?_) (h.side.foldl _ _ _ fun u e _ => h.takeEntry k r _ u e)))
  exact h.back (h.offerLink _ _) (h.putLink k _ _)

/-! ## DONE writes -/

theorem setEngine (e : Engine) (s : State) : R s { s with engine := e } := h.quiet rfl rfl

theorem raiseAlert (s : State) : R s s.raiseAlert := h.quiet rfl rfl

/-- A DONE write into a slot whose bytes `A` names (R169). -/
theorem finish (n : Fin 16) (r : Result) (d : List Byte) (s : State) (hn : ∀ i < 32, A (slotBase n + i)) :
    R s (Machine.finish n r d s) := by
  have hl : (resultData d).length = 24 := by
    simp only [resultData, List.length_take, List.length_append, List.length_replicate]; omega
  unfold Machine.finish
  dsimp only
  refine h.back (h.raiseAlert _) (h.back (h.word 20 _ _ (by decide) (by decide)) (h.back (h.setEngine _ _)
    (h.back (h.side.putWords _ _ fun c hc => ?_) (h.side.putBytes _ _ s fun i hi => ?_))))
  · simp only [List.mem_cons, List.not_mem_nil, or_false] at hc
    rcases hc with rfl | rfl
    · exact ⟨hn 6 (by omega), by rw [Nat.add_assoc]; exact hn 7 (by omega)⟩
    · exact ⟨hn 0 (by omega), hn 1 (by omega)⟩
  · rw [Nat.add_assoc]; exact hn _ (by omega)

/-- `A` names the slots of the orders in flight on the links. -/
def linkSlots (A : Nat → Prop) (s : State) : Prop :=
  ∀ k, ∀ x ∈ (nth s.links k).restart, ∀ i < 32, A (slotBase x.1 + i)

theorem finishRestart (k : Fin 4) (r : Result) (s : State)
    (hn : ∀ x ∈ (nth s.links k).restart, ∀ i < 32, A (slotBase x.1 + i)) : R s (Machine.finishRestart k r s) := by
  unfold Machine.finishRestart
  dsimp only
  split
  · exact h.refl s
  · next x e => exact h.back (h.finish _ _ _ _ (hn x e)) (h.putLink k _ s)

end AnyClosed

end Sys2Proof.Machine
end

