-- ==== Sys2Proof/Laws/Events.lean ====
section
/-! SUPPORT. The relation of Reach, carried through the orders, the walks, the segment reads, the journal's own events and
every command that is no reset and no host write. -/

namespace Sys2Proof.Machine

namespace AnyClosed

variable {A : Nat → Prop} {R : State → State → Prop} (h : AnyClosed A R) (hs : ∀ a, 256 ≤ a → a < 768 → A a)
include h

/-! ## Orders of the alarm side -/

theorem setClasses (v : Vector ChatterClass 4) (s : State) : R s { s with classes := v } := h.quiet rfl rfl

theorem setPoints (v : Vector Point 256) (s : State) : R s { s with points := v } := h.quiet rfl rfl

theorem releaseWeightless (s : State) (p : Fin 256) : R s (Machine.releaseWeightless s p) := by
  unfold Machine.releaseWeightless
  dsimp only
  split
  · exact h.releaseHold p s
  · exact h.refl s

theorem orderSetChatter (d : List Byte) (s : State) : R s (Machine.orderSetChatter d s).1 := by
  unfold Machine.orderSetChatter
  split
  · exact h.refl s
  · dsimp only
    exact h.back (h.endAlarm _) (h.back (h.side.offerInside _ _)
      (h.back (h.side.foldl _ _ _ fun u p _ => h.releaseWeightless u p) (h.setClasses _ s)))

theorem clearMark (p : Fin 256) (s : State) : R s (Machine.clearMark p s) := by
  unfold Machine.clearMark
  split
  · refine h.back (h.side.foldl _ _ _ fun u g _ => ?_) (h.side.setMark _ _ _ trivial)
    unfold unmarkGroup
    dsimp only
    split
    · exact h.side.putGroup _ _ _
    · exact h.refl u
  · exact h.refl s

theorem shelve (p : Fin 256) (s : State) : R s (Machine.shelve p s) := by
  unfold Machine.shelve
  dsimp only
  exact h.back (h.endAlarm _) (h.back (h.clearMark p _) (h.back (h.side.quieten p _ trivial) (h.back (h.side.offerInside _ _)
    (h.back (h.side.showPoint p _ trivial) (h.side.putPoint p _ s trivial)))))

theorem orderShelve (d : List Byte) (s : State) : R s (Machine.orderShelve d s).1 := by
  unfold Machine.orderShelve
  split
  · exact h.refl s
  · split
    · exact h.refl s
    · split
      · exact h.refl s
      · dsimp only
        exact h.shelve _ s

theorem unshelve (p : Fin 256) (s : State) : R s (Machine.unshelve p s) := by
  unfold Machine.unshelve
  dsimp only
  refine h.back (h.endAlarm _) ?_
  split
  · exact h.back (h.side.takeChange p _ _ trivial) (h.back (h.side.offerInside _ _)
      (h.back (h.side.showPoint p _ trivial) (h.side.putPoint p _ s trivial)))
  · exact h.back (h.side.offerInside _ _) (h.back (h.side.showPoint p _ trivial) (h.side.putPoint p _ s trivial))

theorem orderUnshelve (d : List Byte) (s : State) : R s (Machine.orderUnshelve d s).1 := by
  unfold Machine.orderUnshelve
  split
  · exact h.refl s
  · split
    · exact h.unshelve _ s
    · exact h.refl s

theorem orderReadPoint (d : List Byte) (s : State) : R s (Machine.orderReadPoint d s).1 := by
  unfold Machine.orderReadPoint
  split <;> exact h.refl s

theorem orderAction (a : Action) (t : Target) (b : Bool) (s : State) : R s (Machine.orderAction a t b s).1 :=
  h.back (h.endAlarm _) (h.applyAction a t station s)

theorem orderAcknowledge (d : List Byte) (s : State) : R s (Machine.orderAcknowledge d s).1 := by
  unfold Machine.orderAcknowledge
  split
  · exact h.orderAction _ _ _ s
  · split
    · split
      · exact h.refl s
      · exact h.orderAction _ _ _ s
    · exact h.refl s

theorem orderLampTest (d : List Byte) (s : State) : R s (Machine.orderLampTest d s).1 := by
  unfold Machine.orderLampTest
  dsimp only
  split
  · exact h.refl s
  · refine h.side.foldl _ _ _ fun u k _ => ?_
    unfold testPanel
    split
    · exact h.putPanel k _ u
    · exact h.refl u

theorem orderLoadPoints (n : Fin 16) (d : List Byte) (s : State) : R s (Machine.orderLoadPoints n d s).1 := by
  unfold Machine.orderLoadPoints
  split
  · exact h.refl s
  · exact h.setEngine _ s

theorem becomeDisabled (p : Fin 256) (s : State) : R s (Machine.becomeDisabled p s) :=
  h.back (h.clearMark p _) (h.back (h.side.quieten p _ trivial) (h.side.putPoint p _ s trivial))

theorem becomeEnabled (p : Fin 256) (s : State) : R s (Machine.becomeEnabled p s) := by
  unfold Machine.becomeEnabled
  dsimp only
  split
  · exact h.back (h.side.takeChange p _ _ trivial) (h.back (h.side.showPoint p _ trivial) (h.side.putPoint p _ s trivial))
  · exact h.back (h.side.showPoint p _ trivial) (h.side.putPoint p _ s trivial)

theorem stayEnabled (p : Fin 256) (o : Settings) (s : State) : R s (Machine.stayEnabled p o s) := by
  unfold Machine.stayEnabled
  dsimp only
  refine h.back (h.releaseWeightless _ p) ?_
  split
  · refine h.back (h.clearMark p _) ?_
    split
    · exact h.side.showPoint p s trivial
    · exact h.refl s
  · split
    · exact h.side.showPoint p s trivial
    · exact h.refl s

theorem treatPoint (o : Vector Settings 256) (s : State) (p : Fin 256) : R s (Machine.treatPoint o s p) := by
  unfold Machine.treatPoint
  dsimp only
  refine h.back (h.side.rejudgeZone _ _) (h.back (h.side.rejudgeZone _ _) ?_)
  split
  · split
    · exact h.becomeEnabled p s
    · exact h.refl s
  · split
    · exact h.becomeDisabled p s
    · split
      · exact h.back (h.becomeEnabled p _) (h.becomeDisabled p s)
      · exact h.stayEnabled p _ s

theorem rearm (o : FirstOutcome) (g : Fin 16) (s : State) : R s (Machine.rearm o g s) := by
  unfold Machine.rearm
  dsimp only
  split
  · exact h.back (h.side.putGroup _ _ _) (h.back (h.side.offerInside _ _) (h.side.setMark _ _ _ trivial))
  · exact h.back (h.side.putGroup _ _ _) (h.side.offerInside _ _)

theorem setSettle (n : Nat) (s : State) : R s { s with settleWindow := n } := h.quiet rfl rfl

theorem applyPoints (bs : List Byte) (s : State) : R s (Machine.applyPoints bs s) := by
  have h0 := h.back (h.side.offerInside (settingsRecord .loadPoints s.stamp 0 (wordAt bs 0) (wordAt bs 2)
    (wordAt bs 2 / 256) 0) _) (h.setPoints (tab 256 fun p => { nth s.points p with settings := settingsAfter bs s p }) s)
  unfold Machine.applyPoints
  dsimp only
  generalize Machine.offerInside _ _ = v at h0 ⊢
  refine h.back (h.endAlarm _) (h.back (h.side.foldl _ _ _ fun u g _ => ?_)
    (h.back (h.side.foldl _ _ _ fun u p _ => h.treatPoint _ u p) (h.back (h.setSettle _ v) h0)))
  unfold rearmLoad
  split
  · exact h.rearm _ g u
  · exact h.refl u

theorem completePoints (bs : List Byte) (s : State) : R s (Machine.completePoints bs s).1 := by
  unfold Machine.completePoints
  split
  · exact h.refl s
  · dsimp only
    exact h.applyPoints bs s

/-! ## Orders of the links, the matrix and the outputs -/

theorem switchLink (k : Fin 4) (x : Link) (b : Bool) (s : State)
    (hn : ∀ t, R t (Machine.finishRestart k .refusedState t)) : R s (Machine.switchLink k x b s) := by
  unfold Machine.switchLink
  split
  · exact h.changeLink k _ _ s
  · exact h.putLink k x s
  · exact h.putLink k x s
  · dsimp only
    refine h.back (hn _) ?_
    split
    · exact h.back (h.leaveUp k _) (h.changeLink k _ _ s)
    · exact h.changeLink k _ _ s

include hs in
/-- A DONE write, with every slot among the bytes of `A`. -/
theorem done (n : Fin 16) (r : Result) (d : List Byte) (s : State) : R s (Machine.finish n r d s) :=
  h.finish n r d s fun i hi => hs _ (by unfold slotBase; omega) (by unfold slotBase; omega)

include hs in
theorem doneRestart (k : Fin 4) (r : Result) (s : State) : R s (Machine.finishRestart k r s) :=
  h.finishRestart k r s fun x _ i hi => hs _ (by unfold slotBase; omega) (by unfold slotBase; omega)

include hs in
theorem orderSetLink (d : List Byte) (s : State) : R s (Machine.orderSetLink d s).1 := by
  unfold Machine.orderSetLink
  split
  · exact h.refl s
  · split
    · exact h.refl s
    · exact h.back (h.showLink _ _) (h.back (h.offer _ _) (h.switchLink _ _ _ s fun t => h.doneRestart hs _ _ t))

theorem orderRestartLink (n : Fin 16) (d : List Byte) (s : State) : R s (Machine.orderRestartLink n d s).1 := by
  unfold Machine.orderRestartLink
  split
  · exact h.refl s
  · dsimp only
    split
    · exact h.refl s
    · split
      · exact h.refl s
      · dsimp only
        refine h.back (h.showLink _ _) ?_
        split
        · exact h.back (h.leaveUp _ _) (h.changeLink _ _ _ s)
        · exact h.changeLink _ _ _ s

theorem setBank (bk : BankId) (x : Bank) (s : State) : R s (s.setBank bk x) := by
  cases bk <;> exact h.quiet rfl rfl

theorem orderLoadMatrix (n : Fin 16) (d : List Byte) (s : State) : R s (Machine.orderLoadMatrix n d s).1 := by
  unfold Machine.orderLoadMatrix
  split
  · exact h.refl s
  · dsimp only
    have h0 := h.setBank s.standby { state := .loading } s
    generalize s.setBank s.standby { state := .loading } = v at h0 ⊢
    exact h.back (h.showMatrix _) (h.back (h.setEngine _ v) h0)

theorem endMatrix (bk : BankId) (x : Bank) (r : Result) (n : Nat) (s : State) : R s (Machine.endMatrix bk x r n s) :=
  h.back (h.offer _ _) (h.back (h.showMatrix _) (h.setBank bk x s))

theorem completeMatrix (bs : List Byte) (s : State) : R s (Machine.completeMatrix bs s).1 := by
  unfold Machine.completeMatrix
  dsimp only
  split
  · exact h.endMatrix _ _ _ _ s
  · split
    · exact h.endMatrix _ _ _ _ s
    · exact h.endMatrix _ _ _ _ s

theorem orderSwitchBank (s : State) : R s (Machine.orderSwitchBank s).1 := by
  unfold Machine.orderSwitchBank
  dsimp only
  split
  · exact h.refl s
  · split
    · exact h.refl s
    · split
      · exact h.refl s
      · dsimp only
        refine h.back (h.offer _ _) (h.back (h.side.foldl _ _ _ fun u i _ => ?_)
          (h.back (h.showMatrix _) (h.back (h.showActive _) (h.quiet rfl rfl))))
        unfold showNewCount
        dsimp only
        split
        · exact h.refl u
        · exact h.back (h.showInput i _) (h.quiet rfl rfl)

theorem orderSetProfiles (d : List Byte) (s : State) : R s (Machine.orderSetProfiles d s).1 := by
  unfold Machine.orderSetProfiles
  split
  · exact h.refl s
  · exact h.refl s
  · exact h.refl s
  · dsimp only
    refine h.back (h.offer _ _) (h.back (h.side.foldl _ _ _ fun u o _ => ?_)
      (h.back (h.side.foldl _ _ _ fun u p _ => h.showProfile p u) (h.quiet rfl rfl)))
    unfold applyProfile
    dsimp only
    refine h.back (h.supervise o _) ?_
    split
    · exact h.putOutput o _ u
    · exact h.back (h.showOutput o _) (h.putOutput o _ u)

theorem orderRemoteTrip (d : List Byte) (s : State) : R s (Machine.orderRemoteTrip d s).1 := by
  unfold Machine.orderRemoteTrip
  dsimp only
  split
  · exact h.refl s
  · exact h.side.foldl _ _ _ fun u o _ => h.risingDrive o _ u

theorem orderResetLockout (d : List Byte) (s : State) : R s (Machine.orderResetLockout d s).1 := by
  unfold Machine.orderResetLockout
  dsimp only
  split
  · exact h.refl s
  · refine h.side.foldl _ _ _ fun u o _ => ?_
    unfold resetOutput
    split
    · exact h.deenergize o _ u
    · exact h.refl u

theorem isolate (k : OrderKind) (v : Bool) (m : Nat) (s : State) : R s (Machine.isolate k v m s) := by
  unfold Machine.isolate
  dsimp only
  refine h.back (h.offer _ _) (h.side.foldl _ _ _ fun u o _ => ?_)
  unfold setIsolated
  dsimp only
  refine h.back (h.supervise o _) ?_
  split
  · exact h.putOutput o _ u
  · exact h.back (h.showOutput o _) (h.putOutput o _ u)

theorem orderIsolate (d : List Byte) (s : State) : R s (Machine.orderIsolate d s).1 := by
  unfold Machine.orderIsolate
  dsimp only
  split
  · exact h.refl s
  · split
    · exact h.refl s
    · exact h.isolate _ _ _ s

theorem orderRestore (d : List Byte) (s : State) : R s (Machine.orderRestore d s).1 := by
  unfold Machine.orderRestore
  dsimp only
  split
  · exact h.refl s
  · split
    · exact h.refl s
    · exact h.isolate _ _ _ s

/-! ## Orders of the Time Base, the journal and the Order Engine -/

theorem setTime (d m : Nat) (b : Bool) (s : State) : R s (Machine.setTime d m b s) := by
  unfold Machine.setTime
  dsimp only
  refine h.back (h.offerClock _ _) (h.back (h.showClock _) ?_)
  split
  · exact h.back (h.reportCondition _ _ _) (h.back (h.offerClock _ _) (h.quiet rfl rfl))
  · exact h.quiet rfl rfl

theorem orderSetTime (d : List Byte) (s : State) : R s (Machine.orderSetTime d s).1 := by
  unfold Machine.orderSetTime
  split
  · exact h.refl s
  · exact h.setTime _ _ _ s

theorem orderSetJournal (d : List Byte) (s : State) : R s (Machine.orderSetJournal d s).1 := by
  unfold Machine.orderSetJournal
  dsimp only
  split
  · exact h.refl s
  · exact h.back (h.offer _ _) (h.back (h.showJournalSettings _) (h.still _ _ rfl rfl (by exact pageFrom_same rfl)))

theorem changePart (k : OrderKind) (p : PartState) (s : State) : R s (Machine.changePart k p s) :=
  h.back (h.offer _ _) (h.back (h.showPart _) (h.setEngine _ s))

theorem orderEnterService (s : State) : R s (Machine.orderEnterService s).1 := by
  unfold Machine.orderEnterService
  split
  · exact h.refl s
  · split
    · exact h.refl s
    · split
      · exact h.refl s
      · exact h.changePart _ _ s

theorem orderLeaveService (s : State) : R s (Machine.orderLeaveService s).1 := by
  unfold Machine.orderLeaveService
  split
  · exact h.refl s
  · split
    · exact h.refl s
    · exact h.changePart _ _ s

theorem changeLocks (k : OrderKind) (w : Nat) (e : Engine) (s : State) : R s (Machine.changeLocks k w e s) :=
  h.back (h.offer _ _) (h.back (h.showPart _) (h.setEngine e s))

theorem orderLock (d : List Byte) (s : State) : R s (Machine.orderLock d s).1 := by
  unfold Machine.orderLock
  dsimp only
  split
  · split
    · exact h.refl s
    · exact h.changeLocks _ _ _ s
  · split
    · split
      · exact h.refl s
      · exact h.changeLocks _ _ _ s
    · exact h.refl s

theorem orderUnlock (s : State) : R s (Machine.orderUnlock s).1 := by
  unfold Machine.orderUnlock
  dsimp only
  split
  · exact h.changeLocks _ _ _ s
  · exact h.refl s

/-! ## The journal's pages -/

theorem setJournal (j : Journal) (s : State) (hj : pageFrom s.journal j) : R s { s with journal := j } :=
  h.still s _ rfl rfl hj

theorem handBack (c : CloseCause) (f : Filling) (s : State) (hf : ∀ a, 256 * f.page ≤ a → A a) : R s (Machine.handBack c f s) := by
  have h0 : R s ((s.putBytes (256 * f.page) (headerBytes f c)).putMapState f.entry 3) :=
    h.back (h.side.putMapState _ _ _) (h.side.putBytes _ _ s fun i _ => hf _ (by omega))
  unfold Machine.handBack
  dsimp only
  generalize (s.putBytes (256 * f.page) (headerBytes f c)).putMapState f.entry 3 = v at h0 ⊢
  exact h.back (h.side.showQueue _) (h.back (h.side.showFilling _) (h.back
    (h.setJournal _ v fun g hg => by simp at hg) h0))

theorem countClosed (s : State) : R s (Machine.countClosed s) :=
  h.back (h.raiseAlert _) (h.back (h.word 18 _ _ (by decide) (by decide)) (h.setEngine _ s))

theorem closePage (c : CloseCause) (f : Filling) (s : State) (hf : ∀ a, 256 * f.page ≤ a → A a) :
    R s (Machine.closePage Machine.reportNow c f s) :=
  h.back (h.attempt _) (h.back (h.countClosed _) (h.handBack c f s hf))

theorem writeEvent (s : State) (w : pageOk A s) : R s (Machine.writeEvent Machine.reportNow s) := by
  have h1 := h.writeHead s w
  have h2 := (h.paged.writeHead s w w).1
  unfold Machine.writeEvent
  dsimp only
  split
  · next f e =>
    split
    · exact h.back (h.closePage _ f _ (h2 f e)) h1
    · exact h1
  · exact h1

theorem orderFlushJournal (s : State) (w : pageOk A s) : R s (Machine.orderFlushJournal s).1 := by
  unfold Machine.orderFlushJournal
  split
  · exact h.refl s
  · next f e => exact h.closePage _ f s (w f e)

/-! ## Takes and walks -/

include hs in
theorem applyOrder (k : OrderKind) (n : Fin 16) (d : List Byte) (s : State) (w : pageOk A s) :
    R s (Machine.applyOrder k n d s).1 := by
  cases k
  · exact h.orderLoadPoints n d s
  · exact h.orderSetChatter d s
  · exact h.orderShelve d s
  · exact h.orderUnshelve d s
  · exact h.orderReadPoint d s
  · exact h.orderAcknowledge d s
  · exact h.orderAction _ _ _ s
  · exact h.orderAction _ _ _ s
  · exact h.orderLampTest d s
  · exact h.orderSetLink hs d s
  · exact h.orderRestartLink n d s
  · exact h.orderLoadMatrix n d s
  · exact h.orderSwitchBank s
  · exact h.orderSetProfiles d s
  · exact h.orderRemoteTrip d s
  · exact h.orderResetLockout d s
  · exact h.orderIsolate d s
  · exact h.orderRestore d s
  · exact h.orderSetTime d s
  · exact h.orderSetJournal d s
  · exact h.orderFlushJournal s w
  · exact h.orderEnterService s
  · exact h.orderLeaveService s
  · exact h.orderLock d s
  · exact h.orderUnlock s

include hs in
/-- A take. -/
theorem takeSlot (n : Fin 16) (s : State) (w : pageOk A s) : R s (Machine.takeSlot n s) := by
  have h0 : R s (s.putWord (slotBase n) 2) :=
    h.side.putWord _ _ s (hs _ (by unfold slotBase; omega) (by unfold slotBase; omega))
      (hs _ (by unfold slotBase; omega) (by unfold slotBase; omega))
  have w0 : pageOk A (s.putWord (slotBase n) 2) := w
  unfold Machine.takeSlot
  dsimp only
  generalize s.putWord (slotBase n) 2 = u at h0 w0
  have h1 : R u (judgeOrder (s.mem.readWord (slotBase n + 2)).toNat n (s.mem.readBytes (slotBase n + 8) 24) u).1 := by
    unfold judgeOrder
    split
    · exact h.refl u
    · split
      · exact h.refl u
      · split
        · exact h.refl u
        · exact h.applyOrder hs _ n _ u w0
  unfold endTake
  split
  · exact h.back (h.done hs n _ _ _) (h.back h1 h0)
  · exact h.back h1 h0

include hs in
theorem walkSlot (s : State) (n : Fin 16) (w : pageOk A s) : R s (Machine.walkSlot s n) := by
  unfold Machine.walkSlot
  dsimp only
  split
  · exact h.back (h.setEngine _ (Machine.takeSlot n s)) (h.takeSlot hs n s w)
  · exact h.refl s

include hs in
theorem walk (s : State) (w : pageOk A s) : R s (Machine.walk s) := by
  have h1 : Machine.paged A R s (Machine.walk s) := h.paged.side.foldl _ _ _ fun u n _ w' => h.paged.walkSlot hs u n w' w'
  exact (h1 w).2

include hs in
theorem noticeWalk (s : State) (w : pageOk A s) : R s (Machine.noticeWalk s) := by
  unfold Machine.noticeWalk
  split
  · exact h.refl s
  · exact h.walk hs s w

theorem retryOpening (s : State) : R s (Machine.retryOpening s) := by
  unfold Machine.retryOpening
  split
  · exact h.attempt s
  · exact h.refl s

theorem leaveStarting (s : State) : R s (Machine.leaveStarting s) := by
  unfold Machine.leaveStarting
  split
  · exact h.back (h.raiseAlert _) (h.back (h.showPart _) (h.setEngine _ s))
  · exact h.refl s

/-! ## Segment reads and answers -/

theorem setJob (o : ImageOrder) (j : Option ImageJob) (s : State) : R s (s.setJob o j) := by
  cases o <;> exact h.quiet rfl rfl

include hs in
theorem readSegment (o : ImageOrder) (j : ImageJob) (s : State) : R s (Machine.readSegment o j s) := by
  have h1 : ∀ r d, R s (refuseChain o r d s).1 := by
    intro r d
    cases o
    · exact h.refl s
    · exact h.endMatrix _ _ _ _ s
  have h2 : ∀ bs, R s (completeImage o bs s).1 := by
    intro bs
    cases o
    · exact h.completePoints bs s
    · exact h.completeMatrix bs s
  unfold Machine.readSegment
  dsimp only
  split
  · exact h.back (h.done hs _ _ _ _) (h.back (h.setJob o none _) (h1 _ _))
  · split
    · exact h.back (h.done hs _ _ _ _) (h.back (h.setJob o none _) (h2 _))
    · exact h.setJob o _ s

include hs in
theorem linkUp (k : Fin 4) (a : Answer) (r : Receipt) (s : State) : R s (Machine.linkUp k a r s) := by
  unfold Machine.linkUp
  dsimp only
  exact h.back (h.doneRestart hs k _ _) (h.back (h.putLink k _ _) (h.back (h.reportNow _ _) (h.back (h.recovered k r _)
    (h.back (h.compareInputs k r _ _) (h.changeLink k _ _ s)))))

include hs in
theorem validAnswer (k : Fin 4) (a : Answer) (r : Receipt) (s : State) : R s (Machine.validAnswer k a r s) := by
  unfold Machine.validAnswer
  dsimp only
  refine h.back (h.showLink k _) ?_
  split
  · split
    · exact h.linkUp hs k a r s
    · exact h.putLink k _ s
  · exact h.back (h.takeAnswer k a r _) (h.putLink k _ s)
  · exact h.changeLink k _ _ s
  · exact h.refl s

/-! ## Every command but the resets and the host's writes -/

/-- The commands that are neither a reset nor a host write of the exchange memory. -/
def inner : Instr → Bool
  | .powerOnReset | .resetLine | .hostWordWrite _ _ => false
  | _ => true

include hs in
/-- The relation is kept by every such command. -/
theorem exec (c : Instr) (s t : State) (hc : inner c = true) (w : pageOk A s) (he : Machine.exec c s = .next t) : R s t := by
  have ho : ∀ (o : Fin 24) (x : Output), R s (Machine.putOutput o x s) := fun o x => h.putOutput o x s
  cases c <;> simp only [inner, Bool.false_eq_true] at hc <;> simp only [Machine.exec] at he
  case notice v o =>
    cases o <;> simp only [execNotice, Host.Outcome.next.injEq] at he <;> subst he
    · exact h.back (h.retryOpening _) (h.noticeWalk hs s w)
    · exact h.back (h.noticeWalk hs _ (h.paged.retryOpening s w).1) (h.retryOpening s)
  case alertClear v =>
    simp only [execAlertClear, Host.Outcome.next.injEq] at he; subst he
    refine h.back (h.words _ _ fun c hc => ?_) (h.setEngine _ s)
    simp only [List.mem_cons, List.not_mem_nil, or_false] at hc
    rcases hc with rfl | rfl | rfl | rfl <;> constructor <;> (simp only [partByte]; omega)
  case discardedRegisterWrite r l v =>
    simp only [execDiscardedRegisterWrite, Host.Outcome.next.injEq] at he; subst he; exact h.refl s
  case orderTableWalk =>
    simp only [execOrderTableWalk, Host.Outcome.next.injEq] at he; subst he
    split
    · refine h.back (h.walk hs _ ?_) (h.back (h.leaveStarting _) (h.quiet rfl rfl))
      have h1 : Machine.paged A R s _ := h.paged.back (h.paged.leaveStarting
        { s with sched := { s.sched with walkFrom := s.now + 1 } }) (h.paged.quiet rfl rfl)
      exact (h1 w).1
    · exact h.refl s
  case segmentRead o =>
    simp only [execSegmentRead, Host.Outcome.next.injEq] at he; subst he
    split
    · exact h.refl s
    · split
      · exact h.readSegment hs o _ s
      · exact h.refl s
  case scanFrame k =>
    simp only [execScanFrame, Host.Outcome.next.injEq] at he; subst he
    split
    · exact h.back (h.showLink k _) (h.putLink k _ s)
    · exact h.refl s
  case answerReceipt k b =>
    simp only [execAnswerReceipt, Host.Outcome.next.injEq] at he; subst he
    split
    · exact h.putLink k _ s
    · exact h.refl s
  case answerLimit k b =>
    simp only [execAnswerLimit, Host.Outcome.next.injEq] at he; subst he
    split
    · split
      · exact h.back (h.missScan k _ _) (h.putLink k _ s)
      · exact h.back (h.validAnswer hs k _ _ _) (h.putLink k _ s)
    · exact h.refl s
  case restartLinkDeadline k =>
    simp only [execRestartLinkDeadline, Host.Outcome.next.injEq] at he; subst he
    split
    · exact h.refl s
    · split
      · exact h.back (h.showLink k _) (h.doneRestart hs k _ s)
      · exact h.refl s
  case pendingChangeDeadline p =>
    simp only [execPendingChangeDeadline, Host.Outcome.next.injEq] at he; subst he
    split
    · split
      · exact h.back (h.endAlarm _) (h.side.accept p _ s trivial)
      · exact h.refl s
    · exact h.refl s
  case leakStep =>
    simp only [execLeakStep, Host.Outcome.next.injEq] at he; subst he
    split
    · exact h.back (h.leak _) (h.quiet rfl rfl)
    · exact h.refl s
  case settleDeadline g =>
    simp only [execSettleDeadline, Host.Outcome.next.injEq] at he; subst he
    split
    · exact h.back (h.endAlarm _) (h.side.latch g s fun _ _ => trivial)
    · exact h.refl s
  case buttonTestEnd k =>
    simp only [execButtonTestEnd, Host.Outcome.next.injEq] at he; subst he
    split
    · exact h.putPanel k _ s
    · exact h.refl s
  case orderTestEnd k =>
    simp only [execOrderTestEnd, Host.Outcome.next.injEq] at he; subst he
    split
    · exact h.putPanel k _ s
    · exact h.refl s
  case ringbackToneCycle z =>
    simp only [execRingbackToneCycle, Host.Outcome.next.injEq] at he; subst he
    split
    · exact h.refl s
    · split
      · exact h.quiet rfl rfl
      · exact h.refl s
  case tripInputSample l =>
    simp only [execTripInputSample, Host.Outcome.next.injEq] at he; subst he
    split
    · exact h.back (h.side.foldl _ _ _ fun u i _ => h.sampleInput l u i) (h.quiet rfl rfl)
    · exact h.refl s
  case tripInputQualified i =>
    simp only [execTripInputQualified, Host.Outcome.next.injEq] at he; subst he
    split
    · exact h.qualify i s
    · exact h.refl s
  case onTimerExpiry o =>
    simp only [execOnTimerExpiry, Host.Outcome.next.injEq] at he; subst he
    split
    · exact h.expireOnTimer o s
    · exact h.refl s
  case feedbackSample c1 c2 =>
    simp only [execFeedbackSample, Host.Outcome.next.injEq] at he; subst he
    split
    · exact h.back (h.side.foldl _ _ _ fun u o _ => h.sampleOutput c1 c2 u o) (h.quiet rfl rfl)
    · exact h.refl s
  case operateDeadline o =>
    simp only [execOperateDeadline, Host.Outcome.next.injEq] at he; subst he
    split
    · exact h.changeFault o _ _ s
    · exact h.refl s
  case releaseDeadline o =>
    simp only [execReleaseDeadline, Host.Outcome.next.injEq] at he; subst he
    split
    · exact h.changeFault o _ _ s
    · exact h.refl s
  case openDeadline o =>
    simp only [execOpenDeadline, Host.Outcome.next.injEq] at he; subst he
    split
    · exact h.changeFault o _ _ s
    · exact h.refl s
  case clearDeadline o =>
    simp only [execClearDeadline, Host.Outcome.next.injEq] at he; subst he
    split
    · exact h.changeFault o _ _ s
    · exact h.refl s
  case supplySample b =>
    simp only [execSupplySample, Host.Outcome.next.injEq] at he; subst he
    split
    · exact h.back (h.sampleSupply b _) (h.quiet rfl rfl)
    · exact h.refl s
  case supplyLost =>
    simp only [execSupplyLost, Host.Outcome.next.injEq] at he; subst he
    split
    · exact h.loseSupply s
    · exact h.refl s
  case supplySettleDeadline =>
    simp only [execSupplySettleDeadline, Host.Outcome.next.injEq] at he; subst he
    split
    · exact h.settleSupply s
    · exact h.refl s
  case syncPulse =>
    simp only [execSyncPulse, Host.Outcome.next.injEq] at he; subst he
    split
    · exact h.refl s
    · split
      · exact h.back (h.judgePulse _) (h.quiet rfl rfl)
      · exact h.quiet rfl rfl
  case syncMissDeadline =>
    simp only [execSyncMissDeadline, Host.Outcome.next.injEq] at he; subst he
    split
    · split
      · exact h.back (h.showClock _) (h.quiet rfl rfl)
      · exact h.back (h.raiseSyncFault _ _) (h.quiet rfl rfl)
    · exact h.refl s
  case journalRescan =>
    simp only [execJournalRescan, Host.Outcome.next.injEq] at he; subst he
    split
    · exact h.back (h.retryOpening _) (h.quiet rfl rfl)
    · exact h.refl s
  case recordWrite =>
    simp only [execRecordWrite, Host.Outcome.next.injEq] at he; subst he
    split
    · exact h.writeEvent s w
    · exact h.refl s
  case flushDeadline =>
    simp only [execFlushDeadline, Host.Outcome.next.injEq] at he; subst he
    split
    · exact h.refl s
    · next f e =>
      split
      · exact h.closePage _ f s (w f e)
      · exact h.refl s
  case runTimeRise =>
    simp only [execRunTimeRise, Host.Outcome.next.injEq] at he; subst he
    exact h.quiet rfl rfl

end AnyClosed

/-! ## Relations of this kind -/

/-- Memory keeps its form, and changes at bytes of `A` only. -/
theorem memoryReach_any {A : Nat → Prop} (hA : ∀ a, partByte a → A a) : AnyClosed A (MemoryReach A) where
  refl _ := ⟨id, fun _ _ => rfl⟩
  trans h k := ⟨fun w => k.wf (h.wf w), fun a ha => (k.same a ha).trans (h.same a ha)⟩
  write _ a v ha := ⟨fun w => Memory.wf_write a v w, fun _ hb => Memory.read_write_other v (fun e => hb (e ▸ ha))⟩
  still _ _ e _ _ := ⟨fun w => e ▸ w, fun a _ => by rw [e]⟩
  part := hA

/-- The queue of commands is left as it is. -/
theorem pending_any : AnyClosed (fun _ => True) (fun s t => t.pending = s.pending) where
  refl _ := rfl
  trans h k := k.trans h
  write _ _ _ _ := rfl
  still _ _ _ e _ := e
  part _ _ := trivial

end Sys2Proof.Machine
end

