-- ==== Sys2Proof/WellFormed.lean ====
section
/-! DEFINITION. Which commands the hall and the host can send.  Almost every bound of the spec is already in an
operand's type; what is left is how many bytes an answer window can hold. -/

namespace Sys2Proof

/-- The most bytes that can be received in one answer window: the window is open 2 ms (R62) and a byte takes 11 bits
at 460,800 bit/s (R61), so 83 bytes end within it (log entry 25). -/
def answerWindowBytes : Nat := 2 * 460800 / 1000 / 11

/-- The check of one command. -/
def Instr.wellFormed : Instr → Bool
  | .powerOnReset => true
  | .resetLine => true
  | .notice _ _ => true
  | .alertClear _ => true
  | .discardedRegisterWrite _ _ _ => true
  | .hostWordWrite _ _ => true
  | .orderTableWalk => true
  | .segmentRead _ => true
  | .scanFrame _ => true
  | .answerReceipt _ bytes => decide (bytes.length ≤ answerWindowBytes)
  | .answerLimit _ rest => decide (rest.length ≤ answerWindowBytes)
  | .restartLinkDeadline _ => true
  | .pendingChangeDeadline _ => true
  | .leakStep => true
  | .settleDeadline _ => true
  | .buttonTestEnd _ => true
  | .orderTestEnd _ => true
  | .ringbackToneCycle _ => true
  | .tripInputSample _ => true
  | .tripInputQualified _ => true
  | .onTimerExpiry _ => true
  | .feedbackSample _ _ => true
  | .operateDeadline _ => true
  | .releaseDeadline _ => true
  | .openDeadline _ => true
  | .clearDeadline _ => true
  | .supplySample _ => true
  | .supplyLost => true
  | .supplySettleDeadline => true
  | .syncPulse => true
  | .syncMissDeadline => true
  | .journalRescan => true
  | .recordWrite => true
  | .flushDeadline => true
  | .runTimeRise => true

end Sys2Proof
end

