-- ==== Sys2Proof/Tests/Slice0.lean ====
section
/-! SUPPORT. Tests: the checks of WellFormed, one-step tests whose expected values are the manual's, and for every
statement with hypotheses a state and operands that meet them, clause by clause. -/

set_option Elab.async false

namespace Sys2Proof.Tests

open Sys2Proof Sys2Proof.Machine

/-! ## Small states -/

/-- The reset state over a memory of zeros. -/
def bare : State := { State.reset with mem := [] }

/-- A state at a run time. -/
def atTime (n : Nat) (s : State) : State := { s with time := { s.time with run := n } }

/-- A state in a part state. -/
def inPart (p : PartState) (s : State) : State := { s with engine := { s.engine with part := p } }

/-- A state with the two locks given. -/
def locked (service commissioning : Bool) (s : State) : State :=
  { s with engine := { s.engine with service := service, commissioning := commissioning } }

/-- A state with a slot's state, kind and parameters written. -/
def posted (n : Fin 16) (kind : Nat) (d : List Byte) (s : State) : State :=
  let m := (s.mem.writeWord (slotBase n) 1).writeWord (slotBase n + 2) (word kind)
  { s with mem := m.writeBytes (slotBase n + 8) (resultData d) }

/-- A state with words of memory written. -/
def wrote (ws : List (Nat × Word)) (s : State) : State := { s with mem := s.mem.writeWords ws }

def withPoint (p : Fin 256) (x : Point) (s : State) : State := { s with points := upd s.points p x }
def withOutput (o : Fin 24) (x : Output) (s : State) : State := { s with outputs := upd s.outputs o x }
def withInput (i : Fin 32) (x : TripInput) (s : State) : State := { s with inputs := upd s.inputs i x }
def withLink (k : Fin 4) (l : Link) (s : State) : State := { s with links := upd s.links k l }
def withGroup (g : Fin 16) (x : Group) (s : State) : State := { s with groups := upd s.groups g x }

/-- The state after a command that gives one. -/
def after (c : Instr) (s : State) : State :=
  match exec c s with
  | .next t => t
  | _ => s

/-- A journal with this many records staged. -/
def staged (n : Nat) (s : State) : State :=
  { s with journal := { s.journal with queue := List.replicate n { powerOnRestart with seq := 3 } } }

/-- A journal with a page FILLING. -/
def onPage (f : Filling) (s : State) : State :=
  { s with journal := { s.journal with waiting := false, filling := some f } }

/-- A journal with no record staged and no page FILLING. -/
def quietJournal (s : State) : State :=
  { s with journal := { s.journal with queue := [], waiting := false, filling := none } }

/-- A long order in flight. -/
def loadingPoints (j : ImageJob) (s : State) : State := { s with engine := { s.engine with loadPoints := some j } }
def loadingMatrix (j : ImageJob) (s : State) : State := { s with engine := { s.engine with loadMatrix := some j } }

/-- An enabled point whose contact closed at 40, with a pending change to this deadline. -/
def pendingPoint (d : Nat) : Point :=
  { settings := { enabled := true }, contact := .closed, waiting := some ⟨true, d, 40, {}, false⟩ }

/-- A point in ALERT. -/
def alertPoint : Point := { settings := { enabled := true }, accepted := true, contact := .closed, seq := .alert }

/-- A matrix bank whose input 0 drives output 0 with count 3. -/
def drivingBank : Bank := { state := .valid, entries := upd (Vector.replicate 32 {}) 0 { mask := 1, q := 3 } }

/-- Bank A active, input 0 active, output 0 driven. -/
def driving (s : State) : State :=
  withInput 0 { level := true, qualified := true, qShown := 3 } { s with bankA := drivingBank, active := some .a }

/-- The bytes of an answer of panel 1, in order: inputs 1 (closed), no button, no change entry, check word (section
11.11). -/
def plainAnswer (seq : Byte) : List RxByte :=
  [0x5A, 1, seq, 2, 0, 0, 0, 0, 0, 0, 0, byte (3 + seq.toNat), 0].map fun b => { value := b }

/-! ## WellFormed, the table word -/

theorem test_answer_receipt_of_84_bytes_is_refused :
    (Instr.answerReceipt 0 (List.replicate 84 { value := 0 })).wellFormed = false := by decide
theorem test_answer_receipt_of_83_bytes_is_accepted :
    (Instr.answerReceipt 0 (List.replicate 83 { value := 0 })).wellFormed = true := by decide
theorem test_answer_limit_of_84_bytes_is_refused :
    (Instr.answerLimit 3 (List.replicate 84 { value := 0 })).wellFormed = false := by decide
theorem test_answer_limit_of_83_bytes_is_accepted :
    (Instr.answerLimit 3 (List.replicate 83 { value := 0 })).wellFormed = true := by decide
theorem test_no_word_spells_a_command : decodeTableWord 16 0x1234 = none := by decide

/-! ## One step, expected values from the manual -/

/-- R162, section 11.2: after power-on STARTING, no ALERT, no lock, journal WAITING, VALID clear. -/
theorem test_condition_after_reset : State.reset.condition = 0x20 := by decide +kernel
/-- R181: only the low three bits of a register word address count, and ALERT CLEAR reads 0. -/
theorem test_register_address_low_bits :
    State.reset.readRegister 0x7FF9 = 0x20 ∧ State.reset.readRegister 2 = 0 ∧ registerWrite 10 5 .walkFirst = .alertClear 5
    := by decide +kernel
/-- Section 11.4: the part code at byte 2. -/
theorem test_identity_part_code : State.reset.mem.readWord 2 = 2416 := by decide +kernel
/-- Section 11.9, R86: with no active bank every q in force is 1, run counts 0. -/
theorem test_input_counts_after_reset : State.reset.mem.readWord (1536 + 96 + 30) = 0x1010 := by decide +kernel
/-- R178: a power-on reset in service gives the reset part state. -/
theorem test_power_on_reset_leaves_service :
    (after .powerOnReset (inPart .inService bare)).engine.part = .starting := by decide +kernel
/-- R179: the reset line keeps the commissioning lock and clears the service lock. -/
theorem test_reset_line_keeps_commissioning_lock :
    let t := after .resetLine (locked true true bare)
    t.engine.commissioning = true ∧ t.engine.service = false := by decide +kernel
/-- R161: a notice in STARTING makes no walk. -/
theorem test_notice_in_starting_takes_no_slot :
    (after (.notice 0 .walkFirst) (posted 0 25 [] bare)).mem.readWord 256 = 1 := by decide +kernel
/-- R161: a notice out of STARTING takes a posted slot, which reads DONE. -/
theorem test_notice_takes_posted_slot :
    (after (.notice 0 .journalFirst) (posted 2 25 [] (inPart .standby bare))).mem.readWord (256 + 64) = 3 := by
  decide +kernel
/-- R164: the seen count of pages takes the value of the pages-closed count. -/
theorem test_alert_clear_takes_seen_count :
    (after (.alertClear 9) { bare with engine := { bare.engine with pagesClosed := 7, alert := true } }).mem.readWord 22
      = 7 := by decide +kernel
/-- R162: a write of CONDITION changes nothing. -/
theorem test_condition_write_is_discarded :
    (after (.discardedRegisterWrite .condition 5 0xFFFF) State.reset).condition = 0x20 := by decide +kernel
/-- R160: the lower-addressed byte of a word is the less significant. -/
theorem test_host_write_is_little_endian :
    let t := after (.hostWordWrite 0x400 0x1234) bare
    t.mem.read 0x800 = 0x34 ∧ t.mem.read 0x801 = 0x12 := by decide +kernel
/-- R167, R173: the walk at 20 ms ends STARTING. -/
theorem test_first_walk_ends_starting :
    (after .orderTableWalk (atTime 20 bare)).engine.part = .standby := by decide +kernel
/-- R167: no walk falls off the 20 ms schedule. -/
theorem test_no_walk_at_19 : (after .orderTableWalk (atTime 19 bare)).engine.part = .starting := by decide +kernel
/-- Section 11.11: the first byte of a scan is 0xA5, the control byte of a STARTING link has RESTART set. -/
theorem test_scan_frame_bytes :
    (nth (after (.scanFrame 1) (atTime 1 bare)).links 1).frame.take 4 = [0xA5, 1, 0, 1] := by decide +kernel
/-- R63: an answer window with no byte is a TIMEOUT. -/
theorem test_silent_answer_is_a_timeout :
    (nth (after (.answerLimit 1 []) (withLink 1 { awaiting := true } bare)).links 1).lastError = .timeout := by
  decide +kernel
/-- R63: with the right panel address but another sequence number an answer is a SEQUENCE miss. -/
theorem test_answer_of_another_scan :
    answerFault 1 9 (plainAnswer 8) = some .sequence := by decide +kernel
/-- R62: an answer that is complete notes the run time. -/
theorem test_receipt_is_noted :
    ((nth (after (.answerReceipt 1 (plainAnswer 0)) (atTime 6 (withLink 1 { awaiting := true, limit := 7 } bare))).links 1).receipt.map
      (·.run)) = some 6 := by decide +kernel
/-- R62: a byte at the answer limit is discarded. -/
theorem test_byte_at_the_limit_is_discarded :
    (nth (after (.answerReceipt 1 (plainAnswer 0)) (atTime 7 (withLink 1 { awaiting := true, limit := 7 } bare))).links 1).rx
      = [] := by decide +kernel
/-- R68: the third valid answer brings a STARTING link UP. -/
theorem test_third_answer_brings_link_up :
    (nth (after (.answerLimit 1 (plainAnswer 0)) (withLink 1 { awaiting := true, validRun := 2 } bare)).links 1).state
      = .up := by decide +kernel
/-- R39: the ringback tone is 500 ms on, 1,500 ms off. -/
theorem test_ringback_tone_off_for_1500 :
    (nth (after (.ringbackToneCycle 2) (atTime 500 { bare with
      zones := upd bare.zones 2 { horn := .ringbackTone, line := true, toggle := some 500 } })).zones 2).toggle
      = some 2000 := by decide +kernel
/-- Section 5.2: with q 3, the third sample in a row qualifies. -/
theorem test_third_sample_qualifies :
    let s := withInput 0 { level := true, run := 2, start := some ⟨0, {}⟩ }
      { bare with bankA := drivingBank, active := some .a }
    (nth (after (.tripInputSample 1) (atTime 2 s)).inputs 0).qualified = true := by decide +kernel
/-- R83: a run of 3 that its latest sample compared with 5 qualifies at no count that a SWITCH BANK has brought since. -/
theorem test_run_waits_for_its_next_sample :
    let s := withInput 0 { level := true, run := 3, start := some ⟨0, {}⟩, qSampled := 5 }
      { bare with bankA := drivingBank, active := some .a }
    (nth (after (.tripInputQualified 0) s).inputs 0).qualified = false := by decide +kernel
/-- R100: out of IN_SERVICE the qualified input moves no output. -/
theorem test_output_blocked_out_of_service :
    let s := withInput 0 { level := true, run := 2, start := some ⟨0, {}⟩ }
      { bare with bankA := drivingBank, active := some .a }
    (nth (after (.tripInputSample 1) (atTime 2 (inPart .standby s))).outputs 0).state = .off := by decide +kernel
/-- Section 12.1: a FOLLOW output that is still driven at its expiry stays ON with its minimum time passed. -/
theorem test_follow_expiry_while_driven :
    (nth (after (.onTimerExpiry 0) (atTime 10102 (driving (inPart .inService
      (withOutput 0 { state := .on, onTimer := some 10102 } bare))))).outputs 0).minPassed = true := by decide +kernel
/-- R115: neither line active is OPEN; R117, R120: the open timer runs 500 ms. -/
theorem test_open_circuit_starts_open_timer :
    (nth (after (.feedbackSample 0 0) (atTime 1 bare)).outputs 23).opening = some 501 := by decide +kernel
/-- R120: at its deadline the circuit is CIRCUIT_OPEN. -/
theorem test_open_deadline_sets_fault :
    (nth (after (.openDeadline 23) (atTime 501 (withOutput 23 { opening := some 501 } bare))).outputs 23).fault
      = .circuitOpen := by decide +kernel
/-- R123: the tenth absent sample loses the supply. -/
theorem test_tenth_absent_sample :
    (after (.supplySample false) (atTime 10 { bare with supply := { absence := 9 } })).supply.state = .lost := by
  decide +kernel
/-- R125: the settle time ends in PRESENT. -/
theorem test_supply_settles :
    (after .supplySettleDeadline (atTime 900 { bare with supply := { state := .settling, settle := some 900 } })).supply.state
      = .present := by decide +kernel
/-- R129: 86,400,000 begins the next day, and day 65535 is followed by day 0. -/
theorem test_midnight_after_last_day :
    let t := after .runTimeRise { bare with time := { bare.time with day := 65535, ms := 86399999 } }
    t.time.day = 0 ∧ t.time.ms = 0 := by decide +kernel
/-- Section 8.3: a pulse 400 ms late of the minute steps the time back by 400. -/
theorem test_pulse_steps_back :
    (after .syncPulse { bare with time := { bare.time with ms := 60400, valid := true, syncEnabled := true } }).time.ms
      = 60000 := by decide +kernel
/-- R134: a pulse more than 500 ms from a minute is spurious. -/
theorem test_pulse_at_501_is_spurious :
    (after .syncPulse { bare with time := { bare.time with ms := 60501, valid := true, syncEnabled := true } }).time.spurious
      = 1 := by decide +kernel
/-- R135: the miss timer's deadline is a NO_PULSE fault. -/
theorem test_sync_miss :
    (after .syncMissDeadline (atTime 65000 { bare with time := { bare.time with missTimer := some 65000 } })).time.cause
      = .noPulse := by decide +kernel
/-- R149: a WAITING journal opens a GIVEN entry at the rescan. -/
theorem test_rescan_opens_page :
    (after .journalRescan (atTime 20 (wrote [(768, 20), (770, 1)] bare))).mem.readWord 770 = 2 := by decide +kernel
/-- R151: a record goes to its position behind the header: byte 0 of position 0 is its kind, RESTART. -/
theorem test_record_write_places_record :
    (after .recordWrite (onPage ⟨0, 20, 0, 0, 0, 500⟩ bare)).mem.read (20 * 256 + 16) = 13 := by decide +kernel
/-- R152: the flush deadline closes the page with cause DELAY. -/
theorem test_flush_deadline_closes_page :
    (after .flushDeadline (atTime 500 (staged 0 (onPage ⟨0, 20, 0, 7, 515, 500⟩ bare)))).mem.readWord (20 * 256 + 2)
      = 0x0207 := by decide +kernel
/-- R51: a group latches on its candidate at the settle deadline. -/
theorem test_group_latches :
    let x : Group := { state := .deciding, candidate := some 52, contenders := 9, deadline := some 10039 }
    (nth (after (.settleDeadline 5) (atTime 10039 (withGroup 5 x bare))).groups 5).state = .latched := by decide +kernel
/-- R49: an earlier report of the candidate itself displaces nothing: its raw time stays. -/
theorem test_own_report_displaces_nothing :
    let x : Group := { state := .deciding, candidate := some 52, candidateTime := 100, deadline := some 139 }
    (nth (alertReport 5 52 90 (withGroup 5 x bare)).groups 5).candidateTime = 100 := by decide +kernel
/-- R43, R45: a button test ends. -/
theorem test_button_test_ends :
    (after (.buttonTestEnd 3) (atTime 9 { bare with panels := upd bare.panels 3 { buttonEnd := some 9 } })).testing 3
      = false := by decide +kernel
/-- R45: an order test ends, and a button test goes on. -/
theorem test_order_test_ends_button_test_goes_on :
    (after (.orderTestEnd 3) (atTime 9 { bare with
      panels := upd bare.panels 3 { buttonEnd := some 10, orderEnd := some 9 } })).testing 3 = true := by decide +kernel
/-- R171: a chain that begins at page 6 ends REFUSED_PAGE, code 10. -/
theorem test_segment_in_page_6 :
    (after (.segmentRead .loadPoints)
      (loadingPoints { slot := 3, byteLength := 10, page := 6, nextRead := 0 } bare)).mem.readWord (256 + 96 + 6) = 10 := by
  decide +kernel
/-- R11: the bucket falls by the class's leak. -/
theorem test_leak_step_drains :
    (nth (after .leakStep (atTime 100 (withPoint 7 { settings := { enabled := true }, bucket := 20 } bare))).points 7).bucket
      = 12 := by decide +kernel
/-- R15: a pending change is accepted at its deadline. -/
theorem test_pending_change_accepted :
    (nth (after (.pendingChangeDeadline 7) (atTime 50 (withPoint 7 (pendingPoint 50) bare))).points 7).seq = .alert := by
  decide +kernel
/-- R77: RESTART LINK ends LINK_NO_ANSWER, code 17, at its deadline. -/
theorem test_restart_link_deadline :
    (after (.restartLinkDeadline 2) (atTime 100 (withLink 2 { restart := some (4, 100) } bare))).mem.readWord (256 + 128 + 6)
      = 17 := by decide +kernel

/-! ## Witnesses: a state and operands that meet the hypotheses of each statement -/

theorem witness_StepTakesFrontCommand : ({ bare with pending := [.leakStep, .flushDeadline] } : State).pending
    = .leakStep :: [.flushDeadline] := rfl
theorem witness_AlertClearTakesSeenCopies : bare.mem.wf = true := by decide +kernel
/-- The words just below and just above a slot with an order in flight. -/
theorem witness_HostWriteLandsOrIsDiscarded_lands :
    let s := loadingPoints { slot := 0, byteLength := 1, page := 7, nextRead := 0 } bare
    s.mem.wf = true ∧ s.inFlight 0 = true
    ∧ (∀ n, s.inFlight n = true → 2 * 127 < slotBase n ∨ slotBase n + 32 ≤ 2 * 127)
    ∧ ∀ n, s.inFlight n = true → 2 * 144 < slotBase n ∨ slotBase n + 32 ≤ 2 * 144 := by decide +kernel
/-- The first and the last word of the slot. -/
theorem witness_HostWriteLandsOrIsDiscarded_discarded :
    let s := withLink 0 { restart := some (0, 100) } bare
    s.mem.wf = true ∧ s.inFlight 0 = true
    ∧ slotBase 0 ≤ 2 * (128 : BitVec 15).toNat ∧ 2 * (128 : BitVec 15).toNat < slotBase 0 + 32
    ∧ slotBase 0 ≤ 2 * (143 : BitVec 15).toNat ∧ 2 * (143 : BitVec 15).toNat < slotBase 0 + 32 := by decide +kernel

/-- A page FILLING at entry 0, and a slot TAKEN beside one that is not. -/
def fillingReset : State :=
  wrote [(768, 20), (770, 2), (256, 2), (288, 1)] (onPage ⟨0, 20, 0, 3, 0, 500⟩ bare)
theorem witness_ResetLineKeepsWhatItMust :
    fillingReset.mem.wf = true ∧ (∀ f ∈ fillingReset.journal.filling, 7 ≤ f.page ∧ f.page ≤ 255)
    ∧ fillingReset.mem.readWord (mapBase 0 + 2) ≠ 1
    ∧ fillingReset.mem.readWord (slotBase 0) = 2 ∧ fillingReset.mem.readWord (slotBase 1) ≠ 2 := by
  refine ⟨by decide +kernel, ?_, by decide +kernel, by decide +kernel, by decide +kernel⟩
  intro f hf
  obtain rfl : (⟨0, 20, 0, 3, 0, 500⟩ : Filling) = f := Option.some.inj hf
  decide
/-- Entry 0 GIVEN with page 6, entry 1 GIVEN with page 255. -/
def givenAfterUnusable : State := wrote [(768, 6), (770, 1), (772, 255), (774, 1)] bare
theorem witness_ResetLineKeepsWhatItMust_opens :
    let s := givenAfterUnusable
    s.mem.wf = true ∧ s.journal.filling = none ∧ s.mem.readWord (mapBase 0 + 2) = 1 ∧ (s.mem.readWord (mapBase 0)).toNat < 7
    ∧ s.mem.readWord (mapBase 1 + 2) = 1 ∧ (s.mem.readWord (mapBase 1)).toNat = 255 := by decide +kernel

theorem witness_RecordAdmittedOrCounted_high_admitted :
    (staged 47 bare).journal.queue.length + 1 ≤ 48 ∧ (staged 47 bare).journal.waiting = true := by decide
theorem witness_RecordAdmittedOrCounted_low_admitted :
    (staged 39 fillingReset).journal.queue.length + 9 ≤ 48 ∧ (staged 39 fillingReset).journal.filling ≠ none := by decide
theorem witness_RecordAdmittedOrCounted_high_first_lost :
    48 < (staged 48 bare).journal.queue.length + 1
    ∧ (staged 48 bare).journal.highLost = 0 ∧ (staged 48 bare).journal.lowLost = 0 := by decide
theorem witness_RecordAdmittedOrCounted_low_later_lost :
    let s := { bare with journal := { (staged 40 bare).journal with lowLost := 65535 } }
    48 < s.journal.queue.length + 9 ∧ ¬(s.journal.highLost = 0 ∧ s.journal.lowLost = 0) := by decide
theorem witness_RecordAdmittedOrCounted_waits :
    let s := quietJournal bare
    s.journal.queue = [] ∧ s.journal.filling = none ∧ s.journal.waiting = false ∧ s.mem.wf = true
    ∧ unusableFrom s.mem s.journal.cursor 0 ∧ s.mem.readWord (mapBase (entryAfter s.journal.cursor 0) + 2) ≠ 1 := by
  decide +kernel
theorem witness_RecordAdmittedOrCounted_opens :
    let s := quietJournal givenAfterUnusable
    s.journal.queue = [] ∧ s.journal.filling = none ∧ s.journal.waiting = false ∧ s.mem.wf = true
    ∧ unusableFrom s.mem s.journal.cursor 1 ∧ s.mem.readWord (mapBase (entryAfter s.journal.cursor 1) + 2) = 1
    ∧ (s.mem.readWord (mapBase (entryAfter s.journal.cursor 1))).toNat = 255 ∧ s.journal.highLost = 0
    ∧ s.journal.lowLost = 0 := by decide +kernel

/-- A page FILLING with this many records, and one record staged. -/
def writing (page count : Nat) : State :=
  onPage ⟨0, page, 0, count, 0, 500⟩ bare
theorem witness_RecordWriteMovesHeadIntoPage_no_loss :
    (writing 7 13).mem.wf = true ∧ (writing 7 13).due = [] ∧ (writing 7 13).journal.filling = some ⟨0, 7, 0, 13, 0, 500⟩
    ∧ (writing 7 13).journal.queue = powerOnRestart :: [] ∧ (writing 7 13).journal.highLost = 0
    ∧ (writing 7 13).journal.lowLost = 0 := by decide
theorem witness_RecordWriteMovesHeadIntoPage_loss :
    let s := { writing 255 0 with journal := { (writing 255 0).journal with highLost := 1 } }
    s.mem.wf = true ∧ s.due = [] ∧ s.journal.filling = some ⟨0, 255, 0, 0, 0, 500⟩ ∧ s.journal.queue = powerOnRestart :: []
    ∧ ¬(s.journal.highLost = 0 ∧ s.journal.lowLost = 0) := by decide
theorem witness_PageClosesFullOrAtDeadline_full :
    (writing 255 14).mem.wf = true ∧ (writing 255 14).journal.filling = some ⟨0, 255, 0, 14, 0, 500⟩
    ∧ (writing 255 14).journal.queue = [powerOnRestart] ∧ (writing 255 14).journal.highLost = 0
    ∧ (writing 255 14).journal.lowLost = 0 := by decide
theorem witness_PageClosesFullOrAtDeadline_delay :
    let s := atTime 500 (staged 0 (writing 7 1))
    s.mem.wf = true ∧ s.journal.filling = some ⟨0, 7, 0, 1, 0, 500⟩ ∧ s.journal.queue = [] ∧ 500 ≤ s.now := by decide
/-- The rescan at 20 ms, the entry at the cursor GIVEN with page 255, and not GIVEN. -/
theorem witness_WaitingJournalOpensGivenPage_rescan :
    let s := atTime 20 (wrote [(768, 255), (770, 1)] bare)
    let u := atTime 20 bare
    (s.now % 20 = 0 ∧ s.sched.rescanFrom ≤ s.now) ∧ s.mem.wf = true ∧ s.due = [] ∧ s.journal.waiting = true
    ∧ s.journal.filling = none ∧ s.journal.queue = powerOnRestart :: [] ∧ s.mem.readWord (mapBase s.journal.cursor + 2) = 1
    ∧ (s.mem.readWord (mapBase s.journal.cursor)).toNat = 255 ∧ unusableFrom s.mem s.journal.cursor 0
    ∧ u.mem.readWord (mapBase u.journal.cursor + 2) ≠ 1 := by decide +kernel
theorem witness_WaitingJournalOpensGivenPage_notice :
    let s := wrote [(768, 7), (770, 1)] bare
    s.engine.part = .starting ∧ s.mem.wf = true ∧ s.due = [] ∧ s.journal.waiting = true
    ∧ s.journal.filling = none ∧ s.journal.queue = powerOnRestart :: [] ∧ s.mem.readWord (mapBase s.journal.cursor + 2) = 1
    ∧ (s.mem.readWord (mapBase s.journal.cursor)).toNat = 7 := by decide +kernel
theorem witness_WaitingJournalOpensGivenPage_rejects :
    let s := givenAfterUnusable
    s.engine.part = .starting ∧ s.mem.wf = true ∧ s.due = [] ∧ s.journal.waiting = true ∧ s.journal.filling = none
    ∧ s.journal.queue = powerOnRestart :: [] ∧ unusableFrom s.mem s.journal.cursor 1
    ∧ s.mem.readWord (mapBase (entryAfter s.journal.cursor 1) + 2) = 1
    ∧ (s.mem.readWord (mapBase (entryAfter s.journal.cursor 1))).toNat = 255 := by decide +kernel

/-- An order of no kind in the last slot, at a multiple of 20 ms in STANDBY. -/
def walkable : State := atTime 40 (posted 15 26 [] (inPart .standby (staged 0 (onPage ⟨0, 20, 0, 3, 0, 500⟩ bare))))
theorem witness_WalkTakesThePostedSlot_taken :
    walkable.engine.part ≠ .starting ∧ (∀ m, m ≠ 15 → walkable.mem.readWord (slotBase m) ≠ 1)
    ∧ walkable.mem.readWord (slotBase 15) = 1 ∧ walkable.inFlight 15 = false
    ∧ walkable.now % 20 = 0 ∧ walkable.sched.walkFrom ≤ walkable.now ∧ walkable.journal.waiting = false
    ∧ (∀ m, m ≠ 15 → (takeSlot 15 { walkable with
        sched := { walkable.sched with walkFrom := walkable.now + 1 } }).mem.readWord (slotBase m) ≠ 1)
    ∧ (∀ m, m ≠ 15 → (takeSlot 15 walkable).mem.readWord (slotBase m) ≠ 1)
    ∧ (takeSlot 15 walkable).journal.waiting = false := by decide +kernel
theorem witness_WalkTakesThePostedSlot_none :
    let s := atTime 20 (inPart .inService bare)
    s.engine.part ≠ .starting ∧ (∀ m, m ≠ 0 → s.mem.readWord (slotBase m) ≠ 1) ∧ s.mem.readWord (slotBase 0) ≠ 1
    ∧ s.now % 20 = 0 ∧ s.sched.walkFrom ≤ s.now := by decide +kernel
/-- Two slots POSTED. -/
theorem witness_WalkTakesThePostedSlot_several :
    let s := atTime 40 (posted 15 26 [] (posted 3 26 [] (inPart .standby bare)))
    s.engine.part ≠ .starting ∧ s.mem.wf = true ∧ s.slotsHold ∧ s.journalHolds ∧ s.now % 20 = 0
    ∧ s.sched.walkFrom ≤ s.now ∧ (s.mem.readWord (slotBase 15) = 1 ∧ s.inFlight 15 = false)
    ∧ s.mem.readWord (slotBase 3) = 1 ∧ s.inFlight 3 = false := by decide +kernel
theorem witness_FirstWalkEndsStarting :
    let s := atTime 20 bare
    s.mem.wf = true ∧ s.engine.part = .starting ∧ s.now % 20 = 0 ∧ s.sched.walkFrom ≤ s.now
    ∧ ∀ n, s.mem.readWord (slotBase n) ≠ 1 := by decide +kernel
theorem witness_CommonChecksRefuse_unknown :
    let s := posted 0 26 [] bare
    s.mem.wf = true ∧ (s.mem.readWord (slotBase 0 + 2)).toNat = 26
    ∧ (bare.mem.readWord (slotBase 15 + 2)).toNat = 0 := by decide +kernel
theorem witness_CommonChecksRefuse_locked :
    let s := posted 15 23 [] (locked true true bare)
    s.mem.wf = true ∧ (s.mem.readWord (slotBase 15 + 2)).toNat = 23 ∧ s.engine.service = true
    ∧ s.engine.commissioning = true := by decide +kernel
theorem witness_CommonChecksRefuse_remote_trip :
    let s := posted 3 15 [] (inPart .standby bare)
    s.mem.wf = true ∧ (s.mem.readWord (slotBase 3 + 2)).toNat = 15 ∧ s.engine.part ≠ .inService := by decide +kernel

/-- What every order statement asks: the canonical form, no report due, and the order in its slot. -/
abbrev Ready (n : Fin 16) (k : OrderKind) (d : List Byte) (s : State) : Prop :=
  s.mem.wf = true ∧ s.due = [] ∧ s.holdsOrder n k (resultData d)

theorem witness_PageClosesFullOrAtDeadline_flush :
    let s := posted 0 21 [] (staged 0 (writing 7 1))
    Ready 0 .flushJournal [] s ∧ s.journal.filling = some ⟨0, 7, 0, 1, 0, 500⟩ ∧ s.journal.queue = []
    ∧ Ready 0 .flushJournal [] (posted 0 21 [] bare) ∧ (posted 0 21 [] bare).journal.filling = none := by decide +kernel
theorem witness_LockOrdersChangeLocks_service :
    let s := posted 0 24 [0] bare
    Ready 0 .lock [0] s ∧ numAt (resultData [0]) 0 = 0 ∧ s.engine.service = false := by decide +kernel
theorem witness_LockOrdersChangeLocks_commissioning :
    let s := posted 15 24 [1] bare
    Ready 15 .lock [1] s ∧ numAt (resultData [1]) 0 = 1 ∧ s.engine.commissioning = false := by decide +kernel
theorem witness_LockOrdersChangeLocks_already :
    let s := posted 0 24 [1] (locked false true bare)
    Ready 0 .lock [1] s ∧ numAt (resultData [1]) 0 = 1 ∧ s.engine.commissioning = true := by decide +kernel
/-- LOCK SERVICE and LOCK COMMISSIONING, each with an order behind it that the new lock bars. -/
theorem witness_LockOrdersChangeLocks_barred :
    let s := posted 1 13 [] (posted 0 24 [0] bare)
    let u := posted 15 20 [0, 1] (posted 0 24 [1] bare)
    Ready 0 .lock [0] s ∧ numAt (resultData [0]) 0 ≤ 1 ∧ (s.mem.readWord (slotBase 1 + 2)).toNat = 13
    ∧ Ready 0 .lock [1] u ∧ numAt (resultData [1]) 0 = 1 ∧ (u.mem.readWord (slotBase 15 + 2)).toNat = 20 := by
  decide +kernel
theorem witness_LockOrdersChangeLocks_range :
    Ready 0 .lock [2] (posted 0 24 [2] bare) ∧ 1 < numAt (resultData [2]) 0 := by decide +kernel
theorem witness_LockOrdersChangeLocks_unlock :
    let s := posted 0 25 [] (locked true false bare)
    Ready 0 .unlock [] s ∧ s.engine.service = true ∧ Ready 0 .unlock [] (posted 0 25 [] bare)
    ∧ (posted 0 25 [] bare).engine.service = false := by decide +kernel
theorem witness_ServiceOrdersChangePartState_no_bank :
    let s := posted 0 22 [] (inPart .standby bare)
    Ready 0 .enterService [] s ∧ s.engine.part = .standby ∧ s.active = none := by decide +kernel
theorem witness_ServiceOrdersChangePartState_driven :
    let s := posted 0 22 [] (inPart .standby (driving bare))
    Ready 0 .enterService [] s ∧ s.engine.part = .standby ∧ s.active ≠ none ∧ s.driven 0 = true
    ∧ ∀ o' < (0 : Fin 24), s.driven o' = false := by decide +kernel
theorem witness_ServiceOrdersChangePartState_enters :
    let s := posted 0 22 [] (inPart .standby { bare with bankB := drivingBank, active := some .b })
    Ready 0 .enterService [] s ∧ s.engine.part = .standby ∧ s.active = some .b ∧ ∀ o, s.driven o = false := by
  decide +kernel
theorem witness_ServiceOrdersChangePartState_energized :
    let s := posted 0 23 [] (inPart .inService (withOutput 23 { state := .latched } bare))
    Ready 0 .leaveService [] s ∧ s.engine.part = .inService ∧ s.engine.service = false ∧ s.engine.commissioning = false
    ∧ (nth s.outputs 23).state ≠ .off ∧ ∀ o' < (23 : Fin 24), (nth s.outputs o').state = .off := by decide +kernel
theorem witness_ServiceOrdersChangePartState_leaves :
    let s := posted 0 23 [] (inPart .inService bare)
    Ready 0 .leaveService [] s ∧ s.engine.part = .inService ∧ s.engine.service = false ∧ s.engine.commissioning = false
    ∧ ∀ o, (nth s.outputs o).state = .off := by decide +kernel
theorem witness_ServiceOrdersChangePartState_already :
    let s := posted 0 22 [] (inPart .inService bare)
    let t := posted 0 23 [] (inPart .standby bare)
    Ready 0 .enterService [] s ∧ s.engine.part = .inService ∧ Ready 0 .leaveService [] t ∧ t.engine.part = .standby
    ∧ t.engine.service = false ∧ t.engine.commissioning = false := by decide +kernel
/-- The first ms of day that is none, and the last that is one, with sync off and a fault present. -/
theorem witness_SetTimeSetsTheClock_range :
    Ready 0 .setTime [0, 0, 0x00, 0x5C, 0x26, 0x05] (posted 0 19 [0, 0, 0x00, 0x5C, 0x26, 0x05] bare)
    ∧ 86400000 ≤ longAt (resultData [0, 0, 0x00, 0x5C, 0x26, 0x05]) 2 := by decide +kernel
theorem witness_SetTimeSetsTheClock_sets :
    let d := resultData [0, 0, 0xFF, 0x5B, 0x26, 0x05, 0]
    let s := posted 0 19 [0, 0, 0xFF, 0x5B, 0x26, 0x05, 0] { bare with time := { bare.time with fault := true } }
    Ready 0 .setTime d s ∧ longAt d 2 < 86400000 ∧ numAt d 6 ≤ 1 ∧ s.time.fault = true ∧ numAt d 6 ≠ 1
    ∧ bare.time.fault = false ∧ bare.filters .clock = false := by decide +kernel
theorem witness_SetTimeSetsTheClock_journal :
    Ready 0 .setJournal [32, 5] (posted 0 20 [32, 5] bare) ∧ 32 ≤ numAt (resultData [32, 5]) 0
    ∧ Ready 0 .setJournal [31, 0] (posted 0 20 [31, 0] bare) ∧ numAt (resultData [31, 0]) 0 < 32
    ∧ bare.engine.commissioning = false := by decide +kernel
theorem witness_IsolationOrdersSetFlags_energized :
    let d := resultData [1, 0, 0x80]
    let s := posted 0 17 [1, 0, 0x80] (withOutput 23 { state := .on } bare)
    s.mem.wf = true ∧ longAt d 0 < 2 ^ 24 ∧ s.holdsOrder 0 .isolateOutputs d ∧ (longAt d 0).testBit 23 = true
    ∧ (nth s.outputs 23).state ≠ .off
    ∧ ∀ o' < (23 : Fin 24), (longAt d 0).testBit o'.val = true → (nth s.outputs o').state = .off := by decide +kernel
theorem witness_IsolationOrdersSetFlags_isolates :
    let d := resultData [0xFF, 0xFF, 0xFF]
    let s := posted 0 17 [0xFF, 0xFF, 0xFF] bare
    s.mem.wf = true ∧ longAt d 0 < 2 ^ 24 ∧ s.holdsOrder 0 .isolateOutputs d
    ∧ ∀ o : Fin 24, (longAt d 0).testBit o.val = true → (nth s.outputs o).state = .off := by decide +kernel
theorem witness_IsolationOrdersSetFlags_driven :
    let d := resultData [1]
    let s := posted 0 18 [1] (driving bare)
    s.mem.wf = true ∧ longAt d 0 < 2 ^ 24 ∧ s.holdsOrder 0 .restoreOutputs d ∧ (longAt d 0).testBit 0 = true
    ∧ s.driven 0 = true ∧ ∀ o' < (0 : Fin 24), (longAt d 0).testBit o'.val = true → s.driven o' = false := by
  decide +kernel
theorem witness_IsolationOrdersSetFlags_restores :
    let d := resultData [2]
    let s := posted 0 18 [2] (driving bare)
    s.mem.wf = true ∧ longAt d 0 < 2 ^ 24 ∧ s.holdsOrder 0 .restoreOutputs d
    ∧ ∀ o : Fin 24, (longAt d 0).testBit o.val = true → s.driven o = false := by decide +kernel
theorem witness_IsolationOrdersSetFlags_range :
    Ready 0 .isolateOutputs [0, 0, 0, 1] (posted 0 17 [0, 0, 0, 1] bare) ∧ 2 ^ 24 ≤ longAt (resultData [0, 0, 0, 1]) 0 := by
  decide +kernel
/-- Profiles 0 to 3 with on-times 10, every output on profile 0, every circuit under continuity supervision; and the last
of them changed. -/
def profileBytes (mode sel continuity : Byte) : List Byte :=
  [1, 10, 1, 10, 1, 10, mode, 10] ++ List.replicate 11 0 ++ [sel, 255, 255, 255, continuity]
theorem witness_IsolationOrdersSetFlags_profiles_refused :
    (Ready 0 .setProfiles (profileBytes 3 0 0) (posted 0 14 (profileBytes 3 0 0) bare)
      ∧ 2 < numAt (resultData (profileBytes 3 0 0)) 6 ∧ numAt (resultData (profileBytes 3 0 0)) 4 ≤ 2)
    ∧ (Ready 0 .setProfiles (profileBytes 2 0x40 0) (posted 0 14 (profileBytes 2 0x40 0) bare)
      ∧ 3 < numAt (resultData (profileBytes 2 0x40 0)) 19 / 16)
    ∧ (Ready 0 .setProfiles (profileBytes 2 0x30 0x80) (posted 0 14 (profileBytes 2 0x30 0x80) bare)
      ∧ (longAt (resultData (profileBytes 2 0x30 0x80)) 20).testBit 31 = true) := by decide +kernel
/-- With output 23 energized under profile 0 the first would change it, and the second, of the profiles as they are,
changes nothing. -/
theorem witness_IsolationOrdersSetFlags_profiles :
    let on := withOutput 23 { state := .on } bare
    let s := posted 0 14 (profileBytes 2 0x30 0) on
    let t := posted 0 14 (profileBytes 1 0 0) on
    Ready 0 .setProfiles (profileBytes 2 0x30 0) s ∧ (nth s.outputs 23).state ≠ .off
    ∧ numAt (resultData (profileBytes 2 0x30 0)) 19 / 16 ≠ (nth s.outputs 23).sel.val
    ∧ Ready 0 .setProfiles (profileBytes 1 0 0) t ∧ t.engine.service = false ∧ t.engine.commissioning = false
    ∧ (∀ p : Fin 4, numAt (resultData (profileBytes 1 0 0)) (2 * p.val) = (nth t.profiles p).mode.code
      ∧ numAt (resultData (profileBytes 1 0 0)) (2 * p.val + 1) = (nth t.profiles p).onTime)
    ∧ (∀ o : Fin 24, numAt (resultData (profileBytes 1 0 0)) (8 + o.val / 2) / 16 ^ (o.val % 2) % 16
        = (nth t.outputs o).sel.val ∧ (nth t.outputs o).fault ≠ .failToOperate) := by decide +kernel
theorem witness_SwitchBankChangesActiveBank_busy :
    let s := posted 0 13 [] (loadingMatrix { slot := 1, byteLength := 130, page := 7, nextRead := 0 } bare)
    Ready 0 .switchBank [] s ∧ s.engine.service = false ∧ s.engine.commissioning = false
    ∧ s.engine.loadMatrix ≠ none := by decide +kernel
theorem witness_SwitchBankChangesActiveBank_not_valid :
    let s := posted 0 13 [] bare
    Ready 0 .switchBank [] s ∧ s.engine.service = false ∧ s.engine.commissioning = false ∧ s.engine.loadMatrix = none
    ∧ (s.bank (if s.active = some .a then .b else .a)).state ≠ .valid := by decide +kernel
theorem witness_SwitchBankChangesActiveBank_active_input :
    let s := posted 0 13 [] (withInput 31 { qualified := true, level := true } { bare with bankA := drivingBank })
    Ready 0 .switchBank [] s ∧ s.engine.loadMatrix = none
    ∧ (s.bank (if s.active = some .a then .b else .a)).state = .valid ∧ (nth s.inputs 31).qualified = true
    ∧ ∀ i' < (31 : Fin 32), (nth s.inputs i').qualified = false := by decide +kernel
theorem witness_SwitchBankChangesActiveBank_switches :
    let s := posted 0 13 [] { bare with bankA := drivingBank, bankB := drivingBank, active := some .a }
    Ready 0 .switchBank [] s ∧ s.engine.loadMatrix = none
    ∧ (s.bank (if s.active = some .a then .b else .a)).state = .valid
    ∧ ∀ i, (nth s.inputs i).qualified = false := by decide +kernel
theorem witness_ShelvePointQuietsThePoint_refused :
    Ready 0 .shelvePoint [0, 1] (posted 0 3 [0, 1] bare) ∧ 256 ≤ wordAt (resultData [0, 1]) 0
    ∧ Ready 0 .shelvePoint [255, 0] (posted 0 3 [255, 0] bare) ∧ wordAt (resultData [255, 0]) 0 = (255 : Fin 256).val
    ∧ (nth bare.points 255).settings.enabled = false := by decide +kernel
theorem witness_ShelvePointQuietsThePoint_shelves :
    let s := posted 0 3 [7, 0] (withPoint 7 alertPoint bare)
    Ready 0 .shelvePoint [7, 0] s ∧ wordAt (resultData [7, 0]) 0 = (7 : Fin 256).val
    ∧ (nth s.points 7).settings.enabled = true ∧ (nth s.points 7).shelved = false ∧ ¬journalPoint 7 := by decide +kernel
theorem witness_ShelvePointQuietsThePoint_already :
    let s := posted 0 3 [7, 0] (withPoint 7 { settings := { enabled := true }, shelved := true } bare)
    Ready 0 .shelvePoint [7, 0] s ∧ wordAt (resultData [7, 0]) 0 = (7 : Fin 256).val
    ∧ (nth s.points 7).settings.enabled = true ∧ (nth s.points 7).shelved = true := by decide +kernel
/-- A shelved point whose contact is abnormal, and one that is not shelved. -/
theorem witness_ShelvePointQuietsThePoint_unshelves :
    let s := posted 0 4 [7, 0] (withPoint 7 { settings := { enabled := true }, contact := .closed, shelved := true } bare)
    let u := posted 0 4 [7, 0] bare
    Ready 0 .unshelvePoint [7, 0] s ∧ wordAt (resultData [7, 0]) 0 = (7 : Fin 256).val ∧ (nth s.points 7).shelved = true
    ∧ (nth s.points 7).seq = .quiet ∧ (nth s.points 7).raw = true ∧ ¬journalPoint 7
    ∧ Ready 0 .unshelvePoint [7, 0] u ∧ (nth u.points 7).shelved = false := by decide +kernel
theorem witness_ShelvePointQuietsThePoint_reads :
    Ready 0 .readPoint [255, 0] (posted 0 5 [255, 0] bare) ∧ wordAt (resultData [255, 0]) 0 = (255 : Fin 256).val
    ∧ Ready 0 .readPoint [0, 1] (posted 0 5 [0, 1] bare) ∧ 256 ≤ wordAt (resultData [0, 1]) 0 := by decide +kernel

/-- A LOAD POINTS in flight at its read of this page, whose header gives index, length and next page. -/
def reading (j : ImageJob) (index length next : Nat) : State :=
  wrote [(256 * j.page, word index), (256 * j.page + 2, word length), (256 * j.page + 4, word next)]
    (loadingPoints j bare)
theorem witness_SegmentReadChecksChain_page :
    let j : ImageJob := { slot := 0, byteLength := 10, page := 6, nextRead := 0 }
    let j' := { j with page := 256 }
    (reading j 0 0 0).mem.wf = true ∧ (reading j 0 0 0).job .loadPoints = some j ∧ j.nextRead ≤ (reading j 0 0 0).now
    ∧ j.page < 7 ∧ (reading j' 0 0 0).mem.wf = true ∧ (reading j' 0 0 0).job .loadPoints = some j' ∧ 255 < j'.page := by
  decide +kernel
theorem witness_SegmentReadChecksChain_chain :
    let j : ImageJob := { slot := 0, byteLength := 10, page := 7, nextRead := 0 }
    let s := reading j 1 8 0
    let s' := reading j 0 249 0
    s.mem.wf = true ∧ s.job .loadPoints = some j ∧ (s.mem.readWord (256 * j.page)).toNat ≠ j.index
    ∧ s'.mem.wf = true ∧ s'.job .loadPoints = some j ∧ 248 < (s'.mem.readWord (256 * j.page + 2)).toNat := by
  decide +kernel
theorem witness_SegmentReadChecksChain_length :
    let j : ImageJob := { slot := 0, byteLength := 10, page := 255, nextRead := 0 }
    let s := reading j 0 11 0
    let s' := reading j 0 9 0
    s.mem.wf = true ∧ s.job .loadPoints = some j ∧ (s.mem.readWord (256 * j.page)).toNat = j.index
    ∧ j.byteLength < j.payload.length + (s.mem.readWord (256 * j.page + 2)).toNat
    ∧ (s'.mem.readWord (256 * j.page + 4)).toNat = 0
    ∧ j.payload.length + (s'.mem.readWord (256 * j.page + 2)).toNat < j.byteLength := by decide +kernel
theorem witness_SegmentReadChecksChain_goes_on :
    let j : ImageJob := { slot := 0, byteLength := 500, page := 7, index := 13, nextRead := 0 }
    let j' := { j with index := 14 }
    let s := reading j 13 248 9
    s.mem.wf = true ∧ s.job .loadPoints = some j ∧ (s.mem.readWord (256 * j.page)).toNat = j.index
    ∧ (s.mem.readWord (256 * j.page + 2)).toNat = 248
    ∧ j.payload.length + (s.mem.readWord (256 * j.page + 2)).toNat ≤ j.byteLength
    ∧ (s.mem.readWord (256 * j.page + 4)).toNat ≠ 0 ∧ j.index < 14
    ∧ ((reading j' 14 248 9).mem.readWord (256 * j'.page)).toNat = j'.index ∧ 14 ≤ j'.index := by decide +kernel
theorem witness_SegmentReadChecksChain_matrix :
    let j : ImageJob := { slot := 0, byteLength := 130, page := 6, nextRead := 0 }
    let s := loadingMatrix j bare
    s.mem.wf = true ∧ s.job .loadMatrix = some j ∧ j.nextRead ≤ s.now ∧ j.page < 7 ∧ s.due = [] := by decide +kernel

/-- A LOAD MATRIX in flight, 129 of its bytes read: 128 times `b`, the low byte of the check word, and one segment with
its high byte to come. -/
def matrixJob (b check : Byte) : ImageJob :=
  { slot := 2, byteLength := 130, page := 7, index := 1, payload := List.replicate 128 b ++ [check], nextRead := 0 }
def matrixRead (b lo hi : Byte) : State :=
  wrote [(1792, 1), (1794, 1), (1800, word hi.toNat)]
    (loadingMatrix (matrixJob b lo) bare)
/-- The last segment of one byte completes the image.  With the two sums below, b = 1 with check word 0x4040 passes with
every count in range, b = 0 with check word 0 passes with every count 0, and b = 0 with check word 1 fails. -/
theorem witness_LoadOrdersComplete_matrix (b lo hi : Byte) :
    let s := matrixRead b lo hi
    s.engine.loadMatrix = some (matrixJob b lo)
    ∧ ((matrixJob b lo).payload ++ s.mem.readBytes 1800 1).length = 130 := by
  refine ⟨rfl, ?_⟩
  simp [matrixJob, Memory.readBytes]
theorem witness_LoadOrdersComplete_matrix_memory :
    ∀ hi ∈ [(0x40 : Byte), 0],
      let s := matrixRead 1 0x40 hi
      s.mem.wf = true ∧ (s.mem.readWord 1792).toNat = 1 ∧ (s.mem.readWord 1794).toNat = 1 ∧ s.mem.readWord 1796 = 0
      ∧ s.mem.readBytes 1800 1 = [hi] := by decide +kernel
theorem test_word_sum_of_ones : wordSum (List.replicate 128 (1 : Byte)) = 0x4040 := by decide +kernel
theorem test_word_sum_of_zeros : wordSum (List.replicate 128 (0 : Byte)) = 0 := by decide +kernel
/-- The image of one point: first, count 1, settle window 4, the point's settings, the check word. -/
def pointImage (first : Nat) (settings : List Byte) (wrong : Byte) : List Byte :=
  let body := bytes2 first ++ [1, 0, 4, 0, 0, 0] ++ settings
  body ++ [byte (wordSum body) + wrong, byte (wordSum body / 256)]
/-- A LOAD POINTS whose last segment of two bytes is to come. -/
def pointsJob (bs : List Byte) : ImageJob :=
  { slot := 2, byteLength := bs.length, page := 7, index := 1, payload := bs.take (bs.length - 2), nextRead := 0 }
def pointsRead (bs : List Byte) : State :=
  wrote [(1792, 1), (1794, 2), (1800, word (wordAt bs (bs.length - 2)))] (loadingPoints (pointsJob bs) bare)
/-- What an image that completes meets. -/
abbrev Completes (bs : List Byte) : Prop :=
  (pointsRead bs).mem.wf = true ∧ (pointsRead bs).due = [] ∧ (pointsRead bs).engine.loadPoints = some (pointsJob bs)
  ∧ ((pointsRead bs).mem.readWord 1792).toNat = 1 ∧ ((pointsRead bs).mem.readWord 1794).toNat = 2
  ∧ (pointsRead bs).mem.readWord 1796 = 0 ∧ bs = (pointsJob bs).payload ++ (pointsRead bs).mem.readBytes 1800 2
  ∧ bs.length = (pointsJob bs).byteLength
/-- Too short, with a wrong check word, past point 255, with zone 8. -/
theorem witness_LoadOrdersComplete_points_refused :
    (Completes (List.replicate 12 0) ∧ (List.replicate 12 (0 : Byte)).length ≠ 8 + 8 * wordAt (List.replicate 12 0) 2 + 2)
    ∧ (let bs := pointImage 255 [1, 0, 0, 255, 0, 0, 0, 0] 1
      Completes bs ∧ bs.length = 8 + 8 * wordAt bs 2 + 2 ∧ wordSum (bs.take 16) ≠ wordAt bs 16)
    ∧ (let bs := pointImage 256 [1, 0, 0, 255, 0, 0, 0, 0] 0
      Completes bs ∧ wordSum (bs.take 16) = wordAt bs 16 ∧ 256 < wordAt bs 0 + wordAt bs 2)
    ∧ (let bs := pointImage 255 [1, 0, 8, 255, 0, 0, 0, 0] 0
      Completes bs ∧ wordSum (bs.take 16) = wordAt bs 16 ∧ wordAt bs 0 + wordAt bs 2 ≤ 256
        ∧ 7 < numAt bs (8 + 8 * (255 - wordAt bs 0) + 2)) := by decide +kernel
theorem witness_LoadOrdersComplete_points_applied :
    let bs := pointImage 255 [1, 0, 7, 15, 3, 0, 0, 0] 0
    Completes bs ∧ bs.length = 8 + 8 * wordAt bs 2 + 2 ∧ wordSum (bs.take 16) = wordAt bs 16
    ∧ wordAt bs 0 + wordAt bs 2 = 256 ∧ numAt bs 10 = 7 ∧ numAt bs 11 = 15 ∧ numAt bs 12 = 3
    ∧ (settingsAt bs 8).hasWindow = false ∧ ∀ p, (nth (pointsRead bs).points p).settings.hasWindow = false := by
  decide +kernel
/-- A point that is disabled before and after the apply. -/
theorem witness_LoadOrdersComplete_points_disabled :
    let bs := pointImage 255 [0, 0, 7, 15, 3, 0, 0, 0] 0
    Completes bs ∧ wordSum (bs.take 16) = wordAt bs 16 ∧ (settingsAt bs 8).enabled = false
    ∧ (nth (pointsRead bs).points 255).settings.enabled = false ∧ (nth (pointsRead bs).points 255).firstMark = false := by
  decide +kernel
theorem witness_LoadOrdersComplete_points_duplicate :
    let bs := pointImage 255 [0x21, 9, 7, 15, 3, 0, 0, 0] 0
    let s := withPoint 7 { settings := { enabled := true, hasWindow := true, window := 9 } } (pointsRead bs)
    Completes bs ∧ wordSum (bs.take 16) = wordAt bs 16 ∧ wordAt bs 0 + wordAt bs 2 = 256
    ∧ (nth s.points 7).settings.hasWindow = true ∧ (nth s.points 7).settings.window = 9
    ∧ (settingsAt bs 8).enabled = true ∧ (settingsAt bs 8).hasWindow = true ∧ (settingsAt bs 8).window = 9 := by
  decide +kernel
theorem witness_LoadOrdersComplete_takes :
    let busy := loadingPoints { slot := 1, byteLength := 130, page := 7, nextRead := 0 }
      (loadingMatrix { slot := 2, byteLength := 130, page := 7, nextRead := 0 } bare)
    bare.engine.service = false ∧ bare.engine.commissioning = false ∧ bare.engine.loadPoints = none
    ∧ bare.engine.loadMatrix = none ∧ Ready 0 .loadPoints [7] (posted 0 1 [7] bare)
    ∧ Ready 0 .loadMatrix [7] (posted 0 12 [7] bare) ∧ Ready 0 .loadPoints [7] (posted 0 1 [7] busy)
    ∧ Ready 0 .loadMatrix [7] (posted 0 12 [7] busy) := by decide +kernel

theorem witness_ScanFrameCarriesLampCodes :
    (nth (withLink 3 { state := .disabled, enabled := false } bare).links 3).state = .disabled
    ∧ (let s := atTime 8 bare
      s.mem.wf = true ∧ (nth s.links 3).state ≠ .disabled ∧ s.now % 5 = (3 : Fin 4).val
      ∧ (nth s.links 3).scanFrom ≤ s.now) := by decide +kernel
theorem witness_AnswerReceiptNotesTime :
    (nth bare.links 0).awaiting = false
    ∧ (let s := atTime 8 (withLink 0 { awaiting := true, limit := 9 } bare)
      (nth s.links 0).awaiting = true ∧ (nth s.links 0).state ≠ .disabled ∧ s.now < (nth s.links 0).limit)
    ∧ (let s := atTime 9 (withLink 0 { awaiting := true, limit := 9 } bare)
      (nth s.links 0).limit ≤ s.now) := by decide +kernel
theorem witness_MissIsCounted :
    let s := atTime 9 (withLink 1 { state := .up, miss := 1, awaiting := true, limit := 9 } bare)
    let l := nth s.links 1
    s.mem.wf = true ∧ l.state ≠ .disabled ∧ l.awaiting = true ∧ l.limit ≤ s.now ∧ (atTime 8 s).now < l.limit ∧ l.miss < 2
    ∧ answerFault 1 l.carried (l.rx ++ []) = some .timeout := by decide +kernel
theorem witness_ThirdMissLosesLink :
    let s := withLink 1 { state := .up, miss := 2, awaiting := true, buttons := { test := true } } bare
    let l := nth s.links 1
    s.mem.wf = true ∧ s.due = [] ∧ l.state = .up ∧ l.awaiting = true ∧ l.limit ≤ s.now ∧ l.miss = 2
    ∧ answerFault 1 l.carried (l.rx ++ []) = some .timeout ∧ s.filters .link = false := by decide +kernel
theorem witness_ValidAnswerRaisesRun :
    ∀ l ∈ [({ state := .lost, awaiting := true, miss := 255 } : Link), { awaiting := true, validRun := 1 }],
      let s := withLink 1 l bare
      s.mem.wf = true ∧ s.due = [] ∧ (nth s.links 1).awaiting = true ∧ (nth s.links 1).limit ≤ s.now
      ∧ answerFault 1 (nth s.links 1).carried ((nth s.links 1).rx ++ plainAnswer 0) = none ∧ s.filters .link = false := by
  decide +kernel
theorem witness_ValidAnswerSetsContacts :
    ∀ l ∈ [({ state := .up, awaiting := true, miss := 2 } : Link), { awaiting := true, validRun := 2 },
        { awaiting := true, validRun := 2, restart := some (15, 900) }],
      let s := withLink 1 l bare
      s.mem.wf = true ∧ s.due = [] ∧ (nth s.links 1).awaiting = true ∧ (nth s.links 1).limit ≤ s.now
      ∧ answerFault 1 (nth s.links 1).carried ((nth s.links 1).rx ++ plainAnswer 0) = none ∧ s.filters .link = false := by
  decide +kernel
/-- An answer with all four buttons pressed and the overflow flag, at the bound of the entries-lost count; and one that
lets TEST go. -/
theorem witness_ValidAnswerSetsContacts_buttons :
    let bytes : List RxByte :=
      [0x5A, 1, 0, 2, 0, 0, 0, 0, 0, 0x0F, 0x80, 0x92, 0].map fun b => { value := b }
    let s := withLink 1 { state := .up, awaiting := true, entriesLost := 255 } bare
    let u := withLink 1 { state := .up, awaiting := true, buttons := { test := true } } bare
    s.mem.wf = true ∧ s.due = [] ∧ answerFault 1 (nth s.links 1).carried ((nth s.links 1).rx ++ bytes) = none
    ∧ (readAnswer (bytes.map (·.value))).buttons = { ack := true, silence := true, reset := true, test := true }
    ∧ (readAnswer (bytes.map (·.value))).overflow = true ∧ s.filters .link = false ∧ u.due = []
    ∧ answerFault 1 (nth u.links 1).carried ((nth u.links 1).rx ++ plainAnswer 0) = none
    ∧ (readAnswer ((plainAnswer 0).map (·.value))).buttons.test = false := by decide +kernel
theorem witness_RestartLinkDeadlineEndsOrder :
    let s := atTime 100 (withLink 2 { restart := some (15, 100) } bare)
    s.mem.wf = true ∧ (nth s.links 2).restart = some (15, 100) ∧ 100 ≤ s.now := by decide +kernel
theorem witness_RestartLinkDeadlineEndsOrder_restart :
    Ready 0 .restartLink [4] (posted 0 11 [4] bare) ∧ 4 ≤ numAt (resultData [4]) 0
    ∧ (∀ l ∈ [({ state := .disabled, enabled := false } : Link), { restart := some (15, 100) },
        { state := .up, buttons := { test := true } }],
      let s := posted 0 11 [3] (withLink 3 l bare)
      Ready 0 .restartLink [3] s ∧ numAt (resultData [3]) 0 = (3 : Fin 4).val ∧ s.filters .link = false) := by
  decide +kernel
/-- A latency of 16; then a link that becomes DISABLED with a RESTART LINK in flight, one that stays as it is, and one that
is enabled. -/
theorem witness_RestartLinkDeadlineEndsOrder_set :
    (Ready 0 .setLink [0, 1, 0, 16] (posted 0 10 [0, 1, 0, 16] bare) ∧ 15 < numAt (resultData [0, 1, 0, 16]) 3)
    ∧ (∀ l ∈ [({ restart := some (15, 100) } : Link), { state := .up, buttons := { test := true } }],
      let s := posted 0 10 [3, 0, 255, 15] (withLink 3 l bare)
      Ready 0 .setLink [3, 0, 255, 15] s ∧ numAt (resultData [3, 0, 255, 15]) 0 = (3 : Fin 4).val ∧ s.inFlight 0 = false
      ∧ (nth s.links 3).state ≠ .disabled ∧ numAt (resultData [3, 0, 255, 15]) 1 ≠ 1)
    ∧ (∀ l ∈ [({ state := .disabled, enabled := false } : Link), {}],
      let s := posted 0 10 [3, 1, 0, 15] (withLink 3 l bare)
      Ready 0 .setLink [3, 1, 0, 15] s ∧ numAt (resultData [3, 1, 0, 15]) 1 = 1 ∧ s.engine.commissioning = false
      ∧ s.filters .link = false) := by decide +kernel

/-- A point of class 0, whose weight and suppress level are given. -/
def weighted (x : Point) (w sup : Nat) : State :=
  atTime 100 (withPoint 7 x { bare with classes := upd bare.classes 0 { weight := w, suppress := sup } })
theorem witness_RawTransitionTakenWhole_held :
    let s := weighted { settings := { enabled := true }, contact := .opened, held := true } 5 10
    (nth s.points 7).settings.enabled = true ∧ ({ nth s.points 7 with contact := .closed } : Point).raw ≠ (nth s.points 7).raw
    ∧ (nth s.points 7).lastTime ≤ 100 ∧ (nth s.points 7).held = true := by decide +kernel
theorem witness_RawTransitionTakenWhole_becomes_held :
    let s := weighted { settings := { enabled := true }, contact := .opened, bucket := 5 } 5 10
    (nth s.points 7).settings.enabled = true ∧ ({ nth s.points 7 with contact := .closed } : Point).raw ≠ (nth s.points 7).raw
    ∧ (nth s.points 7).held = false ∧ 0 < (nth s.classes 0).weight
    ∧ (nth s.classes 0).suppress ≤ min 255 ((nth s.points 7).bucket + (nth s.classes 0).weight)
    ∧ s.filters .chatter = false := by decide +kernel
/-- A change that waits (delay 10 ms), one accepted at once (no delay), and one that drops a pending change. -/
theorem witness_RawTransitionTakenWhole_taken :
    let s := weighted { settings := { enabled := true, alarmDelay := 1 }, contact := .opened } 0 10
    let t := weighted { settings := { enabled := true }, contact := .opened } 0 10
    let u := weighted (pendingPoint 150) 0 10
    ({ nth s.points 7 with contact := .closed } : Point).raw ≠ (nth s.points 7).raw
    ∧ ({ nth s.points 7 with contact := .closed } : Point).raw ≠ (nth s.points 7).accepted ∧ s.now < 100 + 10 * 1
    ∧ (nth t.points 7).accepted = false ∧ 100 + 10 * 0 ≤ t.now
    ∧ ({ nth u.points 7 with contact := .opened } : Point).raw ≠ (nth u.points 7).raw
    ∧ ({ nth u.points 7 with contact := .opened } : Point).raw = (nth u.points 7).accepted := by decide +kernel
/-- A disabled point; a raw time before the last one; a change entry of the last input, and one of none. -/
theorem witness_RawTransitionTakenWhole_other :
    let s := weighted { settings := { enabled := true }, contact := .opened, lastTime := 90 } 0 10
    (nth bare.points 7).settings.enabled = false ∧ (nth s.points 7).settings.enabled = true
    ∧ ({ nth s.points 7 with contact := .closed } : Point).raw ≠ (nth s.points 7).raw
    ∧ (89 : Int) < ((nth s.points 7).lastTime : Int) ∧ (47 < 48 ∧ 48 ≤ 48)
    ∧ ({ day := 0, ms := 3 } : Stamp).day ≤ 65535 := by decide +kernel
theorem witness_PendingChangeIsAccepted :
    let s := atTime 50 (withPoint 255 { pendingPoint 50 with contact := .present } bare)
    s.due = [] ∧ ¬journalPoint 255 ∧ (nth s.points 255).waiting = some ⟨true, 50, 40, {}, false⟩ ∧ 50 ≤ s.now
    ∧ s.filters .pointNormal = false := by decide +kernel
theorem witness_LeakStepDrainsAndReleases :
    let s := atTime 100 (withPoint 7 { settings := { enabled := true }, held := true, bucket := 58 } bare)
    s.due = [] ∧ s.now % 100 = 0 ∧ s.sched.leakFrom ≤ s.now ∧ ¬journalPoint 7 ∧ (nth s.points 7).held = true
    ∧ (nth s.points 7).bucket - (nth s.classes (nth s.points 7).settings.cls).leak
      ≤ (nth s.classes (nth s.points 7).settings.cls).release := by decide +kernel
/-- Class 3 with leak 0, and four classes in range, class 0 of weight 0 with a HELD point. -/
theorem witness_LeakStepDrainsAndReleases_chatter :
    let d := List.replicate 3 [(0 : Byte), 63, 1, 0]
    let bad := d.flatten ++ [63, 0, 1, 0]
    let good := d.flatten ++ [63, 1, 255, 254]
    Ready 0 .setChatter bad (posted 0 2 bad bare) ∧ ¬1 ≤ numAt (resultData bad) 13
    ∧ (let s := posted 0 2 good (withPoint 7 { settings := { enabled := true }, held := true, bucket := 58 } bare)
      Ready 0 .setChatter good s ∧ s.engine.commissioning = false ∧ (nth s.points 7).held = true
      ∧ numAt (resultData good) 0 = 0 ∧ numAt (resultData good) 15 < numAt (resultData good) 14) := by decide +kernel
theorem witness_ActionsMovePoints :
    let x : Point := { settings := { enabled := true, ringback := true, zone := 1 }, seq := .alertCleared }
    (Target.zones 2).reaches 7 x = true ∧ (Target.zones 1).reaches 7 x = false := by decide +kernel
theorem witness_ActionsMovePoints_orders :
    Ready 0 .acknowledge [0, 255] (posted 0 6 [0, 255] bare) ∧ numAt (resultData [0, 255]) 0 = 0
    ∧ Ready 0 .acknowledge [1, 0, 255, 0] (posted 0 6 [1, 0, 255, 0] bare)
    ∧ wordAt (resultData [1, 0, 255, 0]) 2 = (255 : Fin 256).val
    ∧ Ready 0 .acknowledge [1, 0, 0, 1] (posted 0 6 [1, 0, 0, 1] bare) ∧ 256 ≤ wordAt (resultData [1, 0, 0, 1]) 2
    ∧ Ready 0 .silence [0, 1] (posted 0 7 [0, 1] bare) ∧ Ready 0 .resetAlarms [0, 1] (posted 0 8 [0, 1] bare)
    ∧ bare.filters .action = false := by decide +kernel
theorem witness_HornFollowsCounts :
    let s := withPoint 7 { seq := .ringback } (withPoint 8 { seq := .alert, settings := { zone := 1 } } bare)
    let x := nth (rejudgeZone 0 s).zones 0
    let y := nth (rejudgeZone 1 s).zones 1
    let z := nth (rejudgeZone 2 s).zones 2
    (y.nAlert ≠ 0 ∧ y.silenced = false) ∧ (x.nAlert = 0 ∧ x.nRingback ≠ 0 ∧ x.rbSilenced = false)
    ∧ (z.nAlert = 0 ∧ z.nRingback = 0) ∧ y.horn ≠ (nth s.zones 1).horn := by decide +kernel

theorem all_bare_disabled : ∀ r, (nth bare.points r).settings.enabled = false := by decide +kernel

/-- No two points of a state in which only point 7 is enabled share a window. -/
theorem one_enabled_point_shares_no_window (x : Point) (p q : Fin 256) (h : p ≠ q) :
    sharesWindow (nth (withPoint 7 x bare).points p).settings (nth (withPoint 7 x bare).points q).settings = false := by
  have hb : ∀ r, r ≠ 7 → (nth (withPoint 7 x bare).points r).settings.enabled = false := by
    intro r hr
    have : nth (withPoint 7 x bare).points r = nth bare.points r := by
      simp only [withPoint]; exact nth_upd_other _ _ (Ne.symm hr)
    rw [this]
    exact all_bare_disabled r
  by_cases hp : p = 7
  · have := hb q (fun e => h (hp.trans e.symm)); simp [sharesWindow, this]
  · have := hb p hp; simp [sharesWindow, this]
theorem witness_LampCodeOfWindow :
    let s := withPoint 7 { settings := { enabled := true, hasWindow := true, window := 255 }, seq := .alert } bare
    s.windowsHold ∧ ((nth s.points 7).settings.enabled = true ∧ (nth s.points 7).settings.hasWindow = true
      ∧ (nth s.points 7).settings.window = 255) ∧ (nth s.panels 3).buttonEnd = none ∧ (nth s.panels 3).orderEnd = none
    ∧ (∀ p, ¬((nth s.points p).settings.enabled = true ∧ (nth s.points p).settings.hasWindow = true
      ∧ (nth s.points p).settings.window = 0)) :=
  ⟨one_enabled_point_shares_no_window _, by decide +kernel, by decide +kernel, by decide +kernel, by decide +kernel⟩
theorem witness_LampTestEndsClear :
    let s := atTime 9 { bare with panels := upd bare.panels 3 { buttonEnd := some 9, orderEnd := some 9 } }
    9 ≤ s.now ∧ (nth s.panels 3).buttonEnd = some 9 ∧ (nth s.panels 3).orderEnd = some 9
    ∧ (nth s.panels 3).orderEnd ≠ none := by decide +kernel
theorem witness_LampTestEndsClear_orders :
    Ready 0 .lampTest [16, 1] (posted 0 9 [16, 1] bare) ∧ 16 ≤ numAt (resultData [16, 1]) 0
    ∧ Ready 0 .lampTest [15, 30] (posted 0 9 [15, 30] bare) ∧ Ready 0 .lampTest [1, 31] (posted 0 9 [1, 31] bare)
    ∧ bare.testing 3 = false := by decide +kernel
theorem witness_RingbackToneCycles :
    let s := atTime 500 { bare with zones := upd bare.zones 7 { horn := .ringbackTone, toggle := some 500 } }
    (nth s.zones 7).horn = .ringbackTone ∧ (nth s.zones 7).toggle = some 500 ∧ 500 ≤ s.now
    ∧ (nth s.zones 6).horn ≠ .ringbackTone := by decide +kernel
/-- Earlier, the same time of a lower point, the same time of a higher point, later; and a LATCHED group. -/
theorem witness_AlertReportsAreCompared :
    let s := withGroup 5 { state := .deciding, candidate := some 61, candidateTime := 10002 } (withGroup 6 { state := .latched } bare)
    (nth s.groups 5).state = .deciding ∧ (nth s.groups 5).candidate = some 61
    ∧ 10001 < (nth s.groups 5).candidateTime ∧ (10002 = (nth s.groups 5).candidateTime ∧ (52 : Fin 256) < 61)
    ∧ ((nth s.groups 5).candidateTime = 10002 ∧ (61 : Fin 256) ≤ 62) ∧ (nth s.groups 5).candidateTime < 10003
    ∧ (nth s.groups 6).state = .latched := by decide +kernel
/-- An ARMED group, with a settle window and with none; and an earlier report of the candidate itself. -/
theorem witness_AlertReportsAreCompared_armed :
    (nth bare.groups 5).state = .armed ∧ bare.settleWindow = 0 ∧ 0 < ({ bare with settleWindow := 1 } : State).settleWindow
    ∧ (let s := withGroup 5 { state := .deciding, candidate := some 61, candidateTime := 10002 } bare
      (nth s.groups 5).candidate = some 61 ∧ 10001 < (nth s.groups 5).candidateTime) := by decide +kernel
theorem witness_SettleDeadlineLatches :
    let s := atTime 39 (withGroup 5 { state := .deciding, candidate := some 52, deadline := some 39 }
      (withPoint 52 { settings := { enabled := true, group := some 5 }, accepted := true, seq := .alert } bare))
    s.due = [] ∧ ¬journalPoint 52 ∧ (nth s.groups 5).state = .deciding ∧ (nth s.groups 5).deadline = some 39 ∧ 39 ≤ s.now
    ∧ (nth s.groups 5).candidate = some 52 ∧ (nth s.points 52).settings.enabled = true
    ∧ (nth s.points 52).settings.group = some 5 := by decide +kernel
theorem witness_TripSampleCountsRuns :
    (atTime 1 bare).sched.tripFrom ≤ (atTime 1 bare).now
    ∧ ∀ i : Fin 32, (0 : BitVec 32).getLsbD i.val = (nth (atTime 1 bare).inputs i).qualified := by decide +kernel
theorem witness_TripInputQualifies :
    let s := withInput 31 { level := true, run := 1, start := some ⟨4, {}⟩ } bare
    s.due = [] ∧ 0 < (nth s.inputs 31).run ∧ (nth s.inputs 31).qSampled ≤ (nth s.inputs 31).run
    ∧ (nth s.inputs 31).start = some ⟨4, {}⟩ ∧ s.maskOf 31 = 0 ∧ (nth s.inputs 30).run = 0
    ∧ (let u := withInput 31 { level := true, run := 1, start := some ⟨4, {}⟩, qSampled := 2 } bare
      (nth u.inputs 31).run < (nth u.inputs 31).qSampled) := by decide +kernel
/-- Input 0 fills the set of output 0, which is OFF in FOLLOW mode, IN_SERVICE and not isolated. -/
theorem witness_TripInputQualifies_rising :
    let s := inPart .inService (withInput 0 { level := true, run := 3, start := some ⟨4, {}⟩, qSampled := 3 }
      { bare with bankA := drivingBank, active := some .a })
    s.due = [] ∧ (nth s.inputs 0).qSampled ≤ (nth s.inputs 0).run ∧ (nth s.inputs 0).start = some ⟨4, {}⟩
    ∧ s.driver 0 = none ∧ (after (.tripInputQualified 0) s).driver 0 = some 0 ∧ s.engine.part = .inService
    ∧ (nth s.outputs 0).isolated = false ∧ (nth s.outputs 0).state = .off := by decide +kernel
/-- Input 0 empties the set of output 0, which is ON past its minimum time. -/
theorem witness_TripInputQualifies_falling :
    let s := inPart .inService (withOutput 0 { state := .on, minPassed := true } (withInput 0
      { level := false, qualified := true, run := 3, start := some ⟨4, {}⟩, qSampled := 3 } (driving bare)))
    s.due = [] ∧ (nth s.inputs 0).qSampled ≤ (nth s.inputs 0).run ∧ (nth s.inputs 0).start = some ⟨4, {}⟩
    ∧ s.driver 0 = some 0 ∧ (after (.tripInputQualified 0) s).driver 0 = none
    ∧ (nth s.profiles (nth s.outputs 0).sel).mode = .follow := by decide +kernel
theorem witness_RisingDriveActsByMode :
    let s := inPart .inService (withOutput 1 { isolated := true } (withOutput 2 { state := .on } bare))
    bare.due = [] ∧ bare.engine.part ≠ .inService ∧ s.due = [] ∧ s.engine.part = .inService
    ∧ (nth s.outputs 1).isolated = true ∧ ((nth s.outputs 2).isolated = false ∧ (nth s.outputs 2).state ≠ .off)
    ∧ ((nth s.outputs 0).isolated = false ∧ (nth s.outputs 0).state = .off) := by decide +kernel
/-- Output 23 isolated, output 0 OFF; and a mask that names output 24. -/
theorem witness_RisingDriveActsByMode_remote :
    let s := posted 0 15 [1, 0, 0x80] (inPart .inService (withOutput 23 { isolated := true } bare))
    Ready 0 .remoteTrip [1, 0, 0x80] s ∧ s.engine.part = .inService ∧ longAt (resultData [1, 0, 0x80]) 0 < 2 ^ 24
    ∧ (longAt (resultData [1, 0, 0x80]) 0).testBit 23 = true ∧ (nth s.outputs 23).isolated = true
    ∧ (longAt (resultData [1, 0, 0x80]) 0).testBit 0 = true ∧ (nth s.outputs 0).state = .off
    ∧ (let u := posted 0 15 [0, 0, 0, 1] (inPart .inService bare)
      Ready 0 .remoteTrip [0, 0, 0, 1] u ∧ u.engine.part = .inService ∧ 2 ^ 24 ≤ longAt (resultData [0, 0, 0, 1]) 0) := by
  decide +kernel
theorem witness_OutputsLetGoByMode_falling :
    let s := inPart .inService (withOutput 1 { state := .on, minPassed := true } (driving bare))
    s.due = [] ∧ (nth s.profiles (nth s.outputs 1).sel).mode = .follow ∧ (nth s.outputs 1).state = .on
    ∧ (nth s.outputs 1).minPassed = true ∧ (nth s.outputs 2).state ≠ .on ∧ s.driver 0 = some 0
    ∧ nth (Vector.replicate 24 (some (3 : Fin 32))) (0 : Fin 24) = some 3 := by decide +kernel
/-- An output whose set has filled, one whose set has emptied, and one with another driver than before. -/
theorem witness_OutputsLetGoByMode_edges :
    let before : Vector (Option (Fin 32)) 24 := upd (Vector.replicate 24 (some 3)) 23 none
    let s := driving bare
    (nth (Vector.replicate 24 none) (0 : Fin 24) = (none : Option (Fin 32)) ∧ s.driver 0 = some 0)
    ∧ (nth before 1 = some 3 ∧ s.driver 1 = none) ∧ (nth before 0 = some 3 ∧ (3 : Fin 32) ≠ 0)
    ∧ s.driver 23 = nth before 23 ∧ s.mem.wf = true := by decide +kernel
theorem witness_OutputsLetGoByMode_timer :
    let s := atTime 100 (inPart .inService (withOutput 1 { state := .on, onTimer := some 100 }
      (withOutput 0 { state := .on, onTimer := some 100 } (driving bare))))
    s.due = [] ∧ (nth s.outputs 1).state = .on ∧ (nth s.outputs 1).onTimer = some 100 ∧ 100 ≤ s.now ∧ (atTime 99 s).now < 100
    ∧ (nth s.profiles (nth s.outputs 1).sel).mode = .follow ∧ s.driven 1 = false
    ∧ (nth s.outputs 0).state = .on ∧ (nth s.outputs 0).onTimer = some 100
    ∧ (nth s.profiles (nth s.outputs 0).sel).mode = .follow ∧ s.driven 0 = true := by decide +kernel
/-- Output 0 LATCHED and driven, output 23 LATCHED and not. -/
theorem witness_OutputsLetGoByMode_lockout :
    let s := posted 0 16 [1, 0, 0x80] (withOutput 0 { state := .latched } (withOutput 23 { state := .latched } (driving bare)))
    Ready 0 .resetLockout [1, 0, 0x80] s ∧ longAt (resultData [1, 0, 0x80]) 0 < 2 ^ 24
    ∧ ((longAt (resultData [1, 0, 0x80]) 0).testBit 0 = true ∧ (nth s.outputs 0).state = .latched ∧ s.driven 0 = true)
    ∧ ((longAt (resultData [1, 0, 0x80]) 0).testBit 23 = true ∧ (nth s.outputs 23).state = .latched ∧ s.driven 23 = false)
    ∧ Ready 0 .resetLockout [0, 0, 0, 1] (posted 0 16 [0, 0, 0, 1] bare) := by decide +kernel
theorem witness_FeedbackSampleJudgesTimers :
    let s := atTime 1 bare
    s.due = [] ∧ s.sched.feedbackFrom ≤ s.now ∧ s.supply.state = .present ∧ bare.now < bare.sched.feedbackFrom
    ∧ ({ bare with supply := { state := .lost } } : State).supply.state ≠ .present := by decide +kernel
theorem witness_SupervisionDeadlinesSetFaults :
    let x : Output := { operate := some 20, release := some 20, opening := some 20, clearing := some 20 }
    let s := atTime 20 (withOutput 23 x bare)
    s.due = [] ∧ 20 ≤ s.now ∧ (nth s.outputs 23).operate = some 20 ∧ (nth s.outputs 23).release = some 20
    ∧ (nth s.outputs 23).opening = some 20 ∧ (nth s.outputs 23).clearing = some 20 := by decide +kernel
theorem witness_SupplySamplesAreCounted :
    let s := fun n => atTime 1 { bare with supply := { absence := n } }
    let l := atTime 1 { bare with supply := { state := .lost } }
    bare.due = [] ∧ (s 8).sched.supplyFrom ≤ (s 8).now ∧ (s 8).supply.state ≠ .lost ∧ (s 8).supply.absence < 9
    ∧ (s 9).supply.absence = 9 ∧ 10 ≤ (s 10).supply.absence ∧ l.supply.state = .lost
    ∧ l.sched.supplyFrom ≤ l.now := by decide +kernel
theorem witness_SupplySettlesAndResumes :
    let s := atTime 900 { bare with supply := { state := .settling, settle := some 900 } }
    s.due = [] ∧ s.supply.state = .settling ∧ s.supply.settle = some 900 ∧ 900 ≤ s.now ∧ (atTime 899 s).now < 900 := by
  decide +kernel
theorem witness_RunTimeRisesWithTheDay :
    let s := { bare with time := { bare.time with run := 2 ^ 48 - 2, day := 65535, ms := 86399999 } }
    s.time.run + 1 < 2 ^ 48 ∧ s.clockHolds := by decide +kernel

/-- A clock with sync on at this ms of day. -/
def synced (ms spurious : Nat) : State :=
  { bare with time := { bare.time with ms := ms, valid := true, syncEnabled := true, spurious := spurious } }
/-- At 500, 501, 59,499 and 59,500 ms of a minute, at the second and the third spurious pulse; a second edge; and VALID
clear. -/
theorem witness_SyncPulseIsJudged :
    (∀ ms ∈ [500, 501, 59499, 59500, 86399999], ∀ n ∈ [1, 2],
      (synced ms n).clockHolds ∧ (synced ms n).time.lastEdge ≠ some (synced ms n).now
      ∧ (synced ms n).time.valid = true ∧ (synced ms n).time.syncEnabled = true ∧ (synced ms n).due = []
      ∧ (synced ms n).time.fault = false)
    ∧ (let s := { bare with time := { bare.time with lastEdge := some 0 } }
      s.clockHolds ∧ s.time.lastEdge = some s.now)
    ∧ bare.clockHolds ∧ bare.time.lastEdge ≠ some bare.now ∧ bare.time.valid = false := by decide +kernel
theorem witness_SyncMissRaisesFault :
    let s := atTime 65000 { bare with time := { bare.time with missTimer := some 65000 } }
    let t := { s with time := { s.time with fault := true } }
    s.due = [] ∧ s.time.missTimer = some 65000 ∧ 65000 ≤ s.now ∧ s.time.fault = false ∧ s.filters .clock = false
    ∧ t.time.missTimer = some 65000 ∧ t.time.fault = true := by decide +kernel

/-- The reset state with a command waiting meets every invariant that a step keeps, and a step from it gives a state. -/
def startable : State := { State.reset with pending := [.leakStep] }
theorem witness_StepKeepsMemoryForm : startable.memoryHolds := by decide +kernel
theorem witness_StepKeepsClockInRange : startable.clockHolds := by decide +kernel
theorem witness_StepKeepsWindowsApart :
    (withPoint 7 { settings := { enabled := true, hasWindow := true, window := 9 } } bare).windowsHold :=
  one_enabled_point_shares_no_window _
theorem witness_StepKeepsLinkLaws : startable.linksHold := by decide +kernel
theorem witness_StepKeepsBankAndInputLaws : startable.banksHold ∧ startable.inputsHold := by decide +kernel
theorem witness_StepKeepsOutputsGated : startable.outputsHold := by decide +kernel
theorem witness_StepKeepsJournalLaws : startable.journalHolds := by decide +kernel
/-- A state in which every law holds: that of `bare`. -/
theorem witness_StepKeepsSound : ({ bare with pending := [.leakStep] } : State).Sound where
  memory := by decide +kernel
  clock := by decide +kernel
  points := by decide +kernel
  windows := fun p q _ => by
    have : (nth ({ bare with pending := [.leakStep] } : State).points p).settings.enabled = false := all_bare_disabled p
    simp [sharesWindow, this]
  horns := by decide +kernel
  marks := by decide +kernel
  contacts := by decide +kernel
  links := by decide +kernel
  inputs := by decide +kernel
  banks := by decide +kernel
  outputs := by decide +kernel
  timers := by decide +kernel
  supply := by decide +kernel
  journal := by decide +kernel
  slots := by decide +kernel
  due := rfl
theorem witness_step_gives_next_state : ∃ t, step startable = .next t := ⟨_, rfl⟩

end Sys2Proof.Tests
end

section
/-! SUPPORT. What an offer of a record may change, and what every operation of the alarm side is made of: calm edits of a
point, zones, groups, memory, and offers of records.  A relation that those keep is kept by every such operation. -/

namespace Sys2Proof.Machine

/-! ## Offers of records -/

/-- A relation kept by memory, the journal, and what becomes of a report of point 252 or 253. -/
structure JournalClosed (rep : Report → State → State) (R : State → State → Prop) : Prop where
  refl : ∀ s, R s s
  trans : ∀ {s t u}, R s t → R t u → R s u
  mem : ∀ s m, R s { s with mem := m }
  journal : ∀ s j, R s { s with journal := j }
  rep : ∀ r s, journalPoint r.point → R s (rep r s)

namespace JournalClosed

variable {rep : Report → State → State} {R : State → State → Prop} (h : JournalClosed rep R)
include h

theorem showQueue (s : State) : R s (State.showQueue s) := h.mem s _
theorem showNextSeq (s : State) : R s (State.showNextSeq s) := h.mem s _
theorem showNextPage (s : State) : R s (State.showNextPage s) := h.mem s _
theorem showFilling (s : State) : R s (State.showFilling s) := h.mem s _
theorem showWaiting (s : State) : R s (State.showWaiting s) := h.mem s _
theorem showLost (s : State) : R s (State.showLost s) := h.mem s _
theorem putBytes (a : Nat) (bs : List Byte) (s : State) : R s (s.putBytes a bs) := h.mem s _
theorem putMapState (e : Fin 32) (c : Word) (s : State) : R s (s.putMapState e c) := h.mem s _

theorem stage (r : Record) (s : State) : R s (Machine.stage r s) :=
  h.trans (h.trans (h.journal s _) (h.showQueue _)) (h.showNextSeq _)

theorem rejectEntry (s : State) : R s (Machine.rejectEntry s) :=
  h.trans (h.trans (h.putMapState _ _ s) (h.journal _ _)) (h.showQueue _)

theorem refuse (b : Bool) (s : State) : R s (Machine.refuse rep b s) := by
  unfold Machine.refuse
  split
  · exact h.trans (h.trans (h.journal s _) (h.showLost _)) (h.rep _ _ (.inr rfl))
  · exact h.trans (h.journal s _) (h.showLost _)

theorem overflow (s : State) : R s (Machine.overflow rep s) := by
  unfold Machine.overflow
  split
  · exact h.refl s
  · exact h.trans (h.trans (h.trans (h.stage _ s) (h.journal _ _)) (h.showLost _)) (h.rep _ _ (.inr rfl))

theorem writeHead (s : State) : R s (Machine.writeHead rep s) := by
  unfold Machine.writeHead
  split
  · exact h.trans (h.trans (h.trans (h.trans (h.trans (h.putBytes _ _ s) (h.journal _ _)) (h.showQueue _))
      (h.overflow _)) (h.journal _ _)) (h.showFilling _)
  · exact h.refl s

theorem noPage (s : State) : R s (Machine.noPage rep s) := by
  unfold Machine.noPage
  split
  · exact h.refl s
  · exact h.trans (h.trans (h.journal s _) (h.showWaiting _)) (h.rep _ _ (.inl rfl))

theorem openPage (page : Nat) (s : State) : R s (Machine.openPage rep page s) := by
  unfold Machine.openPage
  have h1 : ∀ j, R s (Machine.writeHead rep (State.showNextPage (State.showFilling
      { s.putMapState s.journal.cursor 2 with journal := j }))) := fun j =>
    h.trans (h.trans (h.trans (h.trans (h.putMapState _ _ s) (h.journal _ _)) (h.showFilling _)) (h.showNextPage _))
      (h.writeHead _)
  dsimp only
  split
  · exact h.trans (h.trans (h.trans (h1 _) (h.journal _ _)) (h.showWaiting _)) (h.rep _ _ (.inl rfl))
  · exact h1 _

theorem attemptFrom (n : Nat) (s : State) : R s (Machine.attemptFrom rep n s) := by
  induction n generalizing s with
  | zero => exact h.noPage s
  | succ n ih =>
    unfold Machine.attemptFrom
    split
    · exact h.noPage s
    · split
      · exact h.openPage _ s
      · exact h.trans (h.rejectEntry s) (ih _)

theorem attempt (s : State) : R s (Machine.attempt rep s) := by
  unfold Machine.attempt
  split
  · exact h.attemptFrom 32 s
  · exact h.refl s

theorem offerWith (r : Record) (s : State) : R s (Machine.offerWith rep r s) := by
  unfold Machine.offerWith
  dsimp only
  split
  · split
    · exact h.trans (h.stage r s) (h.attempt _)
    · exact h.stage r s
  · exact h.refuse _ s

end JournalClosed

/-- Nothing but memory, the journal and the waiting reports differs. -/
def JournalOnly (s t : State) : Prop := t = { s with mem := t.mem, journal := t.journal, due := t.due }

theorem journalOnly_closed : JournalClosed keepReport JournalOnly where
  refl _ := rfl
  trans {s t u} h k := by cases s; cases t; cases u; simp_all [JournalOnly]
  mem _ _ := rfl
  journal _ _ := rfl
  rep _ _ _ := rfl

theorem JournalOnly.same {α : Type} {s t : State} (h : JournalOnly s t) (f : State → α)
    (hf : ∀ m j d, f { s with mem := m, journal := j, due := d } = f s := by intros; rfl) : f t = f s := by
  rw [show t = _ from h]
  exact hf _ _ _

/-- A record offered inside an event of the alarm side changes memory, the journal and the waiting reports alone. -/
theorem offerInside_only (r : Record) (s : State) : JournalOnly s (offerInside r s) := journalOnly_closed.offerWith r s

@[simp] theorem offerInside_classes (r : Record) (s : State) : (offerInside r s).classes = s.classes :=
  (offerInside_only r s).same State.classes
@[simp] theorem offerInside_points (r : Record) (s : State) : (offerInside r s).points = s.points :=
  (offerInside_only r s).same State.points
@[simp] theorem offerInside_zones (r : Record) (s : State) : (offerInside r s).zones = s.zones :=
  (offerInside_only r s).same State.zones
@[simp] theorem offerInside_groups (r : Record) (s : State) : (offerInside r s).groups = s.groups :=
  (offerInside_only r s).same State.groups

/-- A filtered offer is an offer or nothing (R141). -/
theorem offerFiltered_cases (f : Filterable) (r : Record) (s : State) :
    offerFiltered f r s = s ∨ offerFiltered f r s = offerInside r s := by
  unfold offerFiltered
  split
  · exact .inl rfl
  · exact .inr rfl

theorem offerFiltered_only (f : Filterable) (r : Record) (s : State) : JournalOnly s (offerFiltered f r s) := by
  rcases offerFiltered_cases f r s with e | e
  · rw [e]; exact rfl
  · rw [e]; exact offerInside_only r s

@[simp] theorem offerFiltered_classes (f : Filterable) (r : Record) (s : State) :
    (offerFiltered f r s).classes = s.classes := (offerFiltered_only f r s).same State.classes
@[simp] theorem offerFiltered_points (f : Filterable) (r : Record) (s : State) :
    (offerFiltered f r s).points = s.points := (offerFiltered_only f r s).same State.points
@[simp] theorem offerFiltered_zones (f : Filterable) (r : Record) (s : State) :
    (offerFiltered f r s).zones = s.zones := (offerFiltered_only f r s).same State.zones
@[simp] theorem offerFiltered_groups (f : Filterable) (r : Record) (s : State) :
    (offerFiltered f r s).groups = s.groups := (offerFiltered_only f r s).same State.groups

/-- The POINT record is offered or not (R27). -/
theorem offerPoint_only (p : Fin 256) (x : Point) (q : SeqState) (c : Change) (s : State) :
    JournalOnly s (offerPoint p x q c s) := by
  unfold offerPoint
  split
  · exact offerInside_only _ s
  · exact offerFiltered_only _ _ s

@[simp] theorem offerPoint_points (p : Fin 256) (x : Point) (q : SeqState) (c : Change) (s : State) :
    (offerPoint p x q c s).points = s.points := (offerPoint_only p x q c s).same State.points
@[simp] theorem offerPoint_zones (p : Fin 256) (x : Point) (q : SeqState) (c : Change) (s : State) :
    (offerPoint p x q c s).zones = s.zones := (offerPoint_only p x q c s).same State.zones
@[simp] theorem offerPoint_groups (p : Fin 256) (x : Point) (q : SeqState) (c : Change) (s : State) :
    (offerPoint p x q c s).groups = s.groups := (offerPoint_only p x q c s).same State.groups

/-! ## The operations of the alarm side -/

/-- An edit of a point that leaves its settings, its contact state and its stale flag. -/
def Point.calm (x y : Point) : Prop := y.settings = x.settings ∧ y.contact = x.contact ∧ y.stale = x.stale

/-- A relation kept by what an event of the alarm side is made of. -/
structure InsideClosed (R : State → State → Prop) : Prop where
  refl : ∀ s, R s s
  trans : ∀ {s t u}, R s t → R t u → R s u
  mem : ∀ s m, R s { s with mem := m }
  zones : ∀ s v, R s { s with zones := v }
  groups : ∀ s v, R s { s with groups := v }
  points : ∀ s v, (∀ p, (nth s.points p).calm (nth v p)) → R s { s with points := v }
  offer : ∀ r s, R s (Machine.offerInside r s)

theorem Point.calm_refl (x : Point) : x.calm x := ⟨rfl, rfl, rfl⟩

namespace InsideClosed

variable {R : State → State → Prop} (h : InsideClosed R)
include h

/-- The last step first, so that the state between is read from the goal. -/
theorem back {s t u : State} (k : R t u) (j : R s t) : R s u := h.trans j k

theorem foldl {α : Type} (f : State → α → State) (l : List α) (s : State) (hf : ∀ s a, a ∈ l → R s (f s a)) :
    R s (l.foldl f s) := by
  induction l generalizing s with
  | nil => exact h.refl s
  | cons a l ih =>
    exact h.trans (hf s a List.mem_cons_self) (ih (f s a) fun t b hb => hf t b (List.mem_cons_of_mem _ hb))

theorem offerFiltered (f : Filterable) (r : Record) (s : State) : R s (Machine.offerFiltered f r s) := by
  rcases offerFiltered_cases f r s with e | e
  · rw [e]; exact h.refl s
  · rw [e]; exact h.offer r s

theorem offerPoint (p : Fin 256) (x : Point) (q : SeqState) (c : Change) (s : State) :
    R s (Machine.offerPoint p x q c s) := by
  unfold Machine.offerPoint
  split
  · exact h.offer _ s
  · exact h.offerFiltered _ _ s

theorem point (s : State) (p : Fin 256) (y : Point) (hy : (nth s.points p).calm y) :
    R s { s with points := upd s.points p y } := by
  refine h.points s _ fun q => ?_
  rw [nth_upd]
  split
  · next e => exact e ▸ hy
  · exact (nth s.points q).calm_refl

/-- A calm edit shown in the point's mirror word. -/
theorem editShown (p : Fin 256) (y : Point) (s : State) (hy : (nth s.points p).calm y) :
    R s (State.showPoint p (Machine.putPoint p y s)) := h.trans (h.point s p y hy) (h.mem _ _)

/-! ### The First-Out Unit -/

theorem setMark (p : Fin 256) (m : Bool) (s : State) : R s (Machine.setMark p m s) :=
  h.editShown p _ s ⟨rfl, rfl, rfl⟩

theorem putGroup (g : Fin 16) (x : Group) (s : State) : R s (Machine.putGroup g x s) :=
  h.trans (h.groups s _) (h.mem _ _)

theorem latch (g : Fin 16) (s : State) : R s (Machine.latch g s) := by
  unfold Machine.latch
  dsimp only
  split
  · exact h.putGroup g _ s
  · refine h.back (h.offer _ _) (h.back (h.putGroup g _ _) ?_)
    split
    · exact h.setMark _ _ s
    · exact h.refl s

theorem alertReport (g : Fin 16) (p : Fin 256) (t : Nat) (s : State) : R s (Machine.alertReport g p t s) := by
  unfold Machine.alertReport
  dsimp only
  split
  · split
    · exact h.back (h.latch g _) (h.putGroup g _ s)
    · exact h.putGroup g _ s
  · exact h.putGroup g _ s
  · exact h.refl s

theorem unmarkGroup (p : Fin 256) (s : State) (g : Fin 16) : R s (Machine.unmarkGroup p s g) := by
  unfold Machine.unmarkGroup
  dsimp only
  split
  · exact h.putGroup g _ s
  · exact h.refl s

theorem clearMark (p : Fin 256) (s : State) : R s (Machine.clearMark p s) := by
  unfold Machine.clearMark
  split
  · exact h.back (h.foldl _ _ _ fun u g _ => h.unmarkGroup p u g) (h.setMark p _ s)
  · exact h.refl s

theorem rearm (o : FirstOutcome) (g : Fin 16) (s : State) : R s (Machine.rearm o g s) := by
  unfold Machine.rearm
  dsimp only
  refine h.back (h.putGroup g _ _) (h.back (h.offer _ _) ?_)
  split
  · exact h.setMark _ _ s
  · exact h.refl s

theorem rearmReset (s : State) (g : Fin 16) : R s (Machine.rearmReset s g) := by
  unfold Machine.rearmReset
  split
  · exact h.rearm _ g s
  · exact h.refl s

theorem rearmLoad (s : State) (g : Fin 16) : R s (Machine.rearmLoad s g) := by
  unfold Machine.rearmLoad
  split
  · exact h.rearm _ g s
  · exact h.refl s

/-! ### The Sequence Unit -/

theorem putZone (z : Fin 8) (x : Zone) (s : State) : R s (Machine.putZone z x s) := by
  unfold Machine.putZone
  dsimp only
  split
  · exact h.refl s
  · exact h.trans (h.zones s _) (h.mem _ _)

theorem rejudgeZone (z : Fin 8) (s : State) : R s (Machine.rejudgeZone z s) := h.putZone z _ s

theorem takeChange (p : Fin 256) (c : Change) (s : State) : R s (Machine.takeChange p c s) := by
  unfold Machine.takeChange
  dsimp only
  refine h.back (h.putZone _ _ _) ?_
  have h1 : R s (Machine.offerPoint p { nth s.points p with seq := (nth s.points p).afterChange c } (nth s.points p).seq c
      (State.showPoint p (Machine.putPoint p { nth s.points p with seq := (nth s.points p).afterChange c } s))) :=
    h.back (h.offerPoint _ _ _ _ _) (h.editShown p _ s ⟨rfl, rfl, rfl⟩)
  split
  · exact h.back (h.alertReport _ p _ _) h1
  · exact h1

theorem quieten (p : Fin 256) (s : State) : R s (Machine.quieten p s) :=
  h.back (h.rejudgeZone _ _) (h.editShown p _ s ⟨rfl, rfl, rfl⟩)

theorem actPoint (a : Action) (t : Target) (s : State) (p : Fin 256) : R s (Machine.actPoint a t s p) := by
  unfold Machine.actPoint
  dsimp only
  split
  · exact h.back (h.zones _ _) (h.editShown p _ s ⟨rfl, rfl, rfl⟩)
  · exact h.refl s

theorem actZone (a : Action) (t : Target) (old : Vector Zone 8) (s : State) (z : Fin 8) :
    R s (Machine.actZone a t old s z) := by
  unfold Machine.actZone
  dsimp only
  split
  · exact h.zones s _
  · exact h.trans (h.zones s _) (h.mem _ _)

theorem applyAction (a : Action) (t : Target) (o : Nat) (s : State) : R s (Machine.applyAction a t o s) := by
  unfold Machine.applyAction
  dsimp only
  have h1 : R s (Machine.offerFiltered .action (actionRecord a t o (moved a t s) s.stamp)
      ((List.finRange 8).foldl (Machine.actZone a t s.zones) ((List.finRange 256).foldl (Machine.actPoint a t) s))) :=
    h.back (h.offerFiltered _ _ _) (h.back (h.foldl _ _ _ fun u z _ => h.actZone a t _ u z)
      (h.foldl _ _ s fun u p _ => h.actPoint a t u p))
  split
  · exact h.back (h.foldl _ _ _ fun u g _ => h.rearmReset u g) h1
  · exact h1

/-! ### The Point Filter -/

theorem accept (p : Fin 256) (c : Change) (s : State) : R s (Machine.accept p c s) :=
  h.back (h.takeChange p c _) (h.editShown p _ s ⟨rfl, rfl, rfl⟩)

theorem startChange (p : Fin 256) (t : Nat) (st : Stamp) (a : Bool) (s : State) :
    R s (Machine.startChange p t st a s) := by
  unfold Machine.startChange
  dsimp only
  split
  · exact h.accept p _ s
  · exact h.point s p _ ⟨rfl, rfl, rfl⟩

theorem releaseHold (p : Fin 256) (s : State) : R s (Machine.releaseHold p s) := by
  unfold Machine.releaseHold
  dsimp only
  have h1 := h.back (h.offerFiltered .chatter
    (chatterRecord p { nth s.points p with held := false } true s.stamp) _)
    (h.editShown p { nth s.points p with held := false } s ⟨rfl, rfl, rfl⟩)
  split
  · exact h.back (h.accept p _ _) h1
  · exact h1

theorem leakRelease (s : State) (p : Fin 256) : R s (Machine.leakRelease s p) := by
  unfold Machine.leakRelease
  dsimp only
  split
  · exact h.releaseHold p s
  · exact h.refl s

theorem releaseWeightless (s : State) (p : Fin 256) : R s (Machine.releaseWeightless s p) := by
  unfold Machine.releaseWeightless
  dsimp only
  split
  · exact h.releaseHold p s
  · exact h.refl s

theorem recoverPoint (k : Fin 4) (r : Receipt) (s : State) (j : Fin 48) : R s (Machine.recoverPoint k r s j) := by
  unfold Machine.recoverPoint
  dsimp only
  split
  · exact h.startChange _ _ _ _ s
  · exact h.refl s

/-- A contact report is the new contact state, and then calm changes (R1, R6, R9). -/
theorem contactReport (p : Fin 256) (c : Contact) (t : Int) (st : Stamp) (a : Bool) (s : State) :
    R (Machine.putPoint p { nth s.points p with contact := c } s) (Machine.contactReport p c t st a s) := by
  have h1 : ∀ y : Point, ({ nth s.points p with contact := c } : Point).calm y →
      R (Machine.putPoint p { nth s.points p with contact := c } s) (Machine.putPoint p y s) := by
    intro y hy
    have := h.point (Machine.putPoint p { nth s.points p with contact := c } s) p y (by simpa using hy)
    simpa [Machine.putPoint, upd] using this
  have hz : ∀ x : Point, x.calm (x.ordered t st a) := by
    intro x
    unfold Point.ordered
    split <;> exact ⟨rfl, rfl, rfl⟩
  unfold Machine.contactReport
  dsimp only
  split
  · exact h.refl _
  · obtain ⟨c1, c2, c3⟩ := hz { nth s.points p with contact := c }
    generalize { nth s.points p with contact := c } = x at h1 c1 c2 c3
    unfold Machine.transition
    dsimp only
    split
    · exact h1 _ ⟨c1, c2, c3⟩
    · split
      · exact h.back (h.offerFiltered _ _ _) (h.back (h.mem _ _) (h1 _ ⟨c1, c2, c3⟩))
      · split
        · exact h.back (h.startChange p _ _ _ _) (h1 _ ⟨c1, c2, c3⟩)
        · exact h1 _ ⟨c1, c2, c3⟩

/-! ### The orders of the alarm side -/

theorem becomeDisabled (p : Fin 256) (s : State) : R s (Machine.becomeDisabled p s) :=
  h.back (h.clearMark p _) (h.back (h.quieten p _) (h.point s p _ ⟨rfl, rfl, rfl⟩))

theorem becomeEnabled (p : Fin 256) (s : State) : R s (Machine.becomeEnabled p s) := by
  unfold Machine.becomeEnabled
  dsimp only
  have h1 := h.editShown p { nth s.points p with
    bucket := 0, held := false, shelved := false, waiting := none, lastTime := s.now, lastStamp := s.stamp,
    lastApprox := false, accepted := (nth s.points p).raw } s ⟨rfl, rfl, rfl⟩
  split
  · exact h.back (h.takeChange p _ _) h1
  · exact h1

theorem stayEnabled (p : Fin 256) (o : Settings) (s : State) : R s (Machine.stayEnabled p o s) := by
  unfold Machine.stayEnabled
  dsimp only
  have h1 : R s (if displayChanged o (nth s.points p).settings = true then State.showPoint p s else s) := by
    split
    · exact h.mem s _
    · exact h.refl s
  refine h.back (h.releaseWeightless _ p) ?_
  split
  · exact h.back (h.clearMark p _) h1
  · exact h1

theorem treatPoint (o : Vector Settings 256) (s : State) (p : Fin 256) : R s (Machine.treatPoint o s p) := by
  unfold Machine.treatPoint
  dsimp only
  refine h.back (h.rejudgeZone _ _) (h.back (h.rejudgeZone _ _) ?_)
  split
  · split
    · exact h.becomeEnabled p s
    · exact h.refl s
  · split
    · exact h.becomeDisabled p s
    · split
      · exact h.back (h.becomeEnabled p _) (h.becomeDisabled p s)
      · exact h.stayEnabled p _ s

end InsideClosed

end Sys2Proof.Machine
end

section
/-! SUPPORT. What the events of the part are made of, outside the alarm side: changes of the items of the other blocks, offers
of records, contact reports and operator actions.  A relation that those keep is kept by every such operation, and which
items an operation may change is one relation of this kind. -/

namespace Sys2Proof.Machine

/-- The items outside the alarm side and the journal that a law of the part speaks of. -/
inductive Item where
  | time | classes | links | inputs | bankA | bankB | active | outputs | profiles | supply | part | pointsJob | matrixJob
  | settings

/-- An item is the same in both states. -/
def Item.same (s t : State) : Item → Prop
  | .time => t.time = s.time
  | .classes => t.classes = s.classes
  | .links => t.links = s.links
  | .inputs => t.inputs = s.inputs
  | .bankA => t.bankA = s.bankA
  | .bankB => t.bankB = s.bankB
  | .active => t.active = s.active
  | .outputs => t.outputs = s.outputs
  | .profiles => t.profiles = s.profiles
  | .supply => t.supply = s.supply
  | .part => t.engine.part = s.engine.part
  | .pointsJob => t.engine.loadPoints = s.engine.loadPoints
  | .matrixJob => t.engine.loadMatrix = s.engine.loadMatrix
  | .settings => ∀ p, (nth t.points p).settings = (nth s.points p).settings

theorem Item.same_refl (s : State) (x : Item) : x.same s s := by
  cases x <;> first | exact rfl | exact fun _ => rfl

theorem Item.same_trans {s t u : State} (x : Item) (h : x.same s t) (k : x.same t u) : x.same s u := by
  cases x <;> first | exact Eq.trans k h | exact fun p => (k p).trans (h p)

/-- Of the items, at most those of `F` differ. -/
def Within (F : Item → Prop) (s t : State) : Prop := ∀ x, ¬F x → x.same s t

/-- Of the items at most those of `F` differ, and nothing of the alarm side and the journal does. -/
structure Still (F : Item → Prop) (s t : State) : Prop where
  points : t.points = s.points
  zones : t.zones = s.zones
  groups : t.groups = s.groups
  journal : t.journal = s.journal
  due : t.due = s.due
  classes : t.classes = s.classes
  items : Within F s t

/-- A relation kept by changes of the items of `F`, by records, and by the contact reports that `K` names. -/
structure EventClosed (F : Item → Prop) (K : Fin 256 → Contact → Prop) (R : State → State → Prop) : Prop where
  refl : ∀ s, R s s
  trans : ∀ {s t u}, R s t → R t u → R s u
  still : ∀ s t, Still F s t → R s t
  offer : ∀ r s, R s (Machine.offer r s)
  contact : ∀ p c t st a s, K p c → R s (Machine.takeContact p c t st a s)
  act : ∀ a t o s, R s (endAlarm (Machine.applyAction a t o s))
  stale : ∀ k s, (∀ j b, K (fieldPoint k j) (contactOf b)) → R s (Machine.panelStale k s)
  recovered : ∀ k r s, (∀ j b, K (fieldPoint k j) (contactOf b)) → R s (Machine.recovered k r s)

/-- The contact state of an internal point whose condition is this. -/
def conditionOf (b : Bool) : Contact := if b then .present else .absent

namespace EventClosed

variable {F : Item → Prop} {K : Fin 256 → Contact → Prop} {R : State → State → Prop} (h : EventClosed F K R)
include h

theorem back {s t u : State} (k : R t u) (j : R s t) : R s u := h.trans j k

theorem foldl {α : Type} (f : State → α → State) (l : List α) (s : State) (hf : ∀ s a, a ∈ l → R s (f s a)) :
    R s (l.foldl f s) := by
  induction l generalizing s with
  | nil => exact h.refl s
  | cons a l ih =>
    exact h.trans (hf s a List.mem_cons_self) (ih (f s a) fun t b hb => hf t b (List.mem_cons_of_mem _ hb))

/-! ## Changes of single items -/

theorem mem (s : State) (m : Memory) : R s { s with mem := m } :=
  h.still _ _ ⟨rfl, rfl, rfl, rfl, rfl, rfl, fun x _ => Item.same_refl s x⟩

theorem sched (s : State) (v : Schedule) : R s { s with sched := v } :=
  h.still _ _ ⟨rfl, rfl, rfl, rfl, rfl, rfl, fun x _ => Item.same_refl s x⟩

theorem panels (s : State) (v : Vector Panel 4) : R s { s with panels := v } :=
  h.still _ _ ⟨rfl, rfl, rfl, rfl, rfl, rfl, fun x _ => Item.same_refl s x⟩

theorem time (hF : F .time) (s : State) (v : TimeBase) : R s { s with time := v } :=
  h.still _ _ ⟨rfl, rfl, rfl, rfl, rfl, rfl, fun x hx => by cases x <;> first | exact absurd hF hx | exact rfl | exact fun _ => rfl⟩

theorem links (hF : F .links) (s : State) (v : Vector Link 4) : R s { s with links := v } :=
  h.still _ _ ⟨rfl, rfl, rfl, rfl, rfl, rfl, fun x hx => by cases x <;> first | exact absurd hF hx | exact rfl | exact fun _ => rfl⟩

theorem inputs (hF : F .inputs) (s : State) (v : Vector TripInput 32) : R s { s with inputs := v } :=
  h.still _ _ ⟨rfl, rfl, rfl, rfl, rfl, rfl, fun x hx => by cases x <;> first | exact absurd hF hx | exact rfl | exact fun _ => rfl⟩

theorem active (hF : F .active) (s : State) (v : Option BankId) : R s { s with active := v } :=
  h.still _ _ ⟨rfl, rfl, rfl, rfl, rfl, rfl, fun x hx => by cases x <;> first | exact absurd hF hx | exact rfl | exact fun _ => rfl⟩

theorem outputs (hF : F .outputs) (s : State) (v : Vector Output 24) : R s { s with outputs := v } :=
  h.still _ _ ⟨rfl, rfl, rfl, rfl, rfl, rfl, fun x hx => by cases x <;> first | exact absurd hF hx | exact rfl | exact fun _ => rfl⟩

theorem profiles (hF : F .profiles) (s : State) (v : Vector Profile 4) : R s { s with profiles := v } :=
  h.still _ _ ⟨rfl, rfl, rfl, rfl, rfl, rfl, fun x hx => by cases x <;> first | exact absurd hF hx | exact rfl | exact fun _ => rfl⟩

theorem supply (hF : F .supply) (s : State) (v : Supply) : R s { s with supply := v } :=
  h.still _ _ ⟨rfl, rfl, rfl, rfl, rfl, rfl, fun x hx => by cases x <;> first | exact absurd hF hx | exact rfl | exact fun _ => rfl⟩

theorem setBank (hA : F .bankA) (hB : F .bankB) (b : BankId) (x : Bank) (s : State) : R s (s.setBank b x) := by
  cases b <;> refine h.still _ _ ⟨rfl, rfl, rfl, rfl, rfl, rfl, fun x hx => ?_⟩
  · cases x <;> first | exact absurd hA hx | exact rfl | exact fun _ => rfl
  · cases x <;> first | exact absurd hB hx | exact rfl | exact fun _ => rfl

/-- A change of the Order Engine's items that no law speaks of. -/
theorem engine (s : State) (e : Engine) (h1 : e.part = s.engine.part := by rfl)
    (h2 : e.loadPoints = s.engine.loadPoints := by rfl) (h3 : e.loadMatrix = s.engine.loadMatrix := by rfl) :
    R s { s with engine := e } :=
  h.still _ _ ⟨rfl, rfl, rfl, rfl, rfl, rfl, fun x _ => by
    cases x <;> first | exact h1 | exact h2 | exact h3 | exact rfl | exact fun _ => rfl⟩

theorem part (hF : F .part) (s : State) (p : PartState) : R s { s with engine := { s.engine with part := p } } :=
  h.still _ _ ⟨rfl, rfl, rfl, rfl, rfl, rfl, fun x hx => by cases x <;> first | exact absurd hF hx | exact rfl | exact fun _ => rfl⟩

theorem pointsJob (hF : F .pointsJob) (s : State) (j : Option ImageJob) :
    R s { s with engine := { s.engine with loadPoints := j } } :=
  h.still _ _ ⟨rfl, rfl, rfl, rfl, rfl, rfl, fun x hx => by cases x <;> first | exact absurd hF hx | exact rfl | exact fun _ => rfl⟩

theorem matrixJob (hF : F .matrixJob) (s : State) (j : Option ImageJob) :
    R s { s with engine := { s.engine with loadMatrix := j } } :=
  h.still _ _ ⟨rfl, rfl, rfl, rfl, rfl, rfl, fun x hx => by cases x <;> first | exact absurd hF hx | exact rfl | exact fun _ => rfl⟩

theorem setJob (hP : F .pointsJob) (hM : F .matrixJob) (o : ImageOrder) (j : Option ImageJob) (s : State) :
    R s (s.setJob o j) := by
  cases o
  · exact h.pointsJob hP s j
  · exact h.matrixJob hM s j

theorem words (ws : List (Nat × Word)) (s : State) : R s (s.putWords ws) := h.mem s _
theorem showLink (k : Fin 4) (s : State) : R s (State.showLink k s) := h.mem s _
theorem showInput (i : Fin 32) (s : State) : R s (State.showInput i s) := h.mem s _
theorem showOutput (o : Fin 24) (s : State) : R s (State.showOutput o s) := h.mem s _
theorem showSup (o : Fin 24) (s : State) : R s (State.showSup o s) := h.mem s _
theorem showMatrix (s : State) : R s s.showMatrix := h.mem s _
theorem showSupply (s : State) : R s s.showSupply := h.mem s _
theorem showPart (s : State) : R s s.showPart := h.mem s _
theorem showActive (s : State) : R s s.showActive := h.mem s _
theorem showProfile (p : Fin 4) (s : State) : R s (State.showProfile p s) := h.mem s _
theorem showClock (s : State) : R s s.showClock := h.trans (h.mem s _) (h.mem _ _)
theorem raiseAlert (s : State) : R s s.raiseAlert := h.engine s _

theorem offerUnless (f : Filterable) (r : Record) (s : State) : R s (Machine.offerUnless f r s) := by
  unfold Machine.offerUnless
  split
  · exact h.refl s
  · exact h.offer r s

theorem offerClock (r : Record) (s : State) : R s (Machine.offerClock r s) := h.offerUnless _ r s
theorem offerLink (r : Record) (s : State) : R s (Machine.offerLink r s) := h.offerUnless _ r s

theorem reportNow (r : Report) (s : State) (hK : K r.point (conditionOf r.present)) :
    R s (Machine.reportNow r s) := h.contact _ _ _ _ _ s hK

theorem reportCondition (p : Fin 256) (b : Bool) (s : State) (hK : K p (conditionOf b)) :
    R s (Machine.reportCondition p b s) := h.reportNow _ s hK

/-! ## Supervision and outputs -/

section outputs
variable (hO : F .outputs) (hf : ∀ o b, K (faultPoint o) (conditionOf b))
include hO

theorem putOutput (o : Fin 24) (x : Output) (s : State) : R s (Machine.putOutput o x s) := h.outputs hO s _
theorem watchCurrent (o : Fin 24) (s : State) : R s (Machine.watchCurrent o s) := h.putOutput hO o _ s

include hf

theorem changeFault (o : Fin 24) (f : SupFault) (c : SupCause) (s : State) : R s (Machine.changeFault o f c s) := by
  unfold Machine.changeFault
  dsimp only
  have h1 : ∀ r y, R s (Machine.offer r (State.showSup o (Machine.putOutput o y s))) := fun r y =>
    h.back (h.offer r _) (h.back (h.showSup o _) (h.putOutput hO o y s))
  split
  · exact h1 _ _
  · exact h.back (h.reportCondition _ _ _ (hf o _)) (h1 _ _)

theorem supervise (o : Fin 24) (s : State) : R s (Machine.supervise o s) := by
  unfold Machine.supervise
  dsimp only
  split
  · exact h.changeFault hO hf o _ _ s
  · exact h.putOutput hO o _ s

theorem sampleOutput (c1 c2 : BitVec 24) (s : State) (o : Fin 24) : R s (Machine.sampleOutput c1 c2 s o) := by
  unfold Machine.sampleOutput
  dsimp only
  refine h.back (h.supervise hO hf o _) ?_
  split
  · exact h.putOutput hO o _ s
  · exact h.back (h.showSup o _) (h.putOutput hO o _ s)

theorem energize (o : Fin 24) (st : OutState) (t : Option Nat) (c : OutCause) (s : State) :
    R s (Machine.energize o st t c s) :=
  h.back (h.supervise hO hf o _) (h.back (h.watchCurrent hO o _) (h.back (h.offer _ _)
    (h.back (h.showOutput o _) (h.putOutput hO o _ s))))

theorem deenergize (o : Fin 24) (c : OutCause) (s : State) : R s (Machine.deenergize o c s) :=
  h.back (h.supervise hO hf o _) (h.back (h.offer _ _) (h.back (h.showOutput o _) (h.putOutput hO o _ s)))

theorem risingDrive (o : Fin 24) (c : OutCause) (s : State) : R s (Machine.risingDrive o c s) := by
  unfold Machine.risingDrive
  dsimp only
  split
  · exact h.offer _ s
  · split
    · exact h.offer _ s
    · split
      · exact h.refl s
      · split <;> exact h.energize hO hf o _ _ _ s

theorem fallingDrive (o : Fin 24) (s : State) : R s (Machine.fallingDrive o s) := by
  unfold Machine.fallingDrive
  dsimp only
  split
  · exact h.deenergize hO hf o _ s
  · exact h.refl s

theorem expireOnTimer (o : Fin 24) (s : State) : R s (Machine.expireOnTimer o s) := by
  unfold Machine.expireOnTimer
  dsimp only
  split
  · exact h.back (h.deenergize hO hf o _ _) (h.putOutput hO o _ s)
  · split
    · exact h.back (h.showOutput o _) (h.putOutput hO o _ s)
    · exact h.back (h.deenergize hO hf o _ _) (h.putOutput hO o _ s)
  · exact h.putOutput hO o _ s

theorem handEdge (b : Vector (Option (Fin 32)) 24) (s : State) (o : Fin 24) : R s (Machine.handEdge b s o) := by
  unfold Machine.handEdge
  dsimp only
  split
  · exact h.refl s
  · split
    · exact h.back (h.risingDrive hO hf o _ _) (h.showOutput o s)
    · exact h.back (h.fallingDrive hO hf o _) (h.showOutput o s)
    · exact h.showOutput o s

theorem resetOutput (s : State) (o : Fin 24) : R s (Machine.resetOutput s o) := by
  unfold Machine.resetOutput
  split
  · exact h.deenergize hO hf o _ s
  · exact h.refl s

theorem setIsolated (v : Bool) (s : State) (o : Fin 24) : R s (Machine.setIsolated v s o) := by
  unfold Machine.setIsolated
  dsimp only
  refine h.back (h.supervise hO hf o _) ?_
  split
  · exact h.putOutput hO o _ s
  · exact h.back (h.showOutput o _) (h.putOutput hO o _ s)

theorem applyProfile (d : List Byte) (s : State) (o : Fin 24) : R s (Machine.applyProfile d s o) := by
  unfold Machine.applyProfile
  dsimp only
  refine h.back (h.supervise hO hf o _) ?_
  split
  · exact h.putOutput hO o _ s
  · exact h.back (h.showOutput o _) (h.putOutput hO o _ s)

theorem resumeOutput (s : State) (o : Fin 24) : R s (Machine.resumeOutput s o) :=
  h.back (h.supervise hO hf o _) (h.watchCurrent hO o s)

/-! ## The trip supply -/

section supply
variable (hS : F .supply)
include hS
omit hO hf

theorem putSupply (x : Supply) (s : State) : R s (Machine.putSupply x s) := by
  unfold Machine.putSupply
  dsimp only
  split
  · exact h.supply hS s x
  · exact h.back (h.showSupply _) (h.supply hS s x)

theorem returnSupply (h255 : ∀ b, K 255 (conditionOf b)) (s : State) : R s (Machine.returnSupply s) :=
  h.back (h.reportCondition _ _ _ (h255 _)) (h.back (h.offer _ _) (h.putSupply hS _ s))

include hO

theorem loseSupply (h255 : ∀ b, K 255 (conditionOf b)) (s : State) : R s (Machine.loseSupply s) :=
  h.back (h.reportCondition _ _ _ (h255 _)) (h.back (h.offer _ _) (h.back (h.outputs hO _ _) (h.putSupply hS _ s)))

theorem sampleSupply (h255 : ∀ b, K 255 (conditionOf b)) (b : Bool) (s : State) : R s (Machine.sampleSupply b s) := by
  unfold Machine.sampleSupply
  split
  · exact h.returnSupply hS h255 s
  · exact h.refl s
  · exact h.putSupply hS _ s
  · dsimp only
    split
    · exact h.back (h.loseSupply hO hS h255 _) (h.putSupply hS _ s)
    · exact h.putSupply hS _ s

include hf

theorem settleSupply (s : State) : R s (Machine.settleSupply s) :=
  h.back (h.foldl _ _ _ fun u o _ => h.resumeOutput hO hf u o) (h.back (h.offer _ _) (h.putSupply hS _ s))

end supply

/-! ## Trip inputs -/

section inputs
variable (hI : F .inputs) (ht : ∀ i b, K (tripPoint i) (contactOf b))
include hI ht

theorem qualify (i : Fin 32) (s : State) : R s (Machine.qualify i s) :=
  h.back (h.contact _ _ _ _ _ _ (ht i _)) (h.back (h.foldl _ _ _ fun u o _ => h.handEdge hO hf _ u o)
    (h.back (h.offer _ _) (h.back (h.showInput i _) (h.inputs hI s _))))

theorem sampleInput (l : BitVec 32) (s : State) (i : Fin 32) : R s (Machine.sampleInput l s i) := by
  unfold Machine.sampleInput
  dsimp only
  generalize TripInput.sampled (nth s.inputs i) (l.getLsbD i.val) (s.qOf i) s.moment = y
  have h1 : R s (if (nth s.inputs i).shows y = true then
      State.showInput i { s with inputs := upd s.inputs i y } else { s with inputs := upd s.inputs i y }) := by
    split
    · exact h.back (h.showInput i _) (h.inputs hI s _)
    · exact h.inputs hI s _
  split
  · exact h.back (h.qualify hO hf hI ht i _) h1
  · exact h1

end inputs
end outputs

/-! ## The Time Base -/

section time
variable (hT : F .time) (h254 : ∀ b, K 254 (conditionOf b))
include hT h254

theorem raiseSyncFault (c : SyncCause) (s : State) : R s (Machine.raiseSyncFault c s) :=
  h.back (h.reportCondition _ _ _ (h254 _)) (h.back (h.offerClock _ _) (h.back (h.showClock _) (h.time hT s _)))

theorem acceptPulse (c : Int) (s : State) : R s (Machine.acceptPulse c s) := by
  unfold Machine.acceptPulse
  dsimp only
  have h2 : ∀ (p : Prop) [Decidable p] v r, R s (if p then Machine.offerClock r (State.showClock { s with time := v })
      else State.showClock { s with time := v }) := by
    intro p _ v r
    have h1 : R s (State.showClock { s with time := v }) := h.back (h.showClock _) (h.time hT s v)
    split
    · exact h.back (h.offerClock r _) h1
    · exact h1
  split
  · exact h.back (h.reportCondition _ _ _ (h254 _)) (h.back (h.offerClock _ _) (h2 _ _ _))
  · exact h2 _ _ _

theorem spuriousPulse (s : State) : R s (Machine.spuriousPulse s) := by
  unfold Machine.spuriousPulse
  dsimp only
  split
  · exact h.back (h.raiseSyncFault hT h254 _ _) (h.back (h.showClock _) (h.time hT s _))
  · exact h.back (h.showClock _) (h.time hT s _)

theorem judgePulse (s : State) : R s (Machine.judgePulse s) := by
  unfold Machine.judgePulse
  dsimp only
  split
  · exact h.acceptPulse hT h254 _ s
  · exact h.spuriousPulse hT h254 s

theorem setTime (d m : Nat) (b : Bool) (s : State) : R s (Machine.setTime d m b s) := by
  unfold Machine.setTime
  dsimp only
  refine h.back (h.offerClock _ _) (h.back (h.showClock _) ?_)
  split
  · exact h.back (h.reportCondition _ _ _ (h254 _)) (h.back (h.offerClock _ _) (h.time hT s _))
  · exact h.time hT s _

end time

/-! ## Links and panels -/

theorem putPanel (k : Fin 4) (x : Panel) (s : State) : R s (Machine.putPanel k x s) := by
  unfold Machine.putPanel
  dsimp only
  split
  · exact h.panels s _
  · exact h.back (h.mem _ _) (h.panels s _)

theorem panelAction (k : Fin 4) (a : Action) (s : State) : R s (Machine.panelAction k a s) := h.act _ _ _ s

theorem onlyIf (b : Bool) (f : State → State) (s : State) (hf : R s (f s)) : R s (Machine.onlyIf b f s) := by
  unfold Machine.onlyIf
  split
  · exact hf
  · exact h.refl s

/-- A DONE write (R169). -/
theorem finish (n : Fin 16) (r : Result) (d : List Byte) (s : State) : R s (Machine.finish n r d s) :=
  h.back (h.raiseAlert _) (h.back (h.mem _ _) (h.back (h.engine (State.putWords _ (State.putBytes _ _ s)) _)
    (h.back (h.mem _ _) (h.mem s _))))

section links
variable (hL : F .links)
include hL

theorem putLink (k : Fin 4) (x : Link) (s : State) : R s (Machine.putLink k x s) := h.links hL s _

theorem changeLink (k : Fin 4) (x : Link) (c : LinkCause) (s : State) : R s (Machine.changeLink k x c s) :=
  h.back (h.offerLink _ _) (h.putLink hL k x s)

theorem releaseButtons (k : Fin 4) (s : State) : R s (Machine.releaseButtons k s) := by
  unfold Machine.releaseButtons
  dsimp only
  split
  · exact h.back (h.putPanel k _ _) (h.putLink hL k _ s)
  · exact h.putLink hL k _ s

theorem takeButtons (k : Fin 4) (b : Buttons) (s : State) : R s (Machine.takeButtons k b s) := by
  unfold Machine.takeButtons
  dsimp only
  exact h.back (h.onlyIf _ _ _ (h.putPanel k _ _)) (h.back (h.onlyIf _ _ _ (h.putPanel k _ _))
    (h.back (h.onlyIf _ _ _ (h.panelAction k _ _)) (h.back (h.onlyIf _ _ _ (h.panelAction k _ _))
      (h.back (h.onlyIf _ _ _ (h.panelAction k _ _)) (h.putLink hL k _ s)))))

theorem finishRestart (k : Fin 4) (r : Result) (s : State) : R s (Machine.finishRestart k r s) := by
  unfold Machine.finishRestart
  dsimp only
  split
  · exact h.refl s
  · exact h.back (h.finish _ _ _ _) (h.putLink hL k _ s)

theorem countEntriesLost (k : Fin 4) (s : State) : R s (Machine.countEntriesLost k s) :=
  h.back (h.offerLink _ _) (h.putLink hL k _ s)

variable (hl : ∀ k b, K (linkPoint k) (conditionOf b)) (hp : ∀ k j b, K (fieldPoint k j) (contactOf b))
include hp
omit hL

theorem takeEntry (k : Fin 4) (r : Receipt) (l : Nat) (s : State) (e : ChangeEntry) :
    R s (Machine.takeEntry k r l s e) := by
  unfold Machine.takeEntry
  split
  · exact h.contact _ _ _ _ _ s (hp k _ _)
  · exact h.refl s

theorem compareInput (k : Fin 4) (r : Receipt) (v : Vector Bool 48) (s : State) (j : Fin 48) :
    R s (Machine.compareInput k r v s j) := by
  unfold Machine.compareInput
  dsimp only
  split
  · exact h.contact _ _ _ _ _ s (hp k _ _)
  · exact h.refl s

theorem compareInputs (k : Fin 4) (r : Receipt) (v : Vector Bool 48) (s : State) :
    R s (Machine.compareInputs k r v s) := h.foldl _ _ _ fun u j _ => h.compareInput hp k r v u j

include hL

theorem takeAnswer (k : Fin 4) (a : Answer) (r : Receipt) (s : State) : R s (Machine.takeAnswer k a r s) := by
  unfold Machine.takeAnswer
  dsimp only
  exact h.back (h.takeButtons hL k _ _) (h.back (h.compareInputs hp k r _ _) (h.back
    (h.onlyIf _ _ _ (h.countEntriesLost hL k _)) (h.foldl _ _ _ fun u e _ => h.takeEntry hp k r _ u e)))

include hl

theorem leaveUp (k : Fin 4) (s : State) : R s (Machine.leaveUp k s) :=
  h.back (h.releaseButtons hL k _) (h.back (h.reportCondition _ _ _ (hl k _)) (h.stale k s (hp k)))

theorem missScan (k : Fin 4) (e : LinkError) (s : State) : R s (Machine.missScan k e s) := by
  unfold Machine.missScan
  dsimp only
  refine h.back (h.showLink k _) ?_
  split
  · split
    · exact h.back (h.leaveUp hL hl hp k _) (h.back (h.changeLink hL k _ _ _) (h.putLink hL k _ s))
    · exact h.putLink hL k _ s
  · exact h.putLink hL k _ s
  · exact h.putLink hL k _ s
  · exact h.refl s

theorem linkUp (k : Fin 4) (a : Answer) (r : Receipt) (s : State) : R s (Machine.linkUp k a r s) := by
  unfold Machine.linkUp
  dsimp only
  exact h.back (h.finishRestart hL k _ _) (h.back (h.putLink hL k _ _) (h.back (h.reportNow _ _ (hl k _))
    (h.back (h.recovered k r _ (hp k)) (h.back (h.compareInputs hp k r _ _) (h.changeLink hL k _ _ s)))))

theorem validAnswer (k : Fin 4) (a : Answer) (r : Receipt) (s : State) : R s (Machine.validAnswer k a r s) := by
  unfold Machine.validAnswer
  dsimp only
  refine h.back (h.showLink k _) ?_
  split
  · split
    · exact h.linkUp hL hl hp k a r s
    · exact h.putLink hL k _ s
  · exact h.back (h.takeAnswer hL hp k a r _) (h.putLink hL k _ s)
  · exact h.changeLink hL k _ _ s
  · exact h.refl s

theorem switchLink (k : Fin 4) (x : Link) (b : Bool) (s : State) : R s (Machine.switchLink k x b s) := by
  unfold Machine.switchLink
  split
  · exact h.changeLink hL k _ _ s
  · exact h.putLink hL k x s
  · exact h.putLink hL k x s
  · dsimp only
    refine h.back (h.finishRestart hL k _ _) ?_
    split
    · exact h.back (h.leaveUp hL hl hp k _) (h.changeLink hL k _ _ s)
    · exact h.changeLink hL k _ _ s

theorem orderSetLink (d : List Byte) (s : State) : R s (Machine.orderSetLink d s).1 := by
  unfold Machine.orderSetLink
  split
  · exact h.refl s
  · split
    · exact h.refl s
    · exact h.back (h.showLink _ _) (h.back (h.offer _ _) (h.switchLink hL hl hp _ _ _ s))

theorem orderRestartLink (n : Fin 16) (d : List Byte) (s : State) : R s (Machine.orderRestartLink n d s).1 := by
  unfold Machine.orderRestartLink
  split
  · exact h.refl s
  · dsimp only
    split
    · exact h.refl s
    · split
      · exact h.refl s
      · dsimp only
        refine h.back (h.showLink _ _) ?_
        split
        · exact h.back (h.leaveUp hL hl hp _ _) (h.changeLink hL _ _ _ s)
        · exact h.changeLink hL _ _ _ s

end links

/-! ## Orders of the matrix and of the outputs -/

section banks
variable (hA : F .bankA) (hB : F .bankB)
include hA hB

theorem orderLoadMatrix (hM : F .matrixJob) (n : Fin 16) (d : List Byte) (s : State) :
    R s (Machine.orderLoadMatrix n d s).1 := by
  unfold Machine.orderLoadMatrix
  split
  · exact h.refl s
  · exact h.back (h.showMatrix _) (h.back
      (h.matrixJob hM (s.setBank s.standby { state := .loading }) (some (newJob n d s.now)))
      (h.setBank hA hB _ _ s))

theorem endMatrix (bk : BankId) (x : Bank) (r : Result) (n : Nat) (s : State) : R s (Machine.endMatrix bk x r n s) :=
  h.back (h.offer _ _) (h.back (h.showMatrix _) (h.setBank hA hB bk x s))

theorem completeMatrix (bs : List Byte) (s : State) : R s (Machine.completeMatrix bs s).1 := by
  unfold Machine.completeMatrix
  dsimp only
  split
  · exact h.endMatrix hA hB _ _ _ _ s
  · split
    · exact h.endMatrix hA hB _ _ _ _ s
    · exact h.endMatrix hA hB _ _ _ _ s

end banks

theorem orderLoadPoints (hP : F .pointsJob) (n : Fin 16) (d : List Byte) (s : State) :
    R s (Machine.orderLoadPoints n d s).1 := by
  unfold Machine.orderLoadPoints
  split
  · exact h.refl s
  · exact h.pointsJob hP s _

theorem showNewCount (hI : F .inputs) (s : State) (i : Fin 32) : R s (Machine.showNewCount s i) := by
  unfold Machine.showNewCount
  dsimp only
  split
  · exact h.refl s
  · exact h.back (h.showInput i _) (h.inputs hI s _)

theorem orderSwitchBank (hA : F .active) (hI : F .inputs) (s : State) : R s (Machine.orderSwitchBank s).1 := by
  unfold Machine.orderSwitchBank
  dsimp only
  split
  · exact h.refl s
  · split
    · exact h.refl s
    · split
      · exact h.refl s
      · dsimp only
        exact h.back (h.offer _ _) (h.back (h.foldl _ _ _ fun u i _ => h.showNewCount hI u i)
          (h.back (h.showMatrix _) (h.back (h.showActive _) (h.active hA s _))))

section outputs
variable (hO : F .outputs) (hf : ∀ o b, K (faultPoint o) (conditionOf b))
include hO hf

theorem orderSetProfiles (hP : F .profiles) (d : List Byte) (s : State) : R s (Machine.orderSetProfiles d s).1 := by
  unfold Machine.orderSetProfiles
  split
  · exact h.refl s
  · exact h.refl s
  · exact h.refl s
  · exact h.back (h.offer _ _) (h.back (h.foldl _ _ _ fun u o _ => h.applyProfile hO hf d u o)
      (h.back (h.foldl _ _ _ fun u p _ => h.showProfile p u) (h.profiles hP s _)))

theorem orderRemoteTrip (d : List Byte) (s : State) : R s (Machine.orderRemoteTrip d s).1 := by
  unfold Machine.orderRemoteTrip
  dsimp only
  split
  · exact h.refl s
  · exact h.foldl _ _ _ fun u o _ => h.risingDrive hO hf o _ u

theorem orderResetLockout (d : List Byte) (s : State) : R s (Machine.orderResetLockout d s).1 := by
  unfold Machine.orderResetLockout
  dsimp only
  split
  · exact h.refl s
  · exact h.foldl _ _ _ fun u o _ => h.resetOutput hO hf u o

theorem isolate (k : OrderKind) (v : Bool) (m : Nat) (s : State) : R s (Machine.isolate k v m s) :=
  h.back (h.offer _ _) (h.foldl _ _ _ fun u o _ => h.setIsolated hO hf v u o)

theorem orderIsolate (d : List Byte) (s : State) : R s (Machine.orderIsolate d s).1 := by
  unfold Machine.orderIsolate
  dsimp only
  split
  · exact h.refl s
  · split
    · exact h.refl s
    · exact h.isolate hO hf _ _ _ s

theorem orderRestore (d : List Byte) (s : State) : R s (Machine.orderRestore d s).1 := by
  unfold Machine.orderRestore
  dsimp only
  split
  · exact h.refl s
  · split
    · exact h.refl s
    · exact h.isolate hO hf _ _ _ s

end outputs

/-! ## Orders of the Time Base and of the Order Engine, lamp tests -/

theorem orderSetTime (hT : F .time) (h254 : ∀ b, K 254 (conditionOf b)) (d : List Byte) (s : State) :
    R s (Machine.orderSetTime d s).1 := by
  unfold Machine.orderSetTime
  split
  · exact h.refl s
  · exact h.setTime hT h254 _ _ _ s

theorem changePart (hP : F .part) (k : OrderKind) (p : PartState) (s : State) : R s (Machine.changePart k p s) :=
  h.back (h.offer _ _) (h.back (h.showPart _) (h.part hP s p))

theorem orderEnterService (hP : F .part) (s : State) : R s (Machine.orderEnterService s).1 := by
  unfold Machine.orderEnterService
  split
  · exact h.refl s
  · split
    · exact h.refl s
    · split
      · exact h.refl s
      · exact h.changePart hP _ _ s

theorem orderLeaveService (hP : F .part) (s : State) : R s (Machine.orderLeaveService s).1 := by
  unfold Machine.orderLeaveService
  split
  · exact h.refl s
  · split
    · exact h.refl s
    · exact h.changePart hP _ _ s

theorem leaveStarting (hP : F .part) (s : State) : R s (Machine.leaveStarting s) := by
  unfold Machine.leaveStarting
  split
  · exact h.back (h.raiseAlert _) (h.back (h.showPart _) (h.part hP s _))
  · exact h.refl s

theorem orderLock (d : List Byte) (s : State) : R s (Machine.orderLock d s).1 := by
  unfold Machine.orderLock
  dsimp only
  split
  · split
    · exact h.refl s
    · exact h.back (h.offer _ _) (h.back (h.showPart _) (h.engine s _))
  · split
    · split
      · exact h.refl s
      · exact h.back (h.offer _ _) (h.back (h.showPart _) (h.engine s _))
    · exact h.refl s

theorem orderUnlock (s : State) : R s (Machine.orderUnlock s).1 := by
  unfold Machine.orderUnlock
  dsimp only
  split
  · exact h.back (h.offer _ _) (h.back (h.showPart _) (h.engine s _))
  · exact h.refl s

theorem orderAcknowledge (d : List Byte) (s : State) : R s (Machine.orderAcknowledge d s).1 := by
  unfold Machine.orderAcknowledge
  split
  · exact h.act _ _ _ s
  · split
    · split
      · exact h.refl s
      · exact h.act _ _ _ s
    · exact h.refl s

theorem orderReadPoint (d : List Byte) (s : State) : R s (Machine.orderReadPoint d s).1 := by
  unfold Machine.orderReadPoint
  split <;> exact h.refl s

theorem orderLampTest (d : List Byte) (s : State) : R s (Machine.orderLampTest d s).1 := by
  unfold Machine.orderLampTest
  dsimp only
  split
  · exact h.refl s
  · refine h.foldl _ _ _ fun u k _ => ?_
    unfold testPanel
    split
    · exact h.putPanel k _ u
    · exact h.refl u

end EventClosed

end Sys2Proof.Machine
end

section
/-! SUPPORT. What each command and each order may change: the items it touches, and of the contact states those of the points
whose owners it touches.  Said once for a relation of the kind of EventClosed, and then for the widest such relation. -/

namespace Sys2Proof.Machine

/-! ## Events of the alarm side -/

/-- A relation kept by the alarm side also while the reports that waited are taken. -/
structure AlarmClosed (R : State → State → Prop) : Prop extends InsideClosed R where
  report : ∀ s r rest, s.due = r :: rest →
    R s (putPoint r.point { nth s.points r.point with contact := conditionOf r.present } { s with due := rest })

namespace AlarmClosed

variable {R : State → State → Prop} (h : AlarmClosed R)
include h

theorem takeWaiting (n : Nat) (s : State) : R s (Machine.takeWaiting n s) := by
  induction n generalizing s with
  | zero => exact h.refl s
  | succ n ih =>
    unfold Machine.takeWaiting
    split
    · exact h.refl s
    · next r rest e => exact h.trans (h.trans (h.report s r rest e) (h.contactReport _ _ _ _ _ { s with due := rest })) (ih _)

theorem endAlarm (s : State) : R s (Machine.endAlarm s) := h.takeWaiting _ s

/-- A contact report from outside the alarm side: the contact state is set, and what follows keeps the relation. -/
theorem takeContact (p : Fin 256) (c : Contact) (t : Int) (st : Stamp) (a : Bool) (s : State) :
    R (putPoint p { nth s.points p with contact := c } s) (Machine.takeContact p c t st a s) :=
  h.trans (h.contactReport p c t st a s) (h.endAlarm _)

theorem leak (s : State) : R s (Machine.leak s) := by
  refine h.back (h.endAlarm _) (h.back (h.foldl _ _ _ fun u p _ => h.leakRelease u p) (h.points s _ fun p => ?_))
  rw [nth_tab]
  exact ⟨rfl, rfl, rfl⟩

theorem shelve (p : Fin 256) (s : State) : R s (Machine.shelve p s) :=
  h.back (h.endAlarm _) (h.back (h.clearMark p _) (h.back (h.quieten p _) (h.back (h.offer _ _)
    (h.editShown p _ s ⟨rfl, rfl, rfl⟩))))

theorem unshelve (p : Fin 256) (s : State) : R s (Machine.unshelve p s) := by
  unfold Machine.unshelve
  dsimp only
  refine h.back (h.endAlarm _) ?_
  have h1 := h.back (h.offer (settingsRecord .unshelvePoint s.stamp p.val 0 0 0 0) _)
    (h.editShown p { nth s.points p with shelved := false, waiting := none, accepted := (nth s.points p).raw } s
      ⟨rfl, rfl, rfl⟩)
  split
  · exact h.back (h.takeChange p _ _) h1
  · exact h1

/-- SET CHATTER, from the state with the classes given (R22). -/
theorem chatter (d : List Byte) (s : State) :
    Machine.orderSetChatter d s = (s, (Machine.orderSetChatter d s).2)
    ∨ R { s with classes := tab 4 fun c => classAt d c.val } (Machine.orderSetChatter d s).1 := by
  unfold Machine.orderSetChatter
  split
  · exact .inl rfl
  · refine .inr ?_
    dsimp only
    exact (h.back (h.endAlarm _) (h.back (h.offer _ _) (h.foldl _ _ _ fun u p _ => h.releaseWeightless u p)))

/-- A LOAD POINTS apply, from the state with the settings, and a settle window that the relation passes over (R20). -/
theorem applyPoints (hs : ∀ s n, R s { s with settleWindow := n }) (bs : List Byte) (s : State) :
    R { s with points := tab 256 fun p => { nth s.points p with settings := settingsAfter bs s p } }
      (Machine.applyPoints bs s) := by
  have h0 := h.offer (settingsRecord .loadPoints s.stamp 0 (wordAt bs 0) (wordAt bs 2) (wordAt bs 2 / 256) 0)
    { s with points := tab 256 fun p => { nth s.points p with settings := settingsAfter bs s p } }
  unfold Machine.applyPoints
  dsimp only
  generalize offerInside _ _ = v at h0 ⊢
  exact h.back (h.endAlarm _) (h.back (h.foldl _ _ _ fun u g _ => h.rearmLoad u g)
    (h.back (h.foldl _ _ _ fun u p _ => h.treatPoint _ u p) (h.back (hs v _) h0)))

end AlarmClosed

/-! ## Owners -/

/-- The item whose block reports a point's contact state, none for the Journal Unit's own points (R1, R2). -/
def owner (p : Fin 256) : Option Item :=
  if p.val < 192 then some .links
  else if p.val < 224 then some .inputs
  else if p.val < 248 then some .outputs
  else if p.val < 252 then some .links
  else if p.val < 254 then none
  else if p.val < 255 then some .time
  else some .supply

/-- A point whose owner's item is one of `F`. -/
def owned (F : Item → Prop) (p : Fin 256) : Prop := ∃ x ∈ owner p, F x

theorem owner_fieldPoint (k : Fin 4) (j : Fin 48) : owner (fieldPoint k j) = some .links :=
  if_pos (by simp only [fieldPoint]; omega)

theorem owner_tripPoint (i : Fin 32) : owner (tripPoint i) = some .inputs := by
  unfold owner tripPoint
  rw [if_neg (by dsimp only; omega), if_pos (by dsimp only; omega)]

theorem owner_faultPoint (o : Fin 24) : owner (faultPoint o) = some .outputs := by
  unfold owner faultPoint
  rw [if_neg (by dsimp only; omega), if_neg (by dsimp only; omega), if_pos (by dsimp only; omega)]

theorem owner_linkPoint (k : Fin 4) : owner (linkPoint k) = some .links := by
  unfold owner linkPoint
  rw [if_neg (by dsimp only; omega), if_neg (by dsimp only; omega), if_neg (by dsimp only; omega),
    if_pos (by dsimp only; omega)]

theorem owned_of_owner {F : Item → Prop} {p : Fin 256} {x : Item} (h : owner p = some x) (hF : F x) : owned F p :=
  ⟨x, h, hF⟩

/-- The Journal Unit's points have no owner outside it. -/
theorem not_owned_journalPoint {F : Item → Prop} {p : Fin 256} (hp : journalPoint p) : ¬owned F p := by
  rintro ⟨x, hx, _⟩
  rcases hp with rfl | rfl <;> simp [owner] at hx

/-- The contact states a point's owner can report (R1, R2). -/
def fitting (p : Fin 256) (c : Contact) : Prop :=
  if p.val < 224 then c = .opened ∨ c = .closed else c = .absent ∨ c = .present

theorem fitting_conditionOf {p : Fin 256} (hp : 224 ≤ p.val) (b : Bool) : fitting p (conditionOf b) := by
  have : ¬p.val < 224 := by omega
  cases b <;> simp [fitting, conditionOf, this]

theorem fitting_contactOf {p : Fin 256} (hp : p.val < 224) (b : Bool) : fitting p (contactOf b) := by
  cases b <;> simp [fitting, contactOf, hp]

/-- A contact report that the owner of an item of `F` makes. -/
def ownReport (F : Item → Prop) (p : Fin 256) (c : Contact) : Prop := owned F p ∧ fitting p c

section own
variable {F : Item → Prop}

theorem ownReport_field (hF : F .links) (k : Fin 4) (j : Fin 48) (b : Bool) :
    ownReport F (fieldPoint k j) (contactOf b) :=
  ⟨owned_of_owner (owner_fieldPoint k j) hF, fitting_contactOf (by simp only [fieldPoint]; omega) b⟩
theorem ownReport_trip (hF : F .inputs) (i : Fin 32) (b : Bool) : ownReport F (tripPoint i) (contactOf b) :=
  ⟨owned_of_owner (owner_tripPoint i) hF, fitting_contactOf (by simp only [tripPoint]; omega) b⟩
theorem ownReport_fault (hF : F .outputs) (o : Fin 24) (b : Bool) : ownReport F (faultPoint o) (conditionOf b) :=
  ⟨owned_of_owner (owner_faultPoint o) hF, fitting_conditionOf (by simp only [faultPoint]; omega) b⟩
theorem ownReport_link (hF : F .links) (k : Fin 4) (b : Bool) : ownReport F (linkPoint k) (conditionOf b) :=
  ⟨owned_of_owner (owner_linkPoint k) hF, fitting_conditionOf (by simp only [linkPoint]; omega) b⟩
theorem ownReport_254 (hF : F .time) (b : Bool) : ownReport F 254 (conditionOf b) :=
  ⟨owned_of_owner rfl hF, fitting_conditionOf (by decide) b⟩
theorem ownReport_255 (hF : F .supply) (b : Bool) : ownReport F 255 (conditionOf b) :=
  ⟨owned_of_owner rfl hF, fitting_conditionOf (by decide) b⟩

end own

/-! ## What a command and an order touch -/

/-- The items an order may change, and with them the contact states of the points they own. -/
def OrderKind.touches : OrderKind → Item → Prop
  | .loadPoints, x => x = .pointsJob
  | .setChatter, x => x = .classes
  | .setLink, x | .restartLink, x => x = .links
  | .loadMatrix, x => x = .bankA ∨ x = .bankB ∨ x = .matrixJob
  | .switchBank, x => x = .active ∨ x = .inputs
  | .setProfiles, x => x = .profiles ∨ x = .outputs
  | .remoteTrip, x | .resetLockout, x | .isolateOutputs, x | .restoreOutputs, x => x = .outputs
  | .setTime, x => x = .time
  | .enterService, x | .leaveService, x => x = .part
  | .shelvePoint, _ | .unshelvePoint, _ | .readPoint, _ | .acknowledge, _ | .silence, _ | .resetAlarms, _
  | .lampTest, _ | .setJournal, _ | .flushJournal, _ | .lock, _ | .unlock, _ => False

/-- The items a command may change; a reset, a walk and a segment read may change any. -/
def touches : Instr → Item → Prop
  | .powerOnReset, _ | .resetLine, _ | .notice _ _, _ | .orderTableWalk, _ | .segmentRead _, _ => True
  | .scanFrame _, x | .answerReceipt _ _, x | .answerLimit _ _, x | .restartLinkDeadline _, x => x = .links
  | .tripInputSample _, x | .tripInputQualified _, x => x = .inputs ∨ x = .outputs
  | .onTimerExpiry _, x | .feedbackSample _ _, x | .operateDeadline _, x | .releaseDeadline _, x | .openDeadline _, x
  | .clearDeadline _, x => x = .outputs
  | .supplySample _, x | .supplyLost, x | .supplySettleDeadline, x => x = .supply ∨ x = .outputs
  | .syncPulse, x | .syncMissDeadline, x | .runTimeRise, x => x = .time
  | .alertClear _, _ | .discardedRegisterWrite _ _ _, _ | .hostWordWrite _ _, _ | .pendingChangeDeadline _, _
  | .leakStep, _ | .settleDeadline _, _ | .buttonTestEnd _, _ | .orderTestEnd _, _ | .ringbackToneCycle _, _
  | .journalRescan, _ | .recordWrite, _ | .flushDeadline, _ => False

/-- The commands that are neither a reset nor take an order or an image. -/
def plain : Instr → Bool
  | .powerOnReset | .resetLine | .notice _ _ | .orderTableWalk | .segmentRead _ => false
  | _ => true

/-- A relation kept by every event that touches items of `F` only: beside the making of EventClosed, by the events of the
alarm side and of the journal taken whole. -/
structure StepClosed (F : Item → Prop) (R : State → State → Prop) : Prop extends EventClosed F (ownReport F) R where
  attempt : ∀ s, R s (Machine.attempt reportNow s)
  writeEvent : ∀ s, s.journal.filling ≠ none → s.journal.queue ≠ [] → R s (Machine.writeEvent reportNow s)
  close : ∀ c f s, s.journal.filling = some f → R s (Machine.closePage reportNow c f s)
  journalOrder : ∀ d s, R s (Machine.orderSetJournal d s).1
  tone : ∀ z s t, execRingbackToneCycle z s = .next t → R s t
  leak : ∀ s, R s (Machine.leak s)
  change : ∀ p c s, (nth s.points p).waiting = some c → R s (Machine.endAlarm (Machine.accept p c.change s))
  latch : ∀ g s, (nth s.groups g).state = .deciding → R s (Machine.endAlarm (Machine.latch g s))
  shelve : ∀ p s, (nth s.points p).settings.enabled = true → (nth s.points p).shelved = false →
    R s (Machine.shelve p s)
  unshelve : ∀ p s, (nth s.points p).shelved = true → R s (Machine.unshelve p s)
  chatter : F .classes → ∀ d s, R s (Machine.orderSetChatter d s).1
  complete : F .settings → ∀ bs s, R s (Machine.completePoints bs s).1

namespace StepClosed

variable {F : Item → Prop} {R : State → State → Prop} (h : StepClosed F R)
include h

theorem orderShelve (d : List Byte) (s : State) : R s (Machine.orderShelve d s).1 := by
  unfold Machine.orderShelve
  split
  · exact h.refl s
  · split
    · exact h.refl s
    · next he =>
      split
      · exact h.refl s
      · next hs =>
        dsimp only
        exact h.shelve _ s (by simpa using he) (by simpa using hs)

theorem orderUnshelve (d : List Byte) (s : State) : R s (Machine.orderUnshelve d s).1 := by
  unfold Machine.orderUnshelve
  split
  · exact h.refl s
  · split
    · next hs => exact h.unshelve _ s hs
    · exact h.refl s

theorem orderAction (a : Action) (t : Target) (b : Bool) (s : State) : R s (Machine.orderAction a t b s).1 :=
  h.act a t station s

theorem orderFlushJournal (s : State) : R s (Machine.orderFlushJournal s).1 := by
  unfold Machine.orderFlushJournal
  split
  · exact h.refl s
  · next f e => exact h.close _ f s e

/-- An order that touches items of `F` only. -/
theorem applyOrder (k : OrderKind) (hk : ∀ x, k.touches x → F x) (n : Fin 16) (d : List Byte) (s : State) :
    R s (Machine.applyOrder k n d s).1 := by
  have hO : ∀ k : OrderKind, k.touches .outputs → (∀ x, k.touches x → F x) → F .outputs := fun k h1 h2 => h2 _ h1
  cases k
  case loadPoints => exact h.orderLoadPoints (hk _ rfl) n d s
  case setChatter => exact h.chatter (hk _ rfl) d s
  case shelvePoint => exact h.orderShelve d s
  case unshelvePoint => exact h.orderUnshelve d s
  case readPoint => exact h.orderReadPoint d s
  case acknowledge => exact h.orderAcknowledge d s
  case silence => exact h.orderAction _ _ _ s
  case resetAlarms => exact h.orderAction _ _ _ s
  case lampTest => exact h.orderLampTest d s
  case setLink => exact h.orderSetLink (hk _ rfl) (ownReport_link (hk _ rfl)) (ownReport_field (hk _ rfl)) d s
  case restartLink => exact h.orderRestartLink (hk _ rfl) (ownReport_link (hk _ rfl)) (ownReport_field (hk _ rfl)) n d s
  case loadMatrix => exact h.orderLoadMatrix (hk _ (.inl rfl)) (hk _ (.inr (.inl rfl))) (hk _ (.inr (.inr rfl))) n d s
  case switchBank => exact h.orderSwitchBank (hk _ (.inl rfl)) (hk _ (.inr rfl)) s
  case setProfiles =>
    exact h.orderSetProfiles (hk _ (.inr rfl)) (ownReport_fault (hk _ (.inr rfl))) (hk _ (.inl rfl)) d s
  case remoteTrip => exact h.orderRemoteTrip (hk _ rfl) (ownReport_fault (hk _ rfl)) d s
  case resetLockout => exact h.orderResetLockout (hk _ rfl) (ownReport_fault (hk _ rfl)) d s
  case isolateOutputs => exact h.orderIsolate (hk _ rfl) (ownReport_fault (hk _ rfl)) d s
  case restoreOutputs => exact h.orderRestore (hk _ rfl) (ownReport_fault (hk _ rfl)) d s
  case setTime => exact h.orderSetTime (hk _ rfl) (ownReport_254 (hk _ rfl)) d s
  case setJournal => exact h.journalOrder d s
  case flushJournal => exact h.orderFlushJournal s
  case enterService => exact h.orderEnterService (hk _ rfl) s
  case leaveService => exact h.orderLeaveService (hk _ rfl) s
  case lock => exact h.orderLock d s
  case unlock => exact h.orderUnlock s

theorem retryOpening (s : State) : R s (Machine.retryOpening s) := by
  unfold Machine.retryOpening
  split
  · exact h.attempt s
  · exact h.refl s

/-- A plain command that touches items of `F` only. -/
theorem execPlain (c : Instr) (hp : plain c = true) (hc : ∀ x, touches c x → F x) (s t : State)
    (he : exec c s = .next t) : R s t := by
  cases c <;> simp only [plain, Bool.false_eq_true] at hp <;> simp only [exec] at he
  case alertClear v =>
    simp only [execAlertClear, Host.Outcome.next.injEq] at he; subst he
    exact h.back (h.words _ _) (h.engine s _)
  case discardedRegisterWrite r l v =>
    simp only [execDiscardedRegisterWrite, Host.Outcome.next.injEq] at he; subst he; exact h.refl s
  case hostWordWrite a v =>
    simp only [execHostWordWrite, Host.Outcome.next.injEq] at he; subst he
    split
    · exact h.refl s
    · exact h.mem s _
  case scanFrame k =>
    simp only [execScanFrame, Host.Outcome.next.injEq] at he; subst he
    split
    · exact h.back (h.showLink k _) (h.putLink (hc _ rfl) k _ s)
    · exact h.refl s
  case answerReceipt k b =>
    simp only [execAnswerReceipt, Host.Outcome.next.injEq] at he; subst he
    split
    · exact h.putLink (hc _ rfl) k _ s
    · exact h.refl s
  case answerLimit k b =>
    have hL := hc _ rfl
    simp only [execAnswerLimit, Host.Outcome.next.injEq] at he; subst he
    split
    · split
      · exact h.back (h.missScan hL (ownReport_link hL) (ownReport_field hL) k _ _) (h.putLink hL k _ s)
      · exact h.back (h.validAnswer hL (ownReport_link hL) (ownReport_field hL) k _ _ _) (h.putLink hL k _ s)
    · exact h.refl s
  case restartLinkDeadline k =>
    simp only [execRestartLinkDeadline, Host.Outcome.next.injEq] at he; subst he
    split
    · exact h.refl s
    · split
      · exact h.back (h.showLink k _) (h.finishRestart (hc _ rfl) k _ s)
      · exact h.refl s
  case pendingChangeDeadline p =>
    simp only [execPendingChangeDeadline, Host.Outcome.next.injEq] at he; subst he
    split
    · next c e =>
      split
      · exact h.change p c s e
      · exact h.refl s
    · exact h.refl s
  case leakStep =>
    simp only [execLeakStep, Host.Outcome.next.injEq] at he; subst he
    split
    · exact h.back (h.leak _) (h.sched s _)
    · exact h.refl s
  case settleDeadline g =>
    simp only [execSettleDeadline, Host.Outcome.next.injEq] at he; subst he
    split
    · next e => exact h.latch g s e.1
    · exact h.refl s
  case buttonTestEnd k =>
    simp only [execButtonTestEnd, Host.Outcome.next.injEq] at he; subst he
    split
    · exact h.putPanel k _ s
    · exact h.refl s
  case orderTestEnd k =>
    simp only [execOrderTestEnd, Host.Outcome.next.injEq] at he; subst he
    split
    · exact h.putPanel k _ s
    · exact h.refl s
  case ringbackToneCycle z => exact h.tone z s t he
  case tripInputSample l =>
    have hI := hc _ (.inl rfl)
    have hO := hc _ (.inr rfl)
    simp only [execTripInputSample, Host.Outcome.next.injEq] at he; subst he
    split
    · exact h.back (h.foldl _ _ _ fun u i _ => h.sampleInput hO (ownReport_fault hO) hI (ownReport_trip hI) l u i)
        (h.sched s _)
    · exact h.refl s
  case tripInputQualified i =>
    have hI := hc _ (.inl rfl)
    have hO := hc _ (.inr rfl)
    simp only [execTripInputQualified, Host.Outcome.next.injEq] at he; subst he
    split
    · exact h.qualify hO (ownReport_fault hO) hI (ownReport_trip hI) i s
    · exact h.refl s
  case onTimerExpiry o =>
    simp only [execOnTimerExpiry, Host.Outcome.next.injEq] at he; subst he
    split
    · exact h.expireOnTimer (hc _ rfl) (ownReport_fault (hc _ rfl)) o s
    · exact h.refl s
  case feedbackSample c1 c2 =>
    simp only [execFeedbackSample, Host.Outcome.next.injEq] at he; subst he
    split
    · exact h.back (h.foldl _ _ _ fun u o _ => h.sampleOutput (hc _ rfl) (ownReport_fault (hc _ rfl)) c1 c2 u o)
        (h.sched s _)
    · exact h.refl s
  case operateDeadline o =>
    simp only [execOperateDeadline, Host.Outcome.next.injEq] at he; subst he
    split
    · exact h.changeFault (hc _ rfl) (ownReport_fault (hc _ rfl)) o _ _ s
    · exact h.refl s
  case releaseDeadline o =>
    simp only [execReleaseDeadline, Host.Outcome.next.injEq] at he; subst he
    split
    · exact h.changeFault (hc _ rfl) (ownReport_fault (hc _ rfl)) o _ _ s
    · exact h.refl s
  case openDeadline o =>
    simp only [execOpenDeadline, Host.Outcome.next.injEq] at he; subst he
    split
    · exact h.changeFault (hc _ rfl) (ownReport_fault (hc _ rfl)) o _ _ s
    · exact h.refl s
  case clearDeadline o =>
    simp only [execClearDeadline, Host.Outcome.next.injEq] at he; subst he
    split
    · exact h.changeFault (hc _ rfl) (ownReport_fault (hc _ rfl)) o _ _ s
    · exact h.refl s
  case supplySample b =>
    have hS := hc _ (.inl rfl)
    simp only [execSupplySample, Host.Outcome.next.injEq] at he; subst he
    split
    · exact h.back (h.sampleSupply (hc _ (.inr rfl)) hS (ownReport_255 hS) b _) (h.sched s _)
    · exact h.refl s
  case supplyLost =>
    have hS := hc _ (.inl rfl)
    simp only [execSupplyLost, Host.Outcome.next.injEq] at he; subst he
    split
    · exact h.loseSupply (hc _ (.inr rfl)) hS (ownReport_255 hS) s
    · exact h.refl s
  case supplySettleDeadline =>
    have hO := hc _ (.inr rfl)
    simp only [execSupplySettleDeadline, Host.Outcome.next.injEq] at he; subst he
    split
    · exact h.settleSupply hO (ownReport_fault hO) (hc _ (.inl rfl)) s
    · exact h.refl s
  case syncPulse =>
    have hT := hc _ rfl
    simp only [execSyncPulse, Host.Outcome.next.injEq] at he; subst he
    split
    · exact h.refl s
    · split
      · exact h.back (h.judgePulse hT (ownReport_254 hT) _) (h.time hT s _)
      · exact h.time hT s _
  case syncMissDeadline =>
    have hT := hc _ rfl
    simp only [execSyncMissDeadline, Host.Outcome.next.injEq] at he; subst he
    split
    · split
      · exact h.back (h.showClock _) (h.time hT s _)
      · exact h.back (h.raiseSyncFault hT (ownReport_254 hT) _ _) (h.time hT s _)
    · exact h.refl s
  case journalRescan =>
    simp only [execJournalRescan, Host.Outcome.next.injEq] at he; subst he
    split
    · exact h.back (h.retryOpening _) (h.sched s _)
    · exact h.refl s
  case recordWrite =>
    simp only [execRecordWrite, Host.Outcome.next.injEq] at he; subst he
    split
    · next e => exact h.writeEvent s e.1 e.2
    · exact h.refl s
  case flushDeadline =>
    simp only [execFlushDeadline, Host.Outcome.next.injEq] at he; subst he
    split
    · exact h.refl s
    · next f e =>
      split
      · exact h.close _ f s e
      · exact h.refl s
  case runTimeRise =>
    simp only [execRunTimeRise, Host.Outcome.next.injEq] at he; subst he
    exact h.time (hc _ rfl) s _

end StepClosed

/-! ## Takes and walks -/

namespace EventClosed

variable {F : Item → Prop} {K : Fin 256 → Contact → Prop} {R : State → State → Prop} (h : EventClosed F K R)
  (ho : ∀ k n d s, R s (Machine.applyOrder k n d s).1)
include h ho

/-- An order as it is judged, when every order keeps the relation (R168). -/
theorem judgeOrder (kind : Nat) (n : Fin 16) (d : List Byte) (s : State) : R s (Machine.judgeOrder kind n d s).1 := by
  unfold Machine.judgeOrder
  split
  · exact h.refl s
  · split
    · exact h.refl s
    · split
      · exact h.refl s
      · exact ho _ n d s

theorem takeSlot (n : Fin 16) (s : State) : R s (Machine.takeSlot n s) := by
  unfold Machine.takeSlot
  dsimp only
  have h1 := h.trans (h.mem s (s.mem.writeWord (slotBase n) 2))
    (h.judgeOrder ho (s.mem.readWord (slotBase n + 2)).toNat n (s.mem.readBytes (slotBase n + 8) 24) _)
  unfold endTake
  split
  · exact h.back (h.finish n _ _ _) h1
  · exact h1

theorem walk (s : State) : R s (Machine.walk s) := by
  refine h.foldl _ _ _ fun u n _ => ?_
  unfold walkSlot
  dsimp only
  split
  · exact h.back (h.engine (Machine.takeSlot n u) _) (h.takeSlot ho n u)
  · exact h.refl u

theorem noticeWalk (s : State) : R s (Machine.noticeWalk s) := by
  unfold Machine.noticeWalk
  split
  · exact h.refl s
  · exact h.walk ho s

end EventClosed

theorem StepClosed.segmentRead {F : Item → Prop} {R : State → State → Prop} (h : StepClosed F R) (hA : F .bankA)
    (hB : F .bankB) (hP : F .pointsJob) (hM : F .matrixJob) (hS : ∀ bs s, R s (Machine.completePoints bs s).1)
    (o : ImageOrder) (s t : State) (he : exec (.segmentRead o) s = .next t) : R s t := by
  have h1 : ∀ r d, R s (refuseChain o r d s).1 := by
    intro r d
    cases o
    · exact h.refl s
    · exact h.endMatrix hA hB _ _ _ _ s
  have h2 : ∀ bs, R s (completeImage o bs s).1 := by
    intro bs
    cases o
    · exact hS bs s
    · exact h.completeMatrix hA hB bs s
  simp only [exec, execSegmentRead, Host.Outcome.next.injEq] at he; subst he
  split
  · exact h.refl s
  · split
    · unfold readSegment
      dsimp only
      split
      · exact h.back (h.finish _ _ _ _) (h.back (h.setJob hP hM o none _) (h1 _ _))
      · split
        · exact h.back (h.finish _ _ _ _) (h.back (h.setJob hP hM o none _) (h2 _))
        · exact h.setJob hP hM o _ s
    · exact h.refl s

/-- A command that is no reset, when every order and every segment read keeps the relation, and every plain command that
touches other items does too. -/
theorem StepClosed.exec {F : Item → Prop} {R : State → State → Prop} (h : StepClosed F R) (hP : ∀ s, R s (leaveStarting s))
    (ho : ∀ k n d s, (∃ x, k.touches x ∧ ¬F x) → R s (Machine.applyOrder k n d s).1)
    (hs : ∀ o s t, Machine.exec (.segmentRead o) s = .next t → R s t)
    (hc : ∀ c s t, plain c = true → (∃ x, touches c x ∧ ¬F x) → Machine.exec c s = .next t → R s t)
    (c : Instr) (s t : State) (h1 : c ≠ .powerOnReset) (h2 : c ≠ .resetLine) (he : Machine.exec c s = .next t) :
    R s t := by
  have ho' : ∀ k n d s, R s (Machine.applyOrder k n d s).1 := by
    intro k n d s
    by_cases hk : ∀ x, k.touches x → F x
    · exact h.applyOrder k hk n d s
    · simp only [not_forall] at hk
      obtain ⟨x, hx, hF⟩ := hk
      exact ho k n d s ⟨x, hx, hF⟩
  by_cases hp : plain c = true
  · by_cases hk : ∀ x, touches c x → F x
    · exact h.execPlain c hp hk s t he
    · simp only [not_forall] at hk
      obtain ⟨x, hx, hF⟩ := hk
      exact hc c s t hp ⟨x, hx, hF⟩ he
  · cases c <;> simp only [plain, not_true_eq_false] at hp
    case powerOnReset => exact absurd rfl h1
    case resetLine => exact absurd rfl h2
    case segmentRead o => exact hs o s t he
    case notice v o =>
      simp only [Machine.exec] at he
      cases o <;> simp only [execNotice, Host.Outcome.next.injEq] at he <;> subst he
      · exact h.back (h.retryOpening _) (h.noticeWalk ho' s)
      · exact h.back (h.noticeWalk ho' _) (h.retryOpening s)
    case orderTableWalk =>
      simp only [Machine.exec, execOrderTableWalk, Host.Outcome.next.injEq] at he; subst he
      split
      · exact h.back (h.walk ho' _) (h.back (hP _) (h.sched s _))
      · exact h.refl s

end Sys2Proof.Machine
end

section
/-! SUPPORT. The frame of an event: the items outside `F` are as they were, and, when only the Journal Unit's own reports
wait, the contact states and stale flags of the points that no item of `F` owns. -/

namespace Sys2Proof.Machine

/-- The contact state and the stale flag of a point are the same in both states. -/
def sameContact (s t : State) (p : Fin 256) : Prop :=
  (nth t.points p).contact = (nth s.points p).contact ∧ (nth t.points p).stale = (nth s.points p).stale

theorem sameContact_trans {s t u : State} {p : Fin 256} (h : sameContact s t p) (k : sameContact t u p) :
    sameContact s u p := ⟨k.1.trans h.1, k.2.trans h.2⟩

structure Frame (F : Item → Prop) (s t : State) : Prop where
  items : Within F s t
  contacts : dueIn journalPoint s →
    dueIn journalPoint t ∧ ∀ p, ¬journalPoint p → ¬owned F p → sameContact s t p

theorem frame_refl {F : Item → Prop} (s : State) : Frame F s s :=
  ⟨fun x _ => x.same_refl s, fun hd => ⟨hd, fun _ _ _ => ⟨rfl, rfl⟩⟩⟩

theorem frame_trans {F : Item → Prop} {s t u : State} (h : Frame F s t) (k : Frame F t u) : Frame F s u where
  items x hx := x.same_trans (h.items x hx) (k.items x hx)
  contacts hd :=
    let ⟨hd1, h1⟩ := h.contacts hd
    let ⟨hd2, h2⟩ := k.contacts hd1
    ⟨hd2, fun p hp ho => sameContact_trans (h1 p hp ho) (h2 p hp ho)⟩

/-- A wider frame. -/
theorem Frame.mono {F G : Item → Prop} {s t : State} (h : Frame F s t) (hFG : ∀ x, F x → G x) : Frame G s t where
  items x hx := h.items x fun hF => hx (hFG x hF)
  contacts hd :=
    let ⟨hd1, h1⟩ := h.contacts hd
    ⟨hd1, fun p hp ho => h1 p hp fun ⟨x, hx, hF⟩ => ho ⟨x, hx, hFG x hF⟩⟩

/-- A change of the alarm side or the journal that leaves settings, contact states, stale flags and waiting reports. -/
theorem frame_side {F : Item → Prop} {s t : State} (h : SideOnly s t) (hd : t.due = s.due)
    (hp : ∀ p, (nth s.points p).calm (nth t.points p)) : Frame F s t where
  items x _ := by
    cases x
    case part => exact congrArg Engine.part h.engine
    case pointsJob => exact congrArg Engine.loadPoints h.engine
    case matrixJob => exact congrArg Engine.loadMatrix h.engine
    case settings => exact fun p => (hp p).1
    case time => exact h.time
    case classes => exact h.classes
    case links => exact h.links
    case inputs => exact h.inputs
    case bankA => exact h.bankA
    case bankB => exact h.bankB
    case active => exact h.active
    case outputs => exact h.outputs
    case profiles => exact h.profiles
    case supply => exact h.supply
  contacts hs := ⟨fun r hr => hs r (hd ▸ hr), fun p _ _ => ⟨(hp p).2.1, (hp p).2.2⟩⟩

theorem frame_still {F : Item → Prop} {s t : State} (h : Still F s t) : Frame F s t where
  items := h.items
  contacts hd := ⟨fun r hr => hd r (h.due ▸ hr), fun p _ _ => by
    unfold sameContact
    rw [h.points]
    exact ⟨rfl, rfl⟩⟩

/-- A change of memory alone, or of the schedules, the panels, the zones, the groups, the journal or the settle window. -/
theorem frame_same {F : Item → Prop} {s t : State} (h1 : t.points = s.points) (h2 : t.due = s.due)
    (h3 : Within F s t) : Frame F s t where
  items := h3
  contacts hd := ⟨fun r hr => hd r (h2 ▸ hr), fun p _ _ => by
    unfold sameContact
    rw [h1]
    exact ⟨rfl, rfl⟩⟩

theorem within_of_journalOnly {F : Item → Prop} {s t : State} (h : JournalOnly s t) : Within F s t := fun x _ => by
  cases x
  case settings => exact fun p => congrArg (fun v => (nth v p).settings) (h.same State.points)
  case part => exact h.same fun s => s.engine.part
  case pointsJob => exact h.same fun s => s.engine.loadPoints
  case matrixJob => exact h.same fun s => s.engine.loadMatrix
  all_goals exact h.same _

theorem dueIn_closed : JournalClosed keepReport (fun s t => dueIn journalPoint s → dueIn journalPoint t) where
  refl _ := id
  trans h k hd := k (h hd)
  mem _ _ := id
  journal _ _ := id
  rep r s hr hd := by
    intro x hx
    rcases List.mem_append.mp hx with hx | hx
    · exact hd x hx
    · rw [List.mem_singleton.mp hx]; exact hr

theorem frame_alarm (F : Item → Prop) : AlarmClosed (Frame F) where
  refl := frame_refl
  trans := frame_trans
  mem s _ := frame_same rfl rfl fun x _ => x.same_refl s
  zones s _ := frame_same rfl rfl fun x _ => x.same_refl s
  groups s _ := frame_same rfl rfl fun x _ => x.same_refl s
  points s v hv := frame_side ⟨rfl, rfl, rfl, rfl, rfl, rfl, rfl, rfl, rfl, rfl, rfl, rfl, rfl, rfl, rfl⟩ rfl hv
  offer r s := {
    items := within_of_journalOnly (offerInside_only r s)
    contacts := fun hd => ⟨dueIn_closed.offerWith r s hd, fun p _ _ => by
      unfold sameContact
      rw [offerInside_points]
      exact ⟨rfl, rfl⟩⟩ }
  report s r rest e := {
    items := fun x _ => by
      cases x
      case settings =>
        intro p
        simp only [putPoint_points, nth_upd]
        split
        · next e => exact e ▸ rfl
        · rfl
      all_goals exact rfl
    contacts := fun hd => ⟨fun x hx => hd x (e ▸ List.mem_cons_of_mem _ hx), fun p hp _ => by
      have : r.point ≠ p := fun h => hp (h ▸ hd r (e ▸ List.mem_cons_self))
      unfold sameContact
      simp [this]⟩ }

/-- A contact report of a point that an item of `F` owns, or of a point of the Journal Unit. -/
theorem frame_takeContact {F : Item → Prop} (p : Fin 256) (c : Contact) (t : Int) (st : Stamp) (a : Bool) (s : State)
    (hp : owned F p ∨ journalPoint p) : Frame F s (takeContact p c t st a s) := by
  refine frame_trans ?_ ((frame_alarm F).takeContact p c t st a s)
  refine ⟨fun x _ => ?_, fun hd => ⟨hd, fun q hq ho => ?_⟩⟩
  · cases x
    case settings =>
      intro q
      simp only [putPoint_points, nth_upd]
      split
      · next e => exact e ▸ rfl
      · rfl
    all_goals exact rfl
  · have : p ≠ q := by
      rintro rfl
      exact hp.elim ho hq
    unfold sameContact
    simp [this]

theorem frame_journal (F : Item → Prop) : JournalClosed reportNow (Frame F) where
  refl := frame_refl
  trans := frame_trans
  mem s _ := frame_same rfl rfl fun x _ => x.same_refl s
  journal s _ := frame_same rfl rfl fun x _ => x.same_refl s
  rep r s hr := frame_takeContact r.point _ _ _ _ s (.inr hr)

/-- An edit of a field point's stale flag, with the rest of the point calm, when `F` holds the links. -/
theorem frame_fieldEdit {F : Item → Prop} (hF : F .links) (k : Fin 4) (j : Fin 48) (y : Point) (s : State)
    (hy : y.settings = (nth s.points (fieldPoint k j)).settings) :
    Frame F s (State.showPoint (fieldPoint k j) (putPoint (fieldPoint k j) y s)) := by
  refine ⟨fun x _ => ?_, fun hd => ⟨hd, fun q hq ho => ?_⟩⟩
  · cases x
    case settings =>
      intro q
      simp only [State.showPoint_points, putPoint_points, nth_upd]
      split
      · next e => exact e ▸ hy
      · rfl
    all_goals exact rfl
  · have : fieldPoint k j ≠ q := by
      rintro rfl
      exact ho (owned_of_owner (owner_fieldPoint k j) hF)
    unfold sameContact
    simp [this]

/-- The links are among the items of `F` when their field points are. -/
theorem links_of_owned {F : Item → Prop} {k : Fin 4} {j : Fin 48} (h : owned F (fieldPoint k j)) : F .links := by
  obtain ⟨x, hx, hF⟩ := h
  rw [owner_fieldPoint] at hx
  cases hx
  exact hF

theorem frame_event (F : Item → Prop) : EventClosed F (ownReport F) (Frame F) where
  refl := frame_refl
  trans := frame_trans
  still _ _ := frame_still
  offer r s := (frame_journal F).offerWith r s
  contact p c t st a s hK := frame_takeContact p c t st a s (.inl hK.1)
  act a t o s := frame_trans ((frame_alarm F).applyAction a t o s) ((frame_alarm F).endAlarm _)
  stale k s hK := by
    have hF := links_of_owned (hK 0 true).1
    exact (frame_alarm F).foldl _ _ _ fun u j _ => frame_fieldEdit hF k j _ u rfl
  recovered k r s hK := by
    have hF := links_of_owned (hK 0 true).1
    exact (frame_alarm F).back ((frame_alarm F).endAlarm _) ((frame_alarm F).back
      ((frame_alarm F).foldl _ _ _ fun u j _ => (frame_alarm F).recoverPoint k r u j)
      ((frame_alarm F).foldl _ _ _ fun u j _ => frame_fieldEdit hF k j _ u rfl))

/-- The close of a page, whatever becomes of the reports (R153). -/
theorem frame_closePage {F : Item → Prop} (c : CloseCause) (f : Filling) (s : State) :
    Frame F s (closePage reportNow c f s) := by
  have h0 : Frame F s ((s.putBytes (256 * f.page) (headerBytes f c)).putMapState f.entry 3) :=
    frame_trans ((frame_journal F).putBytes _ _ s) ((frame_journal F).putMapState _ _ _)
  have h1 : Frame F s (handBack c f s) := by
    unfold handBack
    dsimp only
    generalize (s.putBytes (256 * f.page) (headerBytes f c)).putMapState f.entry 3 = v at h0 ⊢
    exact frame_trans (frame_trans (frame_trans h0 ((frame_journal F).journal v _)) ((frame_journal F).showFilling _))
      ((frame_journal F).showQueue _)
  have h2 : ∀ u : State, Frame F u (countClosed u) := fun u =>
    frame_trans (frame_trans ((frame_event F).engine u _) ((frame_event F).mem _ _)) ((frame_event F).raiseAlert _)
  exact frame_trans (frame_trans h1 (h2 _)) ((frame_journal F).attempt _)

theorem frame_step (F : Item → Prop) : StepClosed F (Frame F) where
  toEventClosed := frame_event F
  attempt s := (frame_journal F).attempt s
  writeEvent s _ _ := by
    have h1 := (frame_journal F).writeHead s
    unfold writeEvent
    dsimp only
    split
    · split
      · exact frame_trans h1 (frame_closePage _ _ _)
      · exact h1
    · exact h1
  close c f s _ := frame_closePage c f s
  journalOrder d s := by
    have h1 : ∀ j, Frame F s (State.showJournalSettings { s with journal := j }) := fun j =>
      frame_same rfl rfl fun x _ => x.same_refl s
    unfold orderSetJournal
    dsimp only
    split
    · exact frame_refl s
    · exact frame_trans (h1 _) ((frame_journal F).offerWith _ _)
  tone z s t he := by
    simp only [execRingbackToneCycle, Host.Outcome.next.injEq] at he; subst he
    split
    · exact frame_refl s
    · split
      · exact frame_same rfl rfl fun x _ => x.same_refl s
      · exact frame_refl s
  leak s := (frame_alarm F).leak s
  change p c s _ := frame_trans ((frame_alarm F).accept p _ s) ((frame_alarm F).endAlarm _)
  latch g s _ := frame_trans ((frame_alarm F).latch g s) ((frame_alarm F).endAlarm _)
  shelve p s _ _ := (frame_alarm F).shelve p s
  unshelve p s _ := (frame_alarm F).unshelve p s
  chatter hF d s := by
    rcases (frame_alarm F).chatter d s with e | e
    · rw [e]; exact frame_refl s
    · have h0 : Frame F s { s with classes := tab 4 fun c => classAt d c.val } := frame_same rfl rfl fun x hx => by
        cases x <;> first | exact absurd hF hx | exact rfl | exact fun _ => rfl
      exact frame_trans h0 e
  complete hF bs s := by
    unfold completePoints
    split
    · exact frame_refl s
    · have h0 : Frame F s
          { s with points := tab 256 fun p => { nth s.points p with settings := settingsAfter bs s p } } := by
        refine ⟨fun x hx => ?_, fun hd => ⟨hd, fun p _ _ => ?_⟩⟩
        · cases x <;> first | exact absurd hF hx | exact rfl
        · unfold sameContact
          simp
      dsimp only
      exact frame_trans h0 ((frame_alarm F).applyPoints (fun u n => frame_same rfl rfl fun x _ => x.same_refl u) bs s)

/-- What a plain command leaves as it was. -/
theorem execPlain_frame (c : Instr) (hp : plain c = true) (s t : State) (he : exec c s = .next t) :
    Frame (touches c) s t := (frame_step _).execPlain c hp (fun _ hx => hx) s t he

/-- What an order leaves as it was. -/
theorem applyOrder_frame (k : OrderKind) (n : Fin 16) (d : List Byte) (s : State) :
    Frame k.touches s (applyOrder k n d s).1 := (frame_step _).applyOrder k (fun _ hx => hx) n d s

/-! ## The windows -/

/-- The windows stay apart while the settings stay. -/
theorem windowsHold_of_settings {s t : State} (h : ∀ p, (nth t.points p).settings = (nth s.points p).settings)
    (hw : s.windowsHold) : t.windowsHold := by
  intro p q hpq
  rw [h p, h q]
  exact hw p q hpq

/-- A LOAD POINTS that passes R19's checks leaves the windows apart. -/
theorem windowsHold_completePoints (bs : List Byte) (s : State) (hw : s.windowsHold) :
    (completePoints bs s).1.windowsHold := by
  unfold completePoints
  split
  · exact hw
  · next hc =>
    have hs := ((frame_alarm fun _ => False).applyPoints (fun u n => frame_same rfl rfl fun x _ => x.same_refl u) bs
      s).items .settings id
    have hnone : sharedWindow bs s = none := by
      simp only [checkPoints] at hc
      split at hc
      · cases hc
      · split at hc
        · cases hc
        · split at hc
          · cases hc
          · split at hc
            · cases hc
            · split at hc
              · cases hc
              · next e => exact e
    intro p q hpq
    dsimp only
    rw [hs p, hs q]
    simp only [sharedWindow, List.find?_eq_none, List.mem_finRange, true_implies, List.any_eq_true, not_exists, true_and,
      Bool.and_eq_true, decide_eq_true_eq, not_and, nth_tab, Bool.not_eq_true] at hnone
    simpa using hnone p q hpq

theorem windowsHold_init : State.init.windowsHold := by
  intro p q _
  have h : (nth State.init.points p).settings = {} := by simp [State.init]
  simp [sharesWindow, h]

/-- A law that the frame of `F` keeps is kept by every event that touches items of `F` only. -/
theorem StepClosed.of_frame {F : Item → Prop} {L : State → Prop} (hL : ∀ s t, Frame F s t → L s → L t) :
    StepClosed F (fun s t => L s → L t) :=
  let h := frame_step F
  { refl := fun _ => id
    trans := fun h1 h2 => h2 ∘ h1
    still := fun s t e => hL s t (h.still s t e)
    offer := fun r s => hL _ _ (h.offer r s)
    contact := fun p c t st a s hK => hL _ _ (h.contact p c t st a s hK)
    act := fun a t o s => hL _ _ (h.act a t o s)
    stale := fun k s hK => hL _ _ (h.stale k s hK)
    recovered := fun k r s hK => hL _ _ (h.recovered k r s hK)
    attempt := fun s => hL _ _ (h.attempt s)
    writeEvent := fun s h1 h2 => hL _ _ (h.writeEvent s h1 h2)
    close := fun c f s hf => hL _ _ (h.close c f s hf)
    journalOrder := fun d s => hL _ _ (h.journalOrder d s)
    tone := fun z s t he => hL _ _ (h.tone z s t he)
    leak := fun s => hL _ _ (h.leak s)
    change := fun p c s hc => hL _ _ (h.change p c s hc)
    latch := fun g s hg => hL _ _ (h.latch g s hg)
    shelve := fun p s h1 h2 => hL _ _ (h.shelve p s h1 h2)
    unshelve := fun p s h1 => hL _ _ (h.unshelve p s h1)
    chatter := fun hF d s => hL _ _ (h.chatter hF d s)
    complete := fun hF bs s => hL _ _ (h.complete hF bs s) }

/-- The windows are kept by every command that is no reset. -/
theorem windowsHold_exec (c : Instr) (s t : State) (h1 : c ≠ .powerOnReset) (h2 : c ≠ .resetLine)
    (he : exec c s = .next t) (hw : s.windowsHold) : t.windowsHold := by
  have hF : StepClosed (fun x => x ≠ .settings) fun s t => s.windowsHold → t.windowsHold :=
    .of_frame fun s t h hs => windowsHold_of_settings (h.items .settings (by simp)) hs
  have hk : ∀ c : OrderKind, ¬c.touches .settings := by intro c; cases c <;> simp [OrderKind.touches]
  have hc : ∀ c : Instr, plain c = true → ¬touches c .settings := by
    intro c
    cases c <;> simp [touches, plain]
  refine hF.exec (fun s => hF.leaveStarting (by simp) s) ?_ ?_ ?_ c s t h1 h2 he hw
  · rintro k n d s ⟨x, hx, hn⟩
    obtain rfl : x = .settings := by simpa using hn
    exact absurd hx (hk k)
  · exact fun o s t he => hF.segmentRead (by simp) (by simp) (by simp) (by simp) windowsHold_completePoints o s t he
  · rintro c s t hp ⟨x, hx, hn⟩
    obtain rfl : x = .settings := by simpa using hn
    exact absurd hx (hc c hp)

/-- A law that every command but the resets keeps, and that holds of what the resets start from, is kept by every step. -/
theorem StepClosed.step {F : Item → Prop} {L : State → Prop} (h : StepClosed F (fun s t => L s → L t))
    (hq : ∀ s q, L s → L { s with pending := q }) (hon : ∀ q, L { State.init with pending := q })
    (hline : ∀ s, L s → L (lineInit s))
    (hx : ∀ c s t, c ≠ .powerOnReset → c ≠ .resetLine → Machine.exec c s = .next t → L s → L t)
    (s t : State) (hs : L s) (he : Machine.step s = .next t) : L t := by
  unfold Machine.step at he
  split at he
  · cases he
    exact hs
  · next c rest e =>
    by_cases h1 : c = .powerOnReset
    · subst h1
      simp only [Machine.exec, execPowerOnReset, Host.Outcome.next.injEq] at he
      subst he
      exact h.offer _ _ (hon rest)
    · by_cases h2 : c = .resetLine
      · subst h2
        simp only [Machine.exec, execResetLine, Host.Outcome.next.injEq] at he
        subst he
        refine h.foldl _ _ _ (fun u n _ => ?_) (h.offer _ _ (hline _ (hq s rest hs)))
        unfold abandonSlot
        split
        · exact h.finish n _ _ u
        · exact h.refl u
      · exact hx c _ t h1 h2 he (hq s rest hs)

/-- Settles O55: the settings change in a LOAD POINTS apply only, and R19's fifth check lets no two windows meet. -/
theorem stepKeepsWindowsApart : Obligations.StepKeepsWindowsApart := by
  unfold Obligations.StepKeepsWindowsApart
  have h0 : ∀ s : State, s.points = State.init.points → s.windowsHold := fun s e =>
    windowsHold_of_settings (s := State.init) (fun p => by rw [e]) windowsHold_init
  exact (StepClosed.of_frame (F := fun x => x ≠ .settings) fun s t h hs =>
      windowsHold_of_settings (h.items .settings (by simp)) hs).step
    (fun _ _ hw => hw) (fun _ => h0 _ rfl) (fun _ _ => h0 _ rfl) windowsHold_exec

end Sys2Proof.Machine
end

section
/-! SUPPORT. What each operation of the alarm side makes of the points, and how records join the queue while no opening
attempt can come of them. -/

namespace Sys2Proof.Machine

/-! ## One point replaced -/

theorem upd_upd {α : Type} {n : Nat} (v : Vector α n) (i : Fin n) (a b : α) : upd (upd v i a) i b = upd v i b :=
  nth_ext fun j => by simp only [nth_upd]; split <;> rfl

/-! ## The points after each operation -/

@[simp] theorem putZone_points (z : Fin 8) (x : Zone) (s : State) : (putZone z x s).points = s.points := by
  unfold putZone
  dsimp only
  split <;> rfl

@[simp] theorem rejudgeZone_points (z : Fin 8) (s : State) : (rejudgeZone z s).points = s.points := putZone_points z _ s

/-- The settle deadline may set the candidate's first mark, and changes no point beside (R51). -/
theorem latch_points (g : Fin 16) (s : State) : (latch g s).points = s.points ∨
    ∃ p, (nth s.groups g).candidate = some p ∧ judgeCandidate g (nth s.points p) = .marked
      ∧ (latch g s).points = upd s.points p { nth s.points p with firstMark := true } := by
  unfold latch
  dsimp only
  split
  · exact .inl rfl
  · next p e =>
    simp only [offerInside_points, putGroup_points]
    split
    · next hm => exact .inr ⟨p, e, hm, rfl⟩
    · exact .inl rfl

/-- A report of a new alert may set the point's own first mark, and changes no point beside (R48, R51). -/
theorem alertReport_points (g : Fin 16) (p : Fin 256) (t : Nat) (s : State) :
    (alertReport g p t s).points = s.points ∨ judgeCandidate g (nth s.points p) = .marked
      ∧ (alertReport g p t s).points = upd s.points p { nth s.points p with firstMark := true } := by
  unfold alertReport
  dsimp only
  split
  · split
    · generalize hx : putGroup g _ s = u
      have hc : (nth u.groups g).candidate = some p := by rw [← hx]; simp
      have hp : u.points = s.points := by rw [← hx]; simp
      rcases latch_points g u with e | ⟨q, hq, hj, e⟩
      · exact .inl (e.trans hp)
      · obtain rfl : p = q := by rw [hc] at hq; exact Option.some.inj hq
        rw [hp] at hj e
        exact .inr ⟨hj, e⟩
    · exact .inl rfl
  · exact .inl rfl
  · exact .inl rfl

/-- An accepted change moves the point's sequence state; of the rest of the points only its own first mark may change, and
may only be set, by R51's checks (R25). -/
theorem takeChange_points (p : Fin 256) (c : Change) (s : State) :
    ∃ m, (takeChange p c s).points
        = upd s.points p { nth s.points p with seq := (nth s.points p).afterChange c, firstMark := m }
      ∧ (m = (nth s.points p).firstMark
        ∨ m = true ∧ ∃ g, judgeCandidate g (nth s.points p) = .marked
          ∧ newAlert (nth s.points p).seq ((nth s.points p).afterChange c) = true) := by
  unfold takeChange
  dsimp only
  generalize hy : ({ nth s.points p with seq := (nth s.points p).afterChange c } : Point) = y
  generalize hu : offerPoint p y (nth s.points p).seq c (State.showPoint p { s with points := upd s.points p y }) = u
  have hp : u.points = upd s.points p y := by rw [← hu]; simp
  rw [putZone_points]
  split
  · next g hn _ =>
    rcases alertReport_points g p c.rawTime u with e | ⟨hj, e⟩
    · exact ⟨_, by rw [e, hp, ← hy], .inl rfl⟩
    · refine ⟨true, by rw [e, hp, upd_upd, ← hy]; simp, .inr ⟨rfl, g, ?_, hn⟩⟩
      rw [hp, nth_upd_same, ← hy] at hj
      exact hj
  · exact ⟨_, by rw [hp, ← hy], .inl rfl⟩

/-- An acceptance: accepted state, no pending change, and the move of the sequence (R15, R25). -/
theorem accept_points (p : Fin 256) (c : Change) (s : State) :
    ∃ m, (accept p c s).points = upd s.points p { nth s.points p with
        accepted := c.abnormal, waiting := none, seq := (nth s.points p).afterChange c, firstMark := m }
      ∧ (m = (nth s.points p).firstMark
        ∨ m = true ∧ ∃ g, judgeCandidate g (nth s.points p) = .marked
          ∧ newAlert (nth s.points p).seq ((nth s.points p).afterChange c) = true) := by
  have h := takeChange_points p c (State.showPoint p (putPoint p
    { nth s.points p with accepted := c.abnormal, waiting := none } s))
  simp only [State.showPoint_points, putPoint_points, nth_upd_same, upd_upd] at h
  exact h

@[simp] theorem quieten_points (p : Fin 256) (s : State) :
    (quieten p s).points = upd s.points p { nth s.points p with seq := .quiet } := by
  unfold quieten
  simp

@[simp] theorem unmarkGroup_points (p : Fin 256) (s : State) (g : Fin 16) : (unmarkGroup p s g).points = s.points := by
  unfold unmarkGroup
  dsimp only
  split <;> rfl

/-- A fold of steps that leave the points leaves the points. -/
theorem foldl_points {α : Type} (f : State → α → State) (hf : ∀ s a, (f s a).points = s.points) (l : List α) (s : State) :
    (l.foldl f s).points = s.points := by
  induction l generalizing s with
  | nil => rfl
  | cons a l ih => rw [List.foldl_cons, ih, hf]

/-- Clearing a first mark clears it and changes no point beside (R54). -/
@[simp] theorem clearMark_points (p : Fin 256) (s : State) :
    (clearMark p s).points = upd s.points p { nth s.points p with firstMark := false } := by
  unfold clearMark
  split
  · rw [foldl_points _ fun s g => unmarkGroup_points p s g, setMark_points]
  · next h => rw [← Bool.eq_false_iff.mpr h, upd_nth]

/-- What a release from a hold makes of the point (R12). -/
theorem releaseHold_points (p : Fin 256) (s : State) :
    let x := nth s.points p
    (x.raw = x.accepted ∧ (releaseHold p s).points = upd s.points p { x with held := false })
    ∨ (x.raw ≠ x.accepted ∧ ∃ c m, c.abnormal = x.raw ∧ (releaseHold p s).points = upd s.points p { x with
        held := false, accepted := x.raw, waiting := none, seq := x.afterChange c, firstMark := m }
      ∧ (m = x.firstMark ∨ m = true ∧ ∃ g, judgeCandidate g x = .marked
          ∧ newAlert x.seq (x.afterChange c) = true)) := by
  dsimp only
  unfold releaseHold
  dsimp only
  generalize hu : offerFiltered .chatter _ _ = u
  have hp : u.points = upd s.points p { nth s.points p with held := false } := by rw [← hu]; simp
  have hr : ({ nth s.points p with held := false } : Point).raw = (nth s.points p).raw := rfl
  simp only [hr]
  split
  · next h =>
    refine .inr ⟨h, ?_⟩
    generalize hc : ({ abnormal := (nth s.points p).raw, rawTime := (nth s.points p).lastTime,
                       stamp := (nth s.points p).lastStamp, approx := (nth s.points p).lastApprox,
                       afterHold := true } : Change) = c
    obtain ⟨m, e, hm⟩ := accept_points p c u
    rw [hp, upd_upd, nth_upd_same] at e
    rw [hp, nth_upd_same] at hm
    exact ⟨c, m, by rw [← hc], by rw [e, ← hc]; rfl, hm⟩
  · next h => exact .inl ⟨Decidable.not_not.mp h, hp⟩

/-- What the start of a pending change makes of the point (R13): it waits for its deadline, or is accepted at once. -/
theorem startChange_points (p : Fin 256) (t : Nat) (st : Stamp) (a : Bool) (s : State) :
    let x := nth s.points p
    let d := t + x.delay x.raw
    (s.now < d ∧ startChange p t st a s = putPoint p { x with waiting := some ⟨x.raw, d, t, st, a⟩ } s)
    ∨ (d ≤ s.now ∧ ∃ c m, c.abnormal = x.raw ∧ (startChange p t st a s).points = upd s.points p { x with
        accepted := x.raw, waiting := none, seq := x.afterChange c, firstMark := m }
      ∧ (m = x.firstMark ∨ m = true ∧ ∃ g, judgeCandidate g x = .marked
          ∧ newAlert x.seq (x.afterChange c) = true)) := by
  dsimp only
  unfold startChange
  dsimp only
  split
  · next h =>
    obtain ⟨m, e, hm⟩ := accept_points p { abnormal := (nth s.points p).raw, rawTime := t, stamp := st, approx := a } s
    exact .inr ⟨h, _, m, rfl, e, hm⟩
  · next h => exact .inl ⟨by omega, rfl⟩

/-! ## The end of an event -/

/-- No reports but the Journal Unit's own come to wait within an event of the alarm side. -/
theorem dueIn_of_frame {F : Item → Prop} {s t : State} (h : Frame F s t) (hd : dueIn journalPoint s) :
    dueIn journalPoint t := (h.contacts hd).1

/-- The reports taken at the end of an event change no point but the Journal Unit's two. -/
theorem endAlarm_points {s : State} (hd : dueIn journalPoint s) {p : Fin 256} (hp : ¬journalPoint p) :
    nth (endAlarm s).points p = nth s.points p :=
  (((samePointsBut_closed (A := recordByte) (fun _ h => h) (fun p hp => by rcases hp with rfl | rfl <;> decide)
    (fun _ h => h)).endAlarm s) hd).2 p hp

/-! ## How records join the queue -/

/-- While a page is FILLING or the journal is WAITING, records only join the queue's tail. -/
def QueueGrows (s t : State) : Prop :=
  s.journal.filling ≠ none ∨ s.journal.waiting = true →
    t.journal.filling = s.journal.filling ∧ t.journal.waiting = s.journal.waiting
      ∧ s.journal.queue <+: t.journal.queue

theorem queueGrows_same {s t : State} (h : t.journal = s.journal) : QueueGrows s t := fun _ => by
  rw [h]
  exact ⟨rfl, rfl, List.prefix_refl _⟩

theorem queueGrows_trans {s t u : State} (h : QueueGrows s t) (k : QueueGrows t u) : QueueGrows s u := by
  intro hs
  obtain ⟨h1, h2, h3⟩ := h hs
  obtain ⟨k1, k2, k3⟩ := k (by rw [h1, h2]; exact hs)
  exact ⟨k1.trans h1, k2.trans h2, h3.trans k3⟩

/-- With room and no attempt to come, an admitted record is staged and nothing else happens (R143, R149). -/
theorem offerWith_roomy (rep : Report → State → State) (r : Record) (s : State) (h : s.roomy r.high) :
    offerWith rep r s = stage r s := by
  obtain ⟨h1, h2⟩ := h
  unfold offerWith
  rw [if_pos (show s.journal.queue.length + placesNeeded r.high ≤ queueSize from h1)]
  dsimp only
  rw [if_neg]
  rintro ⟨h3, h4⟩
  simp only [stage_journal] at h3 h4
  rcases h2 with h2 | h2
  · exact h2 h3
  · rw [h2] at h4; cases h4

/-- Without a place, a record is refused (R144). -/
theorem offerWith_full (rep : Report → State → State) (r : Record) (s : State)
    (h : ¬s.journal.queue.length + placesNeeded r.high ≤ queueSize) : offerWith rep r s = refuse rep r.high s :=
  if_neg h

theorem Journal.lose_keeps (j : Journal) (b : Bool) :
    (j.lose b).queue = j.queue ∧ (j.lose b).filling = j.filling ∧ (j.lose b).waiting = j.waiting
    ∧ (j.lose b).nextSeq = j.nextSeq ∧ (j.lose b).cursor = j.cursor ∧ (j.lose b).mask = j.mask
    ∧ (j.lose b).flushDelay = j.flushDelay ∧ (j.lose b).nextPage = j.nextPage := by
  cases b <;> exact ⟨rfl, rfl, rfl, rfl, rfl, rfl, rfl, rfl⟩

/-- A refusal, when what becomes of its report only lets the queue grow. -/
theorem refuse_grows {rep : Report → State → State} (hr : ∀ r s, journalPoint r.point → QueueGrows s (rep r s)) (b : Bool)
    (s : State) : QueueGrows s (refuse rep b s) := by
  have h1 : ∀ (a : Option Stamp) (c : Option Bool) (u : State),
      u.journal = { s.journal.lose b with firstLoss := a, firstLossHigh := c } → QueueGrows s u := by
    intro a c u e _
    obtain ⟨k1, k2, k3, _⟩ := s.journal.lose_keeps b
    rw [e]
    exact ⟨k2, k3, k1 ▸ List.prefix_refl _⟩
  unfold refuse
  split
  · exact queueGrows_trans (h1 _ _ _ rfl) (hr _ _ (.inr rfl))
  · exact h1 (s.journal.lose b).firstLoss (s.journal.lose b).firstLossHigh _ rfl

theorem offerWith_grows {rep : Report → State → State} (hr : ∀ r s, journalPoint r.point → QueueGrows s (rep r s))
    (r : Record) (s : State) : QueueGrows s (offerWith rep r s) := by
  intro hs
  by_cases h : s.journal.queue.length + placesNeeded r.high ≤ queueSize
  · rw [offerWith_roomy rep r s ⟨h, hs⟩]
    exact ⟨rfl, rfl, List.prefix_append _ _⟩
  · rw [offerWith_full rep r s h]
    exact refuse_grows hr r.high s hs

theorem queueGrows_alarm : AlarmClosed QueueGrows where
  refl _ := queueGrows_same rfl
  trans := queueGrows_trans
  mem _ _ := queueGrows_same rfl
  zones _ _ := queueGrows_same rfl
  groups _ _ := queueGrows_same rfl
  points _ _ _ := queueGrows_same rfl
  offer r s := offerWith_grows (rep := keepReport) (fun _ _ _ => queueGrows_same rfl) r s
  report _ _ _ _ := queueGrows_same rfl

/-- A record offered as the event begins is the next one of the queue. -/
theorem recordJoins_of_offer {r : Record} {s u t : State} (hu : u.journal = s.journal)
    (h : QueueGrows (offerInside r u) t) : recordJoins r s t := by
  intro hr
  have e := offerWith_roomy keepReport r u (show u.roomy r.high by unfold State.roomy; rw [hu]; exact hr)
  obtain ⟨_, _, h3⟩ := h (by rw [offerInside, e, stage_journal, hu]; exact hr.2)
  rw [offerInside, e, stage_journal, hu] at h3
  exact h3

/-- A record offered unless the mask names it, when it does not. -/
theorem recordJoins_of_filtered {f : Filterable} {r : Record} {s u t : State} (hu : u.journal = s.journal)
    (hf : s.filters f = false) (h : QueueGrows (offerFiltered f r u) t) : recordJoins r s t := by
  have : u.filters f = false := by
    rw [← hf]
    exact congrArg (fun j : Journal => j.mask.getLsbD (filterBit f)) hu
  rw [offerFiltered, this] at h
  exact recordJoins_of_offer hu h

end Sys2Proof.Machine
end

section
/-! The Point Filter's events: the acceptance of a pending change and the raw transition. -/

namespace Sys2Proof.Machine

/-! ## What one point's event can reach -/

/-- The bytes an event of point p can reach: its mirror word and what the journal reaches. -/
theorem pointSide (p : Fin 256) :
    SideClosed (fun q => q = p ∨ journalPoint q) (fun a => pointByte p a ∨ recordByte a)
      (SideReach (fun q => q = p ∨ journalPoint q) (fun a => pointByte p a ∨ recordByte a)) :=
  sideReach_closed (fun _ h => .inr h)
    (fun q hq => by
      rcases hq with rfl | rfl | rfl
      · exact ⟨.inl (.inl rfl), .inl (.inr rfl)⟩
      · exact ⟨.inr (by decide), .inr (by decide)⟩
      · exact ⟨.inr (by decide), .inr (by decide)⟩)
    (fun _ h => .inr h)

/-- The move of the sequence is R25's table. -/
theorem move_eq_sequenceMove (q : SeqState) (a l r : Bool) : q.move a l r = sequenceMove q a l r := by
  cases q <;> cases a <;> rfl

/-- What follows the POINT record of an accepted change (R26). -/
theorem InsideClosed.takeChange_after {R : State → State → Prop} (h : InsideClosed R) (p : Fin 256) (c : Change)
    (s : State) :
    R (Machine.offerPoint p { nth s.points p with seq := (nth s.points p).afterChange c } (nth s.points p).seq c
        (State.showPoint p (Machine.putPoint p { nth s.points p with seq := (nth s.points p).afterChange c } s)))
      (Machine.takeChange p c s) := by
  unfold Machine.takeChange
  dsimp only
  refine h.back (h.putZone _ _ _) ?_
  split
  · exact h.alertReport _ p _ _
  · exact h.refl _

/-- The POINT record is the next one of the queue, unless the mask names returns to normal (R27). -/
theorem recordJoins_of_offerPoint {p : Fin 256} {x : Point} {q : SeqState} {c : Change} {s u t : State}
    (hu : u.journal = s.journal) (hc : c.abnormal = true ∨ s.filters .pointNormal = false)
    (h : QueueGrows (offerPoint p x q c u) t) : recordJoins (pointRecord p x q c) s t := by
  unfold offerPoint at h
  split at h
  · exact recordJoins_of_offer hu h
  · next hn => exact recordJoins_of_filtered hu (hc.resolve_left hn) h

/-- Settles O32: an acceptance is `accept`, whose points, record and reach are known, and then the end of the event. -/
theorem pendingChangeIsAccepted : Obligations.PendingChangeIsAccepted := by
  unfold Obligations.PendingChangeIsAccepted
  intro p c s hd hp x hw hdl
  have hdue := dueIn_of_frame ((frame_alarm fun _ => False).accept p c.change s) (dueIn_nil hd)
  have hend := endAlarm_points hdue hp
  obtain ⟨m, hpts, _⟩ := accept_points p c.change s
  have hq : x.afterChange c.change
      = if x.shelved then .quiet else sequenceMove x.seq c.target x.settings.lockIn x.settings.ringback := by
    unfold Point.afterChange
    rw [move_eq_sequenceMove]
    rfl
  obtain ⟨_, hreach⟩ := ((pointSide p).tracked.trans
    ((pointSide p).tracked.accept p c.change s (.inl rfl)) ((pointSide p).endAlarm _)) (dueIn_nil hd)
  refine ⟨endAlarm (accept p c.change s), ?_, ⟨?_, ?_⟩, hreach.points, hreach.only, hreach.memory.same⟩
  · simp only [exec, execPendingChangeDeadline, show (nth s.points p).waiting = some c from hw, if_pos hdl]
  · rw [hend, hpts, nth_upd_same, ← hq]
    rfl
  · intro hf
    rw [← hq]
    have hg := queueGrows_trans (queueGrows_alarm.takeChange_after p c.change
      (State.showPoint p (putPoint p { x with accepted := c.target, waiting := none } s)))
      (queueGrows_alarm.endAlarm (accept p c.change s))
    simp only [State.showPoint_points, putPoint_points, nth_upd_same] at hg
    have hj := recordJoins_of_offerPoint (s := s) (by rfl) hf hg
    exact hj

/-! ## Raw transitions -/

/-- A raw run time and its stamp as R6 orders them. -/
theorem ordered_fields (x : Point) (run : Int) (st : Stamp) (a : Bool) :
    x.ordered run st a = { x with
      lastTime := if run < x.lastTime then x.lastTime else run.toNat
      lastStamp := if run < x.lastTime then { st with
          day := (st.day + (st.ms + (x.lastTime - run).toNat) / 86400000) % 65536
          ms := (st.ms + (x.lastTime - run).toNat) % 86400000 }
        else st
      lastApprox := a } := by
  unfold Point.ordered
  split <;> rfl

/-- What a raw transition makes of the points, by its four outcomes (R9, R10). -/
theorem transition_cases (p : Fin 256) (x : Point) (run : Int) (st : Stamp) (a : Bool) (s : State) :
    let z := { x.ordered run st a with bucket := min 255 (x.bucket + (s.classOf x).weight) }
    let full := 0 < (s.classOf x).weight ∧ (s.classOf x).suppress ≤ z.bucket
    (x.held = true ∧ transition p x run st a s = putPoint p z s)
    ∨ (x.held = false ∧ full ∧ transition p x run st a s
        = offerFiltered .chatter (chatterRecord p { z with held := true, waiting := none } false s.stamp)
            (State.showPoint p (putPoint p { z with held := true, waiting := none } s)))
    ∨ (x.held = false ∧ ¬full ∧ x.raw ≠ x.accepted
        ∧ transition p x run st a s = startChange p z.lastTime z.lastStamp a (putPoint p z s))
    ∨ (x.held = false ∧ ¬full ∧ x.raw = x.accepted
        ∧ transition p x run st a s = putPoint p { z with waiting := none } s) := by
  unfold transition
  rw [ordered_fields]
  dsimp only [State.classOf]
  by_cases h1 : x.held = true
  · exact .inl ⟨h1, if_pos h1⟩
  · have h1' := Bool.not_eq_true _ ▸ h1
    by_cases h2 : 0 < (nth s.classes x.settings.cls).weight ∧ (nth s.classes x.settings.cls).suppress
        ≤ min 255 (x.bucket + (nth s.classes x.settings.cls).weight)
    · exact .inr (.inl ⟨h1', h2, (if_neg h1).trans (if_pos h2)⟩)
    · by_cases h3 : x.raw ≠ x.accepted
      · exact .inr (.inr (.inl ⟨h1', h2, h3, (if_neg h1).trans ((if_neg h2).trans (if_pos h3))⟩))
      · exact .inr (.inr (.inr ⟨h1', h2, Decidable.not_not.mp h3,
          (if_neg h1).trans ((if_neg h2).trans (if_neg h3))⟩))

/-- A report to a disabled point, or one that leaves the raw state, changes the contact state alone (R1, R6). -/
theorem contactReport_quiet {p : Fin 256} {c : Contact} {run : Int} {st : Stamp} {a : Bool} {s : State}
    (h : (nth s.points p).settings.enabled = false
      ∨ ({ nth s.points p with contact := c } : Point).raw = (nth s.points p).raw) :
    contactReport p c run st a s = putPoint p { nth s.points p with contact := c } s := if_pos h

/-- Any other report is a raw transition (R9). -/
theorem contactReport_transition {p : Fin 256} {c : Contact} {run : Int} {st : Stamp} {a : Bool} {s : State}
    (he : (nth s.points p).settings.enabled = true)
    (hr : ({ nth s.points p with contact := c } : Point).raw ≠ (nth s.points p).raw) :
    contactReport p c run st a s = transition p { nth s.points p with contact := c } run st a s :=
  if_neg (not_or.mpr ⟨by simp [he], hr⟩)

/-- The point as a raw transition finds it: contact state, last transition and bucket are the new ones (R6, R9). -/
def transited (s : State) (p : Fin 256) (c : Contact) (run : Int) (st : Stamp) (a : Bool) : Point :=
  { ({ nth s.points p with contact := c } : Point).ordered run st a with
    bucket := min 255 ((nth s.points p).bucket + (s.classOf (nth s.points p)).weight) }

theorem transited_fields (s : State) (p : Fin 256) (c : Contact) (run : Int) (st : Stamp) (a : Bool) :
    transited s p c run st a = { nth s.points p with
      contact := c
      bucket := min 255 ((nth s.points p).bucket + (nth s.classes (nth s.points p).settings.cls).weight)
      lastTime := if run < (nth s.points p).lastTime then (nth s.points p).lastTime else run.toNat
      lastStamp := if run < (nth s.points p).lastTime then { st with
          day := (st.day + (st.ms + ((nth s.points p).lastTime - run).toNat) / 86400000) % 65536
          ms := (st.ms + ((nth s.points p).lastTime - run).toNat) % 86400000 }
        else st
      lastApprox := a } := by
  unfold transited
  rw [ordered_fields]
  rfl

/-- The five outcomes of a raw transition, by the point it leaves (R9, R10, R13). -/
theorem contactReport_outcomes {p : Fin 256} {c : Contact} {run : Int} {st : Stamp} {a : Bool} {s : State}
    (he : (nth s.points p).settings.enabled = true)
    (hr : ({ nth s.points p with contact := c } : Point).raw ≠ (nth s.points p).raw) :
    let x := nth s.points p
    let z := transited s p c run st a
    let k := s.classOf x
    let t := contactReport p c run st a s
    (x.held = true ∧ t = putPoint p z s)
    ∨ (x.held = false ∧ (0 < k.weight ∧ k.suppress ≤ z.bucket)
        ∧ t = offerFiltered .chatter (chatterRecord p { z with held := true, waiting := none } false s.stamp)
            (State.showPoint p (putPoint p { z with held := true, waiting := none } s)))
    ∨ (x.held = false ∧ ¬(0 < k.weight ∧ k.suppress ≤ z.bucket) ∧ z.raw ≠ x.accepted
        ∧ s.now < z.lastTime + z.delay z.raw
        ∧ t = putPoint p { z with waiting := some ⟨z.raw, z.lastTime + z.delay z.raw, z.lastTime, z.lastStamp, a⟩ } s)
    ∨ (x.held = false ∧ ¬(0 < k.weight ∧ k.suppress ≤ z.bucket) ∧ z.raw ≠ x.accepted
        ∧ z.lastTime + z.delay z.raw ≤ s.now
        ∧ ∃ ch m, ch.abnormal = z.raw ∧ t.points = upd s.points p
            { z with accepted := z.raw, waiting := none, seq := z.afterChange ch, firstMark := m }
          ∧ (m = x.firstMark ∨ m = true ∧ ∃ g, judgeCandidate g z = .marked
              ∧ newAlert z.seq (z.afterChange ch) = true))
    ∨ (x.held = false ∧ ¬(0 < k.weight ∧ k.suppress ≤ z.bucket) ∧ z.raw = x.accepted
        ∧ t = putPoint p { z with waiting := none } s) := by
  dsimp only
  rw [contactReport_transition he hr]
  have hz := transited_fields s p c run st a
  have hraw : (transited s p c run st a).raw = ({ nth s.points p with contact := c } : Point).raw := by rw [hz]; rfl
  have hmark : (transited s p c run st a).firstMark = (nth s.points p).firstMark := by rw [hz]
  rw [hraw]
  rcases transition_cases p { nth s.points p with contact := c } run st a s with
    ⟨h1, e⟩ | ⟨h1, h2, e⟩ | ⟨h1, h2, h3, e⟩ | ⟨h1, h2, h3, e⟩
  · exact .inl ⟨h1, e⟩
  · exact .inr (.inl ⟨h1, h2, e⟩)
  · rw [e]
    rcases startChange_points p (transited s p c run st a).lastTime (transited s p c run st a).lastStamp a
      (putPoint p (transited s p c run st a) s) with ⟨hd, e'⟩ | ⟨hd, ch, m, ha, e', hm⟩
    · simp only [putPoint_points, nth_upd_same, hraw] at hd e'
      refine .inr (.inr (.inl ⟨h1, h2, h3, hd, e'.trans ?_⟩))
      simp only [putPoint, upd_upd]
    · simp only [putPoint_points, nth_upd_same, upd_upd, hraw, hmark] at hd ha e' hm
      exact .inr (.inr (.inr (.inl ⟨h1, h2, h3, hd, ch, m, ha, e', hm⟩)))
  · exact .inr (.inr (.inr (.inr ⟨h1, h2, h3, e⟩)))

/-- A contact report changes no point but its own. -/
theorem contactReport_other (p : Fin 256) (c : Contact) (run : Int) (st : Stamp) (a : Bool) (s : State) {q : Fin 256}
    (hq : p ≠ q) : nth (contactReport p c run st a s).points q = nth s.points q := by
  by_cases h : (nth s.points p).settings.enabled = false
      ∨ ({ nth s.points p with contact := c } : Point).raw = (nth s.points p).raw
  · rw [contactReport_quiet h, putPoint_points, nth_upd_other _ _ hq]
  · rw [not_or] at h
    rcases contactReport_outcomes (run := run) (st := st) (a := a) (by simpa using h.1) h.2 with
      ⟨_, e⟩ | ⟨_, _, e⟩ | ⟨_, _, _, _, e⟩ | ⟨_, _, _, _, _, _, _, e, _⟩ | ⟨_, _, _, e⟩ <;>
    simp only [e, putPoint_points, offerFiltered_points, State.showPoint_points, nth_upd_other _ _ hq]

/-- A stamp moved back by at most a day (R5). -/
theorem back_eq (t : Stamp) (d : Nat) (h : t.day ≤ 65535) : t.back d
    = if d ≤ t.ms then { t with ms := t.ms - d }
      else { t with day := if t.day = 0 then 65535 else t.day - 1, ms := t.ms + 86400000 - d } := by
  unfold Stamp.back
  split
  · rfl
  · have : (t.day + 65535) % 65536 = if t.day = 0 then 65535 else t.day - 1 := by split <;> omega
    rw [this]
    rfl

/-- Settles O31: the outcomes of a raw transition, one by one, and the entry's raw time. -/
theorem rawTransitionTakenWhole : Obligations.RawTransitionTakenWhole := by
  unfold Obligations.RawTransitionTakenWhole
  intro p c run stamp approx link r latency e s x y k level t delay late time timed
  refine ⟨fun h => contactReport_quiet h, fun he hr => ?_, fun h hday => ?_, fun h => dif_neg (by omega)⟩
  · have side : SideReach _ _ s t := (pointSide p).contactReport p c run stamp approx s (.inl rfl)
    have hother : samePointsBut (fun q => q = p) s t := fun q hq =>
      contactReport_other p c run stamp approx s fun e => hq e.symm
    have hout := contactReport_outcomes (run := run) (st := stamp) (a := approx) he hr
    have hz : transited s p c run stamp approx = { x with
        contact := c, bucket := level, lastTime := time, lastStamp := timed, lastApprox := approx } :=
      transited_fields s p c run stamp approx
    have hraw : (transited s p c run stamp approx).raw = y.raw := by rw [hz]; rfl
    have hdelay : (transited s p c run stamp approx).delay y.raw = delay := by rw [hz]; rfl
    have hb : (transited s p c run stamp approx).bucket = level := by rw [hz]
    have htime : (transited s p c run stamp approx).lastTime = time := by rw [hz]
    dsimp only at hout
    have hitems : (nth t.points p).bucket = level ∧ (nth t.points p).contact = c ∧ (nth t.points p).lastTime = time
        ∧ (nth t.points p).lastStamp = timed ∧ (nth t.points p).lastApprox = approx := by
      rcases hout with ⟨_, e⟩ | ⟨_, _, e⟩ | ⟨_, _, _, _, e⟩ | ⟨_, _, _, _, _, _, _, e, _⟩ | ⟨_, _, _, e⟩ <;>
      simp only [t, e, putPoint_points, offerFiltered_points, State.showPoint_points, nth_upd_same, hz, and_self]
    obtain ⟨i1, i2, i3, i4, i5⟩ := hitems
    refine ⟨i1, i2, i3, i4, i5, side.only, hother, side.memory.same, fun hh => ?_, fun hh hk hs => ?_, fun hh hf => ?_⟩
    · obtain ⟨_, e⟩ := hout.resolve_right (by simp only [x] at hh; simp [hh])
      simp only [t, e, putPoint_points, nth_upd_same, hz]
      exact ⟨hh, trivial, trivial, trivial, rfl⟩
    · rcases hout with ⟨h1, _⟩ | ⟨_, _, e⟩ | ⟨_, h2, _⟩ | ⟨_, h2, _⟩ | ⟨_, h2, _⟩
      · exact absurd (h1.symm.trans hh) (by decide)
      · have hj : s.filters .chatter = false → recordJoins (chatterRecord p
            { transited s p c run stamp approx with held := true, waiting := none } false s.stamp) s t := fun hfil =>
          recordJoins_of_filtered (u := State.showPoint p (putPoint p
            { transited s p c run stamp approx with held := true, waiting := none } s)) rfl hfil
            (e ▸ queueGrows_alarm.refl t)
        have hp : nth t.points p = { transited s p c run stamp approx with held := true, waiting := none } := by
          simp only [t, e, offerFiltered_points, State.showPoint_points, putPoint_points, nth_upd_same]
        rw [hz] at hj hp
        rw [hp]
        exact ⟨rfl, rfl, rfl, rfl, hj⟩
      all_goals exact absurd ⟨hk, hb.symm ▸ hs⟩ h2
    · rcases hout with ⟨h1, _⟩ | ⟨_, h2, e⟩ | ⟨_, _, h3, h4, e⟩ | ⟨_, _, h3, h4, ch, m, ha, e, _⟩ | ⟨_, _, h3, e⟩
      · exact absurd (h1.symm.trans hh) (by decide)
      · exact absurd (hb ▸ h2) hf
      · rw [hraw] at h3 h4 e
        rw [hdelay, htime] at h4
        simp only [t, e, putPoint_points, nth_upd_same, hz]
        exact ⟨hh, fun _ _ => ⟨rfl, trivial, trivial, rfl⟩, fun _ h => absurd h4 (by omega), fun h => absurd h h3⟩
      · rw [hraw] at h3 h4 e
        rw [hdelay, htime] at h4
        simp only [t, e, nth_upd_same, hz]
        exact ⟨hh, fun _ h => absurd h4 (by omega), fun _ _ => ⟨trivial, trivial⟩, fun h => absurd h h3⟩
      · rw [hraw] at h3
        simp only [t, e, putPoint_points, nth_upd_same, hz]
        exact ⟨hh, fun h => absurd h3 h, fun h => absurd h3 h, fun _ => ⟨trivial, trivial, trivial, rfl⟩⟩
  · dsimp only
    rw [takeEntry, dif_pos h, back_eq _ _ hday]
    rfl

end Sys2Proof.Machine
end

section
/-! SUPPORT. The rules of a take (R168, R169): what an order's slot leads to, what its DONE write leaves, and the two shapes
in which an order ends. -/

namespace Sys2Proof.Machine

/-! ## Runs of bytes -/

/-- A run that reads byte for byte as `bs` is `bs`. -/
theorem Memory.readBytes_eq {m : Memory} (a : Nat) (bs : List Byte)
    (h : ∀ i (hi : i < bs.length), m.read (a + i) = bs[i]) : m.readBytes a bs.length = bs := by
  induction bs generalizing a with
  | nil => rfl
  | cons b bs ih =>
    simp only [List.length_cons, Memory.readBytes]
    have h0 := h 0 (by simp)
    rw [Nat.add_zero] at h0
    rw [h0, ih (a + 1) fun i hi => by
      have := h (i + 1) (by simpa using hi)
      rwa [show a + (i + 1) = a + 1 + i by omega] at this]
    simp

@[simp] theorem resultData_length (bs : List Byte) : (resultData bs).length = 24 := by
  simp [resultData]

/-! ## DONE writes -/

/-- The memory after a DONE write (R169). -/
theorem finish_mem (n : Fin 16) (r : Result) (d : List Byte) (s : State) : (finish n r d s).mem
    = ((((s.mem.writeBytes (slotBase n + 8) (resultData d)).writeWord (slotBase n + 6) (word r.code)).writeWord
        (slotBase n) 3).writeWord 20 (s.engine.ordersFinished + 1)) := rfl

/-- Beside memory, a DONE write counts the order and raises ALERT (R169 steps 4 and 5). -/
theorem finish_rest (n : Fin 16) (r : Result) (d : List Byte) (s : State) :
    finish n r d s = { s with engine := s.engine.counted, mem := (finish n r d s).mem } := rfl

@[simp] theorem finish_points (n : Fin 16) (r : Result) (d : List Byte) (s : State) :
    (finish n r d s).points = s.points := by rw [finish_rest]
@[simp] theorem finish_classes (n : Fin 16) (r : Result) (d : List Byte) (s : State) :
    (finish n r d s).classes = s.classes := by rw [finish_rest]
@[simp] theorem finish_journal (n : Fin 16) (r : Result) (d : List Byte) (s : State) :
    (finish n r d s).journal = s.journal := by rw [finish_rest]

theorem slotBase_bounds (n : Fin 16) : 256 ≤ slotBase n ∧ slotBase n + 32 ≤ 768 := by
  unfold slotBase
  omega

theorem finish_memory (n : Fin 16) (r : Result) (d : List Byte) (s : State) :
    sameMemoryBut (doneByte n) s.mem (finish n r d s).mem := by
  intro a ha
  have := slotBase_bounds n
  simp only [doneByte] at ha
  rw [finish_mem, Memory.read_writeWord_other _ (by omega), Memory.read_writeWord_other _ (by omega),
    Memory.read_writeWord_other _ (by omega), Memory.read_writeBytes_other _ (by rw [resultData_length]; omega)]

/-- After a DONE write the slot reads DONE with the result code and the result data (R169). -/
theorem finish_slot (n : Fin 16) (r : Result) (d : List Byte) (s : State) (w : s.mem.wf = true) :
    SlotDone (finish n r d s).mem n r d := by
  have hb := slotBase_bounds n
  have w1 := Memory.wf_writeBytes (slotBase n + 8) (resultData d) w
  have w2 := Memory.wf_writeWord (slotBase n + 6) (word r.code) w1
  rw [finish_mem]
  refine ⟨?_, ?_, ?_⟩
  · rw [Memory.readWord_writeWord_other _ (by omega), Memory.readWord_writeWord_same _ w2 (by omega)]
  · rw [Memory.readWord_writeWord_other _ (by omega), Memory.readWord_writeWord_other _ (by omega),
      Memory.readWord_writeWord_same _ w1 (by omega)]
  · have := Memory.readBytes_eq (m := (finish n r d s).mem) (slotBase n + 8) (resultData d) fun i hi => by
      rw [resultData_length] at hi
      rw [finish_mem, Memory.read_writeWord_other _ (by omega), Memory.read_writeWord_other _ (by omega),
        Memory.read_writeWord_other _ (by omega),
        Memory.read_writeBytes _ w (by rw [resultData_length]; omega)]
    rwa [resultData_length, finish_mem] at this

/-! ## Takes -/

theorem ofCode_code (k : OrderKind) : OrderKind.ofCode k.code = some k := by cases k <;> rfl

/-- The state in which an order is judged: its slot reads TAKEN (R168). -/
def State.taking (s : State) (n : Fin 16) : State := s.putWord (slotBase n) 2

/-- A take of an order that no lock bars is its owner's judgement and the DONE write (R168). -/
theorem takeSlot_eq {n : Fin 16} {k : OrderKind} {d : List Byte} {s : State} (h : s.holdsOrder n k d)
    (hb : barred s.engine k = false) (hr : k ≠ .remoteTrip) :
    takeSlot n s = endTake n (applyOrder k n d (s.taking n)) := by
  obtain ⟨h1, h2⟩ := h
  have hb' : barred (s.putWord (slotBase n) 2).engine k = false := hb
  simp only [takeSlot, judgeOrder, h1, h2, ofCode_code, hb', Bool.false_eq_true, if_false, hr, false_and]
  rfl

/-- A take of an order that ends at once (R168, R169). -/
theorem takeSlot_done {n : Fin 16} {k : OrderKind} {d : List Byte} {s v : State} {r : Result} {data : List Byte}
    (h : s.holdsOrder n k d) (hb : barred s.engine k = false) (hr : k ≠ .remoteTrip)
    (ha : applyOrder k n d (s.taking n) = (v, .done r data)) : takeSlot n s = finish n r data v := by
  rw [takeSlot_eq h hb hr, ha]
  rfl

/-- An order that is answered without a change (R168, R169). -/
theorem orderEnds_finish (n : Fin 16) (r : Result) (data : List Byte) (s : State) (w : s.mem.wf = true) :
    OrderEnds n r data s (finish n r data (s.taking n)) where
  slot := finish_slot n r data _ (Memory.wf_writeWord _ _ w)
  rest := rfl
  memory a ha := by
    rw [finish_memory n r data _ a ha]
    simp only [doneByte] at ha
    exact Memory.read_writeWord_other _ (by omega)

/-- An order of a kind that is answered without a change. -/
theorem orderEnds_of {n : Fin 16} {k : OrderKind} {d : List Byte} {s : State} {r : Result} {data : List Byte}
    (w : s.mem.wf = true) (h : s.holdsOrder n k d) (hb : barred s.engine k = false) (hr : k ≠ .remoteTrip)
    (ha : applyOrder k n d (s.taking n) = (s.taking n, .done r data)) : OrderEnds n r data s (takeSlot n s) := by
  rw [takeSlot_done h hb hr ha]
  exact orderEnds_finish n r data s w

/-- An order that has left the state v, from the state in which it was judged, and its DONE write. -/
theorem orderDone_finish {n : Fin 16} {r : Result} {data : List Byte} {P : Fin 256 → Prop} {A : Nat → Prop}
    {s u v : State} (w : v.mem.wf = true) (only : SideOnly u v) (points : samePointsBut P u v)
    (memory : sameMemoryBut A (s.taking n).mem v.mem) : OrderDone n r data P A s u (finish n r data v) where
  slot := finish_slot n r data v w
  rest := { only with engine := congrArg Engine.counted only.engine }
  points := points
  memory a ha := by
    rw [not_or] at ha
    rw [finish_memory n r data v a ha.1, memory a ha.2]
    have := ha.1
    simp only [doneByte] at this
    exact Memory.read_writeWord_other _ (by omega)

/-- A relation of the journal's queue passes the DONE write. -/
theorem recordJoins_finish {rec : Record} {n : Fin 16} {r : Result} {data : List Byte} {s v : State}
    (h : recordJoins rec (s.taking n) v) : recordJoins rec s (finish n r data v) := h

end Sys2Proof.Machine
end

section
/-! The leak step and SET CHATTER: releases over all the points. -/

namespace Sys2Proof.Machine

/-! ## A step of each point in turn -/

/-- A fold over points in which each step changes its own point alone leaves every other point. -/
theorem foldl_skip {f : State → Fin 256 → State} (hown : ∀ s p q, p ≠ q → nth (f s p).points q = nth s.points q)
    {p : Fin 256} {l : List (Fin 256)} (hp : p ∉ l) (s : State) : nth (l.foldl f s).points p = nth s.points p := by
  induction l generalizing s with
  | nil => rfl
  | cons q l ih =>
    rw [List.mem_cons, not_or] at hp
    rw [List.foldl_cons, ih hp.2, hown s q p (Ne.symm hp.1)]

/-- What such a fold makes of a point of the list is what the one step of it makes of it, in a state the steps before it
lead to. -/
theorem foldl_own {R : State → State → Prop} (hrefl : ∀ s, R s s) (htrans : ∀ {s t u}, R s t → R t u → R s u)
    {f : State → Fin 256 → State} (hf : ∀ s p, R s (f s p))
    (hown : ∀ s p q, p ≠ q → nth (f s p).points q = nth s.points q) {p : Fin 256} {l : List (Fin 256)} (hn : l.Nodup)
    (hp : p ∈ l) (s : State) :
    ∃ u, R s u ∧ nth u.points p = nth s.points p ∧ nth (l.foldl f s).points p = nth (f u p).points p := by
  induction l generalizing s with
  | nil => exact absurd hp (by simp)
  | cons q l ih =>
    rw [List.nodup_cons] at hn
    rw [List.foldl_cons]
    by_cases e : q = p
    · subst e
      exact ⟨s, hrefl s, rfl, foldl_skip hown hn.1 _⟩
    · obtain ⟨u, h1, h2, h3⟩ := ih hn.2 ((List.mem_cons.mp hp).resolve_left (Ne.symm e)) (f s q)
      exact ⟨u, htrans (hf s q) h1, h2.trans (hown s q p e), h3⟩

/-! ## Releases (R11, R12, R22) -/

/-- The points x and y before and after a release that happens when x is HELD and c holds. -/
structure ReleasedWhen (c : Prop) (x y : Point) : Prop where
  kept : ¬(x.held = true ∧ c) → y = x
  released : x.held = true → c → y.held = false ∧ y.accepted = x.raw
  bucket : y.bucket = x.bucket
  contact : y.contact = x.contact
  settings : y.settings = x.settings
  shelved : y.shelved = x.shelved
  stale : y.stale = x.stale

theorem ReleasedWhen.held {c : Prop} [Decidable c] {x y : Point} (h : ReleasedWhen c x y) :
    y.held = (x.held && decide ¬c) := by
  by_cases hr : x.held = true ∧ c
  · rw [(h.released hr.1 hr.2).1]
    simp [hr.2]
  · rw [h.kept hr]
    by_cases hh : x.held = true
    · simp [hh, show ¬c from fun hc => hr ⟨hh, hc⟩]
    · simp [hh]

theorem releaseHold_own (p : Fin 256) (s : State) :
    ReleasedWhen True { nth s.points p with held := true } (nth (releaseHold p s).points p) := by
  rcases releaseHold_points p s with ⟨hr, e⟩ | ⟨_, c, m, ha, e, _⟩
  · rw [e, nth_upd_same]
    exact ⟨fun h => absurd ⟨rfl, trivial⟩ h, fun _ _ => ⟨rfl, hr.symm⟩, rfl, rfl, rfl, rfl, rfl⟩
  · rw [e, nth_upd_same]
    exact ⟨fun h => absurd ⟨rfl, trivial⟩ h, fun _ _ => ⟨rfl, rfl⟩, rfl, rfl, rfl, rfl, rfl⟩

theorem releaseHold_other (s : State) (p q : Fin 256) (h : p ≠ q) :
    nth (releaseHold p s).points q = nth s.points q := by
  rcases releaseHold_points p s with ⟨_, e⟩ | ⟨_, c, m, _, e, _⟩ <;> rw [e, nth_upd_other _ _ h]

/-- A release of the HELD points that meet a test, each in its turn. -/
structure Releases (f : State → Fin 256 → State) (c : State → Point → Prop) : Prop where
  release : ∀ s p, (nth s.points p).held = true → c s (nth s.points p) → f s p = releaseHold p s
  skip : ∀ s p, ¬((nth s.points p).held = true ∧ c s (nth s.points p)) → f s p = s

theorem leakRelease_releases : Releases leakRelease fun s x => x.bucket ≤ (s.classOf x).release where
  release _ _ h1 h2 := if_pos ⟨h1, h2⟩
  skip _ _ h := if_neg h

theorem releaseWeightless_releases : Releases releaseWeightless fun s x => (s.classOf x).weight = 0 where
  release _ _ h1 h2 := if_pos ⟨h1, h2⟩
  skip _ _ h := if_neg h

namespace Releases

variable {f : State → Fin 256 → State} {c : State → Point → Prop} (h : Releases f c)
include h

theorem own (s : State) (p : Fin 256) : ReleasedWhen (c s (nth s.points p)) (nth s.points p) (nth (f s p).points p) := by
  by_cases hr : (nth s.points p).held = true ∧ c s (nth s.points p)
  · rw [h.release s p hr.1 hr.2]
    have k := releaseHold_own p s
    exact ⟨fun h => absurd hr h, fun _ _ => k.released rfl trivial, k.bucket, k.contact, k.settings,
      k.shelved, k.stale⟩
  · rw [h.skip s p hr]
    exact ⟨fun _ => rfl, fun h1 h2 => absurd ⟨h1, h2⟩ hr, rfl, rfl, rfl, rfl, rfl⟩

theorem other (s : State) (p q : Fin 256) (hq : p ≠ q) : nth (f s p).points q = nth s.points q := by
  by_cases hr : (nth s.points p).held = true ∧ c s (nth s.points p)
  · rw [h.release s p hr.1 hr.2, releaseHold_other s p q hq]
  · rw [h.skip s p hr]

theorem side {P : Fin 256 → Prop} {A : Nat → Prop} {R : State → State → Prop} (k : SideClosed P A R) (s : State)
    (p : Fin 256) (hp : P p) : R s (f s p) := by
  by_cases hr : (nth s.points p).held = true ∧ c s (nth s.points p)
  · rw [h.release s p hr.1 hr.2]
    exact k.releaseHold p s hp
  · rw [h.skip s p hr]
    exact k.refl s

/-- What the releases of all the points make of each, when the test looks at the classes alone beside the point. -/
theorem fold (hc : ∀ s u x, u.classes = s.classes → c u x = c s x) (s : State) (p : Fin 256) :
    ReleasedWhen (c s (nth s.points p)) (nth s.points p) (nth ((List.finRange 256).foldl f s).points p) := by
  have side := sideOnly_closed (P := fun _ => True) (A := fun _ => True) (fun _ _ => trivial) (fun _ _ => ⟨trivial, trivial⟩)
    (fun _ _ => trivial)
  obtain ⟨u, hu, hp, e⟩ := foldl_own side.refl side.trans (fun s p => h.side side s p trivial) h.other
    (List.nodup_finRange 256) (List.mem_finRange p) s
  have := h.own u p
  rw [hp, hc s u _ hu.classes] at this
  rw [e]
  exact this

end Releases

/-! ## What the alarm side can reach -/

/-- The bytes the alarm side can reach: the point mirror, and what the journal reaches. -/
theorem alarmSide : SideClosed (fun _ => True) (fun a => mirrorByte a ∨ recordByte a)
    (SideReach (fun _ => True) (fun a => mirrorByte a ∨ recordByte a)) :=
  sideReach_closed (fun _ h => .inr h)
    (fun p _ => by
      have := p.isLt
      constructor <;> exact .inl (by simp only [mirrorByte, pointAddr]; omega))
    (fun _ _ => trivial)

/-- A table of points replaced: the rest stands. -/
theorem sideReach_points (A : Nat → Prop) (s : State) (v : Vector Point 256) :
    SideReach (fun _ => True) A s { s with points := v } where
  only := ⟨rfl, rfl, rfl, rfl, rfl, rfl, rfl, rfl, rfl, rfl, rfl, rfl, rfl, rfl, rfl⟩
  memory := ⟨id, fun _ _ => rfl⟩
  points _ h := absurd trivial h

theorem endAlarm_reach {s : State} (hd : dueIn (fun _ => True) s) :
    SideReach (fun _ => True) (fun a => mirrorByte a ∨ recordByte a) s (endAlarm s) := (alarmSide.endAlarm s hd).2

theorem leak_reach (s : State) : SideReach (fun _ => True) (fun a => mirrorByte a ∨ recordByte a) s (leak s) :=
  alarmSide.trans (sideReach_points _ s _) (alarmSide.trans
    (alarmSide.foldl _ _ _ fun u p _ => leakRelease_releases.side alarmSide u p trivial)
    (endAlarm_reach fun _ _ => trivial))

/-- The points after a leak step, but the Journal Unit's two (R11). -/
theorem leak_points {s : State} (hd : s.due = []) {p : Fin 256} (hp : ¬journalPoint p) :
    ReleasedWhen ((drain s (nth s.points p)).bucket ≤ (s.classOf (nth s.points p)).release) (drain s (nth s.points p))
      (nth (leak s).points p) := by
  have hdue : dueIn journalPoint ((List.finRange 256).foldl leakRelease
      { s with points := tab 256 fun p => drain s (nth s.points p) }) :=
    dueIn_of_frame ((frame_alarm fun _ => False).foldl _ _ _ fun u p _ => (frame_alarm _).leakRelease u p) (dueIn_nil hd)
  rw [leak, endAlarm_points hdue hp]
  have := leakRelease_releases.fold (fun s u x e => by simp only [State.classOf, e])
    { s with points := tab 256 fun p => drain s (nth s.points p) } p
  rw [nth_tab] at this
  exact this

/-! ## SET CHATTER -/

theorem ChatterClass.fits_iff (x : ChatterClass) : x.fits = true ↔
    x.weight ≤ 63 ∧ 1 ≤ x.leak ∧ x.leak ≤ 63 ∧ 1 ≤ x.suppress ∧ x.release < x.suppress := by
  simp only [ChatterClass.fits, Bool.and_eq_true, decide_eq_true_eq, and_assoc]

/-- The four classes SET CHATTER gives. -/
def classesOf (d : List Byte) : Vector ChatterClass 4 := tab 4 fun c => classAt d c.val

/-- The releases of SET CHATTER, after the change of the classes (R22). -/
def chatterReleases (d : List Byte) (s : State) : State :=
  (List.finRange 256).foldl releaseWeightless { s with classes := classesOf d }

/-- A SET CHATTER in range (R22). -/
def chatterApply (d : List Byte) (s : State) : State :=
  endAlarm (offerInside (settingsRecord .setChatter s.stamp 0 0 0 0 0) (chatterReleases d s))

theorem orderSetChatter_refused {d : List Byte} {c : Fin 4} (s : State) (hc : (classAt d c.val).fits = false)
    (hl : ∀ c' < c, (classAt d c'.val).fits = true) :
    orderSetChatter d s = (s, .done .refusedRange [byte c.val]) := by
  have h : (List.range 4).find? (fun c => !(classAt d c).fits) = some c.val := by
    rw [List.find?_range_eq_some]
    refine ⟨by simp [hc], List.mem_range.mpr c.isLt, fun j hj => ?_⟩
    simp [hl ⟨j, by omega⟩ hj]
  simp only [orderSetChatter, h]

theorem orderSetChatter_fits {d : List Byte} (s : State) (h : ∀ c : Fin 4, (classAt d c.val).fits = true) :
    orderSetChatter d s = (chatterApply d s, .done .doneOk []) := by
  have h : (List.range 4).find? (fun c => !(classAt d c).fits) = none := by
    rw [List.find?_eq_none]
    intro c hc
    simp [h ⟨c, List.mem_range.mp hc⟩]
  simp only [orderSetChatter, h]
  rfl

theorem chatterReleases_dueIn (d : List Byte) {s : State} (hd : dueIn journalPoint s) :
    dueIn journalPoint (chatterReleases d s) :=
  dueIn_of_frame (F := fun _ => False)
    (s := { s with classes := classesOf d }) ((frame_alarm _).foldl _ _ _ fun u p _ => (frame_alarm _).releaseWeightless u p) hd

/-- The points after a SET CHATTER, but the Journal Unit's two (R22). -/
theorem chatterApply_points (d : List Byte) {s : State} (hd : s.due = []) {p : Fin 256} (hp : ¬journalPoint p) :
    ReleasedWhen ((nth (classesOf d) (nth s.points p).settings.cls).weight = 0) (nth s.points p)
      (nth (chatterApply d s).points p) := by
  rw [chatterApply, endAlarm_points
    (dueIn_of_frame ((frame_alarm fun _ => False).offer _ _) (chatterReleases_dueIn d (dueIn_nil hd))) hp, offerInside_points]
  exact releaseWeightless_releases.fold (fun s u x e => by simp only [State.classOf, e]) { s with classes := classesOf d } p

theorem chatterApply_reach (d : List Byte) (s : State) :
    SideReach (fun _ => True) (fun a => mirrorByte a ∨ recordByte a) { s with classes := classesOf d } (chatterApply d s) :=
  alarmSide.trans (alarmSide.foldl _ _ _ fun u p _ => releaseWeightless_releases.side alarmSide u p trivial)
    (alarmSide.trans (alarmSide.offerInside _ _) (endAlarm_reach fun _ _ => trivial))

/-- With no point HELD, no release precedes the SETTINGS record. -/
theorem chatterReleases_none (d : List Byte) {s : State} (h : ∀ p, (nth s.points p).held = false) :
    chatterReleases d s = { s with classes := classesOf d } := by
  have hl : ∀ l : List (Fin 256), l.foldl releaseWeightless { s with classes := classesOf d }
      = { s with classes := classesOf d } := fun l => by
    induction l with
    | nil => rfl
    | cons p l ih => rw [List.foldl_cons, releaseWeightless_releases.skip _ _ fun k => by simp [h p] at k, ih]
  exact hl _

/-- Settles O33: the releases, point by point, and what the alarm side can reach. -/
theorem leakStepDrainsAndReleases : Obligations.LeakStepDrainsAndReleases := by
  unfold Obligations.LeakStepDrainsAndReleases
  intro n d s hd
  refine ⟨fun hnow hfrom => ?_, ?_⟩
  · have hr := leak_reach { s with sched := { s.sched with leakFrom := s.now + 1 } }
    refine ⟨leak { s with sched := { s.sched with leakFrom := s.now + 1 } }, ?_, fun p hp => ?_, hr.only, hr.memory.same⟩
    · simp only [exec, execLeakStep, if_pos (And.intro hnow hfrom)]
    · have h := leak_points (s := { s with sched := { s.sched with leakFrom := s.now + 1 } }) hd hp
      have hkeep : ∀ {y : Point}, y = drain s (nth s.points p) →
          y.accepted = (nth s.points p).accepted ∧ y.seq = (nth s.points p).seq ∧ y.waiting = (nth s.points p).waiting := by
        rintro y rfl
        exact ⟨rfl, rfl, rfl⟩
      refine ⟨h.bucket, ?_, h.contact, h.settings, fun hh => hkeep (h.kept fun k => ?_), fun hh hb => (h.released hh hb).2⟩
      · rw [h.held]
        simp only [Nat.not_le]
        rfl
      · rw [show (drain _ _).held = (nth s.points p).held from rfl, hh] at k
        exact absurd k.1 (by decide)
  · intro w ho hc given fits t
    refine ⟨fun c hc' hl => ?_, fun hf => ?_⟩
    · refine orderEnds_of w ho hc (by decide) (orderSetChatter_refused _ ?_ fun c' h => ?_)
      · exact Bool.eq_false_iff.mpr fun h => hc' ((ChatterClass.fits_iff _).mp h)
      · exact (ChatterClass.fits_iff _).mpr (hl c' h)
    · have ht : t = finish n .doneOk [] (chatterApply d (s.taking n)) :=
        takeSlot_done ho hc (by decide) (orderSetChatter_fits _ fun c => (ChatterClass.fits_iff _).mpr (hf c))
      have hr := chatterApply_reach d (s.taking n)
      have hgiven : ∀ c, nth (classesOf d) c = given c := fun c => nth_tab 4 (fun c : Fin 4 => classAt d c.val) c
      have hclasses : t.classes = classesOf d := by rw [ht, finish_classes]; exact hr.only.classes
      have hdone := orderDone_finish (n := n) (r := .doneOk) (data := []) (s := s) (hr.memory.wf (Memory.wf_writeWord _ _ w))
        hr.only hr.points hr.memory.same
      rw [← ht] at hdone
      refine ⟨hdone.slot, fun c => by rw [hclasses]; exact hgiven c, fun p hp => ?_, ?_, hdone.memory, fun hh => ?_⟩
      · have h := chatterApply_points d (s := s.taking n) hd hp
        rw [hgiven] at h
        have e : nth t.points p = nth (chatterApply d (s.taking n)).points p := by rw [ht, finish_points]
        rw [e]
        refine ⟨h.bucket, h.held, h.contact, h.settings, fun hk => ?_, fun hh hw => (h.released hh hw).2⟩
        rw [h.kept fun k => by
          rcases hk with hk | hk
          · exact absurd (hk.symm.trans k.1) (by decide)
          · exact hk k.2]
        exact ⟨rfl, rfl, rfl⟩
      · rw [hclasses]
        exact { hdone.rest with }
      · rw [ht]
        refine recordJoins_finish (s := s) (recordJoins_of_offer (u := { s.taking n with classes := classesOf d }) rfl ?_)
        rw [chatterApply, chatterReleases_none d (s := s.taking n) hh]
        exact queueGrows_alarm.endAlarm _

end Sys2Proof.Machine
end

section
/-! SHELVE POINT, UNSHELVE POINT and READ POINT. -/

namespace Sys2Proof.Machine

/-! ## Two records that join the queue one after the other -/

theorem offerInside_journal_roomy {r : Record} {s : State} (h : s.roomy r.high) : (offerInside r s).journal =
    { s.journal with
      queue := s.journal.queue ++ [{ r with seq := s.journal.nextSeq }], nextSeq := s.journal.nextSeq + 1 } := by
  rw [offerInside, offerWith_roomy keepReport r s h, stage_journal]

theorem roomy_of_places {s : State} {b : Bool} (h : s.journal.queue.length + 9 ≤ 48)
    (hw : s.journal.filling ≠ none ∨ s.journal.waiting = true) : s.roomy b := by
  refine ⟨?_, hw⟩
  cases b
  · exact h
  · show s.journal.queue.length + 1 ≤ 48
    omega

theorem recordsJoin_pair {r1 r2 : Record} {s u v t : State} (hu : u.journal = s.journal)
    (hv : v.journal = (offerInside r1 u).journal) (h : QueueGrows (offerInside r2 v) t) : recordsJoin [r1, r2] s t := by
  intro hl hw
  simp only [List.length_cons, List.length_nil] at hl
  have e1 := offerInside_journal_roomy (r := r1) (s := u)
    (roomy_of_places (by rw [hu]; omega) (by rw [hu]; exact hw))
  rw [e1, hu] at hv
  have e2 := offerInside_journal_roomy (r := r2) (s := v)
    (roomy_of_places (by rw [hv]; simp only [List.length_append, List.length_cons, List.length_nil]; omega)
      (by rw [hv]; exact hw))
  rw [hv] at e2
  obtain ⟨_, _, h3⟩ := h (by rw [e2]; exact hw)
  rw [e2] at h3
  simpa [List.mapIdx_cons] using h3

/-! ## What the two orders make of a point -/

theorem SideClosed.clearMark {P : Fin 256 → Prop} {A : Nat → Prop} {R : State → State → Prop} (h : SideClosed P A R)
    (p : Fin 256) (s : State) (hp : P p) : R s (Machine.clearMark p s) := by
  unfold Machine.clearMark
  split
  · refine h.trans (h.setMark p _ s hp) (h.foldl _ _ _ fun u g _ => ?_)
    unfold unmarkGroup
    dsimp only
    split
    · exact h.putGroup g _ u
    · exact h.refl u
  · exact h.refl s

/-- The SHELVE POINT of a point, up to the end of the event. -/
theorem shelve_reach (p : Fin 256) {s : State} (hd : s.due = []) :
    SideReach (fun q => q = p ∨ journalPoint q) (fun a => pointByte p a ∨ recordByte a) s (shelve p s) :=
  ((pointSide p).tracked.trans ((pointSide p).tracked.putPoint p { nth s.points p with shelved := true } s (.inl rfl))
    ((pointSide p).tracked.trans ((pointSide p).tracked.showPoint p _ (.inl rfl))
      ((pointSide p).tracked.trans ((pointSide p).tracked.offerInside _ _)
        ((pointSide p).tracked.trans ((pointSide p).tracked.quieten p _ (.inl rfl))
          ((pointSide p).tracked.trans ((pointSide p).tracked.clearMark p _ (.inl rfl)) ((pointSide p).endAlarm _)))))
    (dueIn_nil hd)).2

theorem shelve_point {p : Fin 256} {s : State} (hd : s.due = []) (hp : ¬journalPoint p) :
    nth (shelve p s).points p = { nth s.points p with shelved := true, seq := .quiet, firstMark := false } := by
  have hdue := dueIn_of_frame (F := fun _ => False) ((frame_alarm _).back ((frame_alarm _).clearMark p _)
    ((frame_alarm _).back ((frame_alarm _).quieten p _) ((frame_alarm _).back
      ((frame_alarm _).offer (settingsRecord .shelvePoint s.stamp p.val 0 0 0 0) _)
      ((frame_alarm _).editShown p { nth s.points p with shelved := true } s ⟨rfl, rfl, rfl⟩)))) (dueIn_nil hd)
  rw [shelve, endAlarm_points hdue hp, clearMark_points, quieten_points, offerInside_points, State.showPoint_points,
    putPoint_points]
  simp

theorem shelve_record (p : Fin 256) (s : State) :
    recordJoins (settingsRecord .shelvePoint s.stamp p.val 0 0 0 0) s (shelve p s) := by
  refine recordJoins_of_offer (u := State.showPoint p (putPoint p { nth s.points p with shelved := true } s)) rfl ?_
  exact queueGrows_alarm.back (queueGrows_alarm.endAlarm _) (queueGrows_alarm.back (queueGrows_alarm.clearMark p _)
    (queueGrows_alarm.quieten p _))

/-- An unshelving up to its SETTINGS record (R18). -/
def unshelved (p : Fin 256) (s : State) : State :=
  State.showPoint p (putPoint p
    { nth s.points p with shelved := false, waiting := none, accepted := (nth s.points p).raw } s)

/-- An unshelving up to the hand-on of the raw state (R18). -/
def unshelvedTold (p : Fin 256) (s : State) : State :=
  offerInside (settingsRecord .unshelvePoint s.stamp p.val 0 0 0 0) (unshelved p s)

/-- The hand-on of an abnormal raw state at an unshelving (R18). -/
def State.handOn (s : State) : Change := { abnormal := true, rawTime := s.now, stamp := s.stamp, initial := true }

theorem unshelve_eq (p : Fin 256) (s : State) : unshelve p s = endAlarm (if (nth s.points p).raw = true then
    takeChange p s.handOn (unshelvedTold p s) else unshelvedTold p s) := rfl

theorem unshelvedTold_points (p : Fin 256) (s : State) : (unshelvedTold p s).points = upd s.points p
    { nth s.points p with shelved := false, waiting := none, accepted := (nth s.points p).raw } := by
  simp [unshelvedTold, unshelved]

/-- A relation of the alarm side that an unshelving's edit keeps is kept up to the end of the event. -/
theorem AlarmClosed.unshelvedTold {R : State → State → Prop} (h : AlarmClosed R) (p : Fin 256) (s : State) :
    R s (Machine.unshelvedTold p s) :=
  h.back (h.offer _ _) (h.editShown p _ s ⟨rfl, rfl, rfl⟩)

theorem unshelve_reach (p : Fin 256) {s : State} (hd : s.due = []) :
    SideReach (fun q => q = p ∨ journalPoint q) (fun a => pointByte p a ∨ recordByte a) s (unshelve p s) := by
  have k := (pointSide p).tracked
  have h1 := k.trans (k.trans (k.putPoint p _ s (.inl rfl)) (k.showPoint p _ (.inl rfl)))
    (k.offerInside (settingsRecord .unshelvePoint s.stamp p.val 0 0 0 0) (unshelved p s))
  rw [unshelve_eq]
  split
  · exact (k.trans h1 (k.trans (k.takeChange p s.handOn _ (.inl rfl)) ((pointSide p).endAlarm _)) (dueIn_nil hd)).2
  · exact (k.trans h1 ((pointSide p).endAlarm _) (dueIn_nil hd)).2

/-- The point after an unshelving (R18). -/
theorem unshelve_point {p : Fin 256} {s : State} (hd : s.due = []) (hp : ¬journalPoint p) :
    let x := nth s.points p
    ∃ m, nth (unshelve p s).points p = { x with
      shelved := false, waiting := none, accepted := x.raw, firstMark := m,
      seq := if x.raw = true then x.seq.move true x.settings.lockIn x.settings.ringback else x.seq } := by
  have k := frame_alarm fun _ => False
  have h1 := k.unshelvedTold p s
  intro x
  rw [unshelve_eq]
  by_cases hr : x.raw = true
  · rw [if_pos hr, endAlarm_points (dueIn_of_frame (k.back (k.takeChange p _ _) h1) (dueIn_nil hd)) hp]
    obtain ⟨m, e, _⟩ := takeChange_points p s.handOn (unshelvedTold p s)
    rw [e, nth_upd_same, unshelvedTold_points, nth_upd_same, if_pos hr]
    exact ⟨m, rfl⟩
  · rw [if_neg hr, endAlarm_points (dueIn_of_frame h1 (dueIn_nil hd)) hp, unshelvedTold_points, nth_upd_same, if_neg hr]
    exact ⟨x.firstMark, rfl⟩

theorem unshelve_record (p : Fin 256) (s : State) :
    recordJoins (settingsRecord .unshelvePoint s.stamp p.val 0 0 0 0) s (unshelve p s) := by
  refine recordJoins_of_offer (u := unshelved p s) rfl ?_
  rw [unshelve_eq]
  refine queueGrows_alarm.back (queueGrows_alarm.endAlarm _) ?_
  split
  · exact queueGrows_alarm.takeChange p _ _
  · exact queueGrows_alarm.refl _

/-- The POINT record of an unshelving's hand-on follows the SETTINGS record (R18, R27). -/
theorem unshelve_records (p : Fin 256) (s : State) (hr : (nth s.points p).raw = true) :
    let x := nth s.points p
    let q := x.seq.move true x.settings.lockIn x.settings.ringback
    recordsJoin [settingsRecord .unshelvePoint s.stamp p.val 0 0 0 0,
      pointRecord p { x with shelved := false, waiting := none, accepted := x.raw, seq := q } x.seq s.handOn] s
      (unshelve p s) := by
  intro x q
  have h := queueGrows_trans (queueGrows_alarm.takeChange_after p s.handOn (unshelvedTold p s))
    (queueGrows_alarm.endAlarm _)
  rw [unshelve_eq, if_pos hr]
  generalize endAlarm (takeChange p s.handOn (unshelvedTold p s)) = t at h ⊢
  rw [unshelvedTold_points, nth_upd_same, offerPoint, if_pos (show s.handOn.abnormal = true from rfl)] at h
  exact recordsJoin_pair (u := unshelved p s) rfl (by rfl) h

/-! ## The three orders -/

theorem orderShelve_of {d : List Byte} {p : Fin 256} (s : State) (hp : wordAt d 0 = p.val) : orderShelve d s =
    if (nth s.points p).settings.enabled = false then (s, .done .refusedState [])
    else if (nth s.points p).shelved = true then (s, .done .doneOk []) else (shelve p s, .done .doneOk []) := by
  have : pointOf (wordAt d 0) = some p := by rw [hp, pointOf, dif_pos p.isLt]
  rw [orderShelve, this]
  rfl

theorem orderUnshelve_of {d : List Byte} {p : Fin 256} (s : State) (hp : wordAt d 0 = p.val) : orderUnshelve d s =
    if (nth s.points p).shelved = true then (unshelve p s, .done .doneOk []) else (s, .done .doneOk []) := by
  have : pointOf (wordAt d 0) = some p := by rw [hp, pointOf, dif_pos p.isLt]
  rw [orderUnshelve, this]
  rfl

theorem orderReadPoint_of {d : List Byte} {p : Fin 256} (s : State) (hp : wordAt d 0 = p.val) :
    orderReadPoint d s = (s, .done .doneOk (pointData (nth s.points p) s.now)) := by
  have : pointOf (wordAt d 0) = some p := by rw [hp, pointOf, dif_pos p.isLt]
  rw [orderReadPoint, this]

/-- A point number above 255 is refused (R180). -/
theorem pointOrders_refuse {d : List Byte} (s : State) (h : 256 ≤ wordAt d 0) :
    orderShelve d s = (s, .done .refusedRange []) ∧ orderUnshelve d s = (s, .done .refusedRange [])
      ∧ orderReadPoint d s = (s, .done .refusedRange []) := by
  have : pointOf (wordAt d 0) = none := dif_neg (by omega)
  simp only [orderShelve, orderUnshelve, orderReadPoint, this]
  exact ⟨rfl, rfl, rfl⟩

/-- An order that touches one point and makes records of it has ended. -/
theorem orderDone_point {n : Fin 16} {p : Fin 256} {s t v : State} (w : s.mem.wf = true)
    (hr : SideReach (fun q => q = p ∨ journalPoint q) (fun a => pointByte p a ∨ recordByte a) (s.taking n) v)
    (ht : t = finish n .doneOk [] v) :
    OrderDone n .doneOk [] (fun q => q = p ∨ journalPoint q) (fun a => pointByte p a ∨ recordByte a) s s t := by
  have h := orderDone_finish (n := n) (r := .doneOk) (data := []) (hr.memory.wf (Memory.wf_writeWord _ _ w)) hr.only hr.points
    hr.memory.same
  rw [ht]
  exact ⟨h.slot, { h.rest with }, h.points, h.memory⟩

/-! ## READ POINT's data (section 11.5) -/

/-- A byte of a run that was read. -/
theorem Memory.read_of_readBytes {m : Memory} {a k : Nat} {bs : List Byte} (h : m.readBytes a k = bs) (i : Nat) (hi : i < k) :
    m.read (a + i) = byteAt bs i := by
  induction k generalizing a bs i with
  | zero => omega
  | succ k ih =>
    subst h
    cases i with
    | zero => rfl
    | succ i =>
      have := ih (a := a + 1) rfl i (by omega)
      rw [show a + (i + 1) = a + 1 + i by omega, this]
      rfl

theorem wordOf_bytes (n : Nat) : wordOf (byte n) (byte (n / 256)) = word n := by
  apply BitVec.eq_of_toNat_eq
  simp only [wordOf, BitVec.toNat_append, BitVec.toNat_ofNat]
  rw [← Nat.shiftLeft_add_eq_or_of_lt (by omega), Nat.shiftLeft_eq]
  omega

/-- A word of a run that was read, where the run holds a number's two bytes. -/
theorem Memory.readWord_of_readBytes {m : Memory} {a k : Nat} {bs : List Byte} (h : m.readBytes a k = bs) (i : Nat)
    (hi : i + 1 < k) (v : Nat) (h0 : byteAt bs i = byte v) (h1 : byteAt bs (i + 1) = byte (v / 256)) :
    m.readWord (a + i) = word v := by
  rw [Memory.readWord, Memory.read_of_readBytes h i (by omega), Nat.add_assoc, Memory.read_of_readBytes h (i + 1) hi, h0, h1,
    wordOf_bytes]

/-- The seven flags of READ POINT's third byte. -/
theorem flags_byte : ∀ b0 b1 b2 b3 b4 b5 b6 : Bool,
    let v := byte (bit b0 + 2 * bit b1 + 4 * bit b2 + 8 * bit b3 + 16 * bit b4 + 32 * bit b5 + 64 * bit b6)
    v.getLsbD 0 = b0 ∧ v.getLsbD 1 = b1 ∧ v.getLsbD 2 = b2 ∧ v.getLsbD 3 = b3 ∧ v.getLsbD 4 = b4 ∧ v.getLsbD 5 = b5
      ∧ v.getLsbD 6 = b6 ∧ v.getLsbD 7 = false := by decide

/-- READ POINT's data, byte for byte. -/
theorem pointData_bytes (x : Point) (now : Nat) : resultData (pointData x now) =
    [byte x.bucket, byte x.settings.cls.val,
      byte (bit x.held + 2 * bit x.stale + 4 * bit x.shelved + 8 * bit x.settings.enabled + 16 * bit x.raw
        + 32 * bit x.accepted + 64 * bit x.lastApprox),
      byte x.contact.code, byte (match x.waiting with | none => 0 | some c => if c.target then 2 else 1), 0]
    ++ bytes2 (match x.waiting with | none => 0 | some c => c.deadline - now)
    ++ bytes2 x.lastTime ++ bytes2 (x.lastTime / 65536) ++ bytes2 (x.lastTime / 4294967296)
    ++ bytes2 x.lastStamp.day ++ bytes2 x.lastStamp.ms ++ bytes2 (x.lastStamp.ms / 65536) ++ [0, 0, 0, 0] := by
  simp only [resultData, pointData, bytes6, bytes4, bytes2, Nat.div_div_eq_div_mul]
  rfl

/-- Settles O21: SHELVE POINT and UNSHELVE POINT by what they make of the point and the records they bring, READ POINT by
its data, byte for byte. -/
theorem shelvePointQuietsThePoint : Obligations.ShelvePointQuietsThePoint := by
  unfold Obligations.ShelvePointQuietsThePoint
  intro n d s w hd
  refine ⟨fun h256 ho => ?_, fun p hp => ⟨fun ho he => ?_, fun ho he hs => ?_, fun ho he hs => ?_, fun ho hs => ?_,
    fun ho hs => ?_, fun ho => ?_⟩⟩
  · obtain ⟨e1, e2, e3⟩ := pointOrders_refuse (s.taking n) h256
    rcases ho with ho | ho | ho
    · exact orderEnds_of w ho rfl (by decide) e1
    · exact orderEnds_of w ho rfl (by decide) e2
    · exact orderEnds_of w ho rfl (by decide) e3
  · exact orderEnds_of w ho rfl (by decide) ((orderShelve_of (s.taking n) hp).trans (if_pos he))
  · exact orderEnds_of w ho rfl (by decide) ((orderShelve_of (s.taking n) hp).trans
      ((if_neg (by rw [show (nth (s.taking n).points p).settings.enabled = true from he]; decide)).trans (if_pos hs)))
  · have ht := takeSlot_done ho rfl (by decide) (by
      rw [applyOrder, orderShelve_of (s.taking n) hp,
        if_neg (by rw [show (nth (s.taking n).points p).settings.enabled = true from he]; decide),
        if_neg (by rw [show (nth (s.taking n).points p).shelved = false from hs]; decide)])
    refine ⟨orderDone_point w (shelve_reach p (s := s.taking n) hd) ht, fun hj => ?_, ?_⟩
    · rw [ht, finish_points]
      exact shelve_point (s := s.taking n) hd hj
    · rw [ht]
      exact recordJoins_finish (shelve_record p (s.taking n))
  · exact orderEnds_of w ho rfl (by decide) ((orderUnshelve_of (s.taking n) hp).trans
      (if_neg (by rw [show (nth (s.taking n).points p).shelved = false from hs]; decide)))
  · intro q
    have ht := takeSlot_done ho rfl (by decide) ((orderUnshelve_of (s.taking n) hp).trans (if_pos hs))
    refine ⟨orderDone_point w (unshelve_reach p (s := s.taking n) hd) ht, fun hj => ?_, ?_, fun hr => ?_⟩
    · obtain ⟨m, e⟩ := unshelve_point (s := s.taking n) hd hj
      rw [ht, finish_points, e]
      refine ⟨rfl, fun h1 h2 => ?_⟩
      show (if (nth s.points p).raw = true then (nth s.points p).seq.move true _ _ else (nth s.points p).seq) = _
      rw [if_pos h2, h1]
      rfl
    · rw [ht]
      exact recordJoins_finish (unshelve_record p (s.taking n))
    · rw [ht]
      have h := unshelve_records p (s.taking n) hr
      simp only [q, if_pos hr]
      exact h
  · have h := orderEnds_of w ho rfl (by decide) (orderReadPoint_of (s.taking n) hp)
    have hb := h.slot.data
    rw [pointData_bytes] at hb
    obtain ⟨f0, f1, f2, f3, f4, f5, f6, f7⟩ := flags_byte (nth s.points p).held (nth s.points p).stale
      (nth s.points p).shelved (nth s.points p).settings.enabled (nth s.points p).raw (nth s.points p).accepted
      (nth s.points p).lastApprox
    have hread := fun i hi => Memory.read_of_readBytes hb i hi
    have hword := fun i hi v h0 h1 => Memory.readWord_of_readBytes hb i hi v h0 h1
    intro at8 wordAt8
    have h2 : at8 2 = _ := hread 2 (by decide)
    rw [h2]
    refine ⟨h.rest, h.memory, h.slot.state, h.slot.result, hread 0 (by decide), hread 1 (by decide), f0, f1, f2, f3, f4, f5,
      f6, f7, ?_, ?_, hread 5 (by decide), ?_, hword 8 (by decide) _ rfl rfl, hword 10 (by decide) _ rfl rfl,
      hword 12 (by decide) _ rfl rfl, hword 14 (by decide) _ rfl rfl, hword 16 (by decide) _ rfl rfl,
      hword 18 (by decide) _ rfl rfl, hword 20 (by decide) 0 rfl rfl, hword 22 (by decide) 0 rfl rfl⟩
    · refine (hread 3 (by decide)).trans ?_
      show byte (nth s.points p).contact.code = _
      cases (nth s.points p).contact <;> rfl
    · refine (hread 4 (by decide)).trans ?_
      show byte (match (nth s.points p).waiting with | none => 0 | some c => if c.target then 2 else 1) = _
      rcases (nth s.points p).waiting with _ | c
      · rfl
      · dsimp only
        split <;> rfl
    · refine (hword 6 (by decide) _ rfl rfl).trans ?_
      show word (match (nth s.points p).waiting with | none => 0 | some c => c.deadline - s.now) = _
      rcases (nth s.points p).waiting with _ | c <;> rfl

end Sys2Proof.Machine
end

section
/-! LOAD POINTS and LOAD MATRIX: the takes, the segment read that completes an image, and the end of a LOAD MATRIX. -/

namespace Sys2Proof.Machine

/-! ## Banks -/

@[simp] theorem State.bank_setBank_same (s : State) (b : BankId) (x : Bank) : (s.setBank b x).bank b = x := by cases b <;> rfl

/-- Replacing a bank replaces nothing else. -/
theorem State.setBank_rest (s : State) (b : BankId) (x : Bank) :
    s.setBank b x = { s with bankA := (s.setBank b x).bankA, bankB := (s.setBank b x).bankB } := by cases b <;> rfl

theorem State.setBank_mem (s : State) (b : BankId) (x : Bank) : (s.setBank b x).mem = s.mem := by rw [State.setBank_rest]
theorem State.setBank_engine (s : State) (b : BankId) (x : Bank) : (s.setBank b x).engine = s.engine := by
  rw [State.setBank_rest]
theorem State.setBank_due (s : State) (b : BankId) (x : Bank) : (s.setBank b x).due = s.due := by rw [State.setBank_rest]
theorem State.setBank_points (s : State) (b : BankId) (x : Bank) : (s.setBank b x).points = s.points := by
  rw [State.setBank_rest]

/-- What SideOnly says of a bank. -/
theorem SideOnly.bank {s t : State} (h : SideOnly s t) (b : BankId) : t.bank b = s.bank b := by
  cases b
  · exact h.bankA
  · exact h.bankB

/-- The bytes of the bank states' word (section 11.9). -/
abbrev matrixByte (a : Nat) : Prop := a = hallBase + 240 ∨ a = hallBase + 241

theorem showMatrix_memory (s : State) : MemoryReach matrixByte s (State.showMatrix s) where
  wf w := Memory.wf_writeWord _ _ w
  same a ha := by
    simp only [matrixByte] at ha
    exact Memory.read_writeWord_other _ (by omega)

/-! ## Takes (R19, R88) -/

/-- A long order that is taken: beside the state u it leaves, its slot reads TAKEN. -/
theorem taken_of {n : Fin 16} {A : Nat → Prop} {s t u : State} (w : s.mem.wf = true) (hu : t = { u with mem := t.mem })
    (hA : ∀ a, A a → 768 ≤ a) (hm : sameMemoryBut A (s.taking n).mem t.mem) :
    t = { u with mem := t.mem } ∧ t.mem.readWord (slotBase n) = 2
      ∧ sameMemoryBut (fun a => a = slotBase n ∨ a = slotBase n + 1 ∨ A a) s.mem t.mem := by
  have hb := slotBase_bounds n
  have hm' : sameMemoryBut A (s.mem.writeWord (slotBase n) 2) t.mem := hm
  refine ⟨hu, ?_, fun a ha => ?_⟩
  · rw [Memory.readWord, hm' _ fun h => absurd (hA _ h) (by omega), hm' _ fun h => absurd (hA _ h) (by omega)]
    exact Memory.readWord_writeWord_same 2 w (by omega)
  · simp only [not_or] at ha
    rw [hm' a ha.2.2, Memory.read_writeWord_other _ (by omega)]

theorem orderLoadPoints_busy {n : Fin 16} {d : List Byte} {s : State} (h : s.engine.loadPoints ≠ none) :
    orderLoadPoints n d s = (s, .done .refusedBusy []) := by
  unfold orderLoadPoints
  split
  · rfl
  · next e => exact absurd e h

theorem orderLoadMatrix_busy {n : Fin 16} {d : List Byte} {s : State} (h : s.engine.loadMatrix ≠ none) :
    orderLoadMatrix n d s = (s, .done .refusedBusy []) := by
  unfold orderLoadMatrix
  split
  · rfl
  · next e => exact absurd e h

theorem loadPoints_taken {n : Fin 16} {d : List Byte} {s : State} (ho : s.holdsOrder n .loadPoints d)
    (hc : s.engine.commissioning = false) (h : s.engine.loadPoints = none) : takeSlot n s =
      { s.taking n with engine := { s.engine with loadPoints := some (newJob n d s.now) } } := by
  rw [takeSlot_eq ho hc (by decide), applyOrder, orderLoadPoints, show (s.taking n).engine.loadPoints = none from h]
  rfl

theorem loadMatrix_taken {n : Fin 16} {d : List Byte} {s : State} (ho : s.holdsOrder n .loadMatrix d)
    (hs : s.engine.service = false) (hc : s.engine.commissioning = false) (h : s.engine.loadMatrix = none) :
    takeSlot n s = State.showMatrix { (s.taking n).setBank s.standby { state := .loading } with
      engine := { s.engine with loadMatrix := some (newJob n d s.now) } } := by
  have hb : barred s.engine .loadMatrix = false := by simp only [barred, hs, hc]; rfl
  rw [takeSlot_eq ho hb (by decide), applyOrder, orderLoadMatrix, show (s.taking n).engine.loadMatrix = none from h]
  dsimp only
  rw [State.setBank_engine]
  rfl

/-! ## The segment read that completes an image (R171, R172) -/

theorem segmentFault_none {j : ImageJob} {index length : Nat} (h7 : 7 ≤ j.page) (h255 : j.page ≤ 255)
    (hi : index = j.index) (h1 : 1 ≤ length) (h248 : length ≤ 248) (hl : j.payload.length + length = j.byteLength) :
    segmentFault j index length 0 = none := by
  unfold segmentFault
  dsimp only
  rw [if_neg (by omega), if_neg (by omega), if_neg (by omega), if_neg (by omega), if_neg (by omega), if_neg (by omega)]

@[simp] theorem Memory.readBytes_length (m : Memory) (a n : Nat) : (m.readBytes a n).length = n := by
  induction n generalizing a with
  | zero => rfl
  | succ n ih => simp [Memory.readBytes, ih]

theorem segmentRead_completes {o : ImageOrder} {j : ImageJob} {s : State} {bs : List Byte} (hj : s.job o = some j)
    (h7 : 7 ≤ j.page) (h255 : j.page ≤ 255) (hi : (s.mem.readWord (256 * j.page)).toNat = j.index)
    (h1 : 1 ≤ (s.mem.readWord (256 * j.page + 2)).toNat) (h248 : (s.mem.readWord (256 * j.page + 2)).toNat ≤ 248)
    (h0 : s.mem.readWord (256 * j.page + 4) = 0)
    (hbs : bs = j.payload ++ s.mem.readBytes (256 * j.page + 8) (s.mem.readWord (256 * j.page + 2)).toNat)
    (hl : bs.length = j.byteLength) (ht : j.nextRead ≤ s.now) :
    exec (.segmentRead o) s = .next (endImage o j.slot (completeImage o bs s)) := by
  have h0' : (s.mem.readWord (256 * j.page + 4)).toNat = 0 := by rw [h0]; rfl
  have hl' : j.payload.length + (s.mem.readWord (256 * j.page + 2)).toNat = j.byteLength := by
    rw [← hl, hbs, List.length_append, Memory.readBytes_length]
  simp only [exec, execSegmentRead, hj, if_pos ht, readSegment, h0', segmentFault_none h7 h255 hi h1 h248 hl', if_true, ← hbs]

/-! ## The end of a LOAD MATRIX (R89) -/

/-- The state a LOAD MATRIX leaves: the standby bank replaced, the order no longer in flight. -/
def State.matrixEnded (s : State) (x : Bank) : State :=
  { s.setBank s.standby x with engine := { s.engine with loadMatrix := none } }

theorem endMatrix_reach (bk : BankId) (x : Bank) (r : Result) (c : Nat) {s : State} (hd : s.due = []) :
    SideReach journalPoint recordByte (State.showMatrix (s.setBank bk x)) (endMatrix bk x r c s) :=
  offer_reach _ _ ((State.setBank_due s bk x).trans hd)

/-- A LOAD MATRIX ends with the standby bank x and its DONE write. -/
theorem endMatrix_done (n : Fin 16) (x : Bank) (r : Result) (c : Nat) (data : List Byte) {s : State}
    (w : s.mem.wf = true) (hd : s.due = []) :
    let t := endImage .loadMatrix n (endMatrix s.standby x r c s, r, data)
    OrderDone n r data journalPoint (fun a => a = hallBase + 240 ∨ a = hallBase + 241 ∨ recordByte a) s (s.matrixEnded x) t
      ∧ t.bank s.standby = x := by
  intro t
  have h := endMatrix_reach s.standby x r c hd
  have hm := showMatrix_memory (s.setBank s.standby x)
  generalize hv : endMatrix s.standby x r c s = v at h
  have ht : t = finish n r data { v with engine := { v.engine with loadMatrix := none } } := by
    simp only [t, hv]
    rfl
  have he : v.engine = s.engine := h.only.engine.trans (State.setBank_engine s _ x)
  have hbank : v.bank s.standby = x := (h.only.bank s.standby).trans (State.bank_setBank_same s s.standby x)
  refine ⟨⟨?_, ?_, ?_, ?_⟩, ?_⟩
  · rw [ht]
    exact finish_slot n r data _ (h.memory.wf (hm.wf (by rw [State.setBank_mem]; exact w)))
  · rw [ht, finish_rest]
    exact { h.only with engine := by rw [he]; rfl }
  · intro p hp
    rw [ht, finish_points]
    exact h.points p hp
  · intro a ha
    obtain ⟨h1, ha⟩ := not_or.mp ha
    obtain ⟨h2, ha⟩ := not_or.mp ha
    obtain ⟨h3, h4⟩ := not_or.mp ha
    rw [ht, finish_memory n r data _ a h1]
    refine (h.memory.same a h4).trans ?_
    rw [hm.same a fun k => k.elim h2 h3, State.setBank_mem]
  · rw [ht, finish_rest]
    exact hbank

/-! ## The entries of an image (section 11.10) -/

/-- The first index that meets a test. -/
theorem find?_finRange {n : Nat} {f : Fin n → Bool} {i : Fin n} (h : f i = true) (hl : ∀ j < i, f j = false) :
    (List.finRange n).find? f = some i := by
  rw [List.find?_eq_some_iff_getElem]
  refine ⟨h, i.val, by simp, by simp, fun j hj => ?_⟩
  rw [List.getElem_finRange]
  simpa using hl _ (by simpa [Fin.lt_def] using hj)

theorem imageEntries_q (bs : List Byte) (i : Fin 32) : (nth (imageEntries bs) i).q =
    if numAt bs (4 * i.val + 3) = 0 then 1 else if 15 < numAt bs (4 * i.val + 3) then 15 else numAt bs (4 * i.val + 3) := by
  unfold imageEntries
  rw [nth_tab]
  show clampCount (numAt bs (4 * i.val + 3)) = _
  unfold clampCount
  split
  · rfl
  · split <;> omega

/-- A 24-bit mask from its three bytes, bit by bit. -/
theorem mask_getLsbD (a b c : Byte) (k : Nat) (hk : k < 24) :
    (BitVec.ofNat 24 (a.toNat + 256 * b.toNat + 65536 * c.toNat)).getLsbD k
      = ((if k / 8 = 0 then a else if k / 8 = 1 then b else c).getLsbD (k % 8)) := by
  have e : BitVec.ofNat 24 (a.toNat + 256 * b.toNat + 65536 * c.toNat) = c ++ (b ++ a : BitVec 16) := by
    apply BitVec.eq_of_toNat_eq
    have hba : (b ++ a : BitVec 16).toNat = b.toNat * 256 + a.toNat := by
      rw [BitVec.toNat_append, ← Nat.shiftLeft_add_eq_or_of_lt (by omega), Nat.shiftLeft_eq]
    rw [BitVec.toNat_append, hba, BitVec.toNat_ofNat, ← Nat.shiftLeft_add_eq_or_of_lt (by omega), Nat.shiftLeft_eq]
    omega
  rw [e, BitVec.getLsbD_append, BitVec.getLsbD_append]
  rcases (by omega : k < 8 ∨ (8 ≤ k ∧ k < 16) ∨ 16 ≤ k) with h | h | h
  · rw [if_pos (show k < 8 + 8 by omega), if_pos h, if_pos (by omega), Nat.mod_eq_of_lt h]
  · rw [if_pos (show k < 8 + 8 by omega), if_neg (by omega), if_neg (by omega), if_pos (by omega),
      show k % 8 = k - 8 by omega]
  · rw [if_neg (show ¬k < 8 + 8 by omega), if_neg (by omega), if_neg (by omega), show k % 8 = k - (8 + 8) by omega]

theorem imageEntries_mask (bs : List Byte) (i : Fin 32) (o : Fin 24) :
    (nth (imageEntries bs) i).mask.getLsbD o.val = bitAt bs (4 * i.val + o.val / 8) (o.val % 8) := by
  unfold imageEntries
  rw [nth_tab]
  refine (mask_getLsbD (byteAt bs (4 * i.val)) (byteAt bs (4 * i.val + 1)) (byteAt bs (4 * i.val + 2)) o.val o.isLt).trans ?_
  unfold bitAt
  have := o.isLt
  rcases (by omega : o.val / 8 = 0 ∨ o.val / 8 = 1 ∨ o.val / 8 = 2) with h | h | h <;> simp [h]

theorem countClamped_eq (bs : List Byte) (i : Fin 32) : countClamped bs i
    = (decide (numAt bs (4 * i.val + 3) = 0) || decide (15 < numAt bs (4 * i.val + 3))) := by
  show decide (clampCount (numAt bs (4 * i.val + 3)) ≠ numAt bs (4 * i.val + 3)) = _
  rw [← Bool.decide_or, decide_eq_decide]
  unfold clampCount
  split <;> omega

end Sys2Proof.Machine
end

section
/-! SUPPORT. The apply of a LOAD POINTS: what the treatment of one point makes of it, and what the apply can reach. -/

namespace Sys2Proof.Machine

/-! ## The treatment of a point (R20, R21) -/

theorem becomeDisabled_points (p : Fin 256) (s : State) : (becomeDisabled p s).points = upd s.points p
    { nth s.points p with
      waiting := none, bucket := 0, held := false, shelved := false, accepted := false, seq := .quiet,
      firstMark := false } := by
  unfold becomeDisabled
  simp [upd_upd]

/-- The filter of a point that becomes enabled starts afresh; an abnormal raw state is handed on (R20). -/
theorem becomeEnabled_points (p : Fin 256) (s : State) :
    let x := nth s.points p
    ∃ m, (becomeEnabled p s).points = upd s.points p { x with
      bucket := 0, held := false, shelved := false, waiting := none, lastTime := s.now, lastStamp := s.stamp,
      lastApprox := false, accepted := x.raw, firstMark := m,
      seq := if x.raw = true then x.seq.move true x.settings.lockIn x.settings.ringback else x.seq } := by
  intro x
  unfold becomeEnabled
  dsimp only
  by_cases hr : (nth s.points p).raw = true
  · rw [if_pos hr]
    obtain ⟨m, e, _⟩ := takeChange_points p { abnormal := true, rawTime := s.now, stamp := s.stamp, initial := true }
      (State.showPoint p (putPoint p { x with
        bucket := 0, held := false, shelved := false, waiting := none, lastTime := s.now, lastStamp := s.stamp,
        lastApprox := false, accepted := x.raw } s))
    refine ⟨m, e.trans ?_⟩
    simp only [State.showPoint_points, putPoint_points, nth_upd_same, upd_upd, if_pos (show x.raw = true from hr)]
    rfl
  · rw [if_neg hr]
    refine ⟨x.firstMark, ?_⟩
    simp only [State.showPoint_points, putPoint_points, if_neg (show ¬x.raw = true from hr)]
    rfl

/-- A point that stays enabled, up to its release (R21). -/
def marksChecked (p : Fin 256) (old : Settings) (s : State) : State :=
  let s1 := if displayChanged old (nth s.points p).settings then State.showPoint p s else s
  if old.group ≠ (nth s.points p).settings.group then clearMark p s1 else s1

theorem marksChecked_points (p : Fin 256) (old : Settings) (s : State) : (marksChecked p old s).points = upd s.points p
    { nth s.points p with
      firstMark := if old.group ≠ (nth s.points p).settings.group then false else (nth s.points p).firstMark } := by
  unfold marksChecked
  dsimp only
  have h1 : (if displayChanged old (nth s.points p).settings = true then State.showPoint p s else s).points = s.points := by
    split <;> rfl
  by_cases hg : old.group ≠ (nth s.points p).settings.group
  · rw [if_pos hg, if_pos hg, clearMark_points, h1]
  · rw [if_neg hg, if_neg hg, h1, upd_nth]

theorem InsideClosed.marksChecked {R : State → State → Prop} (h : InsideClosed R) (p : Fin 256) (old : Settings) (s : State) :
    R s (Machine.marksChecked p old s) := by
  unfold Machine.marksChecked
  dsimp only
  have h1 : R s (if displayChanged old (nth s.points p).settings = true then State.showPoint p s else s) := by
    split
    · exact h.mem s _
    · exact h.refl s
  split
  · exact h.back (h.clearMark p _) h1
  · exact h1

theorem stayEnabled_eq (p : Fin 256) (old : Settings) (s : State) :
    stayEnabled p old s = releaseWeightless (marksChecked p old s) p := rfl

/-- What the treatment of a point comes to, but for the horns of its zones (R20 step 4, R21). -/
def treated (old : Settings) (p : Fin 256) (s : State) : State :=
  if old.enabled = false then (if (nth s.points p).settings.enabled then becomeEnabled p s else s)
  else if (nth s.points p).settings.enabled = false then becomeDisabled p s
  else if polarityChanged p old (nth s.points p).settings then becomeEnabled p (becomeDisabled p s)
  else stayEnabled p old s

theorem treatPoint_points (old : Vector Settings 256) (s : State) (p : Fin 256) :
    (treatPoint old s p).points = (treated (nth old p) p s).points := by
  unfold treatPoint
  dsimp only
  rw [rejudgeZone_points, rejudgeZone_points]
  rfl

theorem becomeEnabled_other (s : State) (p q : Fin 256) (h : p ≠ q) :
    nth (becomeEnabled p s).points q = nth s.points q := by
  obtain ⟨m, e⟩ := becomeEnabled_points p s
  rw [e, nth_upd_other _ _ h]

theorem treatPoint_other (old : Vector Settings 256) (s : State) (p q : Fin 256) (h : p ≠ q) :
    nth (treatPoint old s p).points q = nth s.points q := by
  rw [treatPoint_points]
  unfold treated
  split
  · split
    · exact becomeEnabled_other s p q h
    · rfl
  · split
    · rw [becomeDisabled_points, nth_upd_other _ _ h]
    · split
      · rw [becomeEnabled_other _ p q h, becomeDisabled_points, nth_upd_other _ _ h]
      · rw [stayEnabled_eq, releaseWeightless_releases.other _ p q h, marksChecked_points, nth_upd_other _ _ h]

/-- The treatment of a point is what `pointLoaded` says of it, in the state in which its turn comes. -/
theorem treatPoint_loaded {old : Vector Settings 256} {p : Fin 256} {x : Point} {new : Settings} {s : State}
    (hx : nth s.points p = { x with settings := new }) (ho : nth old p = x.settings) :
    pointLoaded p x new (nth s.classes new.cls).weight s.now s.stamp (nth (treatPoint old s p).points p) := by
  rw [treatPoint_points, ho]
  unfold treated
  rw [hx]
  dsimp only
  by_cases h1 : x.settings.enabled = false
  · rw [if_pos h1]
    by_cases h2 : new.enabled = true
    · obtain ⟨m, e⟩ := becomeEnabled_points p s
      rw [if_pos h2, e, nth_upd_same, hx]
      refine ⟨rfl, rfl, rfl, fun _ h => ?_, fun h _ => ?_, fun _ h => ?_, fun _ h => ?_, fun _ h => ?_⟩
      · rw [h2] at h; cases h
      · rw [h1] at h; cases h
      · obtain ⟨_, hq⟩ := h.resolve_right fun k => by rw [h1] at k; exact absurd k.1 (by decide)
        simp only [hq]
        rfl
      · rw [h1] at h; cases h
      · rw [h1] at h; cases h
    · rw [if_neg h2, hx]
      refine ⟨rfl, rfl, rfl, fun _ _ => ⟨rfl, fun h => h⟩, fun h _ => ?_, fun h => absurd h h2, fun h => absurd h h2,
        fun h => absurd h h2⟩
      rw [h1] at h; cases h
  · have h1' : x.settings.enabled = true := by simpa using h1
    rw [if_neg h1]
    by_cases h2 : new.enabled = false
    · rw [if_pos h2, becomeDisabled_points, nth_upd_same, hx]
      refine ⟨rfl, rfl, rfl, fun h => absurd h h1, fun _ _ => rfl, fun h => ?_, fun h => ?_, fun h => ?_⟩ <;>
      · rw [h2] at h; cases h
    · rw [if_neg h2]
      by_cases h3 : polarityChanged p x.settings new = true
      · have h3' : p.val < 224 ∧ x.settings.whenOpen ≠ new.whenOpen := by
          simpa only [polarityChanged, Bool.and_eq_true, decide_eq_true_eq] using h3
        obtain ⟨m, e⟩ := becomeEnabled_points p (becomeDisabled p s)
        have ht : (becomeDisabled p s).time = s.time := ((frame_alarm fun _ => False).becomeDisabled p s).items .time id
        rw [if_pos h3, e, becomeDisabled_points, nth_upd_same, nth_upd_same, hx]
        refine ⟨rfl, rfl, rfl, fun h => absurd h h1, fun _ h => absurd h h2, fun _ _ => ?_, fun _ _ h => absurd h3' h,
          fun _ _ h => absurd h3' h⟩
        simp only [State.now, State.stamp, ht]
        rfl
      · have h3' : ¬(p.val < 224 ∧ x.settings.whenOpen ≠ new.whenOpen) := by
          simpa only [polarityChanged, Bool.and_eq_true, decide_eq_true_eq] using h3
        have hc : (marksChecked p x.settings s).classes = s.classes :=
          ((frame_alarm fun _ => False).marksChecked p x.settings s).items .classes id
        have hr := releaseWeightless_releases.own (marksChecked p x.settings s) p
        rw [marksChecked_points, nth_upd_same, hx] at hr
        simp only [State.classOf, hc] at hr
        rw [if_neg h3, stayEnabled_eq]
        refine ⟨hr.settings, hr.contact, ?_, fun h => absurd h h1, fun _ h => absurd h h2, fun _ h => ?_, fun _ _ _ h => ?_,
          fun _ _ _ hh hw => ?_⟩
        · exact hr.stale
        · exact absurd (h.resolve_left fun k => h1 k.1).2 h3'
        · have hk := hr.kept fun k => h.elim (fun h => by rw [h] at k; exact absurd k.1 (by decide)) fun h => by omega
          rw [hk]
          exact ⟨rfl, fun hg _ => if_pos hg⟩
        · obtain ⟨k1, k2⟩ := hr.released hh hw
          exact ⟨k1, k2, hr.bucket, hr.shelved⟩

/-! ## The re-arm of the groups (R57) -/

/-- Of the points at most first marks differ, and those are cleared. -/
def MarksCleared (s t : State) : Prop :=
  ∀ p, nth t.points p = nth s.points p ∨ nth t.points p = { nth s.points p with firstMark := false }

theorem marksCleared_trans {s t u : State} (h : MarksCleared s t) (k : MarksCleared t u) : MarksCleared s u := by
  intro p
  rcases h p with h | h <;> rcases k p with k | k <;> rw [k, h]
  · exact .inl rfl
  · exact .inr rfl
  · exact .inr rfl
  · exact .inr rfl

theorem rearmLoad_marks (s : State) (g : Fin 16) : MarksCleared s (rearmLoad s g) := by
  intro q
  unfold rearmLoad
  split
  · unfold rearm
    dsimp only
    rw [putGroup_points, offerInside_points]
    split
    · next p _ _ =>
      rw [setMark_points, nth_upd]
      split
      · next e => exact .inr (e ▸ rfl)
      · exact .inl rfl
    · exact .inl rfl
  · exact .inl rfl

theorem rearmLoads_marks (l : List (Fin 16)) (s : State) : MarksCleared s (l.foldl rearmLoad s) :=
  List.foldlRecOn l rearmLoad (motive := MarksCleared s) (fun _ => .inl rfl)
    fun t h g _ => marksCleared_trans h (rearmLoad_marks t g)

/-- What `pointLoaded` says of a point it says also of the point with its first mark cleared. -/
theorem pointLoaded_cleared {p : Fin 256} {x y : Point} {new : Settings} {w now : Nat} {stamp : Stamp}
    (h : pointLoaded p x new w now stamp y) : pointLoaded p x new w now stamp { y with firstMark := false } := by
  obtain ⟨h1, h2, h3, h4, h5, h6, h7, h8⟩ := h
  refine ⟨h1, h2, h3, fun a b => ⟨?_, fun _ => rfl⟩, fun a b => ?_, fun a b => ?_, fun a b c d => ⟨?_, fun _ _ => rfl⟩, h8⟩
  · rw [(h4 a b).1]
  · rw [h5 a b]
  · rw [h6 a b]
  · rw [(h7 a b c d).1]

/-! ## What an apply can reach -/

namespace SideClosed

variable {P : Fin 256 → Prop} {A : Nat → Prop} {R : State → State → Prop} (h : SideClosed P A R)
include h

theorem becomeDisabled (p : Fin 256) (s : State) (hp : P p) : R s (Machine.becomeDisabled p s) :=
  h.trans (h.putPoint p _ s hp) (h.trans (h.quieten p _ hp) (h.clearMark p _ hp))

theorem becomeEnabled (p : Fin 256) (s : State) (hp : P p) : R s (Machine.becomeEnabled p s) := by
  unfold Machine.becomeEnabled
  dsimp only
  have h1 := fun y => h.trans (h.putPoint p y s hp) (h.showPoint p _ hp)
  split
  · exact h.trans (h1 _) (h.takeChange p _ _ hp)
  · exact h1 _

theorem marksChecked (p : Fin 256) (old : Settings) (s : State) (hp : P p) : R s (Machine.marksChecked p old s) := by
  unfold Machine.marksChecked
  dsimp only
  have h1 : R s (if displayChanged old (nth s.points p).settings = true then State.showPoint p s else s) := by
    split
    · exact h.showPoint p s hp
    · exact h.refl s
  split
  · exact h.trans h1 (h.clearMark p _ hp)
  · exact h1

theorem treatPoint (old : Vector Settings 256) (s : State) (p : Fin 256) (hp : P p) : R s (Machine.treatPoint old s p) := by
  unfold Machine.treatPoint
  dsimp only
  refine h.trans ?_ (h.trans (h.rejudgeZone _ _) (h.rejudgeZone _ _))
  split
  · split
    · exact h.becomeEnabled p s hp
    · exact h.refl s
  · split
    · exact h.becomeDisabled p s hp
    · split
      · exact h.trans (h.becomeDisabled p s hp) (h.becomeEnabled p _ hp)
      · exact h.trans (h.marksChecked p _ s hp) (releaseWeightless_releases.side h _ p hp)

theorem rearmLoad (hP : ∀ p, P p) (s : State) (g : Fin 16) : R s (Machine.rearmLoad s g) := by
  unfold Machine.rearmLoad
  split
  · unfold rearm
    dsimp only
    refine h.trans ?_ (h.trans (h.offerInside _ _) (h.putGroup g _ _))
    split
    · exact h.setMark _ _ s (hP _)
    · exact h.refl s
  · exact h.refl s

end SideClosed

/-! ## The apply, step by step (R20) -/

/-- The settings of the image put in, and the SETTINGS record offered: steps 1 and 2. -/
def settingsPut (bs : List Byte) (s : State) : State :=
  offerInside (settingsRecord .loadPoints s.stamp 0 (wordAt bs 0) (wordAt bs 2) (wordAt bs 2 / 256) 0)
    { s with points := tab 256 fun p => { nth s.points p with settings := settingsAfter bs s p } }

/-- The new settle window: step 3. -/
def windowPut (bs : List Byte) (s : State) : State := { settingsPut bs s with settleWindow := numAt bs 4 }

/-- The points of the range treated: step 4. -/
def pointsTreated (bs : List Byte) (s : State) : State :=
  ((List.finRange 256).filter (inRange bs)).foldl (treatPoint (tab 256 fun p => (nth s.points p).settings)) (windowPut bs s)

/-- The groups re-armed: the apply up to the end of the event. -/
def groupsRearmed (bs : List Byte) (s : State) : State := (List.finRange 16).foldl rearmLoad (pointsTreated bs s)

theorem applyPoints_eq (bs : List Byte) (s : State) : applyPoints bs s = endAlarm (groupsRearmed bs s) := rfl

theorem windowPut_points (bs : List Byte) (s : State) (p : Fin 256) :
    nth (windowPut bs s).points p = { nth s.points p with settings := settingsAfter bs s p } := by
  show nth (settingsPut bs s).points p = _
  rw [settingsPut, offerInside_points, nth_tab]

/-- What an apply keeps from the new settle window on, it keeps up to the re-arm. -/
theorem InsideClosed.groupsRearmed {R : State → State → Prop} (h : InsideClosed R) (bs : List Byte) (s : State) :
    R (windowPut bs s) (Machine.groupsRearmed bs s) :=
  h.back (h.foldl _ _ _ fun u g _ => h.rearmLoad u g) (h.foldl _ _ _ fun u p _ => h.treatPoint _ u p)

theorem SideClosed.pointsTreated {A : Nat → Prop} {R : State → State → Prop} (h : SideClosed (fun _ => True) A R)
    (bs : List Byte) (s : State) : R (windowPut bs s) (Machine.pointsTreated bs s) :=
  h.foldl _ _ _ fun u p _ => h.treatPoint _ u p trivial

theorem SideClosed.groupsRearmed {A : Nat → Prop} {R : State → State → Prop} (h : SideClosed (fun _ => True) A R)
    (bs : List Byte) (s : State) : R (windowPut bs s) (Machine.groupsRearmed bs s) :=
  h.trans (h.pointsTreated bs s) (h.foldl _ _ _ fun u g _ => h.rearmLoad (fun _ => trivial) u g)

theorem settingsPut_reach (bs : List Byte) (s : State) :
    SideReach (fun _ => True) (fun a => mirrorByte a ∨ recordByte a) s (settingsPut bs s) :=
  alarmSide.trans (sideReach_points _ s _) (alarmSide.offerInside _ _)

theorem applyPoints_reach (bs : List Byte) (s : State) :
    SideReach (fun _ => True) (fun a => mirrorByte a ∨ recordByte a) { s with settleWindow := numAt bs 4 }
      (applyPoints bs s) := by
  have h1 := settingsPut_reach bs s
  have h2 : SideReach (fun _ => True) (fun a => mirrorByte a ∨ recordByte a) { s with settleWindow := numAt bs 4 }
      (windowPut bs s) := ⟨{ h1.only with settleWindow := rfl }, ⟨h1.memory.wf, h1.memory.same⟩, h1.points⟩
  exact alarmSide.trans h2 (alarmSide.trans (alarmSide.groupsRearmed bs s) (endAlarm_reach fun _ _ => trivial))

/-- The condition reports that wait within an apply are the Journal Unit's own. -/
theorem windowPut_dueIn (bs : List Byte) {s : State} (hd : s.due = []) : dueIn journalPoint (windowPut bs s) := by
  have h : Frame (fun _ => False) _ (settingsPut bs s) := (frame_alarm _).offer _ _
  exact (h.contacts (dueIn_nil hd)).1

/-- What the apply keeps of every point: its contact state and stale flag, but for the Journal Unit's two, and the settings
that step 1 gave it. -/
theorem applyPoints_frame (bs : List Byte) (s : State) : Frame (fun _ => False) (windowPut bs s) (applyPoints bs s) :=
  (frame_alarm _).back ((frame_alarm _).endAlarm _) ((frame_alarm _).groupsRearmed bs s)

theorem applyPoints_settings (bs : List Byte) (s : State) (p : Fin 256) :
    (nth (applyPoints bs s).points p).settings = settingsAfter bs s p := by
  rw [(applyPoints_frame bs s).items .settings id p, windowPut_points]

/-- A point but the Journal Unit's two after the apply, from the point after its treatment. -/
theorem applyPoints_marks (bs : List Byte) {s : State} (hd : s.due = []) {p : Fin 256} (hp : ¬journalPoint p) :
    nth (applyPoints bs s).points p = nth (pointsTreated bs s).points p
      ∨ nth (applyPoints bs s).points p = { nth (pointsTreated bs s).points p with firstMark := false } := by
  rw [applyPoints_eq, endAlarm_points
    (dueIn_of_frame ((frame_alarm fun _ => False).groupsRearmed bs s) (windowPut_dueIn bs hd)) hp]
  exact rearmLoads_marks _ _ p

theorem applyPoints_outside {bs : List Byte} {s : State} (hd : s.due = []) {p : Fin 256} (hp : ¬journalPoint p)
    (hi : imageSettings bs p = none) : nth (applyPoints bs s).points p
      = { nth s.points p with firstMark := (nth (applyPoints bs s).points p).firstMark } := by
  have h : nth (pointsTreated bs s).points p = nth s.points p := by
    rw [pointsTreated, foldl_skip (treatPoint_other _) (by simp [inRange, hi]), windowPut_points, settingsAfter, hi]
    rfl
  rcases applyPoints_marks bs hd hp with e | e <;> rw [e, h]

theorem applyPoints_inside {bs : List Byte} {s : State} (hd : s.due = []) {p : Fin 256} (hp : ¬journalPoint p)
    (hi : inRange bs p = true) : pointLoaded p (nth s.points p) (settingsAfter bs s p)
      (nth s.classes (settingsAfter bs s p).cls).weight s.now s.stamp (nth (applyPoints bs s).points p) := by
  obtain ⟨u, hu, hx, e⟩ := foldl_own alarmSide.refl alarmSide.trans
    (fun u q => alarmSide.treatPoint (tab 256 fun p => (nth s.points p).settings) u q trivial) (treatPoint_other _)
    ((List.nodup_finRange 256).filter _) (List.mem_filter.mpr ⟨List.mem_finRange p, hi⟩) (windowPut bs s)
  rw [windowPut_points] at hx
  have h := treatPoint_loaded hx (nth_tab 256 (fun p => (nth s.points p).settings) p)
  have htime : u.time = s.time := hu.only.time.trans (settingsPut_reach bs s).only.time
  have hclasses : u.classes = s.classes := hu.only.classes.trans (settingsPut_reach bs s).only.classes
  rw [← e] at h
  simp only [State.now, State.stamp, htime, hclasses] at h
  rcases applyPoints_marks bs hd hp with k | k
  · rw [k]; exact h
  · rw [k]; exact pointLoaded_cleared h

theorem applyPoints_record (bs : List Byte) (s : State) :
    recordJoins (settingsRecord .loadPoints s.stamp 0 (wordAt bs 0) (wordAt bs 2) (wordAt bs 2 / 256) 0) s
      (applyPoints bs s) := by
  refine recordJoins_of_offer (u := { s with points := tab 256 fun p =>
    { nth s.points p with settings := settingsAfter bs s p } }) rfl ?_
  exact queueGrows_trans (queueGrows_same (t := windowPut bs s) rfl) (queueGrows_trans
    (queueGrows_alarm.groupsRearmed bs s) (queueGrows_alarm.endAlarm _))

end Sys2Proof.Machine
end

section
/-! LOAD POINTS and LOAD MATRIX from take to end. -/

namespace Sys2Proof.Machine

/-! ## The five checks of R19 -/

section checks

variable {bs : List Byte} {s : State}

/-- The image has the length its count gives, its check word, and a range within the points: checks 1 to 3. -/
structure ImageFits (bs : List Byte) : Prop where
  length : bs.length = 8 + 8 * wordAt bs 2 + 2
  check : wordSum (bs.take (8 + 8 * wordAt bs 2)) = wordAt bs (8 + 8 * wordAt bs 2)
  range : 1 ≤ wordAt bs 2 ∧ wordAt bs 2 ≤ 256 ∧ wordAt bs 0 + wordAt bs 2 ≤ 256

theorem checkPoints_length (h : bs.length ≠ 8 + 8 * wordAt bs 2 + 2) : checkPoints bs s = some (.refusedLength, []) := if_pos h

theorem checkPoints_check (h1 : bs.length = 8 + 8 * wordAt bs 2 + 2)
    (h : wordSum (bs.take (8 + 8 * wordAt bs 2)) ≠ wordAt bs (8 + 8 * wordAt bs 2)) :
    checkPoints bs s = some (.refusedCheck, []) := by
  unfold checkPoints
  rw [if_neg (by simpa using h1)]
  exact if_pos h

theorem checkPoints_range (h1 : bs.length = 8 + 8 * wordAt bs 2 + 2)
    (h2 : wordSum (bs.take (8 + 8 * wordAt bs 2)) = wordAt bs (8 + 8 * wordAt bs 2))
    (h : ¬(1 ≤ wordAt bs 2 ∧ wordAt bs 2 ≤ 256 ∧ wordAt bs 0 + wordAt bs 2 ≤ 256)) :
    checkPoints bs s = some (.refusedRange, bytes2 65535) := by
  unfold checkPoints
  rw [if_neg (by simpa using h1)]
  refine (if_neg (by simpa using h2)).trans (if_pos ?_)
  omega

/-- Past the first three checks, the fields of the records and the windows decide. -/
theorem checkPoints_fits (h : ImageFits bs) : checkPoints bs s =
    match (List.range (wordAt bs 2)).find? fun j => !recordFits bs (8 + 8 * j) with
    | some j => some (.refusedRange, bytes2 (wordAt bs 0 + j))
    | none =>
      match sharedWindow bs s with
      | some p => some (.refusedDuplicate, bytes2 p.val)
      | none => none := by
  obtain ⟨h1, h2, h3⟩ := h
  unfold checkPoints
  rw [if_neg (by simpa using h1)]
  exact (if_neg (by simpa using h2)).trans (if_neg (by omega))

theorem checkPoints_field (h : ImageFits bs) {j : Nat} (hj : j < wordAt bs 2) (hf : recordFits bs (8 + 8 * j) = false)
    (hl : ∀ i < j, recordFits bs (8 + 8 * i) = true) :
    checkPoints bs s = some (.refusedRange, bytes2 (wordAt bs 0 + j)) := by
  have e : (List.range (wordAt bs 2)).find? (fun j => !recordFits bs (8 + 8 * j)) = some j := by
    rw [List.find?_range_eq_some]
    refine ⟨by simp [hf], List.mem_range.mpr hj, fun i hi => by simp [hl i hi]⟩
  rw [checkPoints_fits h, e]

theorem fields_none (hf : ∀ j < wordAt bs 2, recordFits bs (8 + 8 * j) = true) :
    (List.range (wordAt bs 2)).find? (fun j => !recordFits bs (8 + 8 * j)) = none := by
  rw [List.find?_eq_none]
  intro j hj
  simp [hf j (List.mem_range.mp hj)]

theorem checkPoints_shared (h : ImageFits bs) (hf : ∀ j < wordAt bs 2, recordFits bs (8 + 8 * j) = true) {p : Fin 256}
    (hp : sharedWindow bs s = some p) : checkPoints bs s = some (.refusedDuplicate, bytes2 p.val) := by
  rw [checkPoints_fits h, fields_none hf, hp]

theorem checkPoints_none (h : ImageFits bs) (hf : ∀ j < wordAt bs 2, recordFits bs (8 + 8 * j) = true)
    (hp : sharedWindow bs s = none) : checkPoints bs s = none := by
  rw [checkPoints_fits h, fields_none hf, hp]

end checks

/-- Two points are left enabled with one window (R19 check 5). -/
def sharesAfter (bs : List Byte) (s : State) (p q : Fin 256) : Prop :=
  p ≠ q ∧ (settingsAfter bs s p).enabled = true ∧ (settingsAfter bs s q).enabled = true
    ∧ (settingsAfter bs s p).hasWindow = true ∧ (settingsAfter bs s q).hasWindow = true
    ∧ (settingsAfter bs s p).window = (settingsAfter bs s q).window

theorem shares_iff (bs : List Byte) (s : State) (p : Fin 256) :
    ((List.finRange 256).any fun q => decide (p ≠ q) && sharesWindow (nth (tab 256 (settingsAfter bs s)) p)
      (nth (tab 256 (settingsAfter bs s)) q)) = true ↔ ∃ q, sharesAfter bs s p q := by
  simp only [List.any_eq_true, List.mem_finRange, true_and, nth_tab, sharesWindow, Bool.and_eq_true, decide_eq_true_eq,
    sharesAfter, and_assoc]

theorem sharedWindow_some {bs : List Byte} {s : State} {p : Fin 256} (h : ∃ q, sharesAfter bs s p q)
    (hl : ∀ p' < p, ∀ q, ¬sharesAfter bs s p' q) : sharedWindow bs s = some p :=
  find?_finRange ((shares_iff bs s p).mpr h) fun p' hp' =>
    Bool.eq_false_iff.mpr fun k => ((shares_iff bs s p').mp k).elim (hl p' hp')

theorem sharedWindow_none {bs : List Byte} {s : State} (h : ∀ p q, ¬sharesAfter bs s p q) : sharedWindow bs s = none := by
  refine List.find?_eq_none.mpr fun p _ k => ?_
  obtain ⟨q, hq⟩ := (shares_iff bs s p).mp k
  exact h p q hq

/-! ## The end of a LOAD POINTS -/

/-- The state in which a LOAD POINTS has left the orders in flight. -/
def State.pointsEnded (s : State) : State := { s with engine := { s.engine with loadPoints := none } }

@[simp] theorem State.pointsEnded_points (s : State) : s.pointsEnded.points = s.points := rfl
@[simp] theorem State.pointsEnded_journal (s : State) : s.pointsEnded.journal = s.journal := rfl

theorem loadPoints_refused {bs : List Byte} {s : State} {r : Result} {d : List Byte} (n : Fin 16) (w : s.mem.wf = true)
    (h : checkPoints bs s = some (r, d)) :
    OrderEnds n r d s.pointsEnded (endImage .loadPoints n (completeImage .loadPoints bs s)) := by
  have e : endImage .loadPoints n (completeImage .loadPoints bs s) = finish n r d s.pointsEnded := by
    simp only [endImage, completeImage, completePoints, h, State.setJob, State.pointsEnded]
  rw [e]
  exact ⟨finish_slot n r d _ w, finish_rest n r d _, finish_memory n r d _⟩

theorem loadPoints_applied {bs : List Byte} {s : State} (n : Fin 16) (h : checkPoints bs s = none) :
    endImage .loadPoints n (completeImage .loadPoints bs s)
      = finish n .doneOk (bytes2 (wordAt bs 0) ++ bytes2 (wordAt bs 2) ++ [byteAt bs 4]) (applyPoints bs s).pointsEnded := by
  simp only [endImage, completeImage, completePoints, h, State.setJob, State.pointsEnded]

theorem imageSettings_iff (bs : List Byte) (p : Fin 256) : inRange bs p = true ↔
    wordAt bs 0 ≤ p.val ∧ p.val < wordAt bs 0 + wordAt bs 2 := by
  unfold inRange imageSettings
  split
  · next h => simp [h]
  · next h => simp [h]

theorem settingsAfter_eq (bs : List Byte) (s : State) (p : Fin 256) : settingsAfter bs s p =
    if wordAt bs 0 ≤ p.val ∧ p.val < wordAt bs 0 + wordAt bs 2 then settingsAt bs (8 + 8 * (p.val - wordAt bs 0))
    else (nth s.points p).settings := by
  unfold settingsAfter imageSettings
  split <;> rfl

theorem recordFits_iff (bs : List Byte) (d : Nat) : recordFits bs d = true ↔
    numAt bs (d + 2) ≤ 7 ∧ (numAt bs (d + 3) ≤ 15 ∨ numAt bs (d + 3) = 255) ∧ numAt bs (d + 4) ≤ 3 := by
  simp only [recordFits, Bool.and_eq_true, Bool.or_eq_true, decide_eq_true_eq, and_assoc]

/-- A LOAD POINTS whose image passes the checks ends DONE_OK with the settings applied (R20, R21). -/
theorem loadPoints_done {bs : List Byte} {s : State} (n : Fin 16) (w : s.mem.wf = true) (h : checkPoints bs s = none) :
    OrderDone n .doneOk (bytes2 (wordAt bs 0) ++ bytes2 (wordAt bs 2) ++ [byteAt bs 4]) (fun _ => True)
      (fun a => mirrorByte a ∨ recordByte a) s { s.pointsEnded with settleWindow := numAt bs 4 }
      (endImage .loadPoints n (completeImage .loadPoints bs s)) := by
  have hr := applyPoints_reach bs s
  rw [loadPoints_applied n h]
  generalize applyPoints bs s = v at hr
  refine ⟨finish_slot n _ _ _ (hr.memory.wf w), ?_, fun p k => absurd trivial k, fun a ha => ?_⟩
  · have he : ({ v.engine with loadPoints := none } : Engine) = { s.engine with loadPoints := none } := by
      rw [hr.only.engine]
    rw [finish_rest]
    exact { hr.only with engine := congrArg Engine.counted he }
  · rw [not_or] at ha
    exact (finish_memory n _ _ _ a ha.1).trans (hr.memory.same a ha.2)

/-! ## The end of a LOAD MATRIX, by its image (R89) -/

theorem completeMatrix_length {bs : List Byte} (s : State) (h : bs.length ≠ 130) :
    completeMatrix bs s = refuseMatrix .refusedLength [] s := if_pos h

theorem completeMatrix_check {bs : List Byte} (s : State) (h1 : bs.length = 130)
    (h : wordSum (bs.take 128) ≠ wordAt bs 128) : completeMatrix bs s = refuseMatrix .refusedCheck
      (List.replicate 4 0 ++ bytes2 (wordSum (bs.take 128)) ++ bytes2 (wordAt bs 128)) s := by
  unfold completeMatrix
  rw [if_neg (by simpa using h1)]
  refine (if_pos h).trans ?_
  simp only [dataAt, List.append_assoc]

/-- An image that passes: the bank is VALID, and the counts that clamping changed decide the result (R89). -/
theorem completeMatrix_valid {bs : List Byte} (s : State) (h1 : bs.length = 130)
    (h : wordSum (bs.take 128) = wordAt bs 128) : completeMatrix bs s =
      let n := (List.finRange 32).countP (countClamped bs)
      let r : Result := if n = 0 then .doneOk else .doneClamped
      (endMatrix s.standby { state := .valid, entries := imageEntries bs } r n s, r, [byte s.standby.code, byte n,
        byte (match (List.finRange 32).find? (countClamped bs) with | some i => i.val | none => 255)]) := by
  unfold completeMatrix
  rw [if_neg (by simpa using h1)]
  exact if_neg (by simpa using h)

theorem countClamped_none {bs : List Byte} (h : ∀ i, countClamped bs i = false) :
    (List.finRange 32).countP (countClamped bs) = 0 ∧ (List.finRange 32).find? (countClamped bs) = none :=
  ⟨List.countP_eq_zero.mpr fun i _ => by simp [h i], List.find?_eq_none.mpr fun i _ => by simp [h i]⟩

theorem countClamped_pos {bs : List Byte} {i : Fin 32} (h : countClamped bs i = true) :
    (List.finRange 32).countP (countClamped bs) ≠ 0 :=
  (List.countP_pos_iff.mpr ⟨i, List.mem_finRange i, h⟩).ne'

/-- A LOAD MATRIX whose image has been read, whatever its outcome: its bank, its DONE write and what they reach (R89). -/
theorem loadMatrix_done (n : Fin 16) (bs : List Byte) {s : State} (w : s.mem.wf = true) (hd : s.due = []) :
    ∃ x r data, OrderDone n r data journalPoint (fun a => a = hallBase + 240 ∨ a = hallBase + 241 ∨ recordByte a) s
        (s.matrixEnded x) (endImage .loadMatrix n (completeImage .loadMatrix bs s))
      ∧ (endImage .loadMatrix n (completeImage .loadMatrix bs s)).bank s.standby = x
      ∧ (bs.length ≠ 130 → x = {} ∧ r = .refusedLength ∧ data = [])
      ∧ (bs.length = 130 → wordSum (bs.take 128) ≠ wordAt bs 128 → x = {} ∧ r = .refusedCheck
          ∧ data = List.replicate 4 0 ++ bytes2 (wordSum (bs.take 128)) ++ bytes2 (wordAt bs 128))
      ∧ (bs.length = 130 → wordSum (bs.take 128) = wordAt bs 128 → x = { state := .valid, entries := imageEntries bs }
          ∧ ((∀ i, countClamped bs i = false) → r = .doneOk ∧ data = [byte s.standby.code, 0, 255])
          ∧ (∀ i, countClamped bs i = true → (∀ i' < i, countClamped bs i' = false) → r = .doneClamped
              ∧ data = [byte s.standby.code, byte ((List.finRange 32).countP (countClamped bs)), byte i.val])) := by
  by_cases h1 : bs.length = 130
  · by_cases h2 : wordSum (bs.take 128) = wordAt bs 128
    · rw [completeImage, completeMatrix_valid s h1 h2]
      obtain ⟨k1, k2⟩ := endMatrix_done n { state := .valid, entries := imageEntries bs }
        (if (List.finRange 32).countP (countClamped bs) = 0 then .doneOk else .doneClamped)
        ((List.finRange 32).countP (countClamped bs)) [byte s.standby.code, byte ((List.finRange 32).countP (countClamped bs)),
          byte (match (List.finRange 32).find? (countClamped bs) with | some i => i.val | none => 255)] w hd
      refine ⟨_, _, _, k1, k2, fun h => absurd h1 h, fun _ h => absurd h2 h, fun _ _ => ⟨rfl, fun hn => ?_, fun i hi hl => ?_⟩⟩
      · obtain ⟨e1, e2⟩ := countClamped_none hn
        rw [e1, e2]
        exact ⟨rfl, rfl⟩
      · rw [if_neg (countClamped_pos hi), find?_finRange hi hl]
        exact ⟨rfl, rfl⟩
    · rw [completeImage, completeMatrix_check s h1 h2]
      obtain ⟨k1, k2⟩ := endMatrix_done n {} .refusedCheck 0
        (List.replicate 4 0 ++ bytes2 (wordSum (bs.take 128)) ++ bytes2 (wordAt bs 128)) w hd
      exact ⟨_, _, _, k1, k2, fun h => absurd h1 h, fun _ _ => ⟨rfl, rfl, rfl⟩, fun _ h => absurd h h2⟩
  · rw [completeImage, completeMatrix_length s h1]
    obtain ⟨k1, k2⟩ := endMatrix_done n {} .refusedLength 0 [] w hd
    exact ⟨_, _, _, k1, k2, fun _ => ⟨rfl, rfl, rfl⟩, fun h => absurd h h1, fun h => absurd h h1⟩

/-- Settles O23: the takes; a LOAD MATRIX by `endMatrix`; a LOAD POINTS by the first check that fails, or by its apply. -/
theorem loadOrdersComplete : Obligations.LoadOrdersComplete := by
  unfold Obligations.LoadOrdersComplete
  intro n d j bs s w hd
  refine ⟨fun ho hc => ⟨fun hb => ?_, fun hn => ?_⟩, fun ho hs hc => ⟨fun hb => ?_, fun hn => ?_⟩, ?_⟩
  · exact orderEnds_of w ho hc (by decide) (orderLoadPoints_busy hb)
  · rw [loadPoints_taken ho hc hn]
    exact taken_of w rfl (fun _ h => h.elim) fun _ _ => rfl
  · exact orderEnds_of w ho (by simp only [barred, hs, hc]; rfl) (by decide) (orderLoadMatrix_busy hb)
  · rw [loadMatrix_taken ho hs hc hn]
    refine taken_of w ?_ (fun a h => by simp only [hallBase] at h; omega) fun a ha => ?_
    · cases s.standby <;> rfl
    · rw [(showMatrix_memory _).same a ha]
      exact congrArg (Memory.read · a) (State.setBank_mem _ _ _)
  intro h7 h255 hi length h1 h248 h0 hbs hl ht
  have hread : ∀ o, s.job o = some j → exec (.segmentRead o) s = .next (endImage o j.slot (completeImage o bs s)) :=
    fun o hj => segmentRead_completes hj h7 h255 hi h1 h248 h0 hbs hl ht
  refine ⟨fun hj => ?_, fun hj => ?_⟩
  · intro q off
    have hoff : countClamped bs = off := funext (countClamped_eq bs)
    obtain ⟨x, r, data, hdone, hx, c1, c2, c3⟩ := loadMatrix_done j.slot bs w hd
    rw [hoff] at c3
    refine ⟨_, hread .loadMatrix hj, ?_, fun p hp => ?_, hdone.memory, fun k => ?_, fun k1 k2 => ?_, fun k1 k2 => ?_⟩
    · rw [hx]
      exact hdone.rest
    · exact (hdone.points p hp).trans (congrArg (nth · p) (State.setBank_points s _ x))
    · obtain ⟨e1, e2, e3⟩ := c1 k
      exact ⟨hx.trans e1, e2 ▸ e3 ▸ hdone.slot⟩
    · obtain ⟨e1, e2, e3⟩ := c2 k1 k2
      exact ⟨hx.trans e1, e2 ▸ e3 ▸ hdone.slot⟩
    · obtain ⟨e1, e2, e3⟩ := c3 k1 k2
      rw [hx, e1]
      refine ⟨rfl, fun i => ⟨imageEntries_q bs i, imageEntries_mask bs i⟩, fun h => ?_, fun i hi hl => ?_⟩
      · obtain ⟨f1, f2⟩ := e2 h
        exact f1 ▸ f2 ▸ hdone.slot
      · obtain ⟨f1, f2⟩ := e3 i hi hl
        exact f1 ▸ f2 ▸ hdone.slot
  · intro first count inside new fits shares lengthOk checkOk rangeOk fieldsOk u
    have hnew : ∀ p, settingsAfter bs s p = new p := settingsAfter_eq bs s
    have hfits : ∀ p : Fin 256, recordFits bs (8 + 8 * (p.val - first)) = true ↔ fits p := fun p => recordFits_iff bs _
    have hshares : ∀ p q, sharesAfter bs s p q ↔ shares p q := fun p q => by
      simp only [sharesAfter, hnew, shares]
    have hfields : rangeOk → fieldsOk → ∀ i < count, recordFits bs (8 + 8 * i) = true := fun hr hf i hi => by
      have := (hfits ⟨first + i, by omega⟩).mpr (hf _ ⟨by simp, by simpa using hi⟩)
      rwa [show first + i - first = i by omega] at this
    refine ⟨_, hread .loadPoints hj, fun k => ?_, fun k1 k => ?_, fun k1 k2 k => ?_, fun p k1 k2 k3 hp hf hl => ?_,
      fun p k1 k2 k3 k4 hq hl => ?_, fun k1 k2 k3 k4 hq => ?_⟩
    · exact loadPoints_refused j.slot w (checkPoints_length k)
    · exact loadPoints_refused j.slot w (checkPoints_check k1 k)
    · exact loadPoints_refused j.slot w (checkPoints_range k1 k2 k)
    · have e := checkPoints_field (s := s) ⟨k1, k2, k3⟩ (j := p.val - first) (by have := hp.1; have := hp.2; omega)
        (Bool.eq_false_iff.mpr fun h => hf ((hfits p).mp h)) fun i hi => by
          have := (hfits ⟨first + i, by omega⟩).mpr
            (hl _ (by rw [Fin.lt_def]; show first + i < p.val; omega) ⟨by simp, by have := hp.2; simp; omega⟩)
          rwa [show first + i - first = i by omega] at this
      rw [show wordAt bs 0 + (p.val - first) = p.val from Nat.add_sub_of_le hp.1] at e
      exact loadPoints_refused j.slot w e
    · refine loadPoints_refused j.slot w (checkPoints_shared ⟨k1, k2, k3⟩ (hfields k3 k4) (sharedWindow_some ?_ ?_))
      · exact hq.imp fun q h => (hshares p q).mpr h
      · exact fun p' hp' q h => hl p' hp' q ((hshares p' q).mp h)
    · have e := checkPoints_none ⟨k1, k2, k3⟩ (hfields k3 k4) (sharedWindow_none fun p q h => hq p q ((hshares p q).mp h))
      have hdone := loadPoints_done j.slot w e
      have hp : (endImage .loadPoints j.slot (completeImage .loadPoints bs s)).points = (applyPoints bs s).points := by
        rw [loadPoints_applied j.slot e, finish_points, State.pointsEnded_points]
      refine ⟨hdone.slot, hdone.rest.settleWindow, hdone.rest, hdone.memory, ?_, fun p => ?_, fun p hj hi => ?_,
        fun p hj hi => ?_⟩
      · have hr := applyPoints_record bs s
        rw [loadPoints_applied j.slot e]
        generalize applyPoints bs s = v at hr ⊢
        unfold recordJoins at hr ⊢
        rw [finish_journal, State.pointsEnded_journal]
        exact hr
      · rw [hp, applyPoints_settings, hnew]
      · rw [hp]
        exact applyPoints_outside hd hj (if_neg hi)
      · rw [hp, ← hnew]
        exact applyPoints_inside hd hj ((imageSettings_iff bs p).mpr hi)

end Sys2Proof.Machine
end

section
/-! SUPPORT. The Journal Unit's operations as equations over the states they go through, and the end of an event of the alarm
side, which leaves no condition report waiting: each report taken is one fewer, and what the records of an event can add is
bounded by the journal's two flags. -/

namespace Sys2Proof.Machine

/-! ## The states the journal's operations go through -/

/-- No record has been lost since the last OVERFLOW record (R144, R145). -/
abbrev Journal.lossless (j : Journal) : Prop := j.highLost = 0 ∧ j.lowLost = 0

/-- A refusal with its first-loss items noted, before its report (R144). -/
def State.lossNoted (b : Bool) (a : Option Stamp) (c : Option Bool) (s : State) : State :=
  State.showLost { s with journal := { s.journal.lose b with firstLoss := a, firstLossHigh := c } }

/-- An OVERFLOW record staged and the counts returned, before its report (R145). -/
def State.overflowStaged (s : State) : State :=
  let s1 := stage (overflowRecord s.journal) s
  State.showLost { s1 with journal := { s1.journal with highLost := 0, lowLost := 0, firstLoss := none, firstLossHigh := none } }

/-- The head record written into the page, and its place free (R151 steps 1 and 2). -/
def State.headWritten (r : Record) (rest : List Record) (f : Filling) (s : State) : State :=
  State.showQueue { (s.putBytes (recordAddr f.page f.count) r.bytes) with journal := { s.journal with
    queue := rest, filling := some { f with firstSeq := if f.count = 0 then r.seq else f.firstSeq } } }

/-- The record count of the FILLING page one higher (R151 step 3). -/
def State.countRaised (s : State) : State :=
  State.showFilling { s with journal := { s.journal with
    filling := s.journal.filling.map fun g => { g with count := g.count + 1 } } }

/-- The journal WAITING or not, before its report (R150). -/
def State.waitingPut (b : Bool) (s : State) : State := State.showWaiting { s with journal := { s.journal with waiting := b } }

/-- The page that an opening begins (R149). -/
def State.newPage (page : Nat) (s : State) : Filling :=
  { entry := s.journal.cursor, page := page, pageSeq := s.journal.nextPage, count := 0, firstSeq := 0,
    deadline := s.now + 10 * s.journal.flushDelay }

/-- The page at the cursor opened, with no record in it (R149). -/
def State.pageOpened (page : Nat) (s : State) : State :=
  State.showNextPage (State.showFilling { (s.putMapState s.journal.cursor 2) with
    journal := { s.journal with nextPage := s.journal.nextPage + 1, filling := some (s.newPage page) } })

section fields
variable (b : Bool) (a : Option Stamp) (c : Option Bool) (r : Record) (rest : List Record) (f : Filling) (page : Nat) (s : State)

@[simp] theorem State.lossNoted_journal : (s.lossNoted b a c).journal
    = { s.journal.lose b with firstLoss := a, firstLossHigh := c } := rfl
@[simp] theorem State.lossNoted_due : (s.lossNoted b a c).due = s.due := rfl
@[simp] theorem State.lossNoted_points : (s.lossNoted b a c).points = s.points := rfl
@[simp] theorem State.overflowStaged_journal : s.overflowStaged.journal = { s.journal with
    queue := s.journal.queue ++ [{ overflowRecord s.journal with seq := s.journal.nextSeq }], nextSeq := s.journal.nextSeq + 1,
    highLost := 0, lowLost := 0, firstLoss := none, firstLossHigh := none } := rfl
@[simp] theorem State.overflowStaged_due : s.overflowStaged.due = s.due := rfl
@[simp] theorem State.overflowStaged_points : s.overflowStaged.points = s.points := rfl
@[simp] theorem State.headWritten_journal : (s.headWritten r rest f).journal = { s.journal with
    queue := rest, filling := some { f with firstSeq := if f.count = 0 then r.seq else f.firstSeq } } := rfl
@[simp] theorem State.headWritten_due : (s.headWritten r rest f).due = s.due := by simp [State.headWritten]
@[simp] theorem State.headWritten_points : (s.headWritten r rest f).points = s.points := by simp [State.headWritten]
@[simp] theorem State.countRaised_journal : s.countRaised.journal = { s.journal with
    filling := s.journal.filling.map fun g => { g with count := g.count + 1 } } := rfl
@[simp] theorem State.countRaised_due : s.countRaised.due = s.due := rfl
@[simp] theorem State.countRaised_points : s.countRaised.points = s.points := rfl
@[simp] theorem State.waitingPut_journal : (s.waitingPut b).journal = { s.journal with waiting := b } := rfl
@[simp] theorem State.waitingPut_due : (s.waitingPut b).due = s.due := rfl
@[simp] theorem State.waitingPut_points : (s.waitingPut b).points = s.points := rfl
@[simp] theorem State.pageOpened_journal : (s.pageOpened page).journal = { s.journal with
    nextPage := s.journal.nextPage + 1, filling := some (s.newPage page) } := rfl
@[simp] theorem State.pageOpened_due : (s.pageOpened page).due = s.due := rfl
@[simp] theorem State.pageOpened_points : (s.pageOpened page).points = s.points := rfl
@[simp] theorem rejectEntry_journal : (rejectEntry s).journal = { s.journal with cursor := s.journal.cursor + 1 } := rfl
@[simp] theorem rejectEntry_due : (rejectEntry s).due = s.due := rfl
@[simp] theorem rejectEntry_points : (rejectEntry s).points = s.points := rfl

end fields

section equations
variable (rep : Report → State → State)

/-- A refusal: the first loss is noted and reported, a later one counted (R144). -/
theorem refuse_eq (b : Bool) (s : State) : refuse rep b s =
    if s.journal.lossless then rep ((s.lossNoted b (some s.stamp) (some b)).journalReport 253 true)
      (s.lossNoted b (some s.stamp) (some b))
    else s.lossNoted b s.journal.firstLoss s.journal.firstLossHigh := by
  unfold refuse
  split
  · rfl
  · cases b <;> rfl

theorem overflow_eq (s : State) : overflow rep s =
    if s.journal.lossless then s else rep (s.overflowStaged.journalReport 253 false) s.overflowStaged := rfl

theorem writeHead_eq {s : State} {r : Record} {rest : List Record} {f : Filling} (hq : s.journal.queue = r :: rest)
    (hf : s.journal.filling = some f) : writeHead rep s = (overflow rep (s.headWritten r rest f)).countRaised := by
  unfold writeHead
  rw [hq, hf]
  rfl

theorem noPage_eq (s : State) : noPage rep s =
    if s.journal.waiting then s else rep ((s.waitingPut true).journalReport 252 true) (s.waitingPut true) := rfl

theorem openPage_eq (page : Nat) (s : State) : openPage rep page s =
    if (writeHead rep (s.pageOpened page)).journal.waiting then
      rep (((writeHead rep (s.pageOpened page)).waitingPut false).journalReport 252 false)
        ((writeHead rep (s.pageOpened page)).waitingPut false)
    else writeHead rep (s.pageOpened page) := rfl

end equations

/-! ## Reports that are still to come -/

/-- The journal can make an opening attempt at the next admission (R143). -/
abbrev Journal.idle (j : Journal) : Prop := j.filling = none ∧ j.waiting = false

/-- The reports that the next admission and the next refusal can still lead to. -/
def Journal.toCome (j : Journal) : Nat := (if j.idle then 2 else 0) + (if j.lossless then 1 else 0)

/-- The waiting reports, and those that the records of the event in hand can still lead to. -/
def reportsLeft (s : State) : Nat := s.due.length + s.journal.toCome

theorem Journal.lose_lossless (j : Journal) (b : Bool) : ¬(j.lose b).lossless := by
  cases b <;> (simp only [Journal.lose, Journal.lossless, if_true, Bool.false_eq_true, if_false]; omega)

theorem reportsLeft_keep (r : Report) (s : State) : reportsLeft (keepReport r s) = reportsLeft s + 1 := by
  simp only [reportsLeft, keepReport, List.length_append, List.length_cons, List.length_nil]
  omega

theorem refuse_reportsLeft (b : Bool) (s : State) : reportsLeft (refuse keepReport b s) ≤ reportsLeft s := by
  have hc : ∀ a c, reportsLeft (s.lossNoted b a c) + (if s.journal.lossless then 1 else 0) = reportsLeft s := by
    intro a c
    have hl : ¬(s.lossNoted b a c).journal.lossless := s.journal.lose_lossless b
    have hi : (s.lossNoted b a c).journal.idle ↔ s.journal.idle := by cases b <;> exact Iff.rfl
    simp only [reportsLeft, Journal.toCome, State.lossNoted_due, hi, if_neg hl]
    omega
  rw [refuse_eq]
  split
  · next h =>
    have := hc (some s.stamp) (some b)
    rw [if_pos h] at this
    rw [reportsLeft_keep]
    exact this.le
  · exact (Nat.le_add_right _ _).trans (hc _ _).le

/-- An OVERFLOW record adds one report at most (R145). -/
theorem overflow_reports (s : State) : (overflow keepReport s).due.length ≤ s.due.length + 1
    ∧ (overflow keepReport s).journal.filling = s.journal.filling
    ∧ (overflow keepReport s).journal.waiting = s.journal.waiting := by
  rw [overflow_eq]
  split
  · exact ⟨Nat.le_succ _, rfl, rfl⟩
  · exact ⟨by simp [keepReport], rfl, rfl⟩

theorem writeHead_reports {s : State} (hf : s.journal.filling ≠ none) : (writeHead keepReport s).due.length ≤ s.due.length + 1
    ∧ (writeHead keepReport s).journal.filling ≠ none
    ∧ (writeHead keepReport s).journal.waiting = s.journal.waiting := by
  obtain ⟨f, e⟩ := Option.ne_none_iff_exists'.mp hf
  rcases hq : s.journal.queue with _ | ⟨r, rest⟩
  · have : writeHead keepReport s = s := by rw [writeHead, hq]
    rw [this]
    exact ⟨Nat.le_succ _, hf, rfl⟩
  · rw [writeHead_eq keepReport hq e]
    obtain ⟨k1, k2, k3⟩ := overflow_reports (s.headWritten r rest f)
    rw [State.headWritten_due] at k1
    rw [State.headWritten_journal] at k2 k3
    rw [State.countRaised_due, State.countRaised_journal]
    exact ⟨k1, by simp [k2], k3⟩

/-- An opening adds one report at most, which the journal's idleness paid for. -/
theorem openPage_reportsLeft (page : Nat) (s : State) (h : s.journal.idle) :
    reportsLeft (openPage keepReport page s) ≤ reportsLeft s := by
  obtain ⟨k1, k2, k3⟩ := writeHead_reports (s := s.pageOpened page) (by simp)
  rw [openPage_eq, if_neg (by rw [k3]; simp [h.2])]
  rw [State.pageOpened_due] at k1
  have hi : ¬(writeHead keepReport (s.pageOpened page)).journal.idle := fun k => k2 k.1
  simp only [reportsLeft, Journal.toCome, if_pos h, if_neg hi]
  split <;> omega

theorem noPage_reportsLeft (s : State) (h : s.journal.idle) : reportsLeft (noPage keepReport s) ≤ reportsLeft s := by
  rw [noPage_eq, if_neg (by simp [h.2]), reportsLeft_keep]
  have hi : ¬(s.waitingPut true).journal.idle := fun k => Bool.noConfusion k.2
  have hl : (s.waitingPut true).journal.lossless ↔ s.journal.lossless := Iff.rfl
  simp only [reportsLeft, Journal.toCome, if_pos h, if_neg hi, hl, State.waitingPut_due]
  omega

theorem attemptFrom_reportsLeft (n : Nat) (s : State) (h : s.journal.idle) :
    reportsLeft (attemptFrom keepReport n s) ≤ reportsLeft s := by
  induction n generalizing s with
  | zero => exact noPage_reportsLeft s h
  | succ n ih =>
    unfold attemptFrom
    split
    · exact noPage_reportsLeft s h
    · split
      · exact openPage_reportsLeft _ s h
      · exact ih (rejectEntry s) h

/-- What a record offered within an event leaves to come is no more than there was. -/
theorem offerInside_reportsLeft (r : Record) (s : State) : reportsLeft (offerInside r s) ≤ reportsLeft s := by
  unfold offerInside offerWith
  dsimp only
  split
  · split
    · next h =>
      unfold attempt
      split
      · exact attemptFrom_reportsLeft 32 _ h
      · exact le_refl _
    · exact le_refl _
  · exact refuse_reportsLeft _ s

theorem reportsLeft_inside : InsideClosed fun s t => reportsLeft t ≤ reportsLeft s where
  refl _ := le_refl _
  trans h k := k.trans h
  mem _ _ := le_refl _
  zones _ _ := le_refl _
  groups _ _ := le_refl _
  points _ _ _ := le_refl _
  offer := offerInside_reportsLeft

/-- The reports that wait are taken in as many turns as can be left. -/
theorem takeWaiting_due (n : Nat) (s : State) (h : reportsLeft s ≤ n) : (takeWaiting n s).due = [] := by
  induction n generalizing s with
  | zero => exact List.length_eq_zero_iff.mp (by unfold reportsLeft at h; simp only [takeWaiting]; omega)
  | succ n ih =>
    unfold takeWaiting
    split
    · next e => exact e
    · next r rest e =>
      refine ih _ ((reportsLeft_inside.contactReport _ _ _ _ _ _).trans ?_)
      have h1 : reportsLeft s = rest.length + 1 + s.journal.toCome := by rw [reportsLeft, e]; rfl
      have h2 : ∀ y : Point, reportsLeft (putPoint r.point y { s with due := rest }) = rest.length + s.journal.toCome :=
        fun y => rfl
      rw [h2]
      omega

/-- No report waits after the end of an event (log entry 6). -/
@[simp] theorem endAlarm_due (s : State) : (endAlarm s).due = [] := by
  refine takeWaiting_due _ s ?_
  unfold reportsLeft Journal.toCome
  split <;> split <;> omega

/-! ## Nothing waits between events -/

end Sys2Proof.Machine
end

section
/-! SUPPORT. The journal's laws through its operations: the queue's, which every operation keeps, and those of the page and
of WAITING, which hold again at the end of each. -/

namespace Sys2Proof.Machine

/-! ## The laws -/

/-- The staged records have the numbers before the next one, in order (R143). -/
def numbered (q : List Record) (n : Word) : Prop :=
  ∀ i (h : i < q.length), q[i].seq = n - BitVec.ofNat 16 (q.length - i)

theorem numbered_nil (n : Word) : numbered [] n := fun _ h => absurd h (by simp)

theorem numbered_tail {r : Record} {q : List Record} {n : Word} (h : numbered (r :: q) n) : numbered q n := by
  intro i hi
  have := h (i + 1) (by simpa using hi)
  simpa using this

theorem numbered_append {q : List Record} {n : Word} (r : Record) (h : numbered q n) :
    numbered (q ++ [{ r with seq := n }]) (n + 1) := by
  intro i hi
  rw [List.length_append, List.length_singleton] at hi ⊢
  have hs : q.length + 1 - i = q.length - i + 1 := by omega
  rw [hs, BitVec.ofNat_add, show BitVec.ofNat 16 1 = 1 from rfl, add_sub_add_right_eq_sub]
  by_cases e : i < q.length
  · rw [List.getElem_append_left e]
    exact h i e
  · have e' : i = q.length := by omega
    subst e'
    rw [List.getElem_append_right (le_refl _)]
    simp

/-- The laws of the staging queue, of the lost counts and of the settings (R140, R141, R143, R144, R154). -/
structure QueueLaw (j : Journal) : Prop where
  length : j.queue.length ≤ 48
  seqs : numbered j.queue j.nextSeq
  firstLoss : j.firstLoss.isSome = true ↔ ¬j.lossless
  firstLossHigh : j.firstLossHigh.isSome = true ↔ ¬j.lossless
  highLost : j.highLost ≤ 65535
  lowLost : j.lowLost ≤ 65535
  delay : 1 ≤ j.flushDelay ∧ j.flushDelay ≤ 255
  mask : j.mask < 32

/-- The laws of the FILLING page and of WAITING (R147, R149). -/
structure PageLaw (j : Journal) : Prop where
  filling : ∀ f ∈ j.filling, 1 ≤ f.count ∧ f.count ≤ 14 ∧ 7 ≤ f.page ∧ f.page ≤ 255 ∧ f.entry = j.cursor
  waiting : j.waiting = true ↔ j.filling = none ∧ j.queue ≠ []

theorem journalHolds_iff (s : State) : s.journalHolds ↔ QueueLaw s.journal ∧ PageLaw s.journal := by
  constructor
  · rintro ⟨h1, h2, h3, h4, h5, h6, h7, h8, h9, h10, h11⟩
    exact ⟨⟨h1, fun i hi => h2 ⟨i, hi⟩, h5, h6, h7, h8, ⟨h9, h10⟩, h11⟩, ⟨h3, h4⟩⟩
  · rintro ⟨⟨h1, h2, h5, h6, h7, h8, ⟨h9, h10⟩, h11⟩, ⟨h3, h4⟩⟩
    exact ⟨h1, fun i => h2 i.val i.isLt, h3, h4, h5, h6, h7, h8, h9, h10, h11⟩

/-- What an operation does to the journal: it keeps the queue's laws; with a page FILLING or the journal WAITING records
join the queue and nothing else happens; and it keeps the laws of page and WAITING. -/
structure JournalStep (s t : State) : Prop where
  queue : QueueLaw s.journal → QueueLaw t.journal
  grows : s.journal.filling ≠ none ∨ s.journal.waiting = true →
    t.journal.filling = s.journal.filling ∧ t.journal.waiting = s.journal.waiting ∧ t.journal.cursor = s.journal.cursor
      ∧ s.journal.queue <+: t.journal.queue
  page : PageLaw s.journal → PageLaw t.journal

theorem journalStep_same {s t : State} (h : t.journal = s.journal) : JournalStep s t := by
  refine ⟨fun k => h ▸ k, fun _ => ?_, fun k => h ▸ k⟩
  rw [h]
  exact ⟨rfl, rfl, rfl, List.prefix_refl _⟩

theorem journalStep_trans {s t u : State} (h : JournalStep s t) (k : JournalStep t u) : JournalStep s u where
  queue := k.queue ∘ h.queue
  grows hs := by
    obtain ⟨h1, h2, h3, h4⟩ := h.grows hs
    obtain ⟨k1, k2, k3, k4⟩ := k.grows (by rw [h1, h2]; exact hs)
    exact ⟨k1.trans h1, k2.trans h2, k3.trans h3, h4.trans k4⟩
  page := k.page ∘ h.page

/-- While a page is FILLING or the journal WAITING, the laws of page and WAITING follow from the queue's growth. -/
theorem pageLaw_of_grows {j k : Journal} (h1 : k.filling = j.filling) (h2 : k.waiting = j.waiting) (h3 : k.cursor = j.cursor)
    (h4 : j.queue <+: k.queue) (hs : j.filling ≠ none ∨ j.waiting = true) (h : PageLaw j) : PageLaw k where
  filling f hf := by
    rw [h1] at hf
    rw [h3]
    exact h.filling f hf
  waiting := by
    rw [h1, h2]
    rcases hs with hs | hs
    · rw [h.waiting]
      exact ⟨fun k => absurd k.1 hs, fun k => absurd k.1 hs⟩
    · obtain ⟨k1, k2⟩ := h.waiting.mp hs
      exact ⟨fun _ => ⟨k1, fun e => k2 (List.prefix_nil.mp (e ▸ h4))⟩, fun _ => hs⟩

/-- Records that join the queue of a journal with a page FILLING or WAITING, the rest of the page's items standing. -/
theorem journalStep_of_grows {s t : State} (hq : QueueLaw s.journal → QueueLaw t.journal)
    (h1 : t.journal.filling = s.journal.filling) (h2 : t.journal.waiting = s.journal.waiting)
    (h3 : t.journal.cursor = s.journal.cursor) (h4 : s.journal.queue <+: t.journal.queue)
    (hs : s.journal.filling ≠ none ∨ s.journal.waiting = true) : JournalStep s t :=
  ⟨hq, fun _ => ⟨h1, h2, h3, h4⟩, pageLaw_of_grows h1 h2 h3 h4 hs⟩

/-! ## Single steps of the queue -/

theorem queueLaw_append {j : Journal} (r : Record) (h : QueueLaw j) (hl : j.queue.length < 48) :
    QueueLaw { j with queue := j.queue ++ [{ r with seq := j.nextSeq }], nextSeq := j.nextSeq + 1 } where
  length := by simpa using hl
  seqs := numbered_append r h.seqs
  firstLoss := h.firstLoss
  firstLossHigh := h.firstLossHigh
  highLost := h.highLost
  lowLost := h.lowLost
  delay := h.delay
  mask := h.mask

theorem queueLaw_page {j k : Journal} (h : QueueLaw j) (h1 : k.queue = j.queue) (h2 : k.nextSeq = j.nextSeq)
    (h3 : k.highLost = j.highLost) (h4 : k.lowLost = j.lowLost) (h5 : k.firstLoss = j.firstLoss)
    (h6 : k.firstLossHigh = j.firstLossHigh) (h7 : k.flushDelay = j.flushDelay) (h8 : k.mask = j.mask) : QueueLaw k where
  length := by rw [h1]; exact h.length
  seqs := by rw [h1, h2]; exact h.seqs
  firstLoss := by unfold Journal.lossless; rw [h3, h4, h5]; exact h.firstLoss
  firstLossHigh := by unfold Journal.lossless; rw [h3, h4, h6]; exact h.firstLossHigh
  highLost := by rw [h3]; exact h.highLost
  lowLost := by rw [h4]; exact h.lowLost
  delay := by rw [h7]; exact h.delay
  mask := by rw [h8]; exact h.mask

theorem queueLaw_lossNoted {s : State} {b : Bool} {a : Option Stamp} {c : Option Bool} (h : QueueLaw s.journal)
    (ha : a.isSome = true) (hc : c.isSome = true) : QueueLaw (s.lossNoted b a c).journal := by
  obtain ⟨k1, _, _, k2, _, k3, k4, _⟩ := s.journal.lose_keeps b
  have hl : ¬(s.lossNoted b a c).journal.lossless := s.journal.lose_lossless b
  rw [State.lossNoted_journal] at hl ⊢
  refine ⟨?_, ?_, ⟨fun _ => hl, fun _ => ha⟩, ⟨fun _ => hl, fun _ => hc⟩, ?_, ?_, ?_, ?_⟩
  · dsimp only; rw [k1]; exact h.length
  · dsimp only; rw [k1, k2]; exact h.seqs
  · have := h.highLost
    cases b <;> simp [Journal.lose, this]
  · have := h.lowLost
    cases b <;> simp [Journal.lose, this]
  · dsimp only; rw [k4]; exact h.delay
  · dsimp only; rw [k3]; exact h.mask

theorem queueLaw_overflowStaged {s : State} (h : QueueLaw s.journal) (hl : s.journal.queue.length < 48) :
    QueueLaw s.overflowStaged.journal where
  length := by simpa using hl
  seqs := numbered_append _ h.seqs
  firstLoss := by simp [Journal.lossless]
  firstLossHigh := by simp [Journal.lossless]
  highLost := Nat.zero_le _
  lowLost := Nat.zero_le _
  delay := h.delay
  mask := h.mask

/-! ## The operations, when what becomes of a report keeps to `JournalStep` -/

section operations
variable {rep : Report → State → State} (hr : ∀ r s, journalPoint r.point → JournalStep s (rep r s))
include hr

theorem refuse_journal (b : Bool) {s : State} : JournalStep s (refuse rep b s) := by
  have h1 : ∀ a c, (QueueLaw s.journal → a.isSome = true ∧ c.isSome = true) → JournalStep s (s.lossNoted b a c) := by
    intro a c hac
    obtain ⟨k1, k2, k3, _, k4, _⟩ := s.journal.lose_keeps b
    refine ⟨fun h => queueLaw_lossNoted h (hac h).1 (hac h).2, fun _ => ⟨k2, k3, k4, ?_⟩, fun h => ?_⟩
    · rw [State.lossNoted_journal]
      dsimp only
      rw [k1]
    · rw [State.lossNoted_journal]
      exact ⟨fun f hf => by dsimp only at hf ⊢; rw [k2] at hf; rw [k4]; exact h.filling f hf,
        by dsimp only; rw [k1, k2, k3]; exact h.waiting⟩
  rw [refuse_eq]
  split
  · exact journalStep_trans (h1 _ _ fun _ => ⟨rfl, rfl⟩) (hr _ _ (.inr rfl))
  · next h => exact h1 _ _ fun k => ⟨k.firstLoss.mpr h, k.firstLossHigh.mpr h⟩

/-- An OVERFLOW record while a page is FILLING and a place is free (R145). -/
theorem overflow_journal {s : State} (hf : s.journal.filling ≠ none) :
    (QueueLaw s.journal → s.journal.queue.length < 48 → QueueLaw (overflow rep s).journal)
    ∧ (overflow rep s).journal.filling = s.journal.filling ∧ (overflow rep s).journal.waiting = s.journal.waiting
    ∧ (overflow rep s).journal.cursor = s.journal.cursor := by
  rw [overflow_eq]
  split
  · exact ⟨fun h _ => h, rfl, rfl, rfl⟩
  · have h := hr (s.overflowStaged.journalReport 253 false) s.overflowStaged (.inr rfl)
    obtain ⟨h1, h2, h3, _⟩ := h.grows (.inl hf)
    exact ⟨fun k hl => h.queue (queueLaw_overflowStaged k hl), h1, h2, h3⟩

/-- A write: one record more in the page, and the queue's laws kept (R151). -/
theorem writeHead_journal {s : State} {f : Filling} (hf : s.journal.filling = some f) (hq : s.journal.queue ≠ []) :
    (QueueLaw s.journal → QueueLaw (writeHead rep s).journal)
    ∧ (∃ g, (writeHead rep s).journal.filling = some g ∧ g.count = f.count + 1 ∧ g.page = f.page ∧ g.entry = f.entry)
    ∧ (writeHead rep s).journal.waiting = s.journal.waiting ∧ (writeHead rep s).journal.cursor = s.journal.cursor := by
  obtain ⟨r, rest, e⟩ := List.exists_cons_of_ne_nil hq
  rw [writeHead_eq rep e hf]
  obtain ⟨h1, h2, h3, h4⟩ := overflow_journal hr (s := s.headWritten r rest f) (by simp)
  rw [State.headWritten_journal] at h1 h2 h3 h4
  rw [State.countRaised_journal]
  refine ⟨fun h => ?_, ?_, h3, h4⟩
  · have hl := h.length
    rw [e, List.length_cons] at hl
    have h0 : QueueLaw { s.journal with
        queue := rest, filling := some { f with firstSeq := if f.count = 0 then r.seq else f.firstSeq } } :=
      { h with length := by dsimp only; omega
               seqs := by have := h.seqs; rw [e] at this; exact numbered_tail this }
    exact queueLaw_page (h1 h0 (by dsimp only; omega)) rfl rfl rfl rfl rfl rfl rfl rfl
  · rw [h2]
    exact ⟨_, rfl, rfl, rfl, rfl⟩

theorem noPage_journal {s : State} (hf : s.journal.filling = none) (hq : s.journal.queue ≠ []) :
    (QueueLaw s.journal → QueueLaw (noPage rep s).journal) ∧ PageLaw (noPage rep s).journal := by
  rw [noPage_eq]
  split
  · next hw => exact ⟨id, ⟨fun f h => absurd h (by rw [hf]; simp), fun _ => ⟨hf, hq⟩, fun _ => hw⟩⟩
  · have h := hr ((s.waitingPut true).journalReport 252 true) (s.waitingPut true) (.inl rfl)
    refine ⟨fun k => h.queue (queueLaw_page k rfl rfl rfl rfl rfl rfl rfl rfl), h.page ⟨fun f k => ?_, ?_⟩⟩
    · rw [State.waitingPut_journal] at k
      dsimp only at k
      rw [hf] at k
      exact absurd k (by simp)
    · exact ⟨fun _ => ⟨hf, hq⟩, fun _ => rfl⟩

theorem openPage_journal {s : State} {page : Nat} (hp : usablePage page = true) (hq : s.journal.queue ≠ []) :
    (QueueLaw s.journal → QueueLaw (openPage rep page s).journal) ∧ PageLaw (openPage rep page s).journal := by
  have hp' : 7 ≤ page ∧ page ≤ 255 := by simpa [usablePage] using hp
  obtain ⟨h1, ⟨g, h2, h3, h4, h5⟩, h6, h7⟩ := writeHead_journal hr (s := s.pageOpened page) (f := s.newPage page) rfl hq
  have h1' : QueueLaw s.journal → QueueLaw (writeHead rep (s.pageOpened page)).journal := fun k =>
    h1 (queueLaw_page k rfl rfl rfl rfl rfl rfl rfl rfl)
  have hfill : ∀ c, c = (writeHead rep (s.pageOpened page)).journal.cursor → 1 ≤ g.count ∧ g.count ≤ 14 ∧ 7 ≤ g.page
      ∧ g.page ≤ 255 ∧ g.entry = c := by
    rintro c rfl
    rw [h3, h4, h5, h7]
    exact ⟨Nat.le_add_left _ _, (by decide : 0 + 1 ≤ 14), hp'.1, hp'.2, rfl⟩
  rw [openPage_eq]
  generalize writeHead rep (s.pageOpened page) = u at h1' h2 h6 h7 hfill ⊢
  split
  · have h := hr ((u.waitingPut false).journalReport 252 false) (u.waitingPut false) (.inl rfl)
    refine ⟨fun k => h.queue (queueLaw_page (h1' k) rfl rfl rfl rfl rfl rfl rfl rfl), h.page ⟨fun f hf => ?_, ?_⟩⟩
    · rw [State.waitingPut_journal] at hf
      dsimp only at hf
      rw [h2] at hf
      obtain rfl : g = f := by simpa using hf
      exact hfill _ rfl
    · rw [State.waitingPut_journal]
      dsimp only
      rw [h2]
      simp
  · next hw =>
    refine ⟨h1', ⟨fun f hf => ?_, ?_⟩⟩
    · rw [h2] at hf
      obtain rfl : g = f := by simpa using hf
      exact hfill _ rfl
    · rw [h2]
      simp [hw]

/-- An opening attempt that is made leaves the laws of page and WAITING, whatever held before (R149, R150). -/
theorem attemptFrom_journal (n : Nat) {s : State} (hf : s.journal.filling = none) (hq : s.journal.queue ≠ []) :
    (QueueLaw s.journal → QueueLaw (attemptFrom rep n s).journal) ∧ PageLaw (attemptFrom rep n s).journal := by
  induction n generalizing s with
  | zero => exact noPage_journal hr hf hq
  | succ n ih =>
    unfold attemptFrom
    split
    · exact noPage_journal hr hf hq
    · split
      · next hp => exact openPage_journal hr hp hq
      · obtain ⟨h1, h2⟩ := ih (s := rejectEntry s) hf hq
        exact ⟨fun k => h1 (queueLaw_page k rfl rfl rfl rfl rfl rfl rfl rfl), h2⟩

theorem attempt_queue {s : State} (h : QueueLaw s.journal) : QueueLaw (attempt rep s).journal := by
  unfold attempt
  split
  · next e => exact (attemptFrom_journal hr 32 e.2 e.1).1 h
  · exact h

/-- After an attempt with no page FILLING the laws of page and WAITING hold, when an empty queue is not waiting. -/
theorem attempt_page {s : State} (hf : s.journal.filling = none) (hw : s.journal.queue = [] → s.journal.waiting = false) :
    PageLaw (attempt rep s).journal := by
  unfold attempt
  split
  · next e => exact (attemptFrom_journal hr 32 e.2 e.1).2
  · next e =>
    have hq : s.journal.queue = [] := by
      by_contra k
      exact e ⟨k, hf⟩
    exact ⟨fun f k => absurd k (by rw [hf]; simp), by rw [hw hq, hq]; simp⟩

theorem offerWith_journal (r : Record) (s : State) : JournalStep s (offerWith rep r s) := by
  by_cases h : s.journal.queue.length + placesNeeded r.high ≤ queueSize
  · have hl : s.journal.queue.length < 48 := by
      have : 1 ≤ placesNeeded r.high := by cases r.high <;> decide
      have h' : s.journal.queue.length + placesNeeded r.high ≤ 48 := h
      omega
    have hs : QueueLaw s.journal → QueueLaw (stage r s).journal := fun k => queueLaw_append r k hl
    by_cases hi : s.journal.filling ≠ none ∨ s.journal.waiting = true
    · rw [offerWith_roomy rep r s ⟨h, hi⟩]
      exact journalStep_of_grows hs rfl rfl rfl (List.prefix_append _ _) hi
    · have hi' : s.journal.filling = none ∧ s.journal.waiting = false := by
        rw [not_or, not_not] at hi
        exact ⟨hi.1, by simpa using hi.2⟩
      have e : offerWith rep r s = attempt rep (stage r s) := (if_pos h).trans (if_pos hi')
      rw [e]
      exact ⟨fun k => attempt_queue hr (hs k), fun k => absurd k hi,
        fun _ => attempt_page hr hi'.1 fun k => absurd k (by simp)⟩
  · rw [offerWith_full rep r s h]
    exact refuse_journal hr r.high

end operations

/-! ## Events of the alarm side and records from outside it -/

theorem journalStep_alarm : AlarmClosed JournalStep where
  refl _ := journalStep_same rfl
  trans := journalStep_trans
  mem _ _ := journalStep_same rfl
  zones _ _ := journalStep_same rfl
  groups _ _ := journalStep_same rfl
  points _ _ _ := journalStep_same rfl
  offer r s := offerWith_journal (rep := keepReport) (fun _ _ _ => journalStep_same rfl) r s
  report _ _ _ _ := journalStep_same rfl

theorem takeContact_journal (p : Fin 256) (c : Contact) (t : Int) (st : Stamp) (a : Bool) (s : State) :
    JournalStep s (takeContact p c t st a s) :=
  journalStep_trans (s := s) (t := putPoint p { nth s.points p with contact := c } s) (journalStep_same rfl)
    (journalStep_alarm.takeContact p c t st a s)

theorem reportNow_journal (r : Report) (s : State) (_ : journalPoint r.point) : JournalStep s (reportNow r s) :=
  takeContact_journal r.point _ _ _ _ s

end Sys2Proof.Machine
end

section
/-! SUPPORT. The contact states of points 252 and 253: what the Point Filter has been told of the journal's two conditions,
counting the reports that wait, is what they are. -/

namespace Sys2Proof.Machine

/-- The contact state of a point once the waiting reports have been taken. -/
def told (p : Fin 256) (s : State) : Contact :=
  s.due.foldl (fun c r => if r.point = p then conditionOf r.present else c) (nth s.points p).contact

theorem told_same {p : Fin 256} {s t : State} (h1 : t.due = s.due)
    (h2 : (nth t.points p).contact = (nth s.points p).contact) : told p t = told p s := by
  unfold told
  rw [h1, h2]

theorem told_keep (p : Fin 256) (r : Report) (s : State) :
    told p (keepReport r s) = if r.point = p then conditionOf r.present else told p s := by
  simp [told, keepReport]

/-- With no report waiting a point has been told its contact state. -/
theorem told_of_nil {p : Fin 256} {s : State} (h : s.due = []) : told p s = (nth s.points p).contact := by
  simp [told, h]

/-- Taking the first waiting report changes nothing of what has been told. -/
theorem told_pop {p : Fin 256} {s : State} {r : Report} {rest : List Report} (h : s.due = r :: rest) :
    told p (putPoint r.point { nth s.points r.point with contact := conditionOf r.present } { s with due := rest }) = told p s := by
  simp only [told, h, List.foldl_cons, putPoint_points, putPoint_due, nth_upd]
  by_cases e : r.point = p
  · simp [e]
  · simp [e]

/-- The Point Filter has been told the journal's two conditions (R144, R145, R150). -/
structure Coherent (s : State) : Prop where
  waiting : told 252 s = conditionOf s.journal.waiting
  loss : told 253 s = conditionOf (decide ¬s.journal.lossless)

/-- A report that would make it so. -/
structure CoherentAfter (r : Report) (s : State) : Prop where
  waiting : (if r.point = 252 then conditionOf r.present else told 252 s) = conditionOf s.journal.waiting
  loss : (if r.point = 253 then conditionOf r.present else told 253 s) = conditionOf (decide ¬s.journal.lossless)

theorem Coherent.same {s t : State} (h : Coherent s) (h1 : t.points = s.points) (h2 : t.due = s.due)
    (h3 : t.journal.waiting = s.journal.waiting) (h4 : t.journal.lossless ↔ s.journal.lossless) : Coherent t where
  waiting := by rw [told_same h2 (by rw [h1]), h3]; exact h.waiting
  loss := by rw [told_same h2 (by rw [h1]), h.loss]; simp only [h4]

/-- A report of point 252 about a new state of WAITING. -/
theorem Coherent.afterWaiting {s t : State} (h : Coherent s) {r : Report} (hp : r.point = 252)
    (h1 : t.points = s.points) (h2 : t.due = s.due) (h3 : t.journal.waiting = r.present) (h4 : t.journal.lossless ↔ s.journal.lossless) : CoherentAfter r t where
  waiting := by rw [if_pos hp, h3]
  loss := by
    rw [if_neg (by rw [hp]; decide), told_same h2 (by rw [h1]), h.loss]
    simp only [h4]

/-- A report of point 253 about a first loss or an OVERFLOW record. -/
theorem Coherent.afterLoss {s t : State} (h : Coherent s) {r : Report} (hp : r.point = 253)
    (h1 : t.points = s.points) (h2 : t.due = s.due) (h3 : t.journal.waiting = s.journal.waiting) (h4 : t.journal.lossless ↔ r.present = false) :
    CoherentAfter r t where
  waiting := by
    rw [if_neg (by rw [hp]; decide), told_same h2 (by rw [h1]), h.waiting, h3]
  loss := by
    rw [if_pos hp]
    congr 1
    cases hb : r.present <;> simp [h4, hb]

/-- A way to make reports that keeps the Point Filter informed, in states that `D` names. -/
structure Reporter (D : State → Prop) (rep : Report → State → State) : Prop where
  stay : ∀ {s t}, D s → t.due = s.due → D t
  report : ∀ r s, journalPoint r.point → D s → CoherentAfter r s → D (rep r s) ∧ Coherent (rep r s)

namespace Reporter

variable {D : State → Prop} {rep : Report → State → State} (h : Reporter D rep)
include h

theorem refuse (b : Bool) {s : State} (hd : D s) (hc : Coherent s) : D (refuse rep b s) ∧ Coherent (refuse rep b s) := by
  have hw : ∀ a c, (s.lossNoted b a c).journal.waiting = s.journal.waiting := fun a c => (s.journal.lose_keeps b).2.2.1
  have hl : ∀ a c, ¬(s.lossNoted b a c).journal.lossless := fun a c => s.journal.lose_lossless b
  rw [refuse_eq]
  split
  · exact h.report _ _ (.inr rfl) (h.stay hd rfl) (hc.afterLoss rfl rfl rfl (hw _ _)
      ⟨fun k => absurd k (hl _ _), fun k => absurd k (by simp [State.journalReport])⟩)
  · next hs => exact ⟨h.stay hd rfl, hc.same rfl rfl (hw _ _) ⟨fun k => absurd k (hl _ _), fun k => absurd k hs⟩⟩

theorem overflow {s : State} (hd : D s) (hc : Coherent s) :
    D (overflow rep s) ∧ Coherent (Machine.overflow rep s) := by
  rw [overflow_eq]
  split
  · exact ⟨hd, hc⟩
  · exact h.report _ _ (.inr rfl) (h.stay hd rfl) (hc.afterLoss rfl rfl rfl rfl
      ⟨fun _ => rfl, fun _ => ⟨rfl, rfl⟩⟩)

theorem writeHead {s : State} (hd : D s) (hc : Coherent s) : D (writeHead rep s) ∧ Coherent (Machine.writeHead rep s) := by
  rcases hq : s.journal.queue with _ | ⟨r, rest⟩
  · rw [show Machine.writeHead rep s = s by rw [Machine.writeHead, hq]]
    exact ⟨hd, hc⟩
  · rcases hf : s.journal.filling with _ | f
    · rw [show Machine.writeHead rep s = s by rw [Machine.writeHead, hq, hf]]
      exact ⟨hd, hc⟩
    · rw [writeHead_eq rep hq hf]
      obtain ⟨k1, k2⟩ := h.overflow (s := s.headWritten r rest f) (h.stay hd (State.headWritten_due r rest f s))
        (hc.same (State.headWritten_points r rest f s) (State.headWritten_due r rest f s) rfl Iff.rfl)
      exact ⟨h.stay k1 rfl, k2.same rfl rfl rfl Iff.rfl⟩

theorem noPage {s : State} (hd : D s) (hc : Coherent s) : D (noPage rep s) ∧ Coherent (Machine.noPage rep s) := by
  rw [noPage_eq]
  split
  · exact ⟨hd, hc⟩
  · exact h.report _ _ (.inl rfl) (h.stay hd rfl) (hc.afterWaiting rfl rfl rfl rfl Iff.rfl)

theorem openPage (page : Nat) {s : State} (hd : D s) (hc : Coherent s) :
    D (openPage rep page s) ∧ Coherent (Machine.openPage rep page s) := by
  obtain ⟨k1, k2⟩ := h.writeHead (s := s.pageOpened page) (h.stay hd rfl) (hc.same rfl rfl rfl Iff.rfl)
  rw [openPage_eq]
  split
  · exact h.report _ _ (.inl rfl) (h.stay k1 rfl) (k2.afterWaiting rfl rfl rfl rfl Iff.rfl)
  · exact ⟨k1, k2⟩

theorem attemptFrom (n : Nat) {s : State} (hd : D s) (hc : Coherent s) :
    D (attemptFrom rep n s) ∧ Coherent (Machine.attemptFrom rep n s) := by
  induction n generalizing s with
  | zero => exact h.noPage hd hc
  | succ n ih =>
    unfold Machine.attemptFrom
    split
    · exact h.noPage hd hc
    · split
      · exact h.openPage _ hd hc
      · exact ih (h.stay hd rfl) (hc.same rfl rfl rfl Iff.rfl)

theorem attempt {s : State} (hd : D s) (hc : Coherent s) : D (attempt rep s) ∧ Coherent (Machine.attempt rep s) := by
  unfold Machine.attempt
  split
  · exact h.attemptFrom 32 hd hc
  · exact ⟨hd, hc⟩

theorem offerWith (r : Record) {s : State} (hd : D s) (hc : Coherent s) :
    D (offerWith rep r s) ∧ Coherent (Machine.offerWith rep r s) := by
  have hs : D (stage r s) ∧ Coherent (stage r s) := ⟨h.stay hd rfl, hc.same rfl rfl rfl Iff.rfl⟩
  unfold Machine.offerWith
  dsimp only
  split
  · split
    · exact h.attempt hs.1 hs.2
    · exact hs
  · exact h.refuse _ hd hc

end Reporter

theorem reporter_keep : Reporter (fun _ => True) keepReport where
  stay _ _ := trivial
  report r s _ _ k := ⟨trivial, ⟨by rw [told_keep]; exact k.waiting, by rw [told_keep]; exact k.loss⟩⟩

theorem coherent_alarm : AlarmClosed fun s t => Coherent s → Coherent t where
  refl _ := id
  trans h k := k ∘ h
  mem _ _ := fun hc => hc.same rfl rfl rfl Iff.rfl
  zones _ _ := fun hc => hc.same rfl rfl rfl Iff.rfl
  groups _ _ := fun hc => hc.same rfl rfl rfl Iff.rfl
  points s v hv hc :=
    have h p : told p { s with points := v } = told p s := told_same (s := s) (t := { s with points := v }) rfl (hv p).2.1
    ⟨(h 252).trans hc.waiting, (h 253).trans hc.loss⟩
  offer r _ hc := (reporter_keep.offerWith r trivial hc).2
  report _ _ _ e hc := ⟨(told_pop e).trans hc.waiting, (told_pop e).trans hc.loss⟩

theorem reporter_now : Reporter (fun s => s.due = []) reportNow where
  stay hd e := e.trans hd
  report r s _ hd k := by
    refine ⟨endAlarm_due _, coherent_alarm.endAlarm _ (coherent_alarm.contactReport _ _ _ _ _ _ ?_)⟩
    have h1 : ∀ p, told p (putPoint r.point { nth s.points r.point with contact := conditionOf r.present } s)
        = if r.point = p then conditionOf r.present else told p s := by
      intro p
      rw [told_of_nil hd, told_of_nil (by simpa using hd), putPoint_points, nth_upd]
      split <;> rfl
    exact ⟨(h1 252).trans k.waiting, (h1 253).trans k.loss⟩

/-! ## The law between events -/

/-- Nothing waits, and the Point Filter has been told the journal's two conditions. -/
structure Informed (s : State) : Prop where
  due : s.due = []
  coherent : Coherent s

theorem Informed.contacts {s : State} (h : Informed s) :
    (nth s.points 252).contact = (if s.journal.waiting then .present else .absent)
    ∧ (nth s.points 253).contact = (if s.journal.highLost = 0 ∧ s.journal.lowLost = 0 then .absent else .present) := by
  have h1 := h.coherent.waiting
  have h2 := h.coherent.loss
  rw [told_of_nil h.due] at h1 h2
  refine ⟨h1, h2.trans ?_⟩
  by_cases k : s.journal.lossless
  · rw [if_pos k, decide_eq_false (not_not.mpr k)]; rfl
  · rw [if_neg k, decide_eq_true k]; rfl

theorem informed_of_contacts {s : State} (hd : s.due = [])
    (h1 : (nth s.points 252).contact = (if s.journal.waiting then .present else .absent))
    (h2 : (nth s.points 253).contact = (if s.journal.highLost = 0 ∧ s.journal.lowLost = 0 then .absent else .present)) :
    Informed s where
  due := hd
  coherent := {
    waiting := (told_of_nil hd).trans h1
    loss := by
      refine (told_of_nil hd).trans (h2.trans ?_)
      by_cases k : s.journal.lossless
      · rw [if_pos k, decide_eq_false (not_not.mpr k)]; rfl
      · rw [if_neg k, decide_eq_true k]; rfl }

theorem Informed.same {s t : State} (h : Informed s) (h1 : t.points = s.points) (h2 : t.due = s.due)
    (h3 : t.journal.waiting = s.journal.waiting) (h4 : t.journal.lossless ↔ s.journal.lossless) :
    Informed t := ⟨h2.trans h.due, h.coherent.same h1 h2 h3 h4⟩

theorem informed_offer (r : Record) {s : State} (h : Informed s) : Informed (offer r s) :=
  let ⟨h1, h2⟩ := reporter_now.offerWith r h.due h.coherent
  ⟨h1, h2⟩

end Sys2Proof.Machine
end

section
/-! SUPPORT. Laws of the Sequence Unit and the First-Out Unit: a relation kept by accepted changes, by a point put to QUIET,
by a mark cleared, by an action and by a latch, and by every edit that leaves sequence states, first marks and settings, is
kept by every event but a LOAD POINTS apply and a tone cycle. -/

namespace Sys2Proof.Machine

/-! ## Events from what they are made of -/

/-- The close of a page, for a relation that passes over the journal's own items (R153). -/
theorem JournalClosed.closePage {F : Item → Prop} {K : Fin 256 → Contact → Prop} {R : State → State → Prop}
    (hJ : JournalClosed reportNow R) (hE : EventClosed F K R) (c : CloseCause) (f : Filling) (s : State) :
    R s (Machine.closePage reportNow c f s) := by
  have h0 : R s ((s.putBytes (256 * f.page) (headerBytes f c)).putMapState f.entry 3) :=
    hJ.trans (hJ.putBytes _ _ s) (hJ.putMapState _ _ _)
  have h1 : R s (handBack c f s) := by
    unfold handBack
    dsimp only
    generalize (s.putBytes (256 * f.page) (headerBytes f c)).putMapState f.entry 3 = v at h0 ⊢
    exact hJ.trans (hJ.trans (hJ.trans h0 (hJ.journal v _)) (hJ.showFilling _)) (hJ.showQueue _)
  have h2 : ∀ u : State, R u (countClosed u) := fun u =>
    hJ.trans (hJ.trans (hE.engine u _) (hE.mem _ _)) (hE.raiseAlert _)
  exact hJ.trans (hJ.trans h1 (h2 _)) (hJ.attempt _)

/-- A relation that passes over the journal's own items is kept by every event, when the alarm side's events and a tone
cycle keep it. -/
theorem StepClosed.of_journal {F : Item → Prop} {R : State → State → Prop} (hE : EventClosed F (ownReport F) R)
    (hJ : JournalClosed reportNow R) (tone : ∀ z s t, execRingbackToneCycle z s = .next t → R s t)
    (leak : ∀ s, R s (Machine.leak s))
    (change : ∀ p c s, (nth s.points p).waiting = some c → R s (Machine.endAlarm (Machine.accept p c.change s)))
    (latch : ∀ g s, (nth s.groups g).state = .deciding → R s (Machine.endAlarm (Machine.latch g s)))
    (shelve : ∀ p s, (nth s.points p).settings.enabled = true → (nth s.points p).shelved = false → R s (Machine.shelve p s))
    (unshelve : ∀ p s, (nth s.points p).shelved = true → R s (Machine.unshelve p s))
    (chatter : ∀ d s, R s (Machine.orderSetChatter d s).1)
    (complete : F .settings → ∀ bs s, R s (Machine.completePoints bs s).1) : StepClosed F R where
  toEventClosed := hE
  attempt s := hJ.attempt s
  writeEvent s _ _ := by
    have h1 := hJ.writeHead s
    unfold Machine.writeEvent
    dsimp only
    split
    · split
      · exact hJ.trans h1 (hJ.closePage hE _ _ _)
      · exact h1
    · exact h1
  close c f s _ := hJ.closePage hE c f s
  journalOrder d s := by
    have h1 : ∀ j, R s (State.showJournalSettings { s with journal := j }) := fun j => hJ.trans (hJ.journal s j) (hJ.mem _ _)
    unfold orderSetJournal
    dsimp only
    split
    · exact hJ.refl s
    · exact hJ.trans (h1 _) (hJ.offerWith _ _)
  tone := tone
  leak := leak
  change := change
  latch := latch
  shelve := shelve
  unshelve := unshelve
  chatter _ := chatter
  complete := complete

/-! ## The Sequence Unit and the First-Out Unit -/

/-- An edit of a point that the Sequence Unit and the First-Out Unit do not see. -/
def Point.unseen (x y : Point) : Prop := y.settings = x.settings ∧ y.seq = x.seq ∧ y.firstMark = x.firstMark

/-- A relation kept by the Sequence Unit's and the First-Out Unit's own operations. -/
structure UnitClosed (R : State → State → Prop) : Prop where
  refl : ∀ s, R s s
  trans : ∀ {s t u}, R s t → R t u → R s u
  still : ∀ s t, t.points = s.points → t.zones = s.zones → t.groups = s.groups → R s t
  edit : ∀ s v, (∀ p, (nth s.points p).unseen (nth v p)) → R s { s with points := v }
  takeChange : ∀ p c s, R s (Machine.takeChange p c s)
  quieten : ∀ p s, R s (Machine.quieten p s)
  clearMark : ∀ p s, (nth s.points p).seq = .quiet → R s (Machine.clearMark p s)
  act : ∀ a t o s, R s (applyAction a t o s)
  latch : ∀ g s, (nth s.groups g).state = .deciding → R s (Machine.latch g s)

theorem Point.ordered_unseen (x : Point) (t : Int) (st : Stamp) (a : Bool) : x.unseen (x.ordered t st a) := by
  unfold Point.ordered
  split <;> exact ⟨rfl, rfl, rfl⟩

namespace UnitClosed

variable {R : State → State → Prop} (h : UnitClosed R)
include h

theorem back {s t u : State} (k : R t u) (j : R s t) : R s u := h.trans j k

theorem foldl {α : Type} (f : State → α → State) (l : List α) (s : State) (hf : ∀ s a, a ∈ l → R s (f s a)) :
    R s (l.foldl f s) := by
  induction l generalizing s with
  | nil => exact h.refl s
  | cons a l ih =>
    exact h.trans (hf s a List.mem_cons_self) (ih (f s a) fun t b hb => hf t b (List.mem_cons_of_mem _ hb))

/-- What becomes of a record offered within an event is not seen. -/
theorem offerInside (r : Record) (s : State) : R s (Machine.offerInside r s) :=
  h.still s _ (offerInside_points r s) (offerInside_zones r s) (offerInside_groups r s)

theorem offerFiltered (f : Filterable) (r : Record) (s : State) : R s (Machine.offerFiltered f r s) :=
  h.still s _ (offerFiltered_points f r s) (offerFiltered_zones f r s) (offerFiltered_groups f r s)

theorem putPoint (p : Fin 256) (y : Point) (s : State) (hy : (nth s.points p).unseen y) : R s (Machine.putPoint p y s) := by
  refine h.edit s _ fun q => ?_
  rw [nth_upd]
  split
  · next e => exact e ▸ hy
  · exact ⟨rfl, rfl, rfl⟩

theorem showPoint (p : Fin 256) (s : State) : R s (State.showPoint p s) := h.still s _ rfl rfl rfl

theorem editShown (p : Fin 256) (y : Point) (s : State) (hy : (nth s.points p).unseen y) :
    R s (State.showPoint p (Machine.putPoint p y s)) := h.trans (h.putPoint p y s hy) (h.showPoint p _)

/-! ### The Point Filter -/

theorem accept (p : Fin 256) (c : Change) (s : State) : R s (Machine.accept p c s) :=
  h.back (h.takeChange p c _) (h.editShown p _ s ⟨rfl, rfl, rfl⟩)

theorem startChange (p : Fin 256) (t : Nat) (st : Stamp) (a : Bool) (s : State) :
    R s (Machine.startChange p t st a s) := by
  unfold Machine.startChange
  dsimp only
  split
  · exact h.accept p _ s
  · exact h.putPoint p _ s ⟨rfl, rfl, rfl⟩

theorem contactReport (p : Fin 256) (c : Contact) (t : Int) (st : Stamp) (a : Bool) (s : State) :
    R s (Machine.contactReport p c t st a s) := by
  unfold Machine.contactReport
  dsimp only
  split
  · exact h.putPoint p _ s ⟨rfl, rfl, rfl⟩
  · have hx : (nth s.points p).unseen { nth s.points p with contact := c } := ⟨rfl, rfl, rfl⟩
    obtain ⟨c1, c2, c3⟩ := Point.ordered_unseen { nth s.points p with contact := c } t st a
    generalize { nth s.points p with contact := c } = x at hx c1 c2 c3
    obtain ⟨d1, d2, d3⟩ := hx
    unfold Machine.transition
    dsimp only
    split
    · exact h.putPoint p _ s ⟨c1.trans d1, c2.trans d2, c3.trans d3⟩
    · split
      · exact h.back (h.offerFiltered _ _ _) (h.editShown p _ s ⟨c1.trans d1, c2.trans d2, c3.trans d3⟩)
      · split
        · exact h.back (h.startChange p _ _ _ _) (h.putPoint p _ s ⟨c1.trans d1, c2.trans d2, c3.trans d3⟩)
        · exact h.putPoint p _ s ⟨c1.trans d1, c2.trans d2, c3.trans d3⟩

theorem takeWaiting (n : Nat) (s : State) : R s (Machine.takeWaiting n s) := by
  induction n generalizing s with
  | zero => exact h.refl s
  | succ n ih =>
    unfold Machine.takeWaiting
    split
    · exact h.refl s
    · next r rest _ =>
      exact h.trans (h.still s { s with due := rest } rfl rfl rfl) (h.trans (h.contactReport _ _ _ _ _ _) (ih _))

theorem endAlarm (s : State) : R s (Machine.endAlarm s) := h.takeWaiting _ s

theorem takeContact (p : Fin 256) (c : Contact) (t : Int) (st : Stamp) (a : Bool) (s : State) :
    R s (Machine.takeContact p c t st a s) := h.trans (h.contactReport p c t st a s) (h.endAlarm _)

theorem releaseHold (p : Fin 256) (s : State) : R s (Machine.releaseHold p s) := by
  unfold Machine.releaseHold
  dsimp only
  have h1 := h.back (h.offerFiltered .chatter
    (chatterRecord p { nth s.points p with held := false } true s.stamp) _)
    (h.editShown p { nth s.points p with held := false } s ⟨rfl, rfl, rfl⟩)
  split
  · exact h.back (h.accept p _ _) h1
  · exact h1

theorem leak (s : State) : R s (Machine.leak s) := by
  refine h.back (h.endAlarm _) (h.back (h.foldl _ _ _ fun u p _ => ?_) (h.edit s _ fun p => ?_))
  · unfold leakRelease
    dsimp only
    split
    · exact h.releaseHold p u
    · exact h.refl u
  · rw [nth_tab]
    exact ⟨rfl, rfl, rfl⟩

theorem releaseWeightless (s : State) (p : Fin 256) : R s (Machine.releaseWeightless s p) := by
  unfold Machine.releaseWeightless
  dsimp only
  split
  · exact h.releaseHold p s
  · exact h.refl s

theorem orderSetChatter (d : List Byte) (s : State) : R s (Machine.orderSetChatter d s).1 := by
  unfold Machine.orderSetChatter
  split
  · exact h.refl s
  · dsimp only
    exact h.back (h.endAlarm _) (h.back (h.offerInside _ _) (h.back (h.foldl _ _ _ fun u p _ => h.releaseWeightless u p)
      (h.still s _ rfl rfl rfl)))

theorem shelve (p : Fin 256) (s : State) : R s (Machine.shelve p s) :=
  h.back (h.endAlarm _) (h.back (h.clearMark p _ (by simp)) (h.back (h.quieten p _) (h.back (h.offerInside _ _)
    (h.editShown p _ s ⟨rfl, rfl, rfl⟩))))

theorem unshelve (p : Fin 256) (s : State) : R s (Machine.unshelve p s) := by
  rw [unshelve_eq]
  have h1 : R s (unshelvedTold p s) := h.back (h.offerInside _ _) (h.editShown p _ s ⟨rfl, rfl, rfl⟩)
  refine h.back (h.endAlarm _) ?_
  split
  · exact h.back (h.takeChange p _ _) h1
  · exact h1

theorem recoverPoint (k : Fin 4) (r : Receipt) (s : State) (j : Fin 48) : R s (Machine.recoverPoint k r s j) := by
  unfold Machine.recoverPoint
  dsimp only
  split
  · exact h.startChange _ _ _ _ s
  · exact h.refl s

/-! ### Records and reports of blocks outside the alarm side -/

theorem journal : JournalClosed reportNow R where
  refl := h.refl
  trans := h.trans
  mem s _ := h.still s _ rfl rfl rfl
  journal s _ := h.still s _ rfl rfl rfl
  rep r s _ := h.takeContact r.point _ _ _ _ s

theorem event {F : Item → Prop} {K : Fin 256 → Contact → Prop} : EventClosed F K R where
  refl := h.refl
  trans := h.trans
  still s t e := h.still s t e.points e.zones e.groups
  offer r s := h.journal.offerWith r s
  contact p c t st a s _ := h.takeContact p c t st a s
  act a t o s := h.trans (h.act a t o s) (h.endAlarm _)
  stale _ _ _ := h.foldl _ _ _ fun u _ _ => h.editShown _ _ u ⟨rfl, rfl, rfl⟩
  recovered k r _ _ := h.back (h.endAlarm _) (h.back (h.foldl _ _ _ fun u j _ => h.recoverPoint k r u j)
    (h.foldl _ _ _ fun u _ _ => h.editShown _ _ u ⟨rfl, rfl, rfl⟩))

/-- Every event but a LOAD POINTS apply and a tone cycle keeps the relation. -/
theorem step {F : Item → Prop} (tone : ∀ z s t, execRingbackToneCycle z s = .next t → R s t)
    (complete : F .settings → ∀ bs s, R s (Machine.completePoints bs s).1) : StepClosed F R :=
  .of_journal h.event h.journal tone h.leak (fun p c s _ => h.trans (h.accept p c.change s) (h.endAlarm _))
    (fun g s hg => h.trans (h.latch g s hg) (h.endAlarm _)) (fun p s _ _ => h.shelve p s) (fun p s _ => h.unshelve p s)
    h.orderSetChatter complete

end UnitClosed

end Sys2Proof.Machine
end

section
/-! SUPPORT. The laws of zones and horns through every operation of the alarm side (R38, R39). -/

namespace Sys2Proof.Machine

/-! ## The laws -/

/-- Line and tone cycle follow the horn (R39). -/
structure LineLaw (x : Zone) : Prop where
  off : x.horn = .off → x.line = false
  tone : x.horn = .alertTone → x.line = true
  cycle : x.toggle.isSome = true ↔ x.horn = .ringbackTone

/-- A zone's counts are those of its points, and its horn is the one they give (R38). -/
structure CountLaw (s : State) (z : Fin 8) : Prop where
  alert : (nth s.zones z).nAlert = countZone s z fun q => decide (q = SeqState.alert) || decide (q = SeqState.alertCleared)
  standing : (nth s.zones z).nStanding = countZone s z fun q => decide (q = SeqState.standing)
  ringback : (nth s.zones z).nRingback = countZone s z fun q => decide (q = SeqState.ringback)
  horn : (nth s.zones z).horn = (nth s.zones z).judgeHorn

/-- Every zone's line follows its horn. -/
def LinesHold (s : State) : Prop := ∀ z, LineLaw (nth s.zones z)

theorem hornsHold_iff (s : State) : s.hornsHold ↔ (∀ z, CountLaw s z) ∧ LinesHold s := by
  constructor
  · intro h
    refine ⟨fun z => ?_, fun z => ?_⟩ <;> obtain ⟨h1, h2, h3, h4, h5, h6, h7⟩ := h z
    · exact ⟨h1, h2, h3, h4⟩
    · exact ⟨h5, h6, h7⟩
  · rintro ⟨h, k⟩ z
    exact ⟨(h z).alert, (h z).standing, (h z).ringback, (h z).horn, (k z).off, (k z).tone, (k z).cycle⟩

/-! ## A zone judged again -/

theorem takeHorn_judged (x : Zone) (n : Nat) : (x.takeHorn x.judgeHorn n).nAlert = x.nAlert
    ∧ (x.takeHorn x.judgeHorn n).nStanding = x.nStanding ∧ (x.takeHorn x.judgeHorn n).nRingback = x.nRingback
    ∧ (x.takeHorn x.judgeHorn n).horn = (x.takeHorn x.judgeHorn n).judgeHorn := by
  unfold Zone.takeHorn
  split
  · next h => exact ⟨rfl, rfl, rfl, h.symm⟩
  · generalize hk : x.judgeHorn = k
    cases k <;> exact ⟨rfl, rfl, rfl, hk.symm⟩

theorem takeHorn_line {x : Zone} (h : LineLaw x) (k : HornState) (n : Nat) : LineLaw (x.takeHorn k n) := by
  unfold Zone.takeHorn
  split
  · exact h
  · cases k
    · exact ⟨fun _ => rfl, fun k => by simp at k, by simp⟩
    · exact ⟨fun k => by simp at k, fun _ => rfl, by simp⟩
    · exact ⟨fun k => by simp at k, fun _ => rfl, by simp⟩

theorem rejudged_line {x : Zone} (h : LineLaw x) (s : State) (z : Fin 8) : LineLaw (rejudged s z x) := by
  unfold rejudged
  dsimp only
  apply takeHorn_line
  exact ⟨h.off, h.tone, h.cycle⟩

/-- The zone after `putZone` is the one judged again; every other zone stands. -/
theorem putZone_zones (z : Fin 8) (x : Zone) (s : State) : (putZone z x s).zones = upd s.zones z (rejudged s z x) := by
  unfold putZone
  dsimp only
  split
  · next h => rw [h, upd_nth]
  · rfl

theorem countZone_congr {s t : State} {z : Fin 8}
    (h : ∀ p, ((nth t.points p).settings.zone = z ↔ (nth s.points p).settings.zone = z)
      ∧ ((nth s.points p).settings.zone = z → (nth t.points p).seq = (nth s.points p).seq)) (f : SeqState → Bool) :
    countZone t z f = countZone s z f := by
  unfold countZone
  refine List.countP_congr fun p _ => ?_
  obtain ⟨h1, h2⟩ := h p
  simp only [h1]
  by_cases e : (nth s.points p).settings.zone = z
  · rw [h2 e]
  · simp [e]

/-- A zone judged again obeys the law of counts, in a state with the same points. -/
theorem countLaw_of_rejudged {s t : State} {z : Fin 8} {x : Zone} (hz : nth t.zones z = rejudged s z x)
    (hp : t.points = s.points) : CountLaw t z := by
  have hc : ∀ f, countZone t z f = countZone s z f := countZone_congr fun p => by rw [hp]; exact ⟨Iff.rfl, fun _ => rfl⟩
  obtain ⟨h1, h2, h3, h4⟩ := takeHorn_judged { x with
    nAlert := countZone s z fun q => decide (q = SeqState.alert) || decide (q = SeqState.alertCleared)
    nStanding := countZone s z fun q => decide (q = SeqState.standing)
    nRingback := countZone s z fun q => decide (q = SeqState.ringback) } s.now
  exact ⟨by rw [hz, hc]; exact h1, by rw [hz, hc]; exact h2, by rw [hz, hc]; exact h3, by rw [hz]; exact h4⟩

theorem putZone_count (z : Fin 8) (x : Zone) (s : State) : CountLaw (putZone z x s) z :=
  countLaw_of_rejudged (s := s) (x := x) (by rw [putZone_zones, nth_upd_same]) (putZone_points z x s)

/-- A zone's law of counts in a state in which the zone and its points' sequence states are the same. -/
theorem CountLaw.congr {s t : State} {z : Fin 8} (h : CountLaw s z) (hz : nth t.zones z = nth s.zones z)
    (hp : ∀ p, ((nth t.points p).settings.zone = z ↔ (nth s.points p).settings.zone = z)
      ∧ ((nth s.points p).settings.zone = z → (nth t.points p).seq = (nth s.points p).seq)) : CountLaw t z := by
  have hc := countZone_congr hp
  exact ⟨by rw [hz, hc]; exact h.alert, by rw [hz, hc]; exact h.standing, by rw [hz, hc]; exact h.ringback,
    by rw [hz]; exact h.horn⟩

/-! ## Events of one point -/

/-- What an event of point p may do to the zones and to the sequence states: it moves p's and judges p's zone again. -/
structure PointMove (p : Fin 256) (s t : State) : Prop where
  settings : ∀ q, (nth t.points q).settings = (nth s.points q).settings
  seq : ∀ q, q ≠ p → (nth t.points q).seq = (nth s.points q).seq
  zones : ∀ z, z ≠ (nth s.points p).settings.zone → nth t.zones z = nth s.zones z
  lines : LinesHold s → LinesHold t

theorem pointMove_trans {p : Fin 256} {s t u : State} (h : PointMove p s t) (k : PointMove p t u) : PointMove p s u where
  settings q := (k.settings q).trans (h.settings q)
  seq q hq := (k.seq q hq).trans (h.seq q hq)
  zones z hz := (k.zones z (by rw [h.settings]; exact hz)).trans (h.zones z hz)
  lines := k.lines ∘ h.lines

/-- Zones, settings and sequence states are the same. -/
structure SeqSame (s t : State) : Prop where
  zones : t.zones = s.zones
  settings : ∀ q, (nth t.points q).settings = (nth s.points q).settings
  seq : ∀ q, (nth t.points q).seq = (nth s.points q).seq

theorem seqSame_of {s t : State} (hz : t.zones = s.zones) (hp : t.points = s.points) : SeqSame s t :=
  ⟨hz, fun _ => by rw [hp], fun _ => by rw [hp]⟩

theorem seqSame_refl (s : State) : SeqSame s s := seqSame_of rfl rfl

theorem seqSame_trans {s t u : State} (h : SeqSame s t) (k : SeqSame t u) : SeqSame s u :=
  ⟨k.zones.trans h.zones, fun q => (k.settings q).trans (h.settings q), fun q => (k.seq q).trans (h.seq q)⟩

theorem SeqSame.move {s t : State} (h : SeqSame s t) (p : Fin 256) : PointMove p s t where
  settings := h.settings
  seq q _ := h.seq q
  zones z _ := by rw [h.zones]
  lines k z := by rw [h.zones]; exact k z

theorem SeqSame.horns {s t : State} (h : SeqSame s t) (k : s.hornsHold) : t.hornsHold := by
  rw [hornsHold_iff] at k ⊢
  exact ⟨fun z => (k.1 z).congr (by rw [h.zones]) fun p => ⟨by rw [h.settings], fun _ => h.seq p⟩, (h.move 0).lines k.2⟩

theorem seqSame_point {s : State} {p : Fin 256} {y : Point} (h1 : y.settings = (nth s.points p).settings)
    (h2 : y.seq = (nth s.points p).seq) {t : State} (hz : t.zones = s.zones) (hp : t.points = upd s.points p y) :
    SeqSame s t where
  zones := hz
  settings q := by
    rw [hp, nth_upd]
    split
    · next e => exact e ▸ h1
    · rfl
  seq q := by
    rw [hp, nth_upd]
    split
    · next e => exact e ▸ h2
    · rfl

theorem seqSame_offerInside (r : Record) (s : State) : SeqSame s (offerInside r s) :=
  seqSame_of (offerInside_zones r s) (offerInside_points r s)

theorem seqSame_setMark (p : Fin 256) (m : Bool) (s : State) : SeqSame s (setMark p m s) :=
  seqSame_point (p := p) (y := { nth s.points p with firstMark := m }) rfl rfl rfl rfl

theorem seqSame_putGroup (g : Fin 16) (x : Group) (s : State) : SeqSame s (putGroup g x s) := seqSame_of rfl rfl

theorem seqSame_latch (g : Fin 16) (s : State) : SeqSame s (latch g s) := by
  unfold latch
  dsimp only
  split
  · exact seqSame_putGroup g _ s
  · refine seqSame_trans (seqSame_trans ?_ (seqSame_putGroup _ _ _)) (seqSame_offerInside _ _)
    split
    · exact seqSame_setMark _ _ s
    · exact seqSame_refl s

theorem seqSame_alertReport (g : Fin 16) (p : Fin 256) (t : Nat) (s : State) : SeqSame s (alertReport g p t s) := by
  unfold alertReport
  dsimp only
  split
  · split
    · exact seqSame_trans (seqSame_putGroup g _ s) (seqSame_latch g _)
    · exact seqSame_putGroup g _ s
  · exact seqSame_putGroup g _ s
  · exact seqSame_refl s

theorem seqSame_clearMark (p : Fin 256) (s : State) : SeqSame s (clearMark p s) := by
  refine seqSame_point (p := p) (y := { nth s.points p with firstMark := false }) rfl rfl ?_ (clearMark_points p s)
  have hf : ∀ (l : List (Fin 16)) (u : State), (l.foldl (unmarkGroup p) u).zones = u.zones := fun l u =>
    List.foldlRecOn l _ (motive := fun t : State => t.zones = u.zones) rfl fun t ht g _ => by
      unfold unmarkGroup
      dsimp only
      split
      · exact ht
      · exact ht
  unfold clearMark
  split
  · exact hf _ _
  · rfl

theorem seqSame_rearm (o : FirstOutcome) (g : Fin 16) (s : State) : SeqSame s (rearm o g s) := by
  unfold rearm
  dsimp only
  refine seqSame_trans (seqSame_trans ?_ (seqSame_offerInside _ _)) (seqSame_putGroup _ _ _)
  split
  · exact seqSame_setMark _ _ s
  · exact seqSame_refl s

/-- The zones after an accepted change: the point's own judged again. -/
theorem takeChange_zones (p : Fin 256) (c : Change) (s : State) : ∃ x u, (takeChange p c s).points = u.points
    ∧ (takeChange p c s).zones = upd s.zones (nth s.points p).settings.zone (rejudged u (nth s.points p).settings.zone x)
    ∧ (LineLaw (nth s.zones (nth s.points p).settings.zone) → LineLaw x) := by
  unfold takeChange
  dsimp only
  generalize hv : offerPoint p _ _ c _ = v
  have hz : v.zones = s.zones := by rw [← hv]; simp
  have hu : ∀ u : State, u.zones = v.zones → ∃ x w, (putZone (nth s.points p).settings.zone
        ((nth u.zones (nth s.points p).settings.zone).afterMove (nth s.points p).seq ((nth s.points p).afterChange c)) u).points
          = w.points
      ∧ (putZone (nth s.points p).settings.zone
        ((nth u.zones (nth s.points p).settings.zone).afterMove (nth s.points p).seq ((nth s.points p).afterChange c)) u).zones
          = upd s.zones (nth s.points p).settings.zone (rejudged w (nth s.points p).settings.zone x)
      ∧ (LineLaw (nth s.zones (nth s.points p).settings.zone) → LineLaw x) := fun u e =>
    ⟨(nth s.zones (nth s.points p).settings.zone).afterMove (nth s.points p).seq ((nth s.points p).afterChange c), u,
      putZone_points _ _ u, by rw [putZone_zones, e, hz], fun h => ⟨h.off, h.tone, h.cycle⟩⟩
  split
  · exact hu _ (seqSame_alertReport _ p _ v).zones
  · exact hu v rfl

theorem takeChange_move (p : Fin 256) (c : Change) (s : State) :
    PointMove p s (takeChange p c s) ∧ CountLaw (takeChange p c s) (nth s.points p).settings.zone := by
  obtain ⟨m, e, _⟩ := takeChange_points p c s
  obtain ⟨x, u, h1, h2, h3⟩ := takeChange_zones p c s
  refine ⟨⟨fun q => ?_, fun q hq => ?_, fun z hz => ?_, fun k z => ?_⟩, ?_⟩
  · rw [e, nth_upd]
    split
    · next k => exact k ▸ rfl
    · rfl
  · rw [e, nth_upd_other _ _ (Ne.symm hq)]
  · rw [h2, nth_upd_other _ _ (Ne.symm hz)]
  · rw [h2, nth_upd]
    split
    · exact rejudged_line (h3 (k _)) _ _
    · exact k z
  · exact countLaw_of_rejudged (by rw [h2, nth_upd_same]) h1

theorem quieten_move (p : Fin 256) (s : State) :
    PointMove p s (quieten p s) ∧ CountLaw (quieten p s) (nth s.points p).settings.zone := by
  unfold quieten rejudgeZone
  dsimp only
  refine ⟨⟨fun q => ?_, fun q hq => ?_, fun z hz => ?_, fun k z => ?_⟩, putZone_count _ _ _⟩
  · rw [putZone_points, State.showPoint_points, nth_upd]
    split
    · next k => exact k ▸ rfl
    · rfl
  · rw [putZone_points, State.showPoint_points, nth_upd_other _ _ (Ne.symm hq)]
  · rw [putZone_zones, nth_upd_other _ _ (Ne.symm hz)]
    rfl
  · rw [putZone_zones, nth_upd]
    split
    · exact rejudged_line (k _) _ _
    · exact k z

/-- An event of one point that leaves its zone judged keeps the laws of every zone. -/
theorem PointMove.horns {p : Fin 256} {s t : State} (h : PointMove p s t) (hc : CountLaw t (nth s.points p).settings.zone)
    (k : s.hornsHold) : t.hornsHold := by
  rw [hornsHold_iff] at k ⊢
  refine ⟨fun z => ?_, h.lines k.2⟩
  by_cases e : z = (nth s.points p).settings.zone
  · exact e ▸ hc
  · refine (k.1 z).congr (h.zones z e) fun q => ⟨by rw [h.settings], fun hq => h.seq q ?_⟩
    rintro rfl
    exact e hq.symm

/-! ## Actions (R31) -/

/-- A fold in which each step brings about a law of its own index, and keeps those of the others. -/
theorem foldl_each {ι : Type} {P : State → Prop} {Q : ι → State → Prop} {f : State → ι → State}
    (hP : ∀ s i, P s → P (f s i)) (hQ : ∀ s i, P s → Q i (f s i)) (hk : ∀ s i j, P s → j ≠ i → Q j s → Q j (f s i))
    (l : List ι) (s : State) (hs : P s) : P (l.foldl f s) ∧ ∀ i, (i ∈ l ∨ Q i s) → Q i (l.foldl f s) := by
  induction l generalizing s with
  | nil => exact ⟨hs, fun i h => h.resolve_left (by simp)⟩
  | cons a l ih =>
    obtain ⟨h1, h2⟩ := ih (f s a) (hP s a hs)
    refine ⟨h1, fun i hi => h2 i ?_⟩
    by_cases e : i = a
    · exact .inr (e ▸ hQ s a hs)
    · rcases hi with hi | hi
      · exact .inl ((List.mem_cons.mp hi).resolve_left e)
      · exact .inr (hk s a i hs e hi)

theorem actPoint_lines (a : Action) (t : Target) (s : State) (p : Fin 256) (h : LinesHold s) : LinesHold (actPoint a t s p) := by
  unfold actPoint
  dsimp only
  split
  · intro z
    dsimp only
    rw [nth_upd]
    split
    · exact ⟨(h _).off, (h _).tone, (h _).cycle⟩
    · exact h z
  · exact h

theorem actZone_zones (a : Action) (t : Target) (old : Vector Zone 8) (s : State) (z : Fin 8) :
    (actZone a t old s z).zones = upd s.zones z (rejudged s z (silenceZone a t z (nth s.zones z)))
    ∧ (actZone a t old s z).points = s.points := by
  unfold actZone
  dsimp only
  split <;> exact ⟨rfl, rfl⟩

theorem silenceZone_line {x : Zone} (h : LineLaw x) (a : Action) (t : Target) (z : Fin 8) : LineLaw (silenceZone a t z x) := by
  unfold silenceZone
  split
  · split
    · exact ⟨h.off, h.tone, h.cycle⟩
    · exact h
  · exact h

/-- After an action's moves every zone is judged again (R31). -/
theorem actZones_horns (a : Action) (t : Target) (old : Vector Zone 8) (s : State) (h : LinesHold s) :
    ((List.finRange 8).foldl (actZone a t old) s).hornsHold := by
  obtain ⟨h1, h2⟩ := foldl_each (P := LinesHold) (Q := fun z s => CountLaw s z) (f := actZone a t old)
    (fun s i k z => by
      rw [(actZone_zones a t old s i).1, nth_upd]
      split
      · exact rejudged_line (silenceZone_line (k _) a t _) _ _
      · exact k z)
    (fun s i _ => countLaw_of_rejudged (by rw [(actZone_zones a t old s i).1, nth_upd_same]) (actZone_zones a t old s i).2)
    (fun s i j _ hj k => k.congr (by rw [(actZone_zones a t old s i).1, nth_upd_other _ _ (Ne.symm hj)])
      fun p => by rw [(actZone_zones a t old s i).2]; exact ⟨Iff.rfl, fun _ => rfl⟩)
    (List.finRange 8) s h
  exact (hornsHold_iff _).mpr ⟨fun z => h2 z (.inl (List.mem_finRange z)), h1⟩

theorem applyAction_horns (a : Action) (t : Target) (o : Nat) (s : State) (h : s.hornsHold) :
    (applyAction a t o s).hornsHold := by
  have h0 := List.foldlRecOn (List.finRange 256) (actPoint a t) (motive := LinesHold) ((hornsHold_iff s).mp h).2
    fun u k p _ => actPoint_lines a t u p k
  have h1 := actZones_horns a t s.zones _ h0
  have h2 : ∀ f r u, u.hornsHold → (offerFiltered f r u).hornsHold := fun f r u =>
    (seqSame_of (offerFiltered_zones f r u) (offerFiltered_points f r u)).horns
  unfold applyAction
  dsimp only
  split
  · refine List.foldlRecOn _ _ (motive := State.hornsHold) (h2 _ _ _ h1) fun u k g _ => ?_
    unfold rearmReset
    split
    · exact (seqSame_rearm _ g u).horns k
    · exact k
  · exact h2 _ _ _ h1

/-! ## Every event but an apply -/

theorem horns_unit : UnitClosed fun s t => s.hornsHold → t.hornsHold where
  refl _ := id
  trans h k := k ∘ h
  still _ _ hp hz _ := (seqSame_of hz hp).horns
  edit _ _ hv := SeqSame.horns ⟨rfl, fun q => (hv q).1, fun q => (hv q).2.1⟩
  takeChange p c s := (takeChange_move p c s).1.horns (takeChange_move p c s).2
  quieten p s := (quieten_move p s).1.horns (quieten_move p s).2
  clearMark p s _ := (seqSame_clearMark p s).horns
  act := applyAction_horns
  latch g s _ := (seqSame_latch g s).horns

/-- A tone cycle toggles the line of a horn in RINGBACK_TONE (R39). -/
theorem tone_horns (z : Fin 8) (s t : State) (he : execRingbackToneCycle z s = .next t) (h : s.hornsHold) : t.hornsHold := by
  simp only [execRingbackToneCycle, Host.Outcome.next.injEq] at he
  subst he
  split
  · exact h
  · split
    · next hd =>
      rw [hornsHold_iff] at h ⊢
      refine ⟨fun z' => ?_, fun z' => ?_⟩
      · by_cases e : z = z'
        · subst e
          have hk := h.1 z
          exact ⟨by rw [nth_upd_same]; exact hk.alert, by rw [nth_upd_same]; exact hk.standing,
            by rw [nth_upd_same]; exact hk.ringback, by rw [nth_upd_same]; exact hk.horn⟩
        · exact (h.1 z').congr (nth_upd_other _ _ e) fun _ => ⟨Iff.rfl, fun _ => rfl⟩
      · dsimp only
        rw [nth_upd]
        split
        · exact ⟨fun k => absurd (hd.1.symm.trans k) (by decide), fun k => absurd (hd.1.symm.trans k) (by decide), by simp [hd.1]⟩
        · exact h.2 z'
    · exact h

end Sys2Proof.Machine
end

section
/-! SUPPORT. The laws of the first-out groups and of the first marks through every operation (R47, R51, R54).  They are
stated for a table of the groups that the points are judged by, which is that of their settings but for the points that a
LOAD POINTS apply has yet to treat. -/

namespace Sys2Proof.Machine

/-! ## The laws -/

/-- The laws of one group's record (R47, R51). -/
structure GroupLaw (x : Group) : Prop where
  armed : x.state = .armed → x = {}
  candidate : x.state ≠ .armed → x.candidate ≠ none
  deadline : x.deadline.isSome = true ↔ x.state = .deciding
  marked : x.marked = true → x.state = .latched

/-- The laws of groups and first marks, the points belonging to the groups that `grp` gives (R47, R51, R54). -/
structure MarksLaw (grp : Fin 256 → Option (Fin 16)) (s : State) : Prop where
  held : ∀ p, (nth s.points p).firstMark = true → ∃ g, (nth s.groups g).marked = true ∧ (nth s.groups g).candidate = some p
  groups : ∀ g, GroupLaw (nth s.groups g)
  own : ∀ g p, (nth s.groups g).candidate = some p → (nth s.groups g).marked = true →
    (nth s.points p).firstMark = true ∧ grp p = some g

/-- The groups that the settings give. -/
def groupOf (s : State) (p : Fin 256) : Option (Fin 16) := (nth s.points p).settings.group

theorem marksHold_iff (s : State) : s.marksHold ↔ MarksLaw (groupOf s) s := by
  constructor
  · rintro ⟨h, k⟩
    refine ⟨h, fun g => ?_, fun g p hp hm => ?_⟩ <;> obtain ⟨k1, k2, k3, k4, k5⟩ := k g
    · exact ⟨k1, k2, k3, k4⟩
    · exact k5 p hp hm
  · rintro ⟨h, k, l⟩
    exact ⟨h, fun g => ⟨(k g).armed, (k g).candidate, (k g).deadline, (k g).marked, fun p hp hm => l g p hp hm⟩⟩

section laws
variable {grp : Fin 256 → Option (Fin 16)}

/-- The laws look at the groups and at the first marks alone. -/
theorem MarksLaw.congr {s t : State} (h : MarksLaw grp s) (hg : t.groups = s.groups)
    (hp : ∀ p, (nth t.points p).firstMark = (nth s.points p).firstMark) : MarksLaw grp t where
  held p hm := by
    rw [hp] at hm
    rw [hg]
    exact h.held p hm
  groups g := by rw [hg]; exact h.groups g
  own g p := by
    rw [hg, hp]
    exact h.own g p

theorem firstMark_upd {s : State} {p : Fin 256} {y : Point} (hy : y.firstMark = (nth s.points p).firstMark) (q : Fin 256) :
    (nth (upd s.points p y) q).firstMark = (nth s.points q).firstMark := by
  rw [nth_upd]
  split
  · next e => exact e ▸ hy
  · rfl

theorem MarksLaw.offerInside {s : State} (h : MarksLaw grp s) (r : Record) : MarksLaw grp (offerInside r s) :=
  h.congr (offerInside_groups r s) fun p => by rw [offerInside_points]

/-- A group that is not marked is replaced by one that is not. -/
theorem MarksLaw.putGroup {s : State} (h : MarksLaw grp s) {g : Fin 16} {x : Group} (h0 : (nth s.groups g).marked = false)
    (hx : GroupLaw x) (h1 : x.marked = false) : MarksLaw grp (putGroup g x s) where
  held p hm := by
    obtain ⟨g', k1, k2⟩ := h.held p hm
    have : g ≠ g' := fun e => by rw [← e, h0] at k1; exact absurd k1 (by decide)
    exact ⟨g', by simp [this, k1], by simp [this, k2]⟩
  groups g' := by
    rw [putGroup_groups, nth_upd]
    split
    · exact hx
    · exact h.groups g'
  own g' p := by
    rw [putGroup_groups, nth_upd]
    split
    · intro _ k
      rw [h1] at k
      exact absurd k (by decide)
    · exact h.own g' p

/-! ## The decision (R48 to R51) -/

theorem GroupLaw.unmarked {x : Group} (h : GroupLaw x) (hs : x.state ≠ .latched) : x.marked = false :=
  Bool.eq_false_iff.mpr fun k => hs (h.marked k)

/-- A group that latches and marks its candidate. -/
theorem MarksLaw.mark {s : State} (h : MarksLaw grp s) {g : Fin 16} {p : Fin 256} {x : Group}
    (h0 : (nth s.groups g).marked = false) (hx : GroupLaw x) (hc : x.candidate = some p) (hm : x.marked = true)
    (hg : grp p = some g) : MarksLaw grp (Machine.putGroup g x (setMark p true s)) where
  held q hq := by
    by_cases e : q = p
    · exact ⟨g, by simp [hm], by simp [hc, e]⟩
    · rw [putGroup_points, setMark_points, nth_upd_other _ _ (Ne.symm e)] at hq
      obtain ⟨g', k1, k2⟩ := h.held q hq
      have : g ≠ g' := fun e => by rw [← e, h0] at k1; exact absurd k1 (by decide)
      exact ⟨g', by simp [this, k1], by simp [this, k2]⟩
  groups g' := by
    rw [putGroup_groups, setMark_groups, nth_upd]
    split
    · exact hx
    · exact h.groups g'
  own g' q := by
    rw [putGroup_groups, setMark_groups, nth_upd, putGroup_points, setMark_points, nth_upd]
    split
    · next e =>
      intro k _
      obtain rfl : p = q := by rw [hc] at k; exact Option.some.inj k
      exact ⟨by simp, e ▸ hg⟩
    · intro k1 k2
      obtain ⟨l1, l2⟩ := h.own g' q k1 k2
      refine ⟨?_, l2⟩
      split
      · rfl
      · exact l1

theorem MarksLaw.latch {s : State} (h : MarksLaw grp s) {g : Fin 16} (hs : (nth s.groups g).state = .deciding)
    (hp : ∀ p, (nth s.groups g).candidate = some p → grp p = groupOf s p) : MarksLaw grp (latch g s) := by
  have hm := (h.groups g).unmarked (by rw [hs]; decide)
  have hcand := (h.groups g).candidate (by rw [hs]; decide)
  have hlaw : ∀ b, GroupLaw { nth s.groups g with state := .latched, deadline := none, marked := b } := fun b =>
    ⟨fun k => by simp at k, fun _ => hcand, by simp, fun _ => rfl⟩
  unfold Machine.latch
  dsimp only
  split
  · next e => exact absurd e hcand
  · next p e =>
    refine MarksLaw.offerInside ?_ _
    by_cases hj : judgeCandidate g (nth s.points p) = .marked
    · rw [if_pos hj]
      refine h.mark hm (hlaw _) e (decide_eq_true hj) ?_
      rw [hp p e]
      unfold judgeCandidate at hj
      split at hj
      · cases hj
      · split at hj
        · cases hj
        · split at hj
          · cases hj
          · next k => exact not_not.mp k
    · rw [if_neg hj]
      exact h.putGroup hm (hlaw _) (decide_eq_false hj)

theorem Group.compare_law {x : Group} (h : GroupLaw x) (hs : x.state = .deciding) (p : Fin 256) (t : Nat) :
    GroupLaw (x.compare p t) ∧ (x.compare p t).marked = x.marked := by
  have hcand := h.candidate (by rw [hs]; decide)
  have harmed : x.state ≠ .armed := by rw [hs]; decide
  unfold Group.compare
  dsimp only
  split
  · exact ⟨⟨fun k => absurd k harmed, fun _ => by simp, h.deadline, h.marked⟩, rfl⟩
  · exact ⟨⟨fun k => absurd k harmed, fun _ => hcand, h.deadline, h.marked⟩, rfl⟩

theorem MarksLaw.alertReport {s : State} (h : MarksLaw grp s) (g : Fin 16) (p : Fin 256) (t : Nat)
    (hp : grp p = groupOf s p) : MarksLaw grp (alertReport g p t s) := by
  unfold Machine.alertReport
  dsimp only
  split
  · next hs =>
    have hm := (h.groups g).unmarked (by rw [hs]; decide)
    generalize hx : ({ state := .deciding, candidate := some p, candidateTime := t, runnerUp := none, contenders := 1, deadline := some (s.now + s.settleWindow), marked := false } : Group) = x
    have hlaw : GroupLaw x := by
      rw [← hx]
      exact ⟨fun k => by simp at k, fun _ => by simp, by simp, fun k => by simp at k⟩
    have h1 : MarksLaw grp (Machine.putGroup g x s) := h.putGroup hm hlaw (by rw [← hx])
    split
    · refine h1.latch (by simp [← hx]) fun q hq => ?_
      rw [putGroup_groups, nth_upd_same, ← hx] at hq
      obtain rfl : p = q := Option.some.inj hq
      exact hp
    · exact h1
  · next hs =>
    have hm := (h.groups g).unmarked (by rw [hs]; decide)
    obtain ⟨k1, k2⟩ := Group.compare_law (h.groups g) hs p t
    exact h.putGroup hm k1 (k2.trans hm)
  · exact h

theorem MarksLaw.takeChange {s : State} (h : MarksLaw grp s) (p : Fin 256) (c : Change) (hp : grp p = groupOf s p) :
    MarksLaw grp (takeChange p c s) := by
  have hz : ∀ u : State, MarksLaw grp u → ∀ z x, MarksLaw grp (putZone z x u) := fun u hu z x => by
    refine hu.congr ?_ fun q => by rw [putZone_points]
    unfold putZone
    dsimp only
    split <;> rfl
  unfold Machine.takeChange
  dsimp only
  refine hz _ ?_ _ _
  generalize hv : offerPoint p _ _ c _ = v
  have hpts : v.points = upd s.points p { nth s.points p with seq := (nth s.points p).afterChange c } := by
    rw [← hv]
    simp
  have h1 : MarksLaw grp v := h.congr (by rw [← hv]; simp) fun q => by
    rw [hpts]
    exact firstMark_upd (s := s) (y := { nth s.points p with seq := (nth s.points p).afterChange c }) rfl q
  split
  · refine h1.alertReport _ p _ (hp.trans ?_)
    unfold groupOf
    rw [hpts, nth_upd_same]
  · exact h1

/-! ## Losing the mark (R54, R55) -/

/-- Clearing a first mark takes the mark from the groups whose candidate the point is. -/
theorem clearMark_groups (p : Fin 256) (s : State) (g : Fin 16) : nth (clearMark p s).groups g
    = if (nth s.points p).firstMark = true ∧ (nth s.groups g).marked = true ∧ (nth s.groups g).candidate = some p then
        { nth s.groups g with marked := false } else nth s.groups g := by
  have hstep : ∀ (u : State) (i j : Fin 16), nth (unmarkGroup p u i).groups j
      = if i = j ∧ (nth u.groups j).marked = true ∧ (nth u.groups j).candidate = some p then
          { nth u.groups j with marked := false } else nth u.groups j := by
    intro u i j
    unfold unmarkGroup
    dsimp only
    split
    · next h =>
      rw [putGroup_groups, nth_upd]
      by_cases e : i = j
      · subst e
        rw [if_pos rfl, if_pos ⟨rfl, h⟩]
      · rw [if_neg e, if_neg fun k => e k.1]
    · next h => rw [if_neg fun ⟨e, k⟩ => h (e ▸ k)]
  unfold clearMark
  split
  · next hm =>
    have h := foldl_each
      (P := fun t : State => ∀ i, nth t.groups i = nth s.groups i ∨ nth t.groups i = { nth s.groups i with marked := false }
        ∧ (nth s.groups i).candidate = some p)
      (Q := fun i t => nth t.groups i = if (nth s.groups i).marked = true ∧ (nth s.groups i).candidate = some p then
        { nth s.groups i with marked := false } else nth s.groups i)
      (f := unmarkGroup p)
      (fun t i ht j => by
        rw [hstep]
        split
        · next k => rcases ht j with e | ⟨e, l⟩ <;> rw [e] at k ⊢
                    · exact .inr ⟨rfl, k.2.2⟩
                    · exact .inr ⟨rfl, l⟩
        · exact ht j)
      (fun t i ht => by
        rw [hstep]
        rcases ht i with e | ⟨e, l⟩
        · rw [e]
          simp only [true_and]
        · rw [e]
          dsimp only
          rw [if_neg fun k => absurd k.2.1 (by decide)]
          split
          · rfl
          · next k =>
            have : (nth s.groups i).marked = false := Bool.eq_false_iff.mpr fun m => k ⟨m, l⟩
            rw [← this])
      (fun t i j _ hj k => by
        rw [hstep, if_neg fun l => hj l.1.symm]
        exact k)
      (List.finRange 16) (setMark p false s) fun i => .inl rfl
    have h2 := h.2 g (.inl (List.mem_finRange g))
    rw [h2]
    simp only [hm, true_and]
  · next hm => rw [if_neg fun k => hm k.1]

theorem MarksLaw.clearMark {s : State} (h : MarksLaw grp s) (p : Fin 256) : MarksLaw grp (clearMark p s) where
  held q hq := by
    rw [clearMark_points, nth_upd] at hq
    split at hq
    · cases hq
    · next e =>
      obtain ⟨g, k1, k2⟩ := h.held q hq
      have : ¬((nth s.points p).firstMark = true ∧ (nth s.groups g).marked = true ∧ (nth s.groups g).candidate = some p) :=
        fun k => e (Option.some.inj (k.2.2.symm.trans k2))
      exact ⟨g, by rw [clearMark_groups, if_neg this]; exact k1, by rw [clearMark_groups, if_neg this]; exact k2⟩
  groups g := by
    rw [clearMark_groups]
    have k := h.groups g
    split
    · next e =>
      have hl := k.marked e.2.1
      exact ⟨fun l => absurd (hl.symm.trans l) (by decide), k.candidate, k.deadline, fun l => Bool.noConfusion l⟩
    · exact k
  own g q := by
    rw [clearMark_groups, clearMark_points]
    split
    · intro _ l
      cases l
    · next e =>
      intro k1 k2
      obtain ⟨l1, l2⟩ := h.own g q k1 k2
      refine ⟨?_, l2⟩
      rw [nth_upd, if_neg fun k : p = q => e ⟨k ▸ l1, k2, k ▸ k1⟩]
      exact l1

/-- A re-arm clears the mark that its group holds, and no other (R55). -/
theorem MarksLaw.rearm {s : State} (h : MarksLaw grp s) (o : FirstOutcome) (g : Fin 16) : MarksLaw grp (rearm o g s) := by
  have hinit : GroupLaw {} := ⟨fun _ => rfl, fun k => absurd rfl k, by simp, fun k => by cases k⟩
  have hput : ∀ u : State, u.groups = s.groups → (∀ p, (nth u.points p).firstMark = true →
        (nth s.points p).firstMark = true ∧ ((nth s.groups g).marked = true → (nth s.groups g).candidate ≠ some p)) →
      (∀ p, (nth s.points p).firstMark = true → (nth u.points p).firstMark = false →
        (nth s.groups g).marked = true ∧ (nth s.groups g).candidate = some p) → MarksLaw grp (Machine.putGroup g {} u) := by
    intro u hg hp hq
    refine ⟨fun p hm => ?_, fun g' => ?_, fun g' p k1 k2 => ?_⟩
    · obtain ⟨l1, l2⟩ := hp p hm
      obtain ⟨g', k1, k2⟩ := h.held p l1
      have : g ≠ g' := fun e => by subst e; exact l2 k1 k2
      exact ⟨g', by simp [this, hg, k1], by simp [this, hg, k2]⟩
    · rw [putGroup_groups, nth_upd, hg]
      split
      · exact hinit
      · exact h.groups g'
    · rw [putGroup_groups, nth_upd, hg] at k1 k2
      split at k1
      · cases k1
      · next e =>
        rw [if_neg e] at k2
        obtain ⟨l1, l2⟩ := h.own g' p k1 k2
        refine ⟨?_, l2⟩
        by_contra k
        obtain ⟨m1, m2⟩ := hq p l1 (by simpa using k)
        exact e (Option.some.inj ((h.own g p m2 m1).2.symm.trans l2))
  unfold Machine.rearm
  dsimp only
  split
  · next p e1 e2 =>
    refine hput _ (by rw [offerInside_groups, setMark_groups]) (fun q hm => ?_) fun q k1 k2 => ?_
    · rw [offerInside_points, setMark_points, nth_upd] at hm
      split at hm
      · cases hm
      · next e => exact ⟨hm, fun _ k => e (Option.some.inj (e2.symm.trans k))⟩
    · rw [offerInside_points, setMark_points, nth_upd] at k2
      split at k2
      · next e => exact ⟨e1, e ▸ e2⟩
      · rw [k1] at k2; cases k2
  · next k =>
    refine hput _ (by rw [offerInside_groups]) (fun q hm => ?_) fun q k1 k2 => ?_
    · rw [offerInside_points] at hm
      exact ⟨hm, fun l1 l2 => k q l1 l2⟩
    · rw [offerInside_points, k1] at k2
      cases k2

end laws

/-! ## Every event but an apply -/

theorem marks_congr {s t : State} (hg : t.groups = s.groups)
    (hp : ∀ p, (nth t.points p).settings = (nth s.points p).settings ∧ (nth t.points p).firstMark = (nth s.points p).firstMark)
    (h : s.marksHold) : t.marksHold := by
  rw [marksHold_iff] at h ⊢
  rw [show groupOf t = groupOf s from funext fun p => by unfold groupOf; rw [(hp p).1]]
  exact h.congr hg fun p => (hp p).2

/-- An operation that leaves the settings and keeps the laws under the groups they give. -/
theorem marks_of_law {s t : State} (hs : ∀ p, (nth t.points p).settings = (nth s.points p).settings)
    (h : MarksLaw (groupOf s) s → MarksLaw (groupOf s) t) (k : s.marksHold) : t.marksHold := by
  rw [marksHold_iff] at k ⊢
  rw [show groupOf t = groupOf s from funext fun p => by unfold groupOf; rw [hs p]]
  exact h k

theorem actPoint_marks (a : Action) (t : Target) (s : State) (p : Fin 256) (h : s.marksHold) : (actPoint a t s p).marksHold := by
  unfold actPoint
  dsimp only
  split
  · refine marks_congr (s := s) rfl (fun q => ?_) h
    dsimp only [State.showPoint_points]
    rw [nth_upd]
    split
    · next e => exact e ▸ ⟨rfl, rfl⟩
    · exact ⟨rfl, rfl⟩
  · exact h

theorem applyAction_marks (a : Action) (t : Target) (o : Nat) (s : State) (h : s.marksHold) :
    (applyAction a t o s).marksHold := by
  have h0 := List.foldlRecOn (List.finRange 256) (actPoint a t) (motive := State.marksHold) h fun u k p _ =>
    actPoint_marks a t u p k
  have h1 := List.foldlRecOn (List.finRange 8) (actZone a t s.zones) (motive := State.marksHold) h0 fun u k z _ => by
    refine marks_congr (s := u) ?_ (fun q => by rw [(actZone_zones a t s.zones u z).2]; exact ⟨rfl, rfl⟩) k
    unfold actZone
    dsimp only
    split <;> rfl
  have h2 : ∀ f r u, u.marksHold → (offerFiltered f r u).marksHold := fun f r u =>
    marks_congr (offerFiltered_groups f r u) fun q => by rw [offerFiltered_points]; exact ⟨rfl, rfl⟩
  unfold applyAction
  dsimp only
  split
  · refine List.foldlRecOn _ _ (motive := State.marksHold) (h2 _ _ _ h1) fun u k g _ => ?_
    unfold rearmReset
    split
    · exact marks_of_law (seqSame_rearm _ g u).settings (fun l => l.rearm _ g) k
    · exact k
  · exact h2 _ _ _ h1

theorem marks_unit : UnitClosed fun s t => s.marksHold → t.marksHold where
  refl _ := id
  trans h k := k ∘ h
  still _ _ hp _ hg := marks_congr hg fun q => by rw [hp]; exact ⟨rfl, rfl⟩
  edit _ _ hv := marks_congr rfl fun q => ⟨(hv q).1, (hv q).2.2⟩
  takeChange p c s := marks_of_law (takeChange_move p c s).1.settings fun h => h.takeChange p c rfl
  quieten p s := by
    refine marks_congr ?_ fun q => ?_
    · unfold quieten rejudgeZone putZone
      dsimp only
      split <;> rfl
    · rw [quieten_points, nth_upd]
      split
      · next e => exact e ▸ ⟨rfl, rfl⟩
      · exact ⟨rfl, rfl⟩
  clearMark p s _ := marks_of_law (seqSame_clearMark p s).settings fun h => h.clearMark p
  act := applyAction_marks
  latch g s hs := marks_of_law (seqSame_latch g s).settings fun h => h.latch hs fun _ _ => rfl

end Sys2Proof.Machine
end

section
/-! SUPPORT. The laws of the points through every operation (R9, R10, R11, R17, R24), and that a point from 224 on has an
internal condition for its contact state (R2). -/

namespace Sys2Proof.Machine

/-! ## The laws of a point -/

/-- The laws of one point, `w` being the weight of its class. -/
structure PointLaw (w : Nat) (x : Point) : Prop where
  disabled : x.settings.enabled = false → x.waiting = none ∧ x.bucket = 0 ∧ x.held = false ∧ x.shelved = false
    ∧ x.accepted = false ∧ x.seq = .quiet ∧ x.firstMark = false
  shelved : x.shelved = true → x.seq = .quiet ∧ x.firstMark = false
  accepted : x.shelved = false → (x.accepted = true ↔ x.seq = .alert ∨ x.seq = .standing)
  bucket : x.bucket ≤ 255
  held : x.held = true → 0 < w ∧ x.waiting = none
  waiting : ∀ c ∈ x.waiting, c.target = x.raw ∧ c.target ≠ x.accepted

theorem pointsHold_iff (s : State) :
    s.pointsHold ↔ ∀ p, PointLaw (s.classOf (nth s.points p)).weight (nth s.points p) :=
  forall_congr' fun _ => ⟨fun ⟨h1, h2, h3, h4, h5, h6⟩ => ⟨h1, h2, h3, h4, h5, h6⟩,
    fun h => ⟨h.disabled, h.shelved, h.accepted, h.bucket, h.held, h.waiting⟩⟩

/-- An edit that the laws of a point do not see. -/
theorem PointLaw.congr {w : Nat} {x y : Point} (h : PointLaw w x) (h1 : y.settings = x.settings) (h2 : y.accepted = x.accepted)
    (h3 : y.waiting = x.waiting) (h4 : y.bucket = x.bucket) (h5 : y.held = x.held) (h6 : y.shelved = x.shelved)
    (h7 : y.seq = x.seq) (h8 : y.firstMark = x.firstMark) (h9 : y.raw = x.raw) : PointLaw w y where
  disabled := by rw [h1, h2, h3, h4, h5, h6, h7, h8]; exact h.disabled
  shelved := by rw [h6, h7, h8]; exact h.shelved
  accepted := by rw [h6, h2, h7]; exact h.accepted
  bucket := by rw [h4]; exact h.bucket
  held := by rw [h5, h3]; exact h.held
  waiting := by rw [h3, h9, h2]; exact h.waiting

/-- A pending change can always be dropped. -/
theorem PointLaw.drop {w : Nat} {x : Point} (h : PointLaw w x) : PointLaw w { x with waiting := none } where
  disabled k := let ⟨_, k2⟩ := h.disabled k; ⟨rfl, k2⟩
  shelved := h.shelved
  accepted := h.accepted
  bucket := h.bucket
  held k := ⟨(h.held k).1, rfl⟩
  waiting _ k := absurd k (by simp)

/-- A first mark can always be cleared. -/
theorem PointLaw.cleared {w : Nat} {x : Point} (h : PointLaw w x) : PointLaw w { x with firstMark := false } where
  disabled k := by
    obtain ⟨k1, k2, k3, k4, k5, k6, _⟩ := h.disabled k
    exact ⟨k1, k2, k3, k4, k5, k6, rfl⟩
  shelved k := ⟨(h.shelved k).1, rfl⟩
  accepted := h.accepted
  bucket := h.bucket
  held := h.held
  waiting := h.waiting

/-- A first mark can be set on an enabled point that is not shelved (R51). -/
theorem PointLaw.marked {w : Nat} {x : Point} {g : Fin 16} (h : PointLaw w x) (hj : judgeCandidate g x = .marked) :
    PointLaw w { x with firstMark := true } := by
  unfold judgeCandidate at hj
  split at hj
  · cases hj
  · next he =>
    split at hj
    · cases hj
    · next hs =>
      exact ⟨fun k => absurd k he, fun k => absurd k hs, h.accepted, h.bucket, h.held, h.waiting⟩

theorem SeqState.move_alarmed (q : SeqState) (a l r : Bool) :
    a = true ↔ q.move a l r = .alert ∨ q.move a l r = .standing := by
  cases q <;> cases a <;> cases l <;> cases r <;> simp [SeqState.move]

/-- An enabled point after an acceptance (R15, R25). -/
theorem PointLaw.accept {w : Nat} {x : Point} {c : Change} {m : Bool} (h : PointLaw w { x with waiting := none })
    (he : x.settings.enabled = true) (hm : m = x.firstMark ∨ m = true ∧ ∃ g, judgeCandidate g x = .marked ∧
      newAlert x.seq (x.afterChange c) = true) :
    PointLaw w { x with accepted := c.abnormal, waiting := none, seq := x.afterChange c, firstMark := m } where
  disabled k := absurd (he.symm.trans k) (by decide)
  shelved k := by
    have k' : x.shelved = true := k
    refine ⟨if_pos k', ?_⟩
    rcases hm with e | ⟨_, g, hj, _⟩
    · exact e.trans (h.shelved k).2
    · unfold judgeCandidate at hj
      rw [if_neg (by rw [he]; decide), if_pos k'] at hj
      cases hj
  accepted k := by
    have k' : x.shelved = false := k
    show c.abnormal = true ↔ x.afterChange c = .alert ∨ x.afterChange c = .standing
    unfold Point.afterChange
    rw [if_neg (by rw [k']; decide)]
    exact SeqState.move_alarmed _ _ _ _
  bucket := h.bucket
  held k := ⟨(h.held k).1, rfl⟩
  waiting _ k := absurd k (by simp)

/-- A HELD point is enabled, and a point with a pending change is. -/
theorem PointLaw.enabled {w : Nat} {x : Point} (h : PointLaw w x) (k : x.held = true ∨ x.waiting ≠ none ∨ x.shelved = true) :
    x.settings.enabled = true := by
  by_contra he
  obtain ⟨h1, _, h3, h4, _⟩ := h.disabled (by simpa using he)
  rcases k with k | k | k
  · rw [h3] at k; cases k
  · exact k h1
  · rw [h4] at k; cases k

/-- A point that is not HELD obeys the laws whatever its class's weight. -/
theorem PointLaw.weight {w w' : Nat} {x : Point} (h : PointLaw w x) (k : x.held = true → 0 < w') : PointLaw w' x where
  disabled := h.disabled
  shelved := h.shelved
  accepted := h.accepted
  bucket := h.bucket
  held l := ⟨k l, (h.held l).2⟩
  waiting := h.waiting

/-- A point released from its hold (R12). -/
theorem releaseHold_law {w : Nat} {p : Fin 256} {s : State} (h : PointLaw w (nth s.points p))
    (hh : (nth s.points p).held = true) (w' : Nat) : PointLaw w' (nth (releaseHold p s).points p) := by
  have he := h.enabled (.inl hh)
  have hw := (h.held hh).2
  have hu : PointLaw w' { nth s.points p with held := false } :=
    { h with disabled := fun k => absurd (he.symm.trans k) (by decide)
             held := fun k => Bool.noConfusion k }
  rcases releaseHold_points p s with ⟨_, e⟩ | ⟨_, c, m, ha, e, hm⟩
  · rw [e, nth_upd_same]
    exact hu
  · rw [e, nth_upd_same, ← ha]
    exact PointLaw.accept (x := { nth s.points p with held := false }) hu.drop he hm

/-! ## The laws of all points through an event of one -/

theorem pointsHold_upd {s t : State} {p : Fin 256} {y : Point} (h : s.pointsHold) (ht : t.points = upd s.points p y)
    (hc : t.classes = s.classes) (hy : PointLaw (nth s.classes y.settings.cls).weight y) : t.pointsHold := by
  rw [pointsHold_iff] at h ⊢
  intro q
  unfold State.classOf
  rw [ht, hc, nth_upd]
  split
  · exact hy
  · exact h q

theorem pointsHold_same {s t : State} (hp : t.points = s.points) (hc : t.classes = s.classes) (h : s.pointsHold) :
    t.pointsHold := by
  rw [pointsHold_iff] at h ⊢
  intro q
  unfold State.classOf
  rw [hp, hc]
  exact h q

/-- What no operation of the alarm side changes. -/
theorem sideOnly_any : SideClosed (fun _ => True) (fun _ => True) SideOnly :=
  sideOnly_closed (fun _ _ => trivial) (fun _ _ => ⟨trivial, trivial⟩) fun _ _ => trivial

theorem State.pointLaw {s : State} (h : s.pointsHold) (p : Fin 256) :
    PointLaw (nth s.classes (nth s.points p).settings.cls).weight (nth s.points p) := (pointsHold_iff s).mp h p

theorem accept_hold {p : Fin 256} {c : Change} {s : State} (h : s.pointsHold) (he : (nth s.points p).settings.enabled = true) :
    (accept p c s).pointsHold := by
  obtain ⟨m, e, hm⟩ := accept_points p c s
  exact pointsHold_upd h e (sideOnly_any.accept p c s trivial).classes ((State.pointLaw h p).drop.accept he hm)

theorem startChange_hold {p : Fin 256} {n : Nat} {st : Stamp} {a : Bool} {s : State} (h : s.pointsHold)
    (he : (nth s.points p).settings.enabled = true) (hh : (nth s.points p).held = false)
    (hr : (nth s.points p).raw ≠ (nth s.points p).accepted) : (startChange p n st a s).pointsHold := by
  have hl := State.pointLaw h p
  rcases startChange_points p n st a s with ⟨_, e⟩ | ⟨_, c, m, ha, e, hm⟩
  · rw [e]
    refine pointsHold_upd h rfl rfl ⟨fun k => ?_, hl.shelved, hl.accepted, hl.bucket, fun k => ?_, fun d k => ?_⟩
    · exact absurd (he.symm.trans k) (by decide)
    · exact absurd (hh.symm.trans k) (by decide)
    · obtain rfl := Option.mem_some_iff.mp k
      exact ⟨rfl, hr⟩
  · refine pointsHold_upd h e (sideOnly_any.startChange p n st a s trivial).classes ?_
    rw [← ha]
    exact hl.drop.accept he hm

theorem contactReport_hold {p : Fin 256} {c : Contact} {run : Int} {st : Stamp} {a : Bool} {s : State} (h : s.pointsHold) :
    (contactReport p c run st a s).pointsHold := by
  have hl := State.pointLaw h p
  by_cases hq : (nth s.points p).settings.enabled = false
      ∨ ({ nth s.points p with contact := c } : Point).raw = (nth s.points p).raw
  · rw [contactReport_quiet hq]
    refine pointsHold_upd h rfl rfl ?_
    rcases hq with hq | hq
    · obtain ⟨k1, k2⟩ := hl.disabled hq
      exact ⟨hl.disabled, hl.shelved, hl.accepted, hl.bucket, hl.held, fun d k => absurd k (by simp [k1])⟩
    · exact hl.congr rfl rfl rfl rfl rfl rfl rfl rfl hq
  · rw [not_or] at hq
    have he : (nth s.points p).settings.enabled = true := by simpa using hq.1
    have hout := contactReport_outcomes (run := run) (st := st) (a := a) he hq.2
    have hcl := (sideOnly_any.contactReport p c run st a s trivial).classes
    have hz : PointLaw (nth s.classes (nth s.points p).settings.cls).weight { transited s p c run st a with waiting := none } := by
      rw [transited_fields]
      have hd := hl.drop
      exact ⟨fun k => absurd (he.symm.trans k) (by decide), hd.shelved, hd.accepted,
        min_le_left _ _, hd.held, fun d k => absurd k (by simp)⟩
    have hzs : (transited s p c run st a).settings = (nth s.points p).settings := by rw [transited_fields]
    have hzh : (transited s p c run st a).held = (nth s.points p).held := by rw [transited_fields]
    have hzw : (transited s p c run st a).waiting = (nth s.points p).waiting := by rw [transited_fields]
    have hza : (transited s p c run st a).accepted = (nth s.points p).accepted := by rw [transited_fields]
    have hzm : (transited s p c run st a).firstMark = (nth s.points p).firstMark := by rw [transited_fields]
    dsimp only at hout
    generalize transited s p c run st a = z at hout hz hzs hzh hzw hza hzm
    have hze : z.settings.enabled = true := by rw [hzs]; exact he
    rw [← hzs] at hz
    rcases hout with ⟨k1, e⟩ | ⟨k1, k2, e⟩ | ⟨k1, _, k3, _, e⟩ | ⟨k1, _, k3, _, ch, m, ha, e, hm⟩ | ⟨_, _, _, e⟩
    · rw [e]
      refine pointsHold_upd h rfl rfl ?_
      have hw : z.waiting = none := hzw.trans (hl.held k1).2
      exact hz.congr rfl rfl hw rfl rfl rfl rfl rfl rfl
    · refine pointsHold_upd h (p := p) (y := { z with held := true, waiting := none }) (by rw [e]; simp) hcl ?_
      exact ⟨fun k => absurd (hze.symm.trans k) (by decide), hz.shelved, hz.accepted, hz.bucket,
        fun _ => ⟨by dsimp only; rw [hzs]; exact k2.1, rfl⟩, fun d k => absurd k (by simp)⟩
    · rw [e]
      refine pointsHold_upd h rfl rfl ?_
      refine ⟨fun k => absurd (hze.symm.trans k) (by decide), hz.shelved, hz.accepted, hz.bucket,
        fun k => ?_, fun d k => ?_⟩
      · rw [show z.held = true from k] at hzh
        rw [k1] at hzh
        cases hzh
      · obtain rfl := Option.mem_some_iff.mp k
        exact ⟨rfl, fun e => k3 (e.trans hza)⟩
    · refine pointsHold_upd h e hcl ?_
      rw [← ha]
      exact hz.accept hze (by rw [hzm]; exact hm)
    · rw [e]
      refine pointsHold_upd h rfl rfl ?_
      exact hz

theorem takeWaiting_hold (n : Nat) {s : State} (h : s.pointsHold) : (takeWaiting n s).pointsHold := by
  induction n generalizing s with
  | zero => exact h
  | succ n ih =>
    unfold takeWaiting
    split
    · exact h
    · exact ih (contactReport_hold (pointsHold_same rfl rfl h))

theorem endAlarm_hold {s : State} (h : s.pointsHold) : (endAlarm s).pointsHold := takeWaiting_hold _ h

theorem offerInside_hold (r : Record) {s : State} (h : s.pointsHold) : (offerInside r s).pointsHold :=
  pointsHold_same (offerInside_points r s) (offerInside_classes r s) h

theorem offerFiltered_hold (f : Filterable) (r : Record) {s : State} (h : s.pointsHold) : (offerFiltered f r s).pointsHold :=
  pointsHold_same (offerFiltered_points f r s) (offerFiltered_classes f r s) h

theorem latch_hold (g : Fin 16) {s : State} (h : s.pointsHold) : (latch g s).pointsHold := by
  have hc : (latch g s).classes = s.classes := (sideOnly_any.latch g s fun _ _ => trivial).classes
  rcases latch_points g s with e | ⟨p, _, hj, e⟩
  · exact pointsHold_same e hc h
  · exact pointsHold_upd h e hc ((State.pointLaw h p).marked hj)

theorem marksCleared_hold {s t : State} (hm : MarksCleared s t) (hc : t.classes = s.classes) (h : s.pointsHold) :
    t.pointsHold := by
  rw [pointsHold_iff] at h ⊢
  intro p
  unfold State.classOf
  rw [hc]
  rcases hm p with e | e <;> rw [e]
  · exact h p
  · exact (h p).cleared

/-! ### Releases -/

/-- A point's law through a release of the HELD points that meet a test, each in its turn. -/
theorem Releases.law {f : State → Fin 256 → State} {c : State → Point → Prop} (hf : Releases f c) {s : State} {p : Fin 256}
    {w w' : Nat} (h : PointLaw w (nth s.points p)) (hk : (nth s.points p).held = true → ¬c s (nth s.points p) → 0 < w') :
    PointLaw w' (nth (f s p).points p) := by
  by_cases hr : (nth s.points p).held = true ∧ c s (nth s.points p)
  · rw [hf.release s p hr.1 hr.2]
    exact releaseHold_law h hr.1 w'
  · rw [hf.skip s p hr]
    exact h.weight fun k => hk k fun l => hr ⟨k, l⟩

/-- The laws after the releases of all the points. -/
theorem Releases.hold {f : State → Fin 256 → State} {c : State → Point → Prop} (hf : Releases f c)
    (hc : ∀ s u x, u.classes = s.classes → c u x = c s x) {s : State} {w : Fin 256 → Nat}
    (h : ∀ p, PointLaw (w p) (nth s.points p))
    (hk : ∀ p, (nth s.points p).held = true → ¬c s (nth s.points p) → 0 < (s.classOf (nth s.points p)).weight) :
    ((List.finRange 256).foldl f s).pointsHold := by
  rw [pointsHold_iff]
  intro p
  have hcl : ((List.finRange 256).foldl f s).classes = s.classes :=
    (sideOnly_any.foldl f _ s fun u q _ => hf.side sideOnly_any u q trivial).classes
  obtain ⟨u, hu, hp, e⟩ := foldl_own sideOnly_any.refl sideOnly_any.trans (fun s p => hf.side sideOnly_any s p trivial) hf.other
    (List.nodup_finRange 256) (List.mem_finRange p) s
  have hs : (nth (f u p).points p).settings = (nth s.points p).settings := by
    rw [(hf.own u p).settings, hp]
  unfold State.classOf
  rw [hcl, e, hs]
  refine hf.law (by rw [hp]; exact h p) ?_
  rw [hp, hc s u _ hu.classes]
  exact hk p

theorem leak_hold {s : State} (h : s.pointsHold) : (leak s).pointsHold := by
  rw [pointsHold_iff] at h
  have k := leakRelease_releases.hold (fun s u x e => by simp only [State.classOf, e])
    (s := { s with points := tab 256 fun p => drain s (nth s.points p) })
    (w := fun p => (s.classOf (nth s.points p)).weight)
    (fun p => by
      have hl := h p
      rw [nth_tab]
      refine ⟨fun k => ?_, hl.shelved, hl.accepted, (Nat.sub_le _ _).trans hl.bucket, hl.held, hl.waiting⟩
      obtain ⟨k1, k2, k3⟩ := hl.disabled k
      exact ⟨k1, by simp [drain, k2], k3⟩)
    (fun p => by
      rw [nth_tab]
      exact fun k _ => ((h p).held k).1)
  unfold leak
  exact endAlarm_hold k

theorem orderSetChatter_hold (d : List Byte) {s : State} (h : s.pointsHold) : (orderSetChatter d s).1.pointsHold := by
  rw [pointsHold_iff] at h
  have k := releaseWeightless_releases.hold (s := { s with classes := tab 4 fun c => classAt d c.val })
    (fun s u x e => by simp only [State.classOf, e]) (w := fun p => (s.classOf (nth s.points p)).weight) h
    fun p _ hn => Nat.pos_of_ne_zero hn
  unfold orderSetChatter
  split
  · exact (pointsHold_iff s).mpr h
  · dsimp only
    exact endAlarm_hold (offerInside_hold _ k)

/-! ### SHELVE POINT and UNSHELVE POINT -/

theorem shelve_hold {p : Fin 256} {s : State} (he : (nth s.points p).settings.enabled = true) (h : s.pointsHold) :
    (shelve p s).pointsHold := by
  have hl := State.pointLaw h p
  unfold shelve
  dsimp only
  refine endAlarm_hold (pointsHold_upd (p := p)
    (y := { nth s.points p with shelved := true, seq := .quiet, firstMark := false }) h ?_ ?_ ?_)
  · rw [clearMark_points, quieten_points, offerInside_points]
    simp [upd_upd]
  · exact (sideOnly_any.trans (sideOnly_any.putPoint p _ s trivial) (sideOnly_any.trans (sideOnly_any.showPoint p _ trivial)
      (sideOnly_any.trans (sideOnly_any.offerInside _ _) (sideOnly_any.trans (sideOnly_any.quieten p _ trivial)
        (sideOnly_any.clearMark p _ trivial))))).classes
  · exact ⟨fun k => absurd (he.symm.trans k) (by decide), fun _ => ⟨rfl, rfl⟩,
      fun k => Bool.noConfusion k, hl.bucket, hl.held, hl.waiting⟩

theorem unshelve_hold {p : Fin 256} {s : State} (hs : (nth s.points p).shelved = true) (h : s.pointsHold) :
    (unshelve p s).pointsHold := by
  have hl := State.pointLaw h p
  have he := hl.enabled (.inr (.inr hs))
  obtain ⟨hq, hm⟩ := hl.shelved hs
  have hc : (unshelvedTold p s).classes = s.classes :=
    (sideOnly_any.trans (sideOnly_any.putPoint p _ s trivial) (sideOnly_any.trans (sideOnly_any.showPoint p _ trivial)
      (sideOnly_any.offerInside _ _))).classes
  have hy : ∀ q m, ((nth s.points p).raw = true ↔ q = .alert ∨ q = .standing) → PointLaw (nth s.classes
      (nth s.points p).settings.cls).weight { nth s.points p with
        shelved := false, waiting := none, accepted := (nth s.points p).raw, seq := q, firstMark := m } := fun q m hq =>
    ⟨fun k => absurd (he.symm.trans k) (by decide), fun k => Bool.noConfusion k,
      fun _ => hq, hl.bucket, fun k => ⟨(hl.held k).1, rfl⟩, fun d k => absurd k (by simp)⟩
  rw [unshelve_eq]
  refine endAlarm_hold ?_
  split
  · next hr =>
    obtain ⟨m, e, _⟩ := takeChange_points p s.handOn (unshelvedTold p s)
    rw [unshelvedTold_points, nth_upd_same, upd_upd] at e
    refine pointsHold_upd h e ((sideOnly_any.takeChange p _ _ trivial).classes.trans hc) (hy _ m ?_)
    rw [hr]
    exact SeqState.move_alarmed _ true _ _
  · next hr =>
    refine pointsHold_upd h (unshelvedTold_points p s) hc (hy _ _ ?_)
    rw [hq]
    simp [hr]

/-! ### Actions (R29, R30) -/

theorem actPoint_hold (a : Action) (t : Target) (p : Fin 256) {s : State} (h : s.pointsHold) : (actPoint a t s p).pointsHold := by
  have hl := State.pointLaw h p
  unfold actPoint
  dsimp only
  split
  · next hm =>
    refine pointsHold_upd h (p := p) (y := { nth s.points p with
      seq := a.move (nth s.points p).seq (nth s.points p).settings.ringback }) (by rfl) (by rfl) ?_
    have hquiet : (nth s.points p).seq ≠ .quiet := fun e => hm.2 (by rw [e]; cases a <;> rfl)
    refine ⟨fun k => absurd (hl.disabled k).2.2.2.2.2.1 hquiet, fun k => absurd (hl.shelved k).1 hquiet, fun k => ?_, hl.bucket,
      hl.held, hl.waiting⟩
    refine (hl.accepted k).trans ?_
    generalize (nth s.points p).seq = q at hm
    generalize (nth s.points p).settings.ringback = b at hm
    cases a <;> cases q <;> cases b <;> simp [Action.move] at hm ⊢
  · exact h

theorem rearm_marks (o : FirstOutcome) (g : Fin 16) (s : State) : MarksCleared s (rearm o g s) := by
  intro q
  unfold rearm
  dsimp only
  rw [putGroup_points, offerInside_points]
  split
  · next p _ _ =>
    rw [setMark_points, nth_upd]
    split
    · next e => exact .inr (e ▸ rfl)
    · exact .inl rfl
  · exact .inl rfl

theorem rearm_classes (o : FirstOutcome) (g : Fin 16) (s : State) : (rearm o g s).classes = s.classes :=
  ((frame_alarm fun _ => False).rearm o g s).items .classes id

theorem applyAction_hold (a : Action) (t : Target) (o : Nat) {s : State} (h : s.pointsHold) :
    (applyAction a t o s).pointsHold := by
  have h0 := List.foldlRecOn (List.finRange 256) (actPoint a t) (motive := State.pointsHold) h fun u k p _ => actPoint_hold a t p k
  have h1 := List.foldlRecOn (List.finRange 8) (actZone a t s.zones) (motive := State.pointsHold) h0 fun u k z _ => by
    refine pointsHold_same (actZone_zones a t s.zones u z).2 ?_ k
    unfold actZone
    dsimp only
    split <;> rfl
  unfold applyAction
  dsimp only
  split
  · refine List.foldlRecOn _ _ (motive := State.pointsHold) (offerFiltered_hold _ _ h1) fun u k g _ => ?_
    unfold rearmReset
    split
    · exact marksCleared_hold (rearm_marks _ g u) (rearm_classes _ g u) k
    · exact k
  · exact offerFiltered_hold _ _ h1

end Sys2Proof.Machine
end

section
/-! SUPPORT. The points' laws and the contact states of internal points through every event, and through a LOAD POINTS apply. -/

namespace Sys2Proof.Machine

/-- Two laws that every event keeps are kept together. -/
theorem StepClosed.and {F : Item → Prop} {L M : State → Prop} (h : StepClosed F fun s t => L s → L t)
    (k : StepClosed F fun s t => M s → M t) : StepClosed F fun s t => L s ∧ M s → L t ∧ M t where
  refl _ := id
  trans a b := b ∘ a
  still s t e := fun ⟨x, y⟩ => ⟨h.still s t e x, k.still s t e y⟩
  offer r s := fun ⟨x, y⟩ => ⟨h.offer r s x, k.offer r s y⟩
  contact p c t st a s e := fun ⟨x, y⟩ => ⟨h.contact p c t st a s e x, k.contact p c t st a s e y⟩
  act a t o s := fun ⟨x, y⟩ => ⟨h.act a t o s x, k.act a t o s y⟩
  stale i s e := fun ⟨x, y⟩ => ⟨h.stale i s e x, k.stale i s e y⟩
  recovered i r s e := fun ⟨x, y⟩ => ⟨h.recovered i r s e x, k.recovered i r s e y⟩
  attempt s := fun ⟨x, y⟩ => ⟨h.attempt s x, k.attempt s y⟩
  writeEvent s e1 e2 := fun ⟨x, y⟩ => ⟨h.writeEvent s e1 e2 x, k.writeEvent s e1 e2 y⟩
  close c f s e := fun ⟨x, y⟩ => ⟨h.close c f s e x, k.close c f s e y⟩
  journalOrder d s := fun ⟨x, y⟩ => ⟨h.journalOrder d s x, k.journalOrder d s y⟩
  tone z s t e := fun ⟨x, y⟩ => ⟨h.tone z s t e x, k.tone z s t e y⟩
  leak s := fun ⟨x, y⟩ => ⟨h.leak s x, k.leak s y⟩
  change p c s e := fun ⟨x, y⟩ => ⟨h.change p c s e x, k.change p c s e y⟩
  latch g s e := fun ⟨x, y⟩ => ⟨h.latch g s e x, k.latch g s e y⟩
  shelve p s e1 e2 := fun ⟨x, y⟩ => ⟨h.shelve p s e1 e2 x, k.shelve p s e1 e2 y⟩
  unshelve p s e := fun ⟨x, y⟩ => ⟨h.unshelve p s e x, k.unshelve p s e y⟩
  chatter e d s := fun ⟨x, y⟩ => ⟨h.chatter e d s x, k.chatter e d s y⟩
  complete e bs s := fun ⟨x, y⟩ => ⟨h.complete e bs s x, k.complete e bs s y⟩

theorem tone_points {z : Fin 8} {s t : State} (he : execRingbackToneCycle z s = .next t) :
    t.points = s.points ∧ t.classes = s.classes := by
  simp only [execRingbackToneCycle, Host.Outcome.next.injEq] at he
  subst he
  split
  · exact ⟨rfl, rfl⟩
  · split <;> exact ⟨rfl, rfl⟩

/-! ## The points' laws -/

theorem takeContact_hold (p : Fin 256) (c : Contact) (t : Int) (st : Stamp) (a : Bool) (s : State) (h : s.pointsHold) :
    (takeContact p c t st a s).pointsHold := endAlarm_hold (contactReport_hold h)

theorem hold_journal : JournalClosed reportNow fun s t => s.pointsHold → t.pointsHold where
  refl _ := id
  trans h k := k ∘ h
  mem _ _ := pointsHold_same rfl rfl
  journal _ _ := pointsHold_same rfl rfl
  rep r s _ := takeContact_hold r.point _ _ _ _ s

theorem recoverPoint_hold (k : Fin 4) (r : Receipt) (j : Fin 48) {s : State} (h : s.pointsHold) :
    (recoverPoint k r s j).pointsHold := by
  unfold recoverPoint
  dsimp only
  split
  · next e => exact startChange_hold h e.1 e.2.1 e.2.2.1
  · exact h

theorem makeStale_hold (k : Fin 4) (j : Fin 48) {s : State} (h : s.pointsHold) : (makeStale k s j).pointsHold := by
  refine pointsHold_upd (p := fieldPoint k j) (y := { nth s.points (fieldPoint k j) with stale := true, waiting := none }) h
    ?_ ?_ ?_
  · rw [makeStale, State.showPoint_points, putPoint_points]
  · rw [makeStale, State.showPoint_classes, putPoint_classes]
  · exact (State.pointLaw h (fieldPoint k j)).drop.congr rfl rfl rfl rfl rfl rfl rfl rfl rfl

theorem clearStale_hold (k : Fin 4) (j : Fin 48) {s : State} (h : s.pointsHold) : (clearStale k s j).pointsHold := by
  refine pointsHold_upd (p := fieldPoint k j) (y := { nth s.points (fieldPoint k j) with stale := false }) h ?_ ?_ ?_
  · rw [clearStale, State.showPoint_points, putPoint_points]
  · rw [clearStale, State.showPoint_classes, putPoint_classes]
  · exact (State.pointLaw h (fieldPoint k j)).congr rfl rfl rfl rfl rfl rfl rfl rfl rfl

theorem panelStale_hold (k : Fin 4) {s : State} (h : s.pointsHold) : (panelStale k s).pointsHold := by
  unfold panelStale
  exact List.foldlRecOn _ (makeStale k) (motive := State.pointsHold) h fun _ hu j _ => makeStale_hold k j hu

theorem recovered_hold (k : Fin 4) (r : Receipt) {s : State} (h : s.pointsHold) : (recovered k r s).pointsHold := by
  unfold recovered
  exact endAlarm_hold (List.foldlRecOn _ (recoverPoint k r) (motive := State.pointsHold)
    (List.foldlRecOn _ (clearStale k) (motive := State.pointsHold) h fun _ hu j _ => clearStale_hold k j hu)
    fun _ hu j _ => recoverPoint_hold k r j hu)

theorem hold_event {F : Item → Prop} {K : Fin 256 → Contact → Prop} :
    EventClosed F K fun s t => s.pointsHold → t.pointsHold where
  refl _ := id
  trans h k := k ∘ h
  still _ _ e := pointsHold_same e.points e.classes
  offer r := hold_journal.offerWith r
  contact p c t st a s _ := takeContact_hold p c t st a s
  act a t o _ h := endAlarm_hold (applyAction_hold a t o h)
  stale k _ _ h := panelStale_hold k h
  recovered k r _ _ h := recovered_hold k r h

theorem hold_step {F : Item → Prop} (complete : F .settings → ∀ bs s, s.pointsHold → (completePoints bs s).1.pointsHold) :
    StepClosed F fun s t => s.pointsHold → t.pointsHold :=
  .of_journal hold_event hold_journal (fun _ _ _ he => pointsHold_same (tone_points he).1 (tone_points he).2)
    (fun _ => leak_hold)
    (fun p c s hc h => endAlarm_hold (accept_hold h ((State.pointLaw h p).enabled (.inr (.inl (by rw [hc]; simp))))))
    (fun g _ _ h => endAlarm_hold (latch_hold g h)) (fun _ _ he _ => shelve_hold he) (fun _ _ hs => unshelve_hold hs)
    (fun d _ => orderSetChatter_hold d) complete

/-! ## The contact states of internal points (R2) -/

/-- Every point from 224 on has an internal condition for its contact state. -/
def InternalContacts (s : State) : Prop :=
  ∀ p : Fin 256, 224 ≤ p.val → (nth s.points p).contact = .absent ∨ (nth s.points p).contact = .present

theorem internal_congr {s t : State} (hp : ∀ p, (nth t.points p).contact = (nth s.points p).contact)
    (h : InternalContacts s) : InternalContacts t := fun p h224 => by
  rw [hp]
  exact h p h224

theorem internal_put {s : State} {p : Fin 256} {c : Contact} (hc : 224 ≤ p.val → c = .absent ∨ c = .present)
    (h : InternalContacts s) : InternalContacts (putPoint p { nth s.points p with contact := c } s) := fun q h224 => by
  rw [putPoint_points, nth_upd]
  split
  · next e => exact hc (e ▸ h224)
  · exact h q h224

theorem conditionOf_cases (b : Bool) : conditionOf b = .absent ∨ conditionOf b = .present := by cases b <;> simp [conditionOf]

theorem internal_alarm : AlarmClosed fun s t => InternalContacts s → InternalContacts t where
  refl _ := id
  trans h k := k ∘ h
  mem _ _ := id
  zones _ _ := id
  groups _ _ := id
  points _ _ hv := internal_congr fun p => (hv p).2.1
  offer r s := internal_congr fun p => by rw [offerInside_points]
  report s r rest _ h := internal_put (s := { s with due := rest }) (fun _ => conditionOf_cases _) h

theorem takeContact_internal {p : Fin 256} {c : Contact} (hc : 224 ≤ p.val → c = .absent ∨ c = .present) (t : Int) (st : Stamp)
    (a : Bool) (s : State) (h : InternalContacts s) : InternalContacts (takeContact p c t st a s) :=
  internal_alarm.takeContact p c t st a s (internal_put hc h)

theorem internal_journal : JournalClosed reportNow fun s t => InternalContacts s → InternalContacts t where
  refl _ := id
  trans h k := k ∘ h
  mem _ _ := id
  journal _ _ := id
  rep r s _ := takeContact_internal (fun _ => conditionOf_cases r.present) _ _ _ s

theorem fieldEdit_contact (p : Fin 256) (y : Point) (s : State) (hy : y.contact = (nth s.points p).contact) (q : Fin 256) :
    (nth (State.showPoint p (putPoint p y s)).points q).contact = (nth s.points q).contact := by
  rw [State.showPoint_points, putPoint_points, nth_upd]
  split
  · next e => exact e ▸ hy
  · rfl

theorem panelStale_internal (k : Fin 4) {s : State} (h : InternalContacts s) : InternalContacts (panelStale k s) := by
  unfold panelStale
  exact List.foldlRecOn _ (makeStale k) (motive := InternalContacts) h fun u hu j _ =>
    internal_congr (fieldEdit_contact (fieldPoint k j) _ u rfl) hu

theorem recovered_internal (k : Fin 4) (r : Receipt) {s : State} (h : InternalContacts s) : InternalContacts (recovered k r s) := by
  unfold recovered
  exact internal_alarm.endAlarm _ (internal_alarm.foldl _ _ _ (fun u j _ => internal_alarm.recoverPoint k r u j)
    (List.foldlRecOn _ (clearStale k) (motive := InternalContacts) h fun u hu j _ =>
      internal_congr (fieldEdit_contact (fieldPoint k j) _ u rfl) hu))

theorem internal_event {F : Item → Prop} : EventClosed F (ownReport F) fun s t => InternalContacts s → InternalContacts t where
  refl _ := id
  trans h k := k ∘ h
  still _ _ e := internal_congr fun p => by rw [e.points]
  offer r s := internal_journal.offerWith r s
  contact p c t st a s hK := takeContact_internal (fun h => by
    have hf := hK.2
    unfold fitting at hf
    rwa [if_neg (by omega)] at hf) t st a s
  act a t o s h := internal_alarm.endAlarm _ (internal_alarm.applyAction a t o s h)
  stale k s _ h := panelStale_internal k h
  recovered k r s _ h := recovered_internal k r h

theorem internal_complete (bs : List Byte) (s : State) (h : InternalContacts s) : InternalContacts (completePoints bs s).1 := by
  unfold completePoints
  split
  · exact h
  · have h1 : InternalContacts { s with points := tab 256 fun p => { nth s.points p with settings := settingsAfter bs s p } } :=
      internal_congr (s := s) (fun p => by dsimp only; rw [nth_tab]) h
    dsimp only
    exact internal_alarm.applyPoints (fun _ _ k => k) bs s h1

theorem internal_step {F : Item → Prop} : StepClosed F fun s t => InternalContacts s → InternalContacts t :=
  .of_journal internal_event internal_journal (fun _ _ _ he => internal_congr fun p => by rw [(tone_points he).1])
    (fun s => internal_alarm.leak s)
    (fun p c s _ h => internal_alarm.endAlarm _ (internal_alarm.accept p c.change s h))
    (fun g s _ h => internal_alarm.endAlarm _ (internal_alarm.latch g s h)) (fun p s _ _ => internal_alarm.shelve p s)
    (fun p s _ => internal_alarm.unshelve p s)
    (fun d s h => by
      rcases internal_alarm.chatter d s with e | e
      · rw [e]; exact h
      · exact e h)
    fun _ => internal_complete

/-! ## The points' laws through an apply (R20, R21) -/

/-- The raw state stands where the polarity does, and on every internal point. -/
theorem raw_of_settings {p : Fin 256} {x : Point} {new : Settings} (hk : 224 ≤ p.val → x.contact = .absent ∨ x.contact = .present)
    (h : ¬polarityChanged p x.settings new = true) : ({ x with settings := new } : Point).raw = x.raw := by
  unfold Point.raw
  dsimp only
  by_cases h224 : 224 ≤ p.val
  · rcases hk h224 with e | e <;> rw [e]
  · have hw : new.whenOpen = x.settings.whenOpen := by
      by_contra k
      refine h ?_
      simp only [polarityChanged, Bool.and_eq_true, decide_eq_true_eq]
      exact ⟨by omega, fun e => k e.symm⟩
    rw [hw]

/-- The treatment of a point makes it obey the laws under its new settings. -/
theorem treatPoint_law {old : Vector Settings 256} {p : Fin 256} {x : Point} {new : Settings} {s : State} {w : Nat}
    (hx : nth s.points p = { x with settings := new }) (ho : nth old p = x.settings) (hl : PointLaw w x)
    (hk : 224 ≤ p.val → x.contact = .absent ∨ x.contact = .present) :
    PointLaw (nth s.classes new.cls).weight (nth (treatPoint old s p).points p) := by
  have hfresh : ∀ (y : Point) (m : Bool), y.settings.enabled = true → y.seq = .quiet →
      ∀ u : State, PointLaw w { y with
        bucket := 0, held := false, shelved := false, waiting := none, lastTime := u.now, lastStamp := u.stamp,
        lastApprox := false, accepted := y.raw, firstMark := m,
        seq := if y.raw = true then y.seq.move true y.settings.lockIn y.settings.ringback else y.seq } := by
    intro y m he hq u
    refine ⟨fun k => absurd (he.symm.trans k) (by decide), fun k => Bool.noConfusion k, fun _ => ?_, Nat.zero_le _,
      fun k => Bool.noConfusion k, fun d k => absurd k (by simp)⟩
    dsimp only
    split
    · next hr => rw [hr]; exact SeqState.move_alarmed _ true _ _
    · next hr => rw [hq]; simp [hr]
  rw [treatPoint_points, ho]
  unfold treated
  rw [hx]
  dsimp only
  by_cases h1 : x.settings.enabled = false
  · obtain ⟨k1, k2, k3, k4, k5, k6, k7⟩ := hl.disabled h1
    rw [if_pos h1]
    by_cases h2 : new.enabled = true
    · obtain ⟨m, e⟩ := becomeEnabled_points p s
      rw [if_pos h2, e, nth_upd_same, hx]
      exact (hfresh { x with settings := new } m h2 k6 s).weight fun k => Bool.noConfusion k
    · rw [if_neg h2, hx]
      exact ⟨fun _ => ⟨k1, k2, k3, k4, k5, k6, k7⟩, hl.shelved, hl.accepted, hl.bucket,
        fun k => absurd (k3.symm.trans k) (by decide), fun d k => absurd k (by simp [k1])⟩
  · rw [if_neg h1]
    by_cases h2 : new.enabled = false
    · rw [if_pos h2, becomeDisabled_points, nth_upd_same, hx]
      exact ⟨fun _ => ⟨rfl, rfl, rfl, rfl, rfl, rfl, rfl⟩, fun k => Bool.noConfusion k, fun _ => by simp, Nat.zero_le _,
        fun k => Bool.noConfusion k, fun d k => absurd k (by simp)⟩
    · have h2' : new.enabled = true := by simpa using h2
      rw [if_neg h2]
      by_cases h3 : polarityChanged p x.settings new = true
      · obtain ⟨m, e⟩ := becomeEnabled_points p (becomeDisabled p s)
        rw [if_pos h3, e, becomeDisabled_points, nth_upd_same, nth_upd_same, hx]
        exact (hfresh { x with
          settings := new, waiting := none, bucket := 0, held := false, shelved := false, accepted := false, seq := .quiet,
          firstMark := false } m h2' rfl (becomeDisabled p s)).weight fun k => Bool.noConfusion k
      · have hraw := raw_of_settings hk h3
        have hu : ∀ m, (m = x.firstMark ∨ m = false) → PointLaw w { x with settings := new, firstMark := m } := fun m hm => by
          refine ⟨fun k => absurd (h2'.symm.trans k) (by decide), fun k => ⟨(hl.shelved k).1, ?_⟩, hl.accepted, hl.bucket, hl.held,
            fun d k => ?_⟩
          · rcases hm with e | e
            · exact e.trans (hl.shelved k).2
            · exact e
          · obtain ⟨l1, l2⟩ := hl.waiting d k
            exact ⟨l1.trans hraw.symm, l2⟩
        have hc : (marksChecked p x.settings s).classes = s.classes :=
          ((frame_alarm fun _ => False).marksChecked p x.settings s).items .classes id
        have hpts : nth (marksChecked p x.settings s).points p = { x with
            settings := new, firstMark := if x.settings.group ≠ new.group then false else x.firstMark } := by
          rw [marksChecked_points, nth_upd_same, hx]
        rw [if_neg h3, stayEnabled_eq]
        refine releaseWeightless_releases.law (w := w) ?_ ?_ <;> rw [hpts]
        · refine hu _ ?_
          split
          · exact .inr rfl
          · exact .inl rfl
        · intro _ hn
          simp only [State.classOf, hc] at hn
          exact Nat.pos_of_ne_zero hn

theorem applyPoints_hold (bs : List Byte) {s : State} (h : s.pointsHold) (hk : InternalContacts s) :
    (applyPoints bs s).pointsHold := by
  rw [applyPoints_eq]
  refine endAlarm_hold ?_
  have hcl : (windowPut bs s).classes = s.classes := offerInside_classes _ _
  have htr : (pointsTreated bs s).classes = s.classes := (sideOnly_any.pointsTreated bs s).classes.trans hcl
  have hset : ∀ p, (nth (pointsTreated bs s).points p).settings = settingsAfter bs s p := fun p => by
    have hF : Frame (fun _ => False) (windowPut bs s) (pointsTreated bs s) :=
      (frame_alarm _).foldl _ _ _ fun u q _ => (frame_alarm _).treatPoint _ u q
    rw [hF.items .settings id p, windowPut_points]
  have h1 : (pointsTreated bs s).pointsHold := by
    rw [pointsHold_iff]
    intro p
    unfold State.classOf
    rw [htr, hset]
    by_cases hi : inRange bs p = true
    · obtain ⟨u, hu, hp, e⟩ := foldl_own sideOnly_any.refl sideOnly_any.trans
        (fun u q => sideOnly_any.treatPoint (tab 256 fun p => (nth s.points p).settings) u q trivial) (treatPoint_other _)
        ((List.nodup_finRange 256).filter _) (List.mem_filter.mpr ⟨List.mem_finRange p, hi⟩) (windowPut bs s)
      rw [windowPut_points] at hp
      have := treatPoint_law hp (nth_tab 256 (fun p => (nth s.points p).settings) p) (State.pointLaw h p) (hk p)
      rw [hu.classes, hcl] at this
      rw [pointsTreated, e]
      exact this
    · have hn : imageSettings bs p = none := by simpa [inRange] using hi
      have hs : settingsAfter bs s p = (nth s.points p).settings := by rw [settingsAfter, hn]; rfl
      rw [pointsTreated, foldl_skip (treatPoint_other _) (by simp [hi]), windowPut_points, hs]
      exact State.pointLaw h p
  unfold groupsRearmed
  exact List.foldlRecOn _ rearmLoad (motive := State.pointsHold) h1 fun u hu g _ => by
    unfold rearmLoad
    split
    · exact marksCleared_hold (rearm_marks _ g u) (rearm_classes _ g u) hu
    · exact hu

end Sys2Proof.Machine
end

section
/-! SUPPORT. The laws of zones, horns, groups and first marks through a LOAD POINTS apply (R20, R21, R28, R57). -/

namespace Sys2Proof.Machine

/-! ## Events of one point -/

/-- What every event of point p keeps when edits of p that zones, groups and marks do not see keep it, and accepted
changes of p. -/
structure PointClosed (p : Fin 256) (R : State → State → Prop) : Prop where
  refl : ∀ s, R s s
  trans : ∀ {s t u}, R s t → R t u → R s u
  edit : ∀ s t y, (nth s.points p).unseen y → t.points = upd s.points p y → t.zones = s.zones → t.groups = s.groups → R s t
  takeChange : ∀ c s, R s (Machine.takeChange p c s)

namespace PointClosed

variable {p : Fin 256} {R : State → State → Prop} (h : PointClosed p R)
include h

theorem putPoint (y : Point) (s : State) (hy : (nth s.points p).unseen y) : R s (State.showPoint p (Machine.putPoint p y s)) :=
  h.edit s _ y hy (by simp) (by simp) (by simp)

theorem accept (c : Change) (s : State) : R s (Machine.accept p c s) := by
  refine h.trans (h.putPoint { nth s.points p with accepted := c.abnormal, waiting := none } s ?_) (h.takeChange c _)
  exact ⟨rfl, rfl, rfl⟩

theorem releaseHold (s : State) : R s (Machine.releaseHold p s) := by
  have h1 : R s (offerFiltered .chatter (chatterRecord p { nth s.points p with held := false } true s.stamp)
      (State.showPoint p (Machine.putPoint p { nth s.points p with held := false } s))) :=
    h.edit s _ { nth s.points p with held := false } ⟨rfl, rfl, rfl⟩ (offerFiltered_points _ _ _) (offerFiltered_zones _ _ _)
      (offerFiltered_groups _ _ _)
  unfold Machine.releaseHold
  dsimp only
  split
  · exact h.trans h1 (h.accept _ _)
  · exact h1

theorem releaseWeightless (s : State) : R s (Machine.releaseWeightless s p) := by
  unfold Machine.releaseWeightless
  dsimp only
  split
  · exact h.releaseHold s
  · exact h.refl s

theorem becomeEnabled (s : State) : R s (Machine.becomeEnabled p s) := by
  unfold Machine.becomeEnabled
  dsimp only
  split
  · refine h.trans (h.putPoint _ s ?_) (h.takeChange _ _)
    exact ⟨rfl, rfl, rfl⟩
  · refine h.putPoint _ s ?_
    exact ⟨rfl, rfl, rfl⟩

end PointClosed

theorem settingsAfter_outside {bs : List Byte} {p : Fin 256} (hi : ¬inRange bs p = true) (s : State) :
    settingsAfter bs s p = (nth s.points p).settings := by
  have hn : imageSettings bs p = none := by simpa [inRange] using hi
  rw [settingsAfter, hn]
  rfl

theorem treatPoint_settings (old : Vector Settings 256) (s : State) (p q : Fin 256) :
    (nth (treatPoint old s p).points q).settings = (nth s.points q).settings :=
  ((frame_alarm fun _ => False).treatPoint old s p).items .settings id q

/-! ## Zones and horns -/

theorem move_closed (p : Fin 256) : PointClosed p (PointMove p) where
  refl s := (seqSame_refl s).move p
  trans := pointMove_trans
  edit _ _ _ hy hp hz _ := (seqSame_point hy.1 hy.2.1 hz hp).move p
  takeChange c s := (takeChange_move p c s).1

theorem becomeDisabled_move (p : Fin 256) (s : State) : PointMove p s (becomeDisabled p s) := by
  unfold becomeDisabled
  dsimp only
  generalize hy : ({ nth s.points p with waiting := none, bucket := 0, held := false, shelved := false, accepted := false } : Point) = y
  have h1 : SeqSame s (putPoint p y s) := seqSame_point (by rw [← hy]) (by rw [← hy]) (putPoint_zones p y s) (putPoint_points p y s)
  exact pointMove_trans (h1.move p) (pointMove_trans (quieten_move p _).1 ((seqSame_clearMark p _).move p))

theorem marksChecked_move (p : Fin 256) (old : Settings) (s : State) : PointMove p s (marksChecked p old s) := by
  have h1 : SeqSame s (if displayChanged old (nth s.points p).settings = true then State.showPoint p s else s) := by
    split
    · exact seqSame_of rfl rfl
    · exact seqSame_refl s
  unfold marksChecked
  dsimp only
  split
  · exact (seqSame_trans h1 (seqSame_clearMark p _)).move p
  · exact h1.move p

theorem treated_move (old : Settings) (p : Fin 256) (s : State) : PointMove p s (treated old p s) := by
  unfold treated
  split
  · split
    · exact (move_closed p).becomeEnabled s
    · exact (move_closed p).refl s
  · split
    · exact becomeDisabled_move p s
    · split
      · exact pointMove_trans (becomeDisabled_move p s) ((move_closed p).becomeEnabled _)
      · rw [stayEnabled_eq]
        exact pointMove_trans (marksChecked_move p old s) ((move_closed p).releaseWeightless _)

theorem treatPoint_eq (old : Vector Settings 256) (s : State) (p : Fin 256) : treatPoint old s p
    = rejudgeZone (nth s.points p).settings.zone (rejudgeZone (nth old p).zone (treated (nth old p) p s)) := rfl

theorem rejudgeZone_lines (z : Fin 8) {s : State} (h : LinesHold s) : LinesHold (rejudgeZone z s) := fun z' => by
  rw [rejudgeZone, putZone_zones, nth_upd]
  split
  · exact rejudged_line (h z) _ _
  · exact h z'

/-- Judging a zone again brings about its law of counts and keeps those of the others. -/
theorem rejudgeZone_count (z z' : Fin 8) {s : State} (h : z' ≠ z → CountLaw s z') : CountLaw (rejudgeZone z s) z' := by
  by_cases e : z' = z
  · exact e ▸ putZone_count _ _ _
  · refine (h e).congr ?_ fun p => ?_
    · rw [rejudgeZone, putZone_zones, nth_upd_other _ _ (Ne.symm e)]
    · rw [rejudgeZone_points]
      exact ⟨Iff.rfl, fun _ => rfl⟩

/-- The treatment of a point leaves every zone's law of counts that held, and brings about those of its two zones. -/
theorem treatPoint_count (old : Vector Settings 256) (s : State) (p : Fin 256) (z : Fin 8)
    (h : (nth old p).zone ≠ z → (nth s.points p).settings.zone ≠ z → CountLaw s z) : CountLaw (treatPoint old s p) z := by
  rw [treatPoint_eq]
  refine rejudgeZone_count _ z fun h1 => rejudgeZone_count _ z fun h2 => ?_
  have hm := treated_move (nth old p) p s
  refine (h (Ne.symm h2) (Ne.symm h1)).congr (hm.zones z h1) fun q => ⟨by rw [hm.settings], fun hq => hm.seq q ?_⟩
  rintro rfl
  exact h1 hq.symm

/-- The treatment of the points of a list judges every zone of theirs. -/
theorem treatPoints_horns (old : Vector Settings 256) (l : List (Fin 256)) (s : State) (hl : LinesHold s)
    (hc : ∀ z, (∀ p ∈ l, (nth old p).zone ≠ z ∧ (nth s.points p).settings.zone ≠ z) → CountLaw s z) :
    (l.foldl (treatPoint old) s).hornsHold := by
  induction l generalizing s with
  | nil => exact (hornsHold_iff s).mpr ⟨fun z => hc z (by simp), hl⟩
  | cons p l ih =>
    rw [List.foldl_cons]
    refine ih (treatPoint old s p) ?_ fun z hz => ?_
    · rw [treatPoint_eq]
      exact rejudgeZone_lines _ (rejudgeZone_lines _ ((treated_move _ p s).lines hl))
    · refine treatPoint_count old s p z fun h1 h2 => hc z fun q hq => ?_
      rcases List.mem_cons.mp hq with rfl | hq
      · exact ⟨h1, h2⟩
      · rw [← treatPoint_settings old s p q]
        exact hz q hq

theorem applyPoints_horns (bs : List Byte) {s : State} (h : s.hornsHold) : (applyPoints bs s).hornsHold := by
  rw [hornsHold_iff] at h
  have hz : (windowPut bs s).zones = s.zones := offerInside_zones _ _
  have h1 : (pointsTreated bs s).hornsHold := by
    refine treatPoints_horns _ _ _ (fun z => by rw [hz]; exact h.2 z) fun z hr => ?_
    refine (h.1 z).congr (by rw [hz]) fun p => ?_
    rw [windowPut_points]
    refine ⟨?_, fun _ => rfl⟩
    by_cases hi : inRange bs p = true
    · obtain ⟨k1, k2⟩ := hr p (List.mem_filter.mpr ⟨List.mem_finRange p, hi⟩)
      rw [windowPut_points] at k2
      rw [nth_tab] at k1
      exact iff_of_false k2 k1
    · rw [settingsAfter_outside hi]
  rw [applyPoints_eq]
  refine horns_unit.endAlarm _ ?_
  unfold groupsRearmed
  refine List.foldlRecOn _ rearmLoad (motive := State.hornsHold) h1 fun u hu g _ => ?_
  clear h1
  unfold rearmLoad
  split
  · exact (seqSame_rearm _ g u).horns hu
  · exact hu

/-! ## Groups and first marks -/

/-- A point without a first mark may come to belong to any group. -/
theorem MarksLaw.regroup {grp grp' : Fin 256 → Option (Fin 16)} {s : State} (h : MarksLaw grp s)
    (hg : ∀ p, grp' p = grp p ∨ (nth s.points p).firstMark = false) : MarksLaw grp' s where
  held := h.held
  groups := h.groups
  own g p k1 k2 := by
    obtain ⟨l1, l2⟩ := h.own g p k1 k2
    refine ⟨l1, ((hg p).resolve_right fun k => ?_).trans l2⟩
    rw [k] at l1
    cases l1

/-- What an event of point p keeps of groups and marks, p being judged by the group of its settings. -/
structure MarksMove (p : Fin 256) (s t : State) : Prop where
  settings : (nth t.points p).settings = (nth s.points p).settings
  law : ∀ grp, grp p = groupOf s p → MarksLaw grp s → MarksLaw grp t

theorem marks_closed (p : Fin 256) : PointClosed p (MarksMove p) where
  refl _ := ⟨rfl, fun _ _ => id⟩
  trans h k := ⟨k.settings.trans h.settings, fun grp hg l =>
    k.law grp (hg.trans (congrArg Settings.group h.settings.symm)) (h.law grp hg l)⟩
  edit s t y hy hp _ hg := ⟨by rw [hp, nth_upd_same]; exact hy.1, fun _ _ l => l.congr hg fun q => by
    rw [hp]
    exact firstMark_upd hy.2.2 q⟩
  takeChange c s := ⟨(takeChange_move p c s).1.settings p, fun _ hg l => l.takeChange p c hg⟩

theorem rejudgeZone_groups (z : Fin 8) (s : State) : (rejudgeZone z s).groups = s.groups := by
  unfold rejudgeZone putZone
  dsimp only
  split <;> rfl

theorem MarksLaw.rejudgeZone {grp : Fin 256 → Option (Fin 16)} {s : State} (h : MarksLaw grp s) (z : Fin 8) :
    MarksLaw grp (rejudgeZone z s) :=
  h.congr (rejudgeZone_groups z s) fun p => by rw [rejudgeZone_points]

theorem MarksLaw.becomeDisabled {grp : Fin 256 → Option (Fin 16)} {s : State} (h : MarksLaw grp s) (p : Fin 256) :
    MarksLaw grp (becomeDisabled p s) := by
  have h1 : MarksLaw grp (quieten p (putPoint p { nth s.points p with
      waiting := none, bucket := 0, held := false, shelved := false, accepted := false } s)) := by
    refine h.congr (rejudgeZone_groups _ _) fun q => ?_
    rw [quieten_points, nth_upd, putPoint_points, nth_upd_same]
    split
    · next e => exact e ▸ rfl
    · next e => rw [nth_upd_other _ _ e]
  exact h1.clearMark p

/-- The treatment of a point that is judged by the group of its old settings ends with it judged by that of its new ones. -/
theorem MarksLaw.treated {grp : Fin 256 → Option (Fin 16)} {s : State} (h : MarksLaw grp s) {p : Fin 256} {old : Settings}
    (hg : grp p = old.group) (hd : old.enabled = false → (nth s.points p).firstMark = false) :
    MarksLaw (Function.update grp p (groupOf s p)) (treated old p s) := by
  have hown : Function.update grp p (groupOf s p) p = groupOf s p := Function.update_self ..
  have hre : ∀ t : State, MarksLaw grp t → (groupOf s p = grp p ∨ (nth t.points p).firstMark = false) →
      MarksLaw (Function.update grp p (groupOf s p)) t := fun t ht hf => ht.regroup fun q => by
    by_cases e : q = p
    · subst e
      rw [hown]
      exact hf
    · exact .inl (Function.update_of_ne e _ _)
  have hdis : MarksLaw (Function.update grp p (groupOf s p)) (Machine.becomeDisabled p s) :=
    hre _ (h.becomeDisabled p) (.inr (by rw [becomeDisabled_points, nth_upd_same]))
  unfold Machine.treated
  split
  · next h1 =>
    have h2 := hre s h (.inr (hd h1))
    split
    · exact ((marks_closed p).becomeEnabled s).law _ hown h2
    · exact h2
  · split
    · exact hdis
    · split
      · refine ((marks_closed p).becomeEnabled _).law _ (hown.trans ?_) hdis
        exact congrArg Settings.group ((becomeDisabled_move p s).settings p).symm
      · have h1 : MarksLaw grp (if displayChanged old (nth s.points p).settings = true then State.showPoint p s else s) := by
          split
          · exact h.congr rfl fun _ => rfl
          · exact h
        have h2 : MarksLaw grp (marksChecked p old s) := by
          unfold marksChecked
          dsimp only
          split
          · exact h1.clearMark p
          · exact h1
        rw [stayEnabled_eq]
        refine ((marks_closed p).releaseWeightless _).law _ (hown.trans ?_) (hre _ h2 ?_)
        · exact congrArg Settings.group ((marksChecked_move p old s).settings p).symm
        · by_cases e : old.group = (nth s.points p).settings.group
          · exact .inl (e.symm.trans hg.symm)
          · exact .inr (by rw [marksChecked_points, nth_upd_same]; exact if_pos e)

/-- The treatment of the points of a list ends with all of them judged by the groups of their new settings. -/
theorem treatPoints_marks (old : Vector Settings 256) (l : List (Fin 256)) (hn : l.Nodup) (grp : Fin 256 → Option (Fin 16))
    (s : State) (h : MarksLaw grp s) (hg : ∀ p ∈ l, grp p = (nth old p).group) (ho : ∀ p, p ∉ l → grp p = groupOf s p)
    (hd : ∀ p ∈ l, (nth old p).enabled = false → (nth s.points p).firstMark = false) :
    (l.foldl (treatPoint old) s).marksHold := by
  induction l generalizing s grp with
  | nil =>
    rw [marksHold_iff, List.foldl_nil, ← show grp = groupOf s from funext fun p => ho p (by simp)]
    exact h
  | cons p l ih =>
    obtain ⟨hp, hn⟩ := List.nodup_cons.mp hn
    have hne : ∀ q ∈ l, q ≠ p := fun q hq e => hp (e ▸ hq)
    have hs := treatPoint_settings old s p
    rw [List.foldl_cons]
    refine ih hn (Function.update grp p (groupOf s p)) (treatPoint old s p) ?_ (fun q hq => ?_) (fun q hq => ?_) fun q hq => ?_
    · rw [treatPoint_eq]
      exact ((h.treated (hg p (by simp)) (hd p (by simp))).rejudgeZone _).rejudgeZone _
    · rw [Function.update_of_ne (hne q hq)]
      exact hg q (by simp [hq])
    · unfold groupOf
      rw [hs]
      by_cases e : q = p
      · rw [e, Function.update_self]
      · rw [Function.update_of_ne e]
        exact ho q (by simp [e, hq])
    · rw [treatPoint_other old s p q (hne q hq).symm]
      exact hd q (by simp [hq])

theorem applyPoints_marks_hold (bs : List Byte) {s : State} (h : s.marksHold) (hp : s.pointsHold) :
    (applyPoints bs s).marksHold := by
  have h1 : (pointsTreated bs s).marksHold := by
    refine treatPoints_marks _ _ ((List.nodup_finRange 256).filter _) (groupOf s) _
      (((marksHold_iff s).mp h).congr (offerInside_groups _ _) fun p => by rw [windowPut_points]) (fun p _ => ?_)
      (fun p hi => ?_) fun p _ hd => ?_
    · rw [nth_tab]
      rfl
    · unfold groupOf
      rw [windowPut_points, settingsAfter_outside fun k => hi (List.mem_filter.mpr ⟨List.mem_finRange p, k⟩)]
    · rw [nth_tab] at hd
      rw [windowPut_points]
      exact ((State.pointLaw hp p).disabled hd).2.2.2.2.2.2
  rw [applyPoints_eq]
  refine marks_unit.endAlarm _ ?_
  unfold groupsRearmed
  refine List.foldlRecOn _ rearmLoad (motive := State.marksHold) h1 fun u hu g _ => ?_
  unfold rearmLoad
  split
  · exact marks_of_law (seqSame_rearm _ g u).settings (fun l => l.rearm _ g) hu
  · exact hu

end Sys2Proof.Machine
end

section
/-! SUPPORT. The laws of the alarm side through every step of the machine. -/

namespace Sys2Proof.Machine

theorem nth_replicate {α : Type} {n : Nat} (a : α) (i : Fin n) : nth (Vector.replicate n a) i = a := by simp [nth]

/-- A tone cycle sees neither groups nor points. -/
theorem tone_marks (z : Fin 8) (s t : State) (he : execRingbackToneCycle z s = .next t) (h : s.marksHold) : t.marksHold := by
  have hg : t.groups = s.groups := by
    simp only [execRingbackToneCycle, Host.Outcome.next.injEq] at he
    subst he
    split
    · rfl
    · split <;> rfl
  exact marks_congr hg (fun p => by rw [(tone_points he).1]; exact ⟨rfl, rfl⟩) h

/-- What every event but an apply keeps, and an apply too, every command but the resets keeps. -/
theorem StepClosed.exec_of_complete {R : State → State → Prop} (h : StepClosed (· ≠ .settings) R)
    (hS : ∀ bs s, R s (completePoints bs s).1) (c : Instr) (s t : State) (h1 : c ≠ .powerOnReset) (h2 : c ≠ .resetLine)
    (he : Machine.exec c s = .next t) : R s t := by
  have hk : ∀ c : OrderKind, ¬c.touches .settings := by intro c; cases c <;> simp [OrderKind.touches]
  have hc : ∀ c : Instr, plain c = true → ¬touches c .settings := by
    intro c
    cases c <;> simp [touches, plain]
  refine h.exec (fun s => h.leaveStarting (by simp) s) ?_ ?_ ?_ c s t h1 h2 he
  · rintro k n d s ⟨x, hx, hn⟩
    obtain rfl : x = .settings := by simpa using hn
    exact absurd hx (hk k)
  · exact fun o s t he => h.segmentRead (by simp) (by simp) (by simp) (by simp) hS o s t he
  · rintro c s t hp ⟨x, hx, hn⟩
    obtain rfl : x = .settings := by simpa using hn
    exact absurd hx (hc c hp)

/-- The laws of the alarm side, with what they rest on. -/
structure AlarmLaws (s : State) : Prop where
  points : s.pointsHold
  contacts : InternalContacts s
  marks : s.marksHold
  horns : s.hornsHold

theorem alarmLaws_step : StepClosed (· ≠ .settings) fun s t => AlarmLaws s → AlarmLaws t := by
  have hp := hold_step (F := (· ≠ .settings)) fun h => absurd rfl h
  have hi := internal_step (F := (· ≠ .settings))
  have hm := marks_unit.step (F := (· ≠ .settings)) tone_marks fun h => absurd rfl h
  have hh := horns_unit.step (F := (· ≠ .settings)) tone_horns fun h => absurd rfl h
  have e : (fun s t => AlarmLaws s → AlarmLaws t) = fun s t =>
      ((s.pointsHold ∧ InternalContacts s) ∧ s.marksHold ∧ s.hornsHold) →
        (t.pointsHold ∧ InternalContacts t) ∧ t.marksHold ∧ t.hornsHold := by
    have k : ∀ s, AlarmLaws s ↔ (s.pointsHold ∧ InternalContacts s) ∧ s.marksHold ∧ s.hornsHold := fun s =>
      ⟨fun h => ⟨⟨h.points, h.contacts⟩, h.marks, h.horns⟩, fun h => ⟨h.1.1, h.1.2, h.2.1, h.2.2⟩⟩
    funext s t
    rw [k s, k t]
  rw [e]
  exact (hp.and hi).and (hm.and hh)

theorem completePoints_fst (bs : List Byte) (s : State) : (completePoints bs s).1 = s ∨ (completePoints bs s).1 = applyPoints bs s := by
  unfold completePoints
  split
  · exact Or.inl rfl
  · generalize applyPoints bs s = t
    exact Or.inr rfl

theorem completePoints_alarmLaws (bs : List Byte) (s : State) (h : AlarmLaws s) : AlarmLaws (completePoints bs s).1 := by
  have hi := internal_complete bs s h.contacts
  rcases completePoints_fst bs s with e | e <;> rw [e] at hi ⊢
  · exact h
  · exact ⟨applyPoints_hold bs h.points h.contacts, hi, applyPoints_marks_hold bs h.marks h.points, applyPoints_horns bs h.horns⟩

/-- The points, zones and groups of a reset state obey the laws of the alarm side. -/
theorem alarmLaws_init {s : State} (hp : s.points = State.init.points) (hz : s.zones = State.init.zones)
    (hg : s.groups = State.init.groups) : AlarmLaws s := by
  have hpt : ∀ p, nth s.points p = { contact := initContact p } := fun p => by rw [hp]; exact nth_tab _ _ p
  have hzn : ∀ z, nth s.zones z = {} := fun z => by rw [hz]; exact nth_replicate _ z
  have hgr : ∀ g, nth s.groups g = {} := fun g => by rw [hg]; exact nth_replicate _ g
  refine ⟨fun p => ?_, fun p h224 => ?_, ?_, ?_⟩
  · rw [hpt]
    exact ⟨fun _ => ⟨rfl, rfl, rfl, rfl, rfl, rfl, rfl⟩, fun k => Bool.noConfusion k, fun _ => by simp, Nat.zero_le _,
      fun k => Bool.noConfusion k, fun d k => absurd k (by simp)⟩
  · rw [hpt]
    unfold initContact
    split
    · omega
    · split
      · omega
      · split
        · exact .inr rfl
        · exact .inl rfl
  · rw [marksHold_iff]
    refine ⟨fun p k => ?_, fun g => ?_, fun g p k => ?_⟩
    · rw [hpt] at k; cases k
    · rw [hgr]
      exact ⟨fun _ => rfl, fun k => absurd rfl k, by simp, fun k => by cases k⟩
    · rw [hgr] at k; cases k
  · have hc : ∀ z f, f SeqState.quiet = false → countZone s z f = 0 := fun z f hf => by
      unfold countZone
      rw [List.countP_eq_zero]
      intro p _
      rw [hpt]
      simp [hf]
    rw [hornsHold_iff]
    refine ⟨fun z => ⟨?_, ?_, ?_, ?_⟩, fun z => ⟨?_, ?_, ?_⟩⟩ <;> rw [hzn]
    · rw [hc z _ rfl]
    · rw [hc z _ rfl]
    · rw [hc z _ rfl]
    · rfl
    · exact fun _ => rfl
    · exact fun k => HornState.noConfusion k
    · simp

/-- The laws of points, zones, horns, groups and marks are kept by every step. -/
theorem alarmLaws_of_step {s t : State} (h : AlarmLaws s) (he : step s = .next t) : AlarmLaws t :=
  alarmLaws_step.step (fun _ _ k => ⟨k.points, k.contacts, k.marks, k.horns⟩) (fun _ => alarmLaws_init rfl rfl rfl)
    (fun _ _ => alarmLaws_init rfl rfl rfl)
    (fun c s t h1 h2 he => alarmLaws_step.exec_of_complete completePoints_alarmLaws c s t h1 h2 he) s t h he

end Sys2Proof.Machine
end

section
/-! SUPPORT. The journal's laws, the waiting reports and points 252 and 253 through every step of the machine. -/

namespace Sys2Proof.Machine

/-- The journal's laws between events: with no report waiting, and points 252 and 253 told of its conditions. -/
structure JournalSound (s : State) : Prop where
  queue : QueueLaw s.journal
  page : PageLaw s.journal
  informed : Informed s

theorem JournalSound.same {s t : State} (h : JournalSound s) (hj : t.journal = s.journal) (hd : t.due = s.due)
    (hp : ∀ p, journalPoint p → (nth t.points p).contact = (nth s.points p).contact) : JournalSound t where
  queue := hj ▸ h.queue
  page := hj ▸ h.page
  informed := ⟨hd.trans h.informed.due, (told_same hd (hp 252 (.inl rfl))).trans (hj ▸ h.informed.coherent.waiting),
    (told_same hd (hp 253 (.inr rfl))).trans (hj ▸ h.informed.coherent.loss)⟩

/-! ## Events of the alarm side -/

/-- What an event of the alarm side does to the journal and to what the Point Filter has been told. -/
structure AlarmStep (s t : State) : Prop where
  journal : JournalStep s t
  coherent : Coherent s → Coherent t

theorem alarmStep_closed : AlarmClosed AlarmStep where
  refl s := ⟨journalStep_alarm.refl s, id⟩
  trans h k := ⟨journalStep_trans h.journal k.journal, k.coherent ∘ h.coherent⟩
  mem s m := ⟨journalStep_alarm.mem s m, coherent_alarm.mem s m⟩
  zones s v := ⟨journalStep_alarm.zones s v, coherent_alarm.zones s v⟩
  groups s v := ⟨journalStep_alarm.groups s v, coherent_alarm.groups s v⟩
  points s v hv := ⟨journalStep_alarm.points s v hv, coherent_alarm.points s v hv⟩
  offer r s := ⟨journalStep_alarm.offer r s, coherent_alarm.offer r s⟩
  report s r rest e := ⟨journalStep_alarm.report s r rest e, coherent_alarm.report s r rest e⟩

/-- An event of the alarm side that ends with no report waiting. -/
theorem AlarmStep.sound {s t : State} (h : AlarmStep s t) (hd : t.due = []) (k : JournalSound s) : JournalSound t :=
  ⟨h.journal.queue k.queue, h.journal.page k.page, ⟨hd, h.coherent k.informed.coherent⟩⟩

/-! ## The journal's own events -/

theorem attempt_sound {s : State} (hq : QueueLaw s.journal) (hi : Informed s) (hf : s.journal.filling = none)
    (hw : s.journal.queue = [] → s.journal.waiting = false) : JournalSound (attempt reportNow s) :=
  have ⟨h1, h2⟩ := reporter_now.attempt hi.due hi.coherent
  ⟨attempt_queue reportNow_journal hq, attempt_page reportNow_journal hf hw, ⟨h1, h2⟩⟩

theorem closePage_sound (c : CloseCause) (f : Filling) {s : State} (hq : QueueLaw s.journal) (hi : Informed s)
    (hw : s.journal.waiting = false) : JournalSound (closePage reportNow c f s) := by
  have hj : (countClosed (handBack c f s)).journal = { s.journal with filling := none, cursor := s.journal.cursor + 1 } := by
    simp [countClosed, handBack, State.putMapState]
  have h1 : QueueLaw (countClosed (handBack c f s)).journal := by
    rw [hj]
    exact queueLaw_page hq rfl rfl rfl rfl rfl rfl rfl rfl
  have h2 : Informed (countClosed (handBack c f s)) := hi.same (by simp [countClosed, handBack, State.putMapState])
    (by simp [countClosed, handBack, State.putMapState]) (by rw [hj]) (by rw [hj])
  unfold closePage
  generalize countClosed (handBack c f s) = u at hj h1 h2
  exact attempt_sound h1 h2 (by rw [hj]) fun _ => by rw [hj]; exact hw

theorem PageLaw.not_waiting {j : Journal} (h : PageLaw j) {f : Filling} (hf : j.filling = some f) : j.waiting = false :=
  Bool.eq_false_iff.mpr fun k => by
    rw [(h.waiting.mp k).1] at hf
    cases hf

theorem writeEvent_sound {s : State} (hf : s.journal.filling ≠ none) (hq : s.journal.queue ≠ []) (h : JournalSound s) :
    JournalSound (writeEvent reportNow s) := by
  obtain ⟨f, e⟩ := Option.ne_none_iff_exists'.mp hf
  obtain ⟨h1, ⟨g, h2, h3, h4, h5⟩, h6, h7⟩ := writeHead_journal reportNow_journal e hq
  obtain ⟨k1, k2⟩ := reporter_now.writeHead h.informed.due h.informed.coherent
  have hw := h6.trans (h.page.not_waiting e)
  unfold writeEvent
  dsimp only
  rw [h2]
  dsimp only
  split
  · exact closePage_sound _ _ (h1 h.queue) ⟨k1, k2⟩ hw
  · next hc =>
    obtain ⟨_, _, l3, l4, l5⟩ := h.page.filling f e
    refine ⟨h1 h.queue, ⟨fun g' e' => ?_, ?_⟩, ⟨k1, k2⟩⟩
    · rw [h2] at e'
      obtain rfl : g = g' := Option.some.inj e'
      rw [h3, h4, h5, h7]
      exact ⟨Nat.le_add_left _ _, by omega, l3, l4, l5⟩
    · rw [hw, h2]
      simp

theorem orderSetJournal_sound (d : List Byte) {s : State} (h : JournalSound s) : JournalSound (orderSetJournal d s).1 := by
  unfold orderSetJournal
  dsimp only
  split
  · exact h
  · next hm =>
    have hd : max 1 (numAt d 1) ≤ 255 := by
      have : numAt d 1 < 256 := (byteAt d 1).isLt
      omega
    have h1 : JournalSound (State.showJournalSettings { s with
        journal := { s.journal with mask := byteAt d 0, flushDelay := max 1 (numAt d 1) } }) :=
      ⟨⟨h.queue.length, h.queue.seqs, h.queue.firstLoss, h.queue.firstLossHigh, h.queue.highLost, h.queue.lowLost,
        ⟨Nat.le_max_left _ _, hd⟩, BitVec.lt_def.mpr (Nat.lt_of_not_le hm)⟩, ⟨h.page.filling, h.page.waiting⟩,
        h.informed.same rfl rfl rfl Iff.rfl⟩
    have h2 := offerWith_journal reportNow_journal (settingsRecord .setJournal s.stamp 0 (numAt d 0) (max 1 (numAt d 1)) 0 0)
      (State.showJournalSettings { s with journal := { s.journal with mask := byteAt d 0, flushDelay := max 1 (numAt d 1) } })
    exact ⟨h2.queue h1.queue, h2.page h1.page, informed_offer _ h1.informed⟩

/-! ## Every step -/

theorem panelStale_same (k : Fin 4) (s : State) : (panelStale k s).journal = s.journal ∧ (panelStale k s).due = s.due
    ∧ ∀ p, (nth (panelStale k s).points p).contact = (nth s.points p).contact := by
  unfold panelStale
  refine List.foldlRecOn _ (makeStale k) (motive := fun t : State => t.journal = s.journal ∧ t.due = s.due
    ∧ ∀ p, (nth t.points p).contact = (nth s.points p).contact) ⟨rfl, rfl, fun _ => rfl⟩ fun t ⟨h1, h2, h3⟩ j _ => ⟨h1, h2, fun p => ?_⟩
  exact (fieldEdit_contact (fieldPoint k j) { nth t.points (fieldPoint k j) with stale := true, waiting := none } t rfl p).trans (h3 p)

theorem clearStale_same (k : Fin 4) (s : State) (l : List (Fin 48)) : (l.foldl (clearStale k) s).journal = s.journal
    ∧ (l.foldl (clearStale k) s).due = s.due
    ∧ ∀ p, (nth (l.foldl (clearStale k) s).points p).contact = (nth s.points p).contact := by
  refine List.foldlRecOn _ (clearStale k) (motive := fun t : State => t.journal = s.journal ∧ t.due = s.due
    ∧ ∀ p, (nth t.points p).contact = (nth s.points p).contact) ⟨rfl, rfl, fun _ => rfl⟩ fun t ⟨h1, h2, h3⟩ j _ => ⟨h1, h2, fun p => ?_⟩
  exact (fieldEdit_contact (fieldPoint k j) { nth t.points (fieldPoint k j) with stale := false } t rfl p).trans (h3 p)

theorem recovered_sound (k : Fin 4) (r : Receipt) {s : State} (h : JournalSound s) : JournalSound (recovered k r s) := by
  obtain ⟨h1, h2, h3⟩ := clearStale_same k s (List.finRange 48)
  unfold recovered
  generalize (List.finRange 48).foldl (clearStale k) s = u at h1 h2 h3
  refine AlarmStep.sound ?_ (endAlarm_due _) (h.same h1 h2 fun p _ => h3 p)
  exact alarmStep_closed.back (alarmStep_closed.endAlarm _) (alarmStep_closed.foldl _ _ _ fun t j _ =>
    alarmStep_closed.recoverPoint k r t j)

theorem takeContact_sound {p : Fin 256} (hp : ¬journalPoint p) (c : Contact) (t : Int) (st : Stamp) (a : Bool) {s : State}
    (h : JournalSound s) : JournalSound (takeContact p c t st a s) := by
  have h0 : JournalSound (putPoint p { nth s.points p with contact := c } s) := h.same rfl rfl fun q hq => by
    rw [putPoint_points, nth_upd_other]
    rintro rfl
    exact hp hq
  exact (alarmStep_closed.takeContact p c t st a s).sound (endAlarm_due _) h0

theorem offer_sound (r : Record) {s : State} (h : JournalSound s) : JournalSound (offer r s) := by
  have k : JournalStep s (offer r s) := offerWith_journal reportNow_journal r s
  exact ⟨k.queue h.queue, k.page h.page, informed_offer r h.informed⟩

theorem journalSound_event {F : Item → Prop} : EventClosed F (ownReport F) fun s t => JournalSound s → JournalSound t where
  refl _ := id
  trans h k := k ∘ h
  still _ _ e h := h.same e.journal e.due fun p _ => by rw [e.points]
  offer r s h := offer_sound r h
  contact p c t st a s hK := takeContact_sound (fun hp => not_owned_journalPoint hp hK.1) c t st a
  act a t o s := (alarmStep_closed.back (alarmStep_closed.endAlarm _) (alarmStep_closed.applyAction a t o s)).sound (endAlarm_due _)
  stale k s _ h :=
    have ⟨h1, h2, h3⟩ := panelStale_same k s
    h.same h1 h2 fun p _ => h3 p
  recovered k r _ _ := recovered_sound k r

theorem orderSetChatter_sound (d : List Byte) {s : State} (h : JournalSound s) : JournalSound (orderSetChatter d s).1 := by
  have hd : (orderSetChatter d s).1 = s ∨ (orderSetChatter d s).1.due = [] := by
    unfold orderSetChatter
    split
    · exact .inl rfl
    · refine .inr ?_
      dsimp only
      rw [endAlarm_due]
  rcases alarmStep_closed.chatter d s with e | e
  · rw [e]
    exact h
  · rcases hd with k | k
    · rw [k]
      exact h
    · exact e.sound k (h.same rfl rfl fun _ _ => rfl)

theorem completePoints_sound (bs : List Byte) {s : State} (h : JournalSound s) : JournalSound (completePoints bs s).1 := by
  rcases completePoints_fst bs s with e | e <;> rw [e]
  · exact h
  · have h1 : JournalSound { s with points := tab 256 fun p => { nth s.points p with settings := settingsAfter bs s p } } :=
      h.same (s := s) rfl rfl fun p _ => by dsimp only; rw [nth_tab]
    refine (alarmStep_closed.applyPoints (fun _ _ => ⟨journalStep_same rfl, fun k => k.same rfl rfl rfl Iff.rfl⟩) bs s).sound ?_ h1
    rw [applyPoints_eq, endAlarm_due]

theorem journalSound_step {F : Item → Prop} : StepClosed F fun s t => JournalSound s → JournalSound t where
  toEventClosed := journalSound_event
  attempt s h := by
    by_cases e : s.journal.queue ≠ [] ∧ s.journal.filling = none
    · exact attempt_sound h.queue h.informed e.2 fun k => absurd k e.1
    · rw [attempt, if_neg e]
      exact h
  writeEvent _ hf hq := writeEvent_sound hf hq
  close c f _ e h := closePage_sound c f h.queue h.informed (h.page.not_waiting e)
  journalOrder d _ := orderSetJournal_sound d
  tone z s t he h := by
    have hj : t.journal = s.journal ∧ t.due = s.due := by
      simp only [execRingbackToneCycle, Host.Outcome.next.injEq] at he
      subst he
      split
      · exact ⟨rfl, rfl⟩
      · split <;> exact ⟨rfl, rfl⟩
    exact h.same hj.1 hj.2 fun p _ => by rw [(tone_points he).1]
  leak s := (alarmStep_closed.leak s).sound (endAlarm_due _)
  change p c s _ := (alarmStep_closed.back (alarmStep_closed.endAlarm _) (alarmStep_closed.accept p c.change s)).sound (endAlarm_due _)
  latch g s _ := (alarmStep_closed.back (alarmStep_closed.endAlarm _) (alarmStep_closed.latch g s)).sound (endAlarm_due _)
  shelve p s _ _ := (alarmStep_closed.shelve p s).sound (endAlarm_due _)
  unshelve p s _ := (alarmStep_closed.unshelve p s).sound (endAlarm_due _)
  chatter _ d _ := orderSetChatter_sound d
  complete _ bs _ := completePoints_sound bs

theorem journalSound_init {s : State} (hj : s.journal = {}) (hd : s.due = []) (hp : s.points = State.init.points) :
    JournalSound s where
  queue := by
    rw [hj]
    exact ⟨by simp, numbered_nil _, by simp [Journal.lossless], by simp [Journal.lossless], by simp, by simp, by simp, by decide⟩
  page := by
    rw [hj]
    exact ⟨fun f k => by simp at k, by simp⟩
  informed := by
    have hpt : ∀ p, nth s.points p = { contact := initContact p } := fun p => by rw [hp]; exact nth_tab _ _ p
    refine informed_of_contacts hd ?_ ?_ <;> rw [hpt, hj] <;> rfl

theorem journalSound_of_step {s t : State} (h : JournalSound s) (he : step s = .next t) : JournalSound t :=
  (journalSound_step (F := (· ≠ .settings))).step (fun _ _ k => k.same rfl rfl fun _ _ => rfl)
    (fun _ => journalSound_init rfl rfl rfl) (fun _ _ => journalSound_init rfl rfl rfl)
    (fun c s t h1 h2 he => journalSound_step.exec_of_complete (fun bs _ => completePoints_sound bs) c s t h1 h2 he) s t h he

end Sys2Proof.Machine
end

section
/-! SUPPORT. Contact states that follow an item outside the alarm side, and the Time Base's laws through every step. -/

namespace Sys2Proof.Machine

/-! ## What a contact state follows -/

/-- An operation that leaves every item, and of the contact states all but the Journal Unit's. -/
abbrev Passed (s t : State) : Prop := Frame (fun _ => False) s t

/-- The Point Filter has been told that point p has the contact state c. -/
def Reported (p : Fin 256) (c : Contact) (s : State) : Prop := dueIn journalPoint s ∧ (nth s.points p).contact = c

theorem Reported.frame {p : Fin 256} {c : Contact} {F : Item → Prop} {s t : State} (h : Reported p c s) (hf : Frame F s t)
    (hp : ¬journalPoint p) (ho : ¬owned F p) : Reported p c t :=
  have ⟨h1, h2⟩ := hf.contacts h.1
  ⟨h1, (h2 p hp ho).1.trans h.2⟩

theorem not_owned_none (p : Fin 256) : ¬owned (fun _ => False) p := fun ⟨_, _, h⟩ => h

/-- What a contact report of point p does outside the alarm side and the journal: it sets p's contact state. -/
structure Told (p : Fin 256) (c : Contact) (s t : State) : Prop where
  items : Within (fun _ => False) s t
  contact : dueIn journalPoint s → Reported p c t
  stale : dueIn journalPoint s → (nth t.points p).stale = (nth s.points p).stale
  others : dueIn journalPoint s → ∀ q, q ≠ p → ¬journalPoint q → sameContact s t q

theorem takeContact_told {p : Fin 256} (hp : ¬journalPoint p) (c : Contact) (t : Int) (st : Stamp) (a : Bool) (s : State) :
    Told p c s (takeContact p c t st a s) := by
  have h := (frame_alarm fun _ => False).takeContact p c t st a s
  have hs : ∀ q, nth (putPoint p { nth s.points p with contact := c } s).points q
      = if p = q then { nth s.points p with contact := c } else nth s.points q := fun q => by rw [putPoint_points, nth_upd]
  refine ⟨fun x _ => x.same_trans ?_ (h.items x id), fun hd => ?_, fun hd => ?_, fun hd q hq hj => ?_⟩
  · cases x
    case settings =>
      intro q
      rw [hs]
      split
      · next e => exact e ▸ rfl
      · rfl
    all_goals exact rfl
  · obtain ⟨k1, k2⟩ := h.contacts hd
    refine ⟨k1, (k2 p hp (not_owned_none p)).1.trans ?_⟩
    rw [hs, if_pos rfl]
  · obtain ⟨_, k2⟩ := h.contacts hd
    refine (k2 p hp (not_owned_none p)).2.trans ?_
    rw [hs, if_pos rfl]
  · obtain ⟨_, k2⟩ := h.contacts hd
    obtain ⟨l1, l2⟩ := k2 q hj (not_owned_none q)
    rw [hs, if_neg (Ne.symm hq)] at l1 l2
    exact ⟨l1, l2⟩

theorem reportNow_told {r : Report} (hp : ¬journalPoint r.point) (s : State) :
    Told r.point (conditionOf r.present) s (reportNow r s) := takeContact_told hp _ _ _ _ s

theorem reportCondition_told {p : Fin 256} (hp : ¬journalPoint p) (b : Bool) (s : State) :
    Told p (conditionOf b) s (reportCondition p b s) := takeContact_told hp _ _ _ _ s

/-! ## The Time Base -/

/-- The time of day is in its range, and point 254 follows the sync fault (R129, R135). -/
structure ClockLaw (s : State) : Prop where
  clock : s.clockHolds
  fault : Reported 254 (conditionOf s.time.fault) s

theorem ClockLaw.frame {F : Item → Prop} {s t : State} (h : ClockLaw s) (hf : Frame F s t) (hF : ¬F .time) : ClockLaw t where
  clock := by
    unfold State.clockHolds
    rw [show t.time = s.time from hf.items .time hF]
    exact h.clock
  fault := by
    rw [show t.time = s.time from hf.items .time hF]
    refine h.fault.frame hf (by decide) fun ⟨x, hx, hx'⟩ => hF ?_
    obtain rfl : Item.time = x := Option.some.inj hx
    exact hx'

theorem clockLaw_passed {s t : State} (hf : Passed s t) (h : ClockLaw s) : ClockLaw t := h.frame hf id

/-- The law in a state with other items of the Time Base but the same sync fault. -/
theorem ClockLaw.put {s : State} (h : ClockLaw s) {v : TimeBase} (hv : v.day ≤ 65535 ∧ v.ms ≤ 86399999)
    (hf : v.fault = s.time.fault) : ClockLaw { s with time := v } :=
  ⟨hv, h.fault.1, by
    dsimp only
    rw [hf]
    exact h.fault.2⟩

/-- The law after the report of point 254 about the sync fault as it stands. -/
theorem clockLaw_report {s : State} (hc : s.clockHolds) (hd : dueIn journalPoint s) {b : Bool} (hb : s.time.fault = b) :
    ClockLaw (reportCondition 254 b s) := by
  have h := reportCondition_told (p := 254) (by decide) b s
  have ht : (reportCondition 254 b s).time = s.time := h.items .time id
  refine ⟨?_, ?_⟩
  · unfold State.clockHolds
    rw [ht]
    exact hc
  · rw [ht, hb]
    exact h.contact hd

theorem passed_offerClock (r : Record) (s : State) : Passed s (offerClock r s) := (frame_event _).offerClock r s
theorem passed_showClock (s : State) : Passed s (State.showClock s) := (frame_event _).showClock s

/-- A report of point 254 after a change of the sync fault and records. -/
theorem clockLaw_of_passed {s t : State} (hf : Passed s t) (hc : s.clockHolds) (hd : dueIn journalPoint s) {b : Bool}
    (hb : s.time.fault = b) : ClockLaw (reportCondition 254 b t) := by
  have ht : t.time = s.time := hf.items .time id
  refine clockLaw_report ?_ (hf.contacts hd).1 (ht ▸ hb)
  unfold State.clockHolds
  rw [ht]
  exact hc

theorem raiseSyncFault_law (c : SyncCause) {s : State} (h : ClockLaw s) : ClockLaw (raiseSyncFault c s) := by
  unfold raiseSyncFault
  dsimp only
  exact clockLaw_of_passed (s := { s with time := { s.time with fault := true, cause := c } })
    (frame_trans (passed_showClock _) (passed_offerClock _ _)) h.clock h.fault.1 rfl

theorem steppedTime_range {day ms : Nat} (c : Int) (h : day ≤ 65535 ∧ ms ≤ 86399999) (hc : c.natAbs ≤ 500) :
    (steppedTime day ms c).1 ≤ 65535 ∧ (steppedTime day ms c).2.1 ≤ 86399999 := by
  unfold steppedTime dayMs
  dsimp only
  split
  · dsimp only
    omega
  · dsimp only
    omega

theorem acceptPulse_law {c : Int} (hc : c.natAbs ≤ 500) {s : State} (h : ClockLaw s) : ClockLaw (acceptPulse c s) := by
  have hr := steppedTime_range c h.clock hc
  have hs : ∀ (b : Bool) (r : Record) (u : State), Passed u (if b = true then offerClock r u else u) := fun b r u => by
    split
    · exact passed_offerClock r u
    · exact frame_refl u
  unfold acceptPulse
  dsimp only
  generalize hv : ({ s.time with day := (steppedTime s.time.day s.time.ms c).1, ms := (steppedTime s.time.day s.time.ms c).2.1, spurious := 0, lastCorrection := c, missTimer := some (s.time.run + 65000), lastPulse := s.time.run, fault := false, cause := .none } : TimeBase) = v
  have hv' : v.day ≤ 65535 ∧ v.ms ≤ 86399999 := by rw [← hv]; exact hr
  have hf : v.fault = false := by rw [← hv]
  have h1 : ∀ r : Record, Passed { s with time := v }
      (if 10 < c.natAbs then offerClock r (State.showClock { s with time := v }) else State.showClock { s with time := v }) := fun r => by
    split
    · exact frame_trans (passed_showClock _) (passed_offerClock _ _)
    · exact passed_showClock _
  split
  · exact clockLaw_of_passed (frame_trans (h1 _) (passed_offerClock _ _)) hv' h.fault.1 hf
  · next hn =>
    exact clockLaw_passed (h1 _) (h.put hv' (hf.trans (by simpa using hn)))

theorem judgePulse_law {s : State} (h : ClockLaw s) : ClockLaw (judgePulse s) := by
  unfold judgePulse
  dsimp only
  split
  · next hc => exact acceptPulse_law hc h
  · have h1 : ClockLaw (State.showClock { s with time := { s.time with spurious := min 255 (s.time.spurious + 1) } }) :=
      clockLaw_passed (passed_showClock _) (h.put h.clock rfl)
    unfold spuriousPulse
    dsimp only
    split
    · exact raiseSyncFault_law _ h1
    · exact h1

theorem orderSetTime_law (d : List Byte) {s : State} (h : ClockLaw s) : ClockLaw (orderSetTime d s).1 := by
  unfold orderSetTime
  split
  · exact h
  · next hr =>
    have hm : longAt d 2 ≤ 86399999 := by unfold dayMs at hr; omega
    have hd : wordAt d 0 ≤ 65535 := by unfold wordAt numAt; have := (byteAt d 0).isLt; have := (byteAt d (0 + 1)).isLt; omega
    generalize decide (numAt d 6 = 1) = sync
    dsimp only
    unfold setTime
    dsimp only
    generalize hv : ({ s.time with day := wordAt d 0, ms := longAt d 2, valid := true, syncEnabled := sync, spurious := 0, missTimer := if sync = true then some (s.time.run + 65000) else none, fault := s.time.fault && sync, cause := if sync = true then s.time.cause else .none } : TimeBase) = v
    have hv' : v.day ≤ 65535 ∧ v.ms ≤ 86399999 := by rw [← hv]; exact ⟨hd, hm⟩
    have hf : v.fault = (s.time.fault && sync) := by rw [← hv]
    have hend : ∀ u, ClockLaw u → ∀ r, ClockLaw (offerClock r (State.showClock u)) := fun u hu r =>
      clockLaw_passed (frame_trans (passed_showClock u) (passed_offerClock r _)) hu
    refine hend _ ?_ _
    split
    · next he =>
      exact clockLaw_of_passed (s := { s with time := v }) (passed_offerClock _ _) hv' h.fault.1 (by rw [hf]; revert he; cases sync <;> simp)
    · next he =>
      refine h.put hv' (hf.trans ?_)
      revert he
      cases sync <;> cases s.time.fault <;> simp

/-- The commands that touch the Time Base. -/
theorem time_touches {c : Instr} (hp : plain c = true) (h : touches c .time) :
    c = .syncPulse ∨ c = .syncMissDeadline ∨ c = .runTimeRise := by
  cases c <;> simp_all [touches, plain]

theorem clockLaw_plain {c : Instr} (hc : c = .syncPulse ∨ c = .syncMissDeadline ∨ c = .runTimeRise) {s t : State}
    (he : Machine.exec c s = .next t) (h : ClockLaw s) : ClockLaw t := by
  rcases hc with rfl | rfl | rfl <;> simp only [Machine.exec] at he
  · simp only [execSyncPulse, Host.Outcome.next.injEq] at he
    subst he
    split
    · exact h
    · split
      · exact judgePulse_law (h.put h.clock rfl)
      · exact h.put h.clock rfl
  · simp only [execSyncMissDeadline, Host.Outcome.next.injEq] at he
    subst he
    split
    · split
      · exact clockLaw_passed (passed_showClock _) (h.put h.clock rfl)
      · exact raiseSyncFault_law _ (h.put h.clock rfl)
    · exact h
  · simp only [execRunTimeRise, Host.Outcome.next.injEq] at he
    subst he
    refine h.put ⟨?_, ?_⟩ rfl <;> unfold carryTime dayMs <;> dsimp only <;> omega

theorem clockLaw_init {s : State} (ht : s.time = {}) (hd : s.due = []) (hp : s.points = State.init.points) : ClockLaw s where
  clock := by rw [State.clockHolds, ht]; exact ⟨Nat.zero_le _, Nat.zero_le _⟩
  fault := by
    refine ⟨dueIn_nil hd, ?_⟩
    rw [hp, ht]
    exact congrArg Point.contact (nth_tab _ _ (254 : Fin 256))

theorem clockLaw_of_step {s t : State} (h : ClockLaw s) (he : step s = .next t) : ClockLaw t := by
  have hF : StepClosed (· ≠ .time) fun s t => ClockLaw s → ClockLaw t := .of_frame fun s t hf h => h.frame hf (by simp)
  have hx : ∀ c s t, c ≠ .powerOnReset → c ≠ .resetLine → Machine.exec c s = .next t → ClockLaw s → ClockLaw t := by
    refine fun c s t h1 h2 => hF.exec (fun s => hF.leaveStarting (by simp) s) ?_ ?_ ?_ c s t h1 h2
    · rintro k n d s ⟨x, hx, hn⟩
      obtain rfl : x = .time := by simpa using hn
      cases k <;> simp only [OrderKind.touches, reduceCtorEq, or_self] at hx
      exact orderSetTime_law d
    · exact fun o s t he => hF.segmentRead (by simp) (by simp) (by simp) (by simp)
        (fun bs u hu => hu.frame ((frame_step (· = .settings)).complete rfl bs u) (by simp)) o s t he
    · rintro c s t hp ⟨x, hx, hn⟩ he
      obtain rfl : x = .time := by simpa using hn
      exact clockLaw_plain (time_touches hp hx) he
  exact hF.step (fun _ _ k => ⟨k.clock, k.fault⟩) (fun _ => clockLaw_init rfl rfl rfl) (fun _ _ => clockLaw_init rfl rfl rfl)
    hx s t h he

end Sys2Proof.Machine
end

section
/-! SUPPORT. The trip supply's laws and point 255 through every step (R123 to R125). -/

namespace Sys2Proof.Machine

/-- The laws of the supply's items (R123). -/
structure SupplyItems (x : Supply) : Prop where
  absence : x.absence ≤ 9
  lost : x.state = .lost → x.absence = 0
  settle : x.settle.isSome = true ↔ x.state = .settling

/-- The supply's items obey their laws, and point 255 follows its state (R123, R124). -/
structure SupplyLaw (s : State) : Prop where
  items : SupplyItems s.supply
  loss : Reported 255 (conditionOf (decide (s.supply.state = .lost))) s

theorem SupplyLaw.frame {F : Item → Prop} {s t : State} (h : SupplyLaw s) (hf : Frame F s t) (hF : ¬F .supply) : SupplyLaw t := by
  have hs : t.supply = s.supply := hf.items .supply hF
  refine ⟨hs ▸ h.items, ?_⟩
  rw [hs]
  refine h.loss.frame hf (by decide) fun ⟨x, hx, hx'⟩ => hF ?_
  obtain rfl : Item.supply = x := Option.some.inj hx
  exact hx'

theorem putSupply_supply (x : Supply) (s : State) : (putSupply x s).supply = x := by
  unfold putSupply
  dsimp only
  split <;> rfl

theorem putSupply_frame (x : Supply) (s : State) : Frame (· = .supply) s (putSupply x s) :=
  (frame_event (· = .supply)).putSupply rfl x s

/-- The law after other items of the supply, LOST or not as before. -/
theorem SupplyLaw.put {s : State} (h : SupplyLaw s) {x : Supply} (hx : SupplyItems x) (hl : x.state = .lost ↔ s.supply.state = .lost) :
    SupplyLaw (putSupply x s) := by
  refine ⟨by rw [putSupply_supply]; exact hx, ?_⟩
  have hd := (putSupply_frame x s).contacts h.loss.1
  have hp : (putSupply x s).points = s.points := by
    unfold putSupply
    dsimp only
    split <;> rfl
  refine ⟨hd.1, ?_⟩
  rw [putSupply_supply, hp, h.loss.2]
  simp only [hl]

/-- The law after a change of the supply and the report of point 255 about it. -/
theorem supplyLaw_report {s t : State} {x : Supply} (hx : SupplyItems x) (hd : dueIn journalPoint s)
    (hf : Frame (· = .outputs) (putSupply x s) t) {b : Bool} (hb : b = decide (x.state = .lost)) :
    SupplyLaw (reportCondition 255 b t) := by
  have h := reportCondition_told (p := 255) (by decide) b t
  have hs : (reportCondition 255 b t).supply = x :=
    (h.items .supply id).trans ((hf.items .supply (by simp)).trans (putSupply_supply x s))
  refine ⟨by rw [hs]; exact hx, ?_⟩
  rw [hs, ← hb]
  exact h.contact (hf.contacts ((putSupply_frame x s).contacts hd).1).1

theorem loseSupply_law {s : State} (hd : dueIn journalPoint s) : SupplyLaw (loseSupply s) := by
  unfold loseSupply
  dsimp only
  refine supplyLaw_report (s := s) (x := { state := .lost, absence := 0, settle := none })
    ⟨Nat.zero_le _, fun _ => rfl, by simp⟩ hd ?_ rfl
  exact frame_trans ((frame_event (· = .outputs)).outputs rfl _ _) ((frame_event _).offer _ _)

theorem returnSupply_law {s : State} (h : SupplyLaw s) : SupplyLaw (returnSupply s) := by
  unfold returnSupply
  dsimp only
  exact supplyLaw_report (s := s) (x := { s.supply with state := .settling, settle := some (s.now + 500) })
    ⟨h.items.absence, fun k => SupplyState.noConfusion k, by simp⟩ h.loss.1 ((frame_event _).offer _ _) rfl

theorem sampleSupply_law (b : Bool) {s : State} (h : SupplyLaw s) : SupplyLaw (sampleSupply b s) := by
  unfold sampleSupply
  split
  · exact returnSupply_law h
  · exact h
  · next hn => exact h.put ⟨Nat.zero_le _, fun _ => rfl, h.items.settle⟩ Iff.rfl
  · next hn =>
    dsimp only
    rw [putSupply_supply]
    have hk : s.supply.state ≠ .lost := fun e => hn e
    split
    · exact loseSupply_law ((putSupply_frame _ s).contacts h.loss.1).1
    · next hl =>
      dsimp only at hl
      exact h.put ⟨by dsimp only; omega, fun e => absurd e hk, h.items.settle⟩ Iff.rfl

theorem settleSupply_law {s : State} (h : SupplyLaw s) (he : s.supply.state = .settling) : SupplyLaw (settleSupply s) := by
  unfold settleSupply
  dsimp only
  have hE := frame_event (· = .outputs)
  have h1 : SupplyLaw (putSupply { s.supply with state := .present, settle := none } s) :=
    h.put ⟨h.items.absence, fun k => SupplyState.noConfusion k, by simp⟩ (by simp [he])
  refine h1.frame (F := (· = .outputs)) ?_ (by simp)
  exact frame_trans (hE.offer _ _) (hE.foldl _ _ _ fun u o _ => hE.resumeOutput rfl (ownReport_fault rfl) u o)

theorem supply_touches {c : Instr} (hp : plain c = true) (h : touches c .supply) :
    (∃ b, c = .supplySample b) ∨ c = .supplyLost ∨ c = .supplySettleDeadline := by
  cases c <;> simp_all [touches, plain]

theorem supplyLaw_plain {c : Instr} (hc : (∃ b, c = .supplySample b) ∨ c = .supplyLost ∨ c = .supplySettleDeadline) {s t : State}
    (he : Machine.exec c s = .next t) (h : SupplyLaw s) : SupplyLaw t := by
  rcases hc with ⟨b, rfl⟩ | rfl | rfl <;> simp only [Machine.exec] at he
  · simp only [execSupplySample, Host.Outcome.next.injEq] at he
    subst he
    split
    · exact sampleSupply_law b ⟨h.items, h.loss⟩
    · exact h
  · simp only [execSupplyLost, Host.Outcome.next.injEq] at he
    subst he
    split
    · exact loseSupply_law h.loss.1
    · exact h
  · simp only [execSupplySettleDeadline, Host.Outcome.next.injEq] at he
    subst he
    split
    · next e => exact settleSupply_law h e.1
    · exact h

theorem supplyLaw_init {s : State} (hs : s.supply = {}) (hd : s.due = []) (hp : s.points = State.init.points) : SupplyLaw s := by
  refine ⟨?_, dueIn_nil hd, ?_⟩ <;> rw [hs]
  · exact ⟨by decide, fun _ => rfl, by decide⟩
  · rw [hp]
    exact congrArg Point.contact (nth_tab _ _ (255 : Fin 256))

theorem supplyLaw_of_step {s t : State} (h : SupplyLaw s) (he : step s = .next t) : SupplyLaw t := by
  have hF : StepClosed (· ≠ .supply) fun s t => SupplyLaw s → SupplyLaw t := .of_frame fun s t hf h => h.frame hf (by simp)
  have hx : ∀ c s t, c ≠ .powerOnReset → c ≠ .resetLine → Machine.exec c s = .next t → SupplyLaw s → SupplyLaw t := by
    refine fun c s t h1 h2 => hF.exec (fun s => hF.leaveStarting (by simp) s) ?_ ?_ ?_ c s t h1 h2
    · rintro k n d s ⟨x, hx, hn⟩
      obtain rfl : x = .supply := by simpa using hn
      cases k <;> simp [OrderKind.touches] at hx
    · exact fun o s t he => hF.segmentRead (by simp) (by simp) (by simp) (by simp)
        (fun bs u hu => hu.frame ((frame_step (· = .settings)).complete rfl bs u) (by simp)) o s t he
    · rintro c s t hp ⟨x, hx, hn⟩ he
      obtain rfl : x = .supply := by simpa using hn
      exact supplyLaw_plain (supply_touches hp hx) he
  exact hF.step (fun _ _ k => ⟨k.items, k.loss⟩) (fun _ => supplyLaw_init rfl rfl rfl) (fun _ _ => supplyLaw_init rfl rfl rfl)
    hx s t h he

end Sys2Proof.Machine
end

section
/-! SUPPORT. The outputs' laws through the operations on one output: drive, timers and fault (R97 to R103, R117 to R125). -/

namespace Sys2Proof.Machine

/-! ## The laws -/

/-- A supervision timer runs only while its condition holds, the supply being PRESENT (R117, R124). -/
structure TimerLaw (x : Output) (present : Bool) : Prop where
  operate : x.operate.isSome = true → present = true ∧ x.operateWatched = true
  release : x.release.isSome = true → present = true ∧ x.releaseWatched = true
  opening : x.opening.isSome = true → present = true ∧ x.openWatched = true
  clearing : x.clearing.isSome = true → present = true ∧ x.clearWatched = true

/-- Point 224 + o follows output o's fault (R2). -/
def FaultTold (s : State) (o : Fin 24) : Prop :=
  (nth s.points (faultPoint o)).contact = conditionOf (decide ((nth s.outputs o).fault ≠ .none))

/-- The laws of one output, `d` saying whether it is driven. -/
structure OutLaw (s : State) (d : Bool) (o : Fin 24) : Prop where
  drive : (nth s.outputs o).holds (s.profileOf (nth s.outputs o)).mode s.engine.part d
  timers : TimerLaw (nth s.outputs o) s.supplyPresent
  fault : FaultTold s o

/-- The laws of every output, `drv` saying which are driven. -/
structure OutLaws (drv : Fin 24 → Bool) (s : State) : Prop where
  due : dueIn journalPoint s
  law : ∀ o, OutLaw s (drv o) o

/-- The laws of every output but o. -/
structure OthersLaw (o : Fin 24) (drv : Fin 24 → Bool) (s : State) : Prop where
  due : dueIn journalPoint s
  law : ∀ q, q ≠ o → OutLaw s (drv q) q

/-! ## What an operation on one output leaves -/

/-- What an operation on output o leaves as it was. -/
structure OutStep (o : Fin 24) (s t : State) : Prop where
  items : Within (· = .outputs) s t
  due : dueIn journalPoint s → dueIn journalPoint t
  others : ∀ q, q ≠ o → nth t.outputs q = nth s.outputs q
  contacts : dueIn journalPoint s → ∀ q, q ≠ o → (nth t.points (faultPoint q)).contact = (nth s.points (faultPoint q)).contact

theorem faultPoint_not_journal (o : Fin 24) : ¬journalPoint (faultPoint o) := by
  rintro (h | h) <;> exact absurd (congrArg Fin.val h) (by simp only [faultPoint]; omega)

theorem faultPoint_inj {o q : Fin 24} (h : faultPoint o = faultPoint q) : o = q :=
  Fin.ext (by have := congrArg Fin.val h; simp only [faultPoint] at this; omega)

theorem outStep_passed (o : Fin 24) {s t : State} (h : Passed s t) : OutStep o s t where
  items x _ := h.items x id
  due hd := (h.contacts hd).1
  others _ _ := by rw [show t.outputs = s.outputs from h.items .outputs id]
  contacts hd q _ := ((h.contacts hd).2 _ (faultPoint_not_journal q) (not_owned_none _)).1

theorem outStep_told {o : Fin 24} {c : Contact} {s t : State} (h : Told (faultPoint o) c s t) : OutStep o s t where
  items x _ := h.items x id
  due hd := (h.contact hd).1
  others q _ := by rw [show t.outputs = s.outputs from h.items .outputs id]
  contacts hd q hq := (h.others hd _ (fun e => hq (faultPoint_inj e)) (faultPoint_not_journal q)).1

theorem outStep_put (o : Fin 24) (y : Output) (s : State) : OutStep o s (putOutput o y s) where
  items := ((frame_event (· = .outputs)).putOutput rfl o y s).items
  due := id
  others _ hq := nth_upd_other _ _ (Ne.symm hq)
  contacts _ _ _ := rfl

theorem OutLaw.other {o q : Fin 24} {s t : State} {d : Bool} (h : OutLaw s d q) (k : OutStep o s t) (hd : dueIn journalPoint s)
    (hq : q ≠ o) : OutLaw t d q := by
  have e1 := k.others q hq
  have e2 : t.profiles = s.profiles := k.items .profiles (by simp)
  have e3 : t.engine.part = s.engine.part := k.items .part (by simp)
  have e4 : t.supply = s.supply := k.items .supply (by simp)
  refine ⟨?_, ?_, ?_⟩
  · unfold State.profileOf
    rw [e1, e2, e3]
    exact h.drive
  · unfold State.supplyPresent
    rw [e1, e4]
    exact h.timers
  · unfold FaultTold
    rw [e1, k.contacts hd q hq]
    exact h.fault

theorem OthersLaw.step {o : Fin 24} {drv : Fin 24 → Bool} {s t : State} (h : OthersLaw o drv s) (k : OutStep o s t) :
    OthersLaw o drv t := ⟨k.due h.due, fun q hq => (h.law q hq).other k h.due hq⟩

theorem OutLaws.others {drv : Fin 24 → Bool} {s : State} (h : OutLaws drv s) (o : Fin 24) : OthersLaw o drv s :=
  ⟨h.due, fun q _ => h.law q⟩

/-- The laws of all the others and those of o, with what o is driven by now. -/
theorem OthersLaw.close {o : Fin 24} {drv : Fin 24 → Bool} {s : State} {d : Bool} (h : OthersLaw o drv s) (k : OutLaw s d o) :
    OutLaws (Function.update drv o d) s := by
  refine ⟨h.due, fun q => ?_⟩
  by_cases e : q = o
  · rw [e, Function.update_self]
    exact k
  · rw [Function.update_of_ne e]
    exact h.law q e

/-- The laws in a state with the same outputs, profiles, part state and supply, that has been told the same. -/
theorem OutLaws.same {drv : Fin 24 → Bool} {s t : State} (h : OutLaws drv s) (h1 : t.outputs = s.outputs)
    (h2 : t.profiles = s.profiles) (h3 : t.engine.part = s.engine.part) (h4 : t.supplyPresent = s.supplyPresent)
    (hd : dueIn journalPoint t) (hc : ∀ o, (nth t.points (faultPoint o)).contact = (nth s.points (faultPoint o)).contact) :
    OutLaws drv t := by
  refine ⟨hd, fun o => ⟨?_, ?_, ?_⟩⟩
  · unfold State.profileOf
    rw [h1, h2, h3]
    exact (h.law o).drive
  · rw [h1, h4]
    exact (h.law o).timers
  · unfold FaultTold
    rw [h1, hc]
    exact (h.law o).fault

/-- The laws hold of a state that an event leaves which touches none of the items they speak of. -/
theorem OutLaws.frame {F : Item → Prop} {drv : Fin 24 → Bool} {s t : State} (h : OutLaws drv s) (hf : Frame F s t)
    (h1 : ¬F .outputs) (h2 : ¬F .profiles) (h3 : ¬F .part) (h4 : ¬F .supply) : OutLaws drv t := by
  obtain ⟨hd, hc⟩ := hf.contacts h.due
  refine h.same (hf.items .outputs h1) (hf.items .profiles h2) (hf.items .part h3) ?_ hd fun o =>
    (hc _ (faultPoint_not_journal o) ?_).1
  · unfold State.supplyPresent
    rw [show t.supply = s.supply from hf.items .supply h4]
  · rintro ⟨x, hx, hx'⟩
    rw [owner_faultPoint] at hx
    obtain rfl : Item.outputs = x := Option.some.inj hx
    exact h1 hx'

theorem OutLaws.passed {drv : Fin 24 → Bool} {s t : State} (hp : Passed s t) (h : OutLaws drv s) : OutLaws drv t :=
  h.frame hp id id id id

/-! ## The timers judged (R117) -/

theorem runTimer_isSome {c : Bool} {t : Option Nat} {d : Nat} (h : (runTimer c t d).isSome = true) : c = true := by
  unfold runTimer at h
  by_contra k
  rw [if_neg k] at h
  cases h

theorem judge_timers (x : Output) (p : Bool) (n : Nat) : TimerLaw (x.judge p n) p where
  operate h := Bool.and_eq_true_iff.mp (runTimer_isSome h)
  release h := Bool.and_eq_true_iff.mp (runTimer_isSome h)
  opening h := Bool.and_eq_true_iff.mp (runTimer_isSome h)
  clearing h := Bool.and_eq_true_iff.mp (runTimer_isSome h)

/-! ## Fault changes and supervision (R117 to R121) -/

section one
variable {o : Fin 24} {drv : Fin 24 → Bool} {d : Bool}

/-- An output whose laws are open but for what point 224 + o has been told: what is left to do is to supervise it. -/
structure Tended (o : Fin 24) (drv : Fin 24 → Bool) (d : Bool) (s : State) : Prop where
  others : OthersLaw o drv s
  drive : (nth s.outputs o).holds (s.profileOf (nth s.outputs o)).mode s.engine.part d
  fault : FaultTold s o

theorem tended_of {s : State} (h : OutLaws drv s) (o : Fin 24) : Tended o drv (drv o) s :=
  ⟨h.others o, (h.law o).drive, (h.law o).fault⟩

theorem Tended.passed {s t : State} (hp : Passed s t) (h : Tended o drv d s) : Tended o drv d t := by
  have e : t.outputs = s.outputs := hp.items .outputs id
  have e2 : t.profiles = s.profiles := hp.items .profiles id
  have e3 : t.engine.part = s.engine.part := hp.items .part id
  refine ⟨h.others.step (outStep_passed o hp), ?_, ?_⟩
  · unfold State.profileOf
    rw [e, e2, e3]
    exact h.drive
  · unfold FaultTold
    rw [e, ((hp.contacts h.others.due).2 _ (faultPoint_not_journal o) (not_owned_none _)).1]
    exact h.fault

/-- An edit of an output, with its drive's laws, that leaves its fault. -/
theorem tended_edit {s : State} (h : OthersLaw o drv s) (hf : FaultTold s o) (y : Output)
    (hyf : y.fault = (nth s.outputs o).fault) (hy : y.holds (s.profileOf y).mode s.engine.part d) :
    Tended o drv d (putOutput o y s) := by
  refine ⟨h.step (outStep_put o y s), ?_, ?_⟩
  · rw [show nth (putOutput o y s).outputs o = y from nth_upd_same _ _ _]
    exact hy
  · unfold FaultTold
    rw [show nth (putOutput o y s).outputs o = y from nth_upd_same _ _ _, hyf]
    exact hf

theorem Tended.edit {s : State} {d' : Bool} (h : Tended o drv d s) (y : Output) (hf : y.fault = (nth s.outputs o).fault)
    (hy : y.holds (s.profileOf y).mode s.engine.part d') : Tended o drv d' (putOutput o y s) :=
  tended_edit h.others h.fault y hf hy

/-- A fault change ends with all the laws (R121). -/
theorem changeFault_laws (f : SupFault) (c : SupCause) {s : State} (h : Tended o drv d s) :
    OutLaws (Function.update drv o d) (changeFault o f c s) := by
  unfold changeFault
  dsimp only
  generalize hy : Output.judge { nth s.outputs o with fault := f, clearing := none } s.supplyPresent s.now = y
  generalize hu : Machine.offer (faultRecord o (nth s.outputs o).fault y c s.stamp) (State.showSup o (putOutput o y s)) = u
  have hp : Passed (putOutput o y s) u := by
    rw [← hu]
    exact frame_trans ((frame_event _).showSup o _) ((frame_event _).offer _ _)
  have ho : OthersLaw o drv u := (h.others.step (outStep_put o y s)).step (outStep_passed o hp)
  have hyf : y.fault = f := by rw [← hy]; rfl
  have hout : ∀ t : State, t.outputs = u.outputs → t.profiles = u.profiles → t.engine.part = u.engine.part → t.supply = u.supply →
      FaultTold t o → OutLaw t d o := by
    intro t e1 e2 e3 e4 hf
    have k1 : nth t.outputs o = y := by
      rw [e1, show u.outputs = (putOutput o y s).outputs from hp.items .outputs id]
      exact nth_upd_same _ _ _
    have k2 : t.profiles = s.profiles := e2.trans (hp.items .profiles id)
    have k3 : t.engine.part = s.engine.part := e3.trans (hp.items .part id)
    have k4 : t.supply = s.supply := e4.trans (hp.items .supply id)
    refine ⟨?_, ?_, hf⟩
    · unfold State.profileOf
      rw [k1, k2, k3, ← hy]
      exact h.drive
    · unfold State.supplyPresent
      rw [k1, k4, ← hy]
      exact judge_timers _ _ _
  have hcon : (nth u.points (faultPoint o)).contact = (nth s.points (faultPoint o)).contact :=
    ((hp.contacts h.others.due).2 _ (faultPoint_not_journal o) (not_owned_none _)).1
  have huo : nth u.outputs o = y := by
    rw [show u.outputs = (putOutput o y s).outputs from hp.items .outputs id]
    exact nth_upd_same _ _ _
  split
  · next e =>
    refine ho.close (hout u rfl rfl rfl rfl ?_)
    unfold FaultTold
    rw [hcon, h.fault, huo, hyf]
    congr 1
    simpa using e
  · have ht := reportCondition_told (faultPoint_not_journal o) (decide (f ≠ .none)) u
    refine (ho.step (outStep_told ht)).close (hout _ (ht.items .outputs id) (ht.items .profiles id) (ht.items .part id)
      (ht.items .supply id) ?_)
    unfold FaultTold
    rw [(ht.contact ho.due).2, show (reportCondition (faultPoint o) (decide (f ≠ .none)) u).outputs = u.outputs from
      ht.items .outputs id, huo, hyf]

/-- Supervision ends with all the laws (R117, R118). -/
theorem supervise_laws {s : State} (h : Tended o drv d s) : OutLaws (Function.update drv o d) (supervise o s) := by
  unfold supervise
  dsimp only
  split
  · exact changeFault_laws _ _ h
  · have k := h.edit (d' := d) ((nth s.outputs o).judge s.supplyPresent s.now) rfl h.drive
    have e : nth (putOutput o ((nth s.outputs o).judge s.supplyPresent s.now) s).outputs o
        = (nth s.outputs o).judge s.supplyPresent s.now := nth_upd_same _ _ _
    refine k.others.close ⟨k.drive, ?_, k.fault⟩
    rw [e]
    exact judge_timers _ _ _

theorem Tended.watch {s : State} (h : Tended o drv d s) : Tended o drv d (watchCurrent o s) := h.edit _ rfl h.drive

/-! ## Energize and de-energize (R99) -/

theorem holds_off {x : Output} (h : x.state = .off) (ht : x.onTimer = none) (hm : x.minPassed = false) (m : Mode) (p : PartState)
    (d : Bool) : x.holds m p d := by
  refine ⟨fun _ => ⟨ht, hm⟩, fun k => absurd h k, fun k => ?_, fun k => ?_, fun k => ?_⟩
  · rw [h] at k; cases k
  · rw [h] at k; cases k
  · rw [hm] at k; cases k

theorem deenergize_laws (c : OutCause) {s : State} (h : OthersLaw o drv s) (hf : FaultTold s o) :
    OutLaws (Function.update drv o d) (deenergize o c s) := by
  unfold deenergize
  dsimp only
  refine supervise_laws (Tended.passed ?_ (tended_edit h hf
    { nth s.outputs o with state := .off, onTimer := none, minPassed := false } rfl (holds_off rfl rfl rfl _ _ d)))
  exact frame_trans ((frame_event _).showOutput o _) ((frame_event _).offer _ _)

theorem energize_laws (st : OutState) (timer : Option Nat) (c : OutCause) {s : State} {d' : Bool} (h : Tended o drv d' s)
    (hy : ({ nth s.outputs o with state := st, onTimer := timer, minPassed := false } : Output).holds
      (s.profileOf (nth s.outputs o)).mode s.engine.part d) : OutLaws (Function.update drv o d) (energize o st timer c s) := by
  unfold energize
  dsimp only
  refine supervise_laws (Tended.watch (Tended.passed ?_ (h.edit { nth s.outputs o with state := st, onTimer := timer, minPassed := false } rfl hy)))
  exact frame_trans ((frame_event _).showOutput o _) ((frame_event _).offer _ _)

/-- A rising drive ends with the laws of a driven output, and with those of one driven as before (R100, R101). -/
theorem risingDrive_laws (c : OutCause) {s : State} (h : OutLaws drv s) (hd : d = true ∨ d = drv o) :
    OutLaws (Function.update drv o d) (risingDrive o c s) := by
  have h0 : OutLaws (Function.update drv o d) s := by
    have k := h.law o
    refine (h.others o).close ⟨?_, k.timers, k.fault⟩
    obtain ⟨k1, k2, k3, k4, k5⟩ := k.drive
    refine ⟨k1, k2, k3, k4, fun hm => ⟨(k5 hm).1, (k5 hm).2.1, ?_⟩⟩
    rcases hd with e | e
    · exact e
    · exact e ▸ (k5 hm).2.2
  have hon : s.engine.part = .inService → (nth s.outputs o).isolated = false → ∀ n, (s.profileOf (nth s.outputs o)).mode ≠ .latch →
      ({ nth s.outputs o with state := .on, onTimer := some n, minPassed := false } : Output).holds
        (s.profileOf (nth s.outputs o)).mode s.engine.part d := fun h1 h2 n h3 =>
    ⟨fun k => OutState.noConfusion k, fun _ => ⟨h1, h2⟩, fun _ => ⟨h3, fun k => by cases k⟩, fun k => OutState.noConfusion k,
      fun k => Bool.noConfusion k⟩
  unfold risingDrive
  dsimp only
  split
  · exact h0.passed ((frame_event _).offer _ _)
  · next hp =>
    split
    · exact h0.passed ((frame_event _).offer _ _)
    · next hi =>
      split
      · exact h0
      · have h1 := not_not.mp hp
        have h2 : (nth s.outputs o).isolated = false := by simpa using hi
        split
        · next hm =>
          refine energize_laws _ _ c (tended_of h o) ⟨fun k => OutState.noConfusion k, fun _ => ⟨h1, h2⟩,
            fun k => OutState.noConfusion k, fun _ => ⟨hm, rfl⟩, fun k => Bool.noConfusion k⟩
        · next hm => exact energize_laws _ _ c (tended_of h o) (hon h1 h2 _ (by rw [hm]; decide))
        · next hm => exact energize_laws _ _ c (tended_of h o) (hon h1 h2 _ (by rw [hm]; decide))

/-- A falling drive ends with the laws of an output that is not driven (R103). -/
theorem fallingDrive_laws {s : State} (h : OutLaws drv s) : OutLaws (Function.update drv o false) (fallingDrive o s) := by
  unfold fallingDrive
  dsimp only
  split
  · exact deenergize_laws _ (h.others o) (h.law o).fault
  · next hn =>
    have k := h.law o
    obtain ⟨k1, k2, k3, k4, k5⟩ := k.drive
    refine (h.others o).close ⟨⟨k1, k2, k3, k4, fun hm => ?_⟩, k.timers, k.fault⟩
    refine absurd ⟨(k5 hm).1, ?_, hm⟩ hn
    rcases hs : (nth s.outputs o).state
    · rw [(k1 hs).2] at hm; cases hm
    · rfl
    · have := (k4 hs).1
      rw [(k5 hm).1] at this
      cases this

/-- The on-timer's deadline (R102). -/
theorem expireOnTimer_laws {s : State} (h : OutLaws drv s) (hs : (nth s.outputs o).state = .on) (hd : drv o = s.driven o) :
    OutLaws drv (expireOnTimer o s) := by
  obtain ⟨k1, k2, k3, k4, k5⟩ := (h.law o).drive
  have hoff : ∀ {t}, OutLaws (Function.update drv o (drv o)) t → OutLaws drv t := fun {t} k => by
    rwa [Function.update_eq_self] at k
  have hput : OthersLaw o drv (putOutput o { nth s.outputs o with onTimer := none } s) := (h.others o).step (outStep_put o _ s)
  have hfault : FaultTold (putOutput o { nth s.outputs o with onTimer := none } s) o := by
    unfold FaultTold
    rw [show nth (putOutput o { nth s.outputs o with onTimer := none } s).outputs o = _ from nth_upd_same _ _ _]
    exact (h.law o).fault
  have hde : OutLaws drv (deenergize o .timer (putOutput o { nth s.outputs o with onTimer := none } s)) :=
    hoff (deenergize_laws _ hput hfault)
  unfold expireOnTimer
  dsimp only
  split
  · exact hde
  · next hm =>
    split
    · next hdr =>
      refine OutLaws.passed ((frame_event _).showOutput o _) (hoff ?_)
      have e : nth (putOutput o { nth s.outputs o with onTimer := none, minPassed := true } s).outputs o
          = { nth s.outputs o with onTimer := none, minPassed := true } := nth_upd_same _ _ _
      refine ((h.others o).step (outStep_put o _ s)).close ⟨?_, ?_, ?_⟩
      · rw [e]
        refine ⟨fun k => ?_, k2, fun _ => ⟨(k3 hs).1, fun _ => rfl⟩, fun k => ?_, fun _ => ⟨hm, rfl, hd.trans hdr⟩⟩
        · exact absurd (hs.symm.trans k) (by decide)
        · exact absurd (hs.symm.trans k) (by decide)
      · rw [e]
        obtain ⟨l1, l2, l3, l4⟩ := (h.law o).timers
        exact ⟨l1, l2, l3, l4⟩
      · unfold FaultTold
        rw [e]
        exact (h.law o).fault
    · exact hde
  · next hm => exact absurd hm (k3 hs).1

/-! ## Samples, isolation and profiles -/

theorem same_update {t : State} (h : OutLaws (Function.update drv o (drv o)) t) : OutLaws drv t := by
  rwa [Function.update_eq_self] at h

theorem sampleOutput_laws (c1 c2 : BitVec 24) {s : State} (h : OutLaws drv s) : OutLaws drv (sampleOutput c1 c2 s o) := by
  unfold sampleOutput
  dsimp only
  refine same_update (supervise_laws ?_)
  have k := (tended_of h o).edit { nth s.outputs o with
    feedback := decodeFeedback (c1.getLsbD o.val) (c2.getLsbD o.val)
    seen := (nth s.outputs o).seen || decide (decodeFeedback (c1.getLsbD o.val) (c2.getLsbD o.val) = .current) } rfl (h.law o).drive
  split
  · exact k
  · exact k.passed ((frame_event _).showSup o _)

theorem resumeOutput_laws {s : State} (h : OutLaws drv s) : OutLaws drv (resumeOutput s o) :=
  same_update (supervise_laws (tended_of h o).watch)

theorem resetOutput_laws {s : State} (h : OutLaws drv s) : OutLaws drv (resetOutput s o) := by
  unfold resetOutput
  split
  · exact same_update (deenergize_laws _ (h.others o) (h.law o).fault)
  · exact h

theorem setIsolated_laws (v : Bool) {s : State} (h : OutLaws drv s) (hv : v = true → (nth s.outputs o).state = .off) :
    OutLaws drv (setIsolated v s o) := by
  obtain ⟨k1, k2, k3, k4, k5⟩ := (h.law o).drive
  unfold setIsolated
  dsimp only
  refine same_update (supervise_laws ?_)
  have k := (tended_of h o).edit (d' := drv o) { nth s.outputs o with isolated := v } rfl
    ⟨k1, fun hs => ⟨(k2 hs).1, Bool.eq_false_iff.mpr fun e => hs (hv e)⟩, k3, k4, k5⟩
  split
  · exact k
  · exact k.passed ((frame_event _).showOutput o _)

theorem applyProfile_laws (d : List Byte) {s : State} (h : OutLaws drv s)
    (hv : (nth s.outputs o).state ≠ .off → newSelection d o = (nth s.outputs o).sel) : OutLaws drv (applyProfile d s o) := by
  unfold applyProfile
  dsimp only
  refine same_update (supervise_laws ?_)
  have k := (tended_of h o).edit (d' := drv o) { nth s.outputs o with
    sel := newSelection d o, supervised := (continuityAt d).testBit o.val } rfl ?_
  · split
    · exact k
    · exact k.passed ((frame_event _).showOutput o _)
  · by_cases hs : (nth s.outputs o).state = .off
    · exact holds_off hs (((h.law o).drive).1 hs).1 (((h.law o).drive).1 hs).2 _ _ _
    · have := (h.law o).drive
      unfold State.profileOf at this ⊢
      dsimp only
      rw [hv hs]
      exact this

end one

end Sys2Proof.Machine
end

section
/-! SUPPORT. The outputs' laws through every step: the drives that the trip inputs and the matrix hand on, the orders of the
outputs, the trip supply and the part state. -/

namespace Sys2Proof.Machine

/-- The laws of the outputs, as the matrix drives them. -/
def OutputsSound (s : State) : Prop := OutLaws s.driven s

/-! ## The driving sets -/

theorem driver_congr {s t : State} (h1 : ∀ i, (nth t.inputs i).qualified = (nth s.inputs i).qualified)
    (h2 : ∀ i, t.maskOf i = s.maskOf i) (o : Fin 24) : t.driver o = s.driver o := by
  unfold State.driver State.drives
  simp only [h1, h2]

theorem maskOf_congr {s t : State} (ha : t.active = s.active) (h1 : t.bankA = s.bankA) (h2 : t.bankB = s.bankB) (i : Fin 32) :
    t.maskOf i = s.maskOf i := by
  have hb : ∀ b, t.bank b = s.bank b := fun b => by cases b <;> assumption
  unfold State.maskOf State.activeEntry
  simp only [ha, hb]

/-- An operation that leaves inputs, banks and the active bank leaves every driving set. -/
theorem Frame.driver {F : Item → Prop} {s t : State} (hf : Frame F s t) (h1 : ¬F .inputs) (h2 : ¬F .active) (h3 : ¬F .bankA)
    (h4 : ¬F .bankB) (o : Fin 24) : t.driver o = s.driver o :=
  driver_congr (fun i => by rw [show t.inputs = s.inputs from hf.items .inputs h1])
    (maskOf_congr (hf.items .active h2) (hf.items .bankA h3) (hf.items .bankB h4)) o

theorem Frame.driven {F : Item → Prop} {s t : State} (hf : Frame F s t) (h1 : ¬F .inputs) (h2 : ¬F .active) (h3 : ¬F .bankA)
    (h4 : ¬F .bankB) : t.driven = s.driven :=
  funext fun o => congrArg Option.isSome (hf.driver h1 h2 h3 h4 o)

theorem driven_of_none {s : State} (h : ∀ i, (nth s.inputs i).qualified = false) : s.driven = fun _ => false := by
  funext o
  unfold State.driven State.driver State.drives
  simp [h]

/-- The items that the outputs' laws rest on. -/
def outputItems (x : Item) : Prop :=
  x = .outputs ∨ x = .profiles ∨ x = .part ∨ x = .supply ∨ x = .inputs ∨ x = .active ∨ x = .bankA ∨ x = .bankB

theorem OutputsSound.frame {F : Item → Prop} {s t : State} (h : OutputsSound s) (hf : Frame F s t)
    (hF : ∀ x, outputItems x → ¬F x) : OutputsSound t := by
  unfold OutputsSound at h ⊢
  rw [hf.driven (hF _ (by simp [outputItems])) (hF _ (by simp [outputItems])) (hF _ (by simp [outputItems]))
    (hF _ (by simp [outputItems]))]
  exact h.frame hf (hF _ (by simp [outputItems])) (hF _ (by simp [outputItems])) (hF _ (by simp [outputItems]))
    (hF _ (by simp [outputItems]))

theorem OutputsSound.passed {s t : State} (hp : Passed s t) (h : OutputsSound s) : OutputsSound t := h.frame hp fun _ _ => id

/-- An event of the outputs that keeps their laws under the driving sets as they were. -/
theorem outputsSound_of_laws {s t : State} (hf : Frame (· = .outputs) s t) (h : OutLaws s.driven t) : OutputsSound t := by
  unfold OutputsSound
  rw [hf.driven (by simp) (by simp) (by simp) (by simp)]
  exact h

/-- A sequence of operations on outputs, each of which keeps the laws whatever is driven. -/
theorem outLaws_foldl {α : Type} {drv : Fin 24 → Bool} (f : State → α → State) (l : List α) {s : State}
    (hf : ∀ s a, a ∈ l → OutLaws drv s → OutLaws drv (f s a)) (h : OutLaws drv s) : OutLaws drv (l.foldl f s) :=
  List.foldlRecOn l f (motive := OutLaws drv) h fun u hu a ha => hf u a ha hu

/-! ## What supervision leaves of its output -/

/-- The outputs keep their states and selections. -/
def StatesKept (s t : State) : Prop :=
  ∀ o, (nth t.outputs o).state = (nth s.outputs o).state ∧ (nth t.outputs o).sel = (nth s.outputs o).sel

theorem statesKept_trans {s t u : State} (h : StatesKept s t) (k : StatesKept t u) : StatesKept s u := fun o =>
  ⟨(k o).1.trans (h o).1, (k o).2.trans (h o).2⟩

theorem statesKept_passed {s t : State} (h : Passed s t) : StatesKept s t := fun o => by
  rw [show t.outputs = s.outputs from h.items .outputs id]
  exact ⟨rfl, rfl⟩

theorem statesKept_put {o : Fin 24} {y : Output} {s : State} (h1 : y.state = (nth s.outputs o).state)
    (h2 : y.sel = (nth s.outputs o).sel) : StatesKept s (putOutput o y s) := fun q => by
  rw [show (putOutput o y s).outputs = upd s.outputs o y from rfl, nth_upd]
  split
  · next e => exact e ▸ ⟨h1, h2⟩
  · exact ⟨rfl, rfl⟩

theorem changeFault_kept (o : Fin 24) (f : SupFault) (c : SupCause) (s : State) : StatesKept s (changeFault o f c s) := by
  unfold changeFault
  dsimp only
  have h1 : StatesKept s (putOutput o (Output.judge { nth s.outputs o with fault := f, clearing := none } s.supplyPresent s.now) s) :=
    statesKept_put rfl rfl
  generalize putOutput o (Output.judge { nth s.outputs o with fault := f, clearing := none } s.supplyPresent s.now) s = v at h1
  have h2 : ∀ r, StatesKept s (Machine.offer r (State.showSup o v)) := fun r =>
    statesKept_trans h1 (statesKept_passed (frame_trans ((frame_event _).showSup o v) ((frame_event _).offer r _)))
  split
  · exact h2 _
  · intro q
    rw [show (reportCondition (faultPoint o) _ _).outputs = _ from
      (reportCondition_told (faultPoint_not_journal o) _ _).items .outputs id]
    exact h2 _ q

theorem supervise_kept (o : Fin 24) (s : State) : StatesKept s (supervise o s) := by
  unfold supervise
  dsimp only
  split
  · exact changeFault_kept o _ _ s
  · exact statesKept_put rfl rfl

theorem setIsolated_kept (v : Bool) (s : State) (o : Fin 24) : StatesKept s (setIsolated v s o) := by
  unfold setIsolated
  dsimp only
  refine statesKept_trans ?_ (supervise_kept o _)
  have h1 : StatesKept s (putOutput o { nth s.outputs o with isolated := v } s) := statesKept_put rfl rfl
  split
  · exact h1
  · exact statesKept_trans h1 (statesKept_passed ((frame_event _).showOutput o _))

/-! ## Orders of the outputs (R108 to R113) -/

theorem orderRemoteTrip_laws (d : List Byte) {drv : Fin 24 → Bool} {s : State} (h : OutLaws drv s) :
    OutLaws drv (orderRemoteTrip d s).1 := by
  unfold orderRemoteTrip
  dsimp only
  split
  · exact h
  · exact outLaws_foldl _ _ (fun u o _ hu => same_update (risingDrive_laws .remote hu (.inr rfl))) h

theorem orderResetLockout_laws (d : List Byte) {drv : Fin 24 → Bool} {s : State} (h : OutLaws drv s) :
    OutLaws drv (orderResetLockout d s).1 := by
  unfold orderResetLockout
  dsimp only
  split
  · exact h
  · exact outLaws_foldl _ _ (fun u o _ hu => resetOutput_laws hu) h

theorem isolate_laws (k : OrderKind) (v : Bool) (m : Nat) {drv : Fin 24 → Bool} {s : State} (h : OutLaws drv s)
    (hv : v = true → ∀ o ∈ named m, (nth s.outputs o).state = .off) : OutLaws drv (isolate k v m s) := by
  have h1 : OutLaws drv ((named m).foldl (setIsolated v) s) ∧ StatesKept s ((named m).foldl (setIsolated v) s) :=
    List.foldlRecOn (named m) (setIsolated v) (motive := fun t => OutLaws drv t ∧ StatesKept s t) ⟨h, fun _ => ⟨rfl, rfl⟩⟩
      fun u ⟨hu, hk⟩ o ho => ⟨setIsolated_laws v hu fun e => (hk o).1.trans (hv e o ho),
        statesKept_trans hk (setIsolated_kept v u o)⟩
  unfold isolate
  dsimp only
  exact h1.1.passed ((frame_event _).offer _ _)

theorem orderIsolate_laws (d : List Byte) {drv : Fin 24 → Bool} {s : State} (h : OutLaws drv s) :
    OutLaws drv (orderIsolate d s).1 := by
  unfold orderIsolate
  dsimp only
  split
  · exact h
  · split
    · exact h
    · next e =>
      refine isolate_laws _ _ _ h fun _ o ho => ?_
      have := List.find?_eq_none.mp e o ho
      simpa [Output.energized] using this

theorem orderRestore_laws (d : List Byte) {drv : Fin 24 → Bool} {s : State} (h : OutLaws drv s) :
    OutLaws drv (orderRestore d s).1 := by
  unfold orderRestore
  dsimp only
  split
  · exact h
  · split
    · exact h
    · exact isolate_laws _ _ _ h fun e => absurd e (by decide)

/-- The selections of the energized outputs are those the order gives (R108). -/
def SelectionsFit (d : List Byte) (s : State) : Prop :=
  ∀ o, (nth s.outputs o).state ≠ .off → newSelection d o = (nth s.outputs o).sel

theorem applyProfile_fit (d : List Byte) (s : State) (o : Fin 24) (h : SelectionsFit d s) : SelectionsFit d (applyProfile d s o) := by
  have h1 : SelectionsFit d (putOutput o { nth s.outputs o with
      sel := newSelection d o, supervised := (continuityAt d).testBit o.val } s) := by
    intro q
    rw [show ∀ y, (putOutput o y s).outputs = upd s.outputs o y from fun _ => rfl, nth_upd]
    split
    · next e => exact fun _ => e ▸ rfl
    · exact h q
  have hk : ∀ {t u : State}, SelectionsFit d t → StatesKept t u → SelectionsFit d u := fun ht hu q hq =>
    (ht q ((hu q).1 ▸ hq)).trans (hu q).2.symm
  unfold applyProfile
  dsimp only
  refine hk ?_ (supervise_kept o _)
  split
  · exact h1
  · exact hk h1 (statesKept_passed ((frame_event _).showOutput o _))

theorem orderSetProfiles_laws (d : List Byte) {drv : Fin 24 → Bool} {s : State} (h : OutLaws drv s) :
    OutLaws drv (orderSetProfiles d s).1 := by
  unfold orderSetProfiles
  split
  · exact h
  · exact h
  · exact h
  · next _ _ e =>
    have hfit : ∀ o, (nth s.outputs o).state ≠ .off → newSelection d o = (nth s.outputs o).sel
        ∧ nth (newProfiles d) (nth s.outputs o).sel = nth s.profiles (nth s.outputs o).sel := fun o ho => by
      have := List.find?_eq_none.mp e o (List.mem_finRange o)
      simpa [energizedChange, Output.energized, ho] using this
    have h1 : OutLaws drv { s with profiles := newProfiles d } := by
      refine ⟨h.due, fun o => ⟨?_, (h.law o).timers, (h.law o).fault⟩⟩
      by_cases ho : (nth s.outputs o).state = .off
      · obtain ⟨k1, k2⟩ := (h.law o).drive.1 ho
        exact holds_off ho k1 k2 _ _ _
      · have := (h.law o).drive
        unfold State.profileOf at this ⊢
        dsimp only
        rw [(hfit o ho).2]
        exact this
    have h2 : Passed { s with profiles := newProfiles d }
        ((List.finRange 4).foldl (fun t p => State.showProfile p t) { s with profiles := newProfiles d }) :=
      (frame_event _).foldl _ _ _ fun u p _ => (frame_event _).showProfile p u
    dsimp only
    refine OutLaws.passed ((frame_event _).offer _ _) ?_
    refine (List.foldlRecOn (List.finRange 24) (applyProfile d) (motive := fun t => OutLaws drv t ∧ SelectionsFit d t)
      ⟨h1.passed h2, fun o => ?_⟩ fun u ⟨hu, hk⟩ o _ => ⟨applyProfile_laws d hu (hk o), applyProfile_fit d u o hk⟩).1
    rw [show ((List.finRange 4).foldl (fun t p => State.showProfile p t) { s with profiles := newProfiles d }).outputs = s.outputs
      from h2.items .outputs id]
    exact fun ho => (hfit o ho).1

/-! ## The matrix hands on its edges (R93) -/

theorem handEdge_laws (before : Vector (Option (Fin 32)) 24) {drv : Fin 24 → Bool} {s : State} {o : Fin 24} (h : OutLaws drv s)
    (hb : drv o = (nth before o).isSome) : OutLaws (Function.update drv o (s.driver o).isSome) (handEdge before s o) := by
  have hs : OutLaws drv (State.showOutput o s) := h.passed ((frame_event _).showOutput o s)
  have hsame : (s.driver o).isSome = drv o → Function.update drv o (s.driver o).isSome = drv := fun e => by
    rw [e, Function.update_eq_self]
  unfold handEdge
  dsimp only
  split
  · next e =>
    rw [hsame (by rw [hb, e])]
    exact h
  · split
    · next i _ e =>
      rw [e]
      exact risingDrive_laws (.matrix i) hs (.inl rfl)
    · next e =>
      rw [e]
      exact fallingDrive_laws hs
    · next hn1 hn2 =>
      rw [hsame ?_]
      · exact hs
      · rw [hb]
        rcases hx : nth before o with _ | i <;> rcases hy : s.driver o with _ | j
        · rfl
        · exact absurd hy (hn1 j hx)
        · exact absurd hy (hn2 i hx)
        · rfl

/-- The edges of all outputs, each driven afterwards as the matrix drives it now. -/
theorem handEdges_laws (before : Vector (Option (Fin 32)) 24) (now : Fin 24 → Option (Fin 32)) (l : List (Fin 24)) (hn : l.Nodup)
    (drv : Fin 24 → Bool) {s : State} (h : OutLaws drv s) (hb : ∀ o ∈ l, drv o = (nth before o).isSome)
    (hs : ∀ o, s.driver o = now o) :
    OutLaws (fun o => if o ∈ l then (now o).isSome else drv o) (l.foldl (handEdge before) s) := by
  induction l generalizing s drv with
  | nil => simpa using h
  | cons o l ih =>
    obtain ⟨ho, hn⟩ := List.nodup_cons.mp hn
    have hne : ∀ q ∈ l, q ≠ o := fun q hq e => ho (e ▸ hq)
    have hf : Frame (· = .outputs) s (handEdge before s o) :=
      (frame_event (· = .outputs)).handEdge rfl (ownReport_fault rfl) before s o
    have k := ih hn (Function.update drv o (s.driver o).isSome) (handEdge_laws before h (hb o (by simp)))
      (fun q hq => by rw [Function.update_of_ne (hne q hq)]; exact hb q (by simp [hq]))
      fun q => (hf.driver (by simp) (by simp) (by simp) (by simp) q).trans (hs q)
    rw [List.foldl_cons]
    refine cast (congrArg (OutLaws · _) (funext fun q => ?_)) k
    by_cases e : q = o
    · subst e
      simp [ho, hs]
    · simp [e]

theorem qualify_outputs (i : Fin 32) {s : State} (h : OutputsSound s) : OutputsSound (qualify i s) := by
  unfold qualify
  dsimp only
  generalize hu : Machine.offer _ _ = u
  have hf : Frame (· = .inputs) s u := by
    rw [← hu]
    exact frame_trans (frame_trans ((frame_event (· = .inputs)).inputs rfl s _) ((frame_event _).showInput i _))
      ((frame_event _).offer _ _)
  have h1 : OutLaws s.driven u := OutLaws.frame h hf (by simp) (by simp) (by simp) (by simp)
  have h2 := handEdges_laws s.drivers u.driver (List.finRange 24) (List.nodup_finRange 24) s.driven h1
    (fun o _ => congrArg Option.isSome (nth_tab 24 (fun o => s.driver o) o).symm) fun _ => rfl
  have h3 : OutLaws u.driven ((List.finRange 24).foldl (handEdge s.drivers) u) := by
    refine cast (congrArg (OutLaws · _) (funext fun o => ?_)) h2
    rw [if_pos (List.mem_finRange o)]
    rfl
  have hf2 : Frame (· = .outputs) u ((List.finRange 24).foldl (handEdge s.drivers) u) :=
    (frame_event _).foldl _ _ _ fun v o _ => (frame_event (· = .outputs)).handEdge rfl (ownReport_fault rfl) _ v o
  have h4 := outputsSound_of_laws hf2 h3
  have ht : ∀ c t st a (v : State), OutputsSound v → OutputsSound (takeContact (tripPoint i) c t st a v) := by
    intro c t st a v hv
    have hj : ¬journalPoint (tripPoint i) := by
      rintro (e | e) <;> exact absurd (congrArg Fin.val e) (by simp only [tripPoint]; omega)
    have k := takeContact_told hj c t st a v
    have hdr : (takeContact (tripPoint i) c t st a v).driven = v.driven := funext fun o => congrArg Option.isSome
      (driver_congr (fun i => by rw [k.items .inputs id]) (maskOf_congr (k.items .active id) (k.items .bankA id) (k.items .bankB id)) o)
    unfold OutputsSound
    rw [hdr]
    refine OutLaws.same hv (k.items .outputs id) (k.items .profiles id) (k.items .part id) ?_ (k.contact hv.due).1 fun o =>
      (k.others hv.due _ (fun e => absurd (congrArg Fin.val e) (by simp only [tripPoint, faultPoint]; omega))
        (faultPoint_not_journal o)).1
    unfold State.supplyPresent
    rw [show (takeContact (tripPoint i) c t st a v).supply = v.supply from k.items .supply id]
  exact ht _ _ _ _ _ h4

/-- A change of the inputs that leaves what is qualified. -/
theorem outputs_of_inputs {s t : State} (h : OutputsSound s) (hf : Frame (· = .inputs) s t)
    (hq : ∀ i, (nth t.inputs i).qualified = (nth s.inputs i).qualified) : OutputsSound t := by
  unfold OutputsSound
  rw [show t.driven = s.driven from funext fun o => congrArg Option.isSome (driver_congr hq
    (maskOf_congr (hf.items .active (by simp)) (hf.items .bankA (by simp)) (hf.items .bankB (by simp))) o)]
  exact OutLaws.frame h hf (by simp) (by simp) (by simp) (by simp)

theorem sampled_qualified (x : TripInput) (l : Bool) (q : Nat) (m : Receipt) : (x.sampled l q m).qualified = x.qualified := by
  unfold TripInput.sampled
  dsimp only
  split <;> rfl

theorem sampleInput_outputs (lines : BitVec 32) (s : State) (i : Fin 32) (h : OutputsSound s) :
    OutputsSound (sampleInput lines s i) := by
  unfold sampleInput
  dsimp only
  have hy := sampled_qualified (nth s.inputs i) (lines.getLsbD i.val) (s.qOf i) s.moment
  generalize TripInput.sampled (nth s.inputs i) (lines.getLsbD i.val) (s.qOf i) s.moment = y at hy
  have h1 : OutputsSound { s with inputs := upd s.inputs i y } :=
    outputs_of_inputs h ((frame_event (· = .inputs)).inputs rfl s _) fun j => by
      dsimp only
      rw [nth_upd]
      split
      · next e => exact e ▸ hy
      · rfl
  have h2 : OutputsSound (if (nth s.inputs i).shows y = true then
      State.showInput i { s with inputs := upd s.inputs i y } else { s with inputs := upd s.inputs i y }) := by
    split
    · exact h1.passed ((frame_event _).showInput i _)
    · exact h1
  split
  · exact qualify_outputs i h2
  · exact h2

end Sys2Proof.Machine
end

section
/-! SUPPORT. The outputs' laws through the trip supply, the banks and the part state, and through every step. -/

namespace Sys2Proof.Machine

/-! ## Segment reads (R171, R172) -/

/-- A bank's contents that an end of LOAD MATRIX can leave (R89). -/
def bankFits (x : Bank) : Prop := x.state ≠ .loading ∧ ∀ i, 1 ≤ (nth x.entries i).q ∧ (nth x.entries i).q ≤ 15

/-- What the owner of a long order leaves when it ends the order. -/
def imageEnded (o : ImageOrder) (s u : State) : Prop :=
  match o with
  | .loadPoints => u = s ∨ ∃ bs, u = applyPoints bs s
  | .loadMatrix => ∃ x r n, bankFits x ∧ u = endMatrix s.standby x r n s

theorem bankFits_empty : bankFits {} := ⟨by decide, fun i => by
  rw [show nth ({} : Bank).entries i = {} from nth_replicate _ i]
  exact ⟨le_refl _, by decide⟩⟩

theorem bankFits_image (bs : List Byte) : bankFits { state := .valid, entries := imageEntries bs } := by
  refine ⟨fun k => BankState.noConfusion k, fun i => ?_⟩
  dsimp only
  rw [imageEntries_q]
  split
  · exact ⟨le_refl _, by decide⟩
  · split <;> omega

theorem refuseChain_ended (o : ImageOrder) (r : Result) (d : List Byte) (s : State) : imageEnded o s (refuseChain o r d s).1 := by
  cases o
  · exact .inl rfl
  · exact ⟨{}, r, 0, bankFits_empty, rfl⟩

theorem completeImage_ended (o : ImageOrder) (bs : List Byte) (s : State) : imageEnded o s (completeImage o bs s).1 := by
  cases o
  · exact (completePoints_fst bs s).imp id fun e => ⟨bs, e⟩
  · unfold completeImage
    dsimp only
    unfold completeMatrix
    dsimp only
    split
    · exact ⟨{}, _, _, bankFits_empty, rfl⟩
    · split
      · exact ⟨{}, _, _, bankFits_empty, rfl⟩
      · exact ⟨_, _, _, bankFits_image bs, rfl⟩

/-- A segment read leaves everything, sets the order in flight on, or ends it (R170, R171). -/
theorem segmentRead_outcome {o : ImageOrder} {s t : State} (he : exec (.segmentRead o) s = .next t) :
    t = s ∨ ∃ j, s.job o = some j ∧ ((∃ j', j'.slot = j.slot ∧ t = s.setJob o (some j'))
      ∨ ∃ u r d, imageEnded o s u ∧ t = finish j.slot r d (u.setJob o none)) := by
  simp only [exec, execSegmentRead, Host.Outcome.next.injEq] at he; subst he
  split
  · exact .inl rfl
  · next j e =>
    split
    · refine .inr ⟨j, e, ?_⟩
      unfold readSegment
      dsimp only
      split
      · exact .inr ⟨_, _, _, refuseChain_ended o _ _ s, rfl⟩
      · split
        · exact .inr ⟨_, _, _, completeImage_ended o _ s, rfl⟩
        · exact .inl ⟨{ j with
            page := (s.mem.readWord (256 * j.page + 4)).toNat, index := j.index + 1,
            payload := j.payload ++ s.mem.readBytes (256 * j.page + 8) (s.mem.readWord (256 * j.page + 2)).toNat,
            nextRead := s.now + 1 }, rfl, rfl⟩
    · exact .inl rfl

/-- The end of a LOAD POINTS touches settings only. -/
theorem imageEnded_frame {s u : State} (h : imageEnded .loadPoints s u) : Frame (· = .settings) s u := by
  unfold imageEnded at h
  rcases h with e | ⟨bs, e⟩
  · rw [e]
    exact frame_refl s
  · rw [e]
    have hF := (frame_alarm (· = .settings)).applyPoints (fun v n => frame_same rfl rfl fun x _ => x.same_refl v) bs s
    refine frame_trans ?_ hF
    refine ⟨fun x hx => ?_, fun hd => ⟨hd, fun p _ _ => ?_⟩⟩
    · cases x <;> first | exact absurd rfl hx | exact rfl
    · unfold sameContact
      simp

/-- What a segment read of a LOAD POINTS leaves as it was. -/
theorem segmentRead_points_frame {s t : State} (he : exec (.segmentRead .loadPoints) s = .next t) :
    Frame (fun x => x = .settings ∨ x = .pointsJob) s t := by
  have hE := frame_event fun x => x = Item.settings ∨ x = .pointsJob
  rcases segmentRead_outcome he with rfl | ⟨j, _, ⟨j', _, rfl⟩ | ⟨u, r, d, hu, rfl⟩⟩
  · exact frame_refl t
  · exact hE.pointsJob (.inr rfl) s _
  · exact frame_trans ((imageEnded_frame hu).mono fun _ => .inl) (hE.back (hE.finish _ _ _ _) (hE.pointsJob (.inr rfl) u none))

/-! ## The trip supply -/

/-- Other items of the supply, when every timer agrees with the new state. -/
theorem putSupply_laws {drv : Fin 24 → Bool} (x : Supply) {s : State} (h : OutLaws drv s)
    (hx : ∀ o, TimerLaw (nth s.outputs o) (decide (x.state = .present))) : OutLaws drv (putSupply x s) := by
  have h1 : OutLaws drv { s with supply := x } := ⟨h.due, fun o => ⟨(h.law o).drive, hx o, (h.law o).fault⟩⟩
  unfold putSupply
  dsimp only
  split
  · exact h1
  · exact h1.passed ((frame_event _).showSupply _)

/-- The supply PRESENT or not as before. -/
theorem putSupply_same_laws {drv : Fin 24 → Bool} (x : Supply) {s : State} (h : OutLaws drv s)
    (hx : x.state = .present ↔ s.supply.state = .present) : OutLaws drv (putSupply x s) :=
  putSupply_laws x h fun o => by
    have := (h.law o).timers
    unfold State.supplyPresent at this
    simpa only [hx] using this

theorem reportSupply_laws {drv : Fin 24 → Bool} (b : Bool) {s : State} (h : OutLaws drv s) : OutLaws drv (reportCondition 255 b s) := by
  have k := reportCondition_told (p := 255) (by decide) b s
  refine h.same (k.items .outputs id) (k.items .profiles id) (k.items .part id) ?_ (k.contact h.due).1 fun o =>
    (k.others h.due _ (fun e => absurd (congrArg Fin.val e) (by simp only [faultPoint]; omega)) (faultPoint_not_journal o)).1
  unfold State.supplyPresent
  rw [show (reportCondition 255 b s).supply = s.supply from k.items .supply id]

theorem loseSupply_laws {drv : Fin 24 → Bool} {s : State} (h : OutLaws drv s) : OutLaws drv (loseSupply s) := by
  unfold loseSupply
  dsimp only
  refine reportSupply_laws true (OutLaws.passed ((frame_event _).offer _ _) ?_)
  have ho : (putSupply { state := .lost, absence := 0, settle := none } s).outputs = s.outputs :=
    (putSupply_frame _ s).items .outputs (by simp)
  have hp : (putSupply { state := .lost, absence := 0, settle := none } s).profiles = s.profiles :=
    (putSupply_frame _ s).items .profiles (by simp)
  have he : (putSupply { state := .lost, absence := 0, settle := none } s).engine.part = s.engine.part :=
    (putSupply_frame _ s).items .part (by simp)
  have hsup := putSupply_supply { state := .lost, absence := 0, settle := none } s
  obtain ⟨hd, hc⟩ := (putSupply_frame { state := .lost, absence := 0, settle := none } s).contacts h.due
  have hcon : ∀ o, (nth (putSupply { state := .lost, absence := 0, settle := none } s).points (faultPoint o)).contact
      = (nth s.points (faultPoint o)).contact := fun o => (hc _ (faultPoint_not_journal o) fun ⟨x, hx, hx'⟩ => by
    rw [owner_faultPoint] at hx
    exact Item.noConfusion ((Option.some.inj hx).trans hx')).1
  generalize putSupply { state := .lost, absence := 0, settle := none } s = u at ho hp he hsup hd hcon
  refine ⟨hd, fun o => ⟨?_, ?_, ?_⟩⟩
  · unfold State.profileOf
    dsimp only
    rw [nth_tab, ho, hp, he]
    exact (h.law o).drive
  · unfold State.supplyPresent
    dsimp only
    rw [nth_tab, hsup]
    exact judge_timers _ _ _
  · unfold FaultTold
    dsimp only
    rw [nth_tab, hcon, ho]
    exact (h.law o).fault

theorem sampleSupply_laws (b : Bool) {drv : Fin 24 → Bool} {s : State} (h : OutLaws drv s) : OutLaws drv (sampleSupply b s) := by
  unfold sampleSupply
  split
  · next e =>
    unfold returnSupply
    dsimp only
    exact reportSupply_laws false (OutLaws.passed ((frame_event _).offer _ _) (putSupply_same_laws _ h (by simp [e])))
  · exact h
  · exact putSupply_same_laws _ h Iff.rfl
  · dsimp only
    have h1 := putSupply_same_laws { s.supply with absence := s.supply.absence + 1 } h Iff.rfl
    split
    · exact loseSupply_laws h1
    · exact h1

theorem settleSupply_laws {drv : Fin 24 → Bool} {s : State} (h : OutLaws drv s) (he : s.supply.state = .settling) :
    OutLaws drv (settleSupply s) := by
  have hp : s.supplyPresent = false := by simp [State.supplyPresent, he]
  have h1 : OutLaws drv (putSupply { s.supply with state := .present, settle := none } s) :=
    putSupply_laws _ h fun o => by
      obtain ⟨k1, k2, k3, k4⟩ := (h.law o).timers
      rw [hp] at k1 k2 k3 k4
      exact ⟨fun k => absurd (k1 k).1 (by decide), fun k => absurd (k2 k).1 (by decide), fun k => absurd (k3 k).1 (by decide),
        fun k => absurd (k4 k).1 (by decide)⟩
  unfold settleSupply
  dsimp only
  exact outLaws_foldl _ _ (fun u o _ hu => resumeOutput_laws hu) (h1.passed ((frame_event _).offer _ _))

/-- What the supply's commands leave of the driving sets. -/
theorem outputsSound_of_supply {s t : State} (hf : Frame (fun x => x = .supply ∨ x = .outputs) s t) (h : OutLaws s.driven t) :
    OutputsSound t := by
  unfold OutputsSound
  rw [hf.driven (by simp) (by simp) (by simp) (by simp)]
  exact h

/-! ## Banks -/

theorem maskOf_setBank_standby (x : Bank) (s : State) (i : Fin 32) : (s.setBank s.standby x).maskOf i = s.maskOf i := by
  unfold State.maskOf State.activeEntry State.standby
  rcases h : s.active with _ | _ | _ <;> simp [State.setBank, State.bank, h]

theorem setBank_outputs (x : Bank) {s : State} (h : OutputsSound s) : OutputsSound (s.setBank s.standby x) := by
  have hf : Frame (fun x => x = .bankA ∨ x = .bankB) s (s.setBank s.standby x) :=
    (frame_event _).setBank (.inl rfl) (.inr rfl) _ x s
  unfold OutputsSound
  rw [show (s.setBank s.standby x).driven = s.driven from funext fun o => congrArg Option.isSome (driver_congr
    (fun i => by rw [show (s.setBank s.standby x).inputs = s.inputs from hf.items .inputs (by simp)])
    (maskOf_setBank_standby x s) o)]
  exact OutLaws.frame h hf (by simp) (by simp) (by simp) (by simp)

theorem endMatrix_outputs (x : Bank) (r : Result) (n : Nat) {s : State} (h : OutputsSound s) :
    OutputsSound (endMatrix s.standby x r n s) := by
  unfold endMatrix
  dsimp only
  exact (setBank_outputs x h).passed (frame_trans ((frame_event _).showMatrix _) ((frame_event _).offer _ _))

theorem segmentRead_matrix_outputs {s t : State} (he : exec (.segmentRead .loadMatrix) s = .next t) (h : OutputsSound s) :
    OutputsSound t := by
  have hE := frame_event (· = .matrixJob)
  have hm : ∀ x, outputItems x → ¬x = .matrixJob := by
    rintro x hx rfl
    simp [outputItems] at hx
  rcases segmentRead_outcome he with rfl | ⟨j, _, ⟨j', _, rfl⟩ | ⟨u, r, d, ⟨x, r', n, _, rfl⟩, rfl⟩⟩
  · exact h
  · exact h.frame (hE.matrixJob rfl s _) hm
  · exact (endMatrix_outputs x r' n h).frame (hE.back (hE.finish _ _ _ _) (hE.matrixJob rfl _ none)) hm

theorem orderLoadMatrix_outputs (n : Fin 16) (d : List Byte) {s : State} (h : OutputsSound s) :
    OutputsSound (orderLoadMatrix n d s).1 := by
  unfold orderLoadMatrix
  split
  · exact h
  · dsimp only
    refine (setBank_outputs { state := .loading } h).frame (F := (· = .matrixJob)) ?_ (by rintro x hx rfl; simp [outputItems] at hx)
    exact frame_trans ((frame_event (· = .matrixJob)).matrixJob rfl _ _) ((frame_event _).showMatrix _)

theorem showNewCount_qualified (s : State) (i j : Fin 32) :
    (nth (showNewCount s i).inputs j).qualified = (nth s.inputs j).qualified := by
  unfold showNewCount
  dsimp only
  split
  · rfl
  · rw [State.showInput_inputs, nth_upd]
    split
    · next e => exact e ▸ rfl
    · rfl

theorem orderSwitchBank_outputs {s : State} (h : OutputsSound s) : OutputsSound (orderSwitchBank s).1 := by
  unfold orderSwitchBank
  dsimp only
  split
  · exact h
  · split
    · exact h
    · split
      · exact h
      · next e =>
        have hq : ∀ i, (nth s.inputs i).qualified = false := fun i => by
          simpa using List.find?_eq_none.mp e i (List.mem_finRange i)
        dsimp only
        refine OutputsSound.passed ((frame_event _).offer _ _) ?_
        generalize hv : State.showMatrix (State.showActive { s with active := some s.standby }) = v
        have hf : Frame (fun x => x = .active ∨ x = .inputs) s ((List.finRange 32).foldl showNewCount v) := by
          rw [← hv]
          refine frame_trans (frame_trans (frame_trans ((frame_event _).active (.inl rfl) s (some s.standby)) ((frame_event _).showActive _))
            ((frame_event _).showMatrix _)) ?_
          exact (frame_event _).foldl _ _ _ fun u i _ => (frame_event _).showNewCount (.inr rfl) u i
        have hq' : ∀ i, (nth ((List.finRange 32).foldl showNewCount v).inputs i).qualified = false :=
          List.foldlRecOn _ showNewCount (motive := fun t : State => ∀ i, (nth t.inputs i).qualified = false)
            (by rw [← hv]; exact hq) fun u hu i _ j => (showNewCount_qualified u i j).trans (hu j)
        unfold OutputsSound at h ⊢
        rw [driven_of_none hq']
        rw [driven_of_none hq] at h
        exact h.frame hf (by simp) (by simp) (by simp) (by simp)

/-! ## The part state -/

/-- A change of part state to IN_SERVICE, or with every output OFF. -/
theorem part_laws (p : PartState) {drv : Fin 24 → Bool} {s : State} (h : OutLaws drv s)
    (hp : p = .inService ∨ ∀ o, (nth s.outputs o).state = .off) :
    OutLaws drv { s with engine := { s.engine with part := p } } := by
  refine ⟨h.due, fun o => ⟨?_, (h.law o).timers, (h.law o).fault⟩⟩
  obtain ⟨k1, k2, k3, k4, k5⟩ := (h.law o).drive
  refine ⟨k1, fun hs => ⟨?_, (k2 hs).2⟩, k3, k4, k5⟩
  exact hp.resolve_right fun k => hs (k o)

theorem changePart_outputs (k : OrderKind) (p : PartState) {s : State} (h : OutputsSound s)
    (hp : p = .inService ∨ ∀ o, (nth s.outputs o).state = .off) : OutputsSound (changePart k p s) := by
  have h1 : OutputsSound { s with engine := { s.engine with part := p } } := part_laws p h hp
  unfold changePart
  dsimp only
  exact h1.passed (frame_trans ((frame_event _).showPart _) ((frame_event _).offer _ _))

theorem orderEnterService_outputs {s : State} (h : OutputsSound s) : OutputsSound (orderEnterService s).1 := by
  unfold orderEnterService
  split
  · exact h
  · split
    · exact h
    · split
      · exact h
      · exact changePart_outputs _ _ h (.inl rfl)

theorem orderLeaveService_outputs {s : State} (h : OutputsSound s) : OutputsSound (orderLeaveService s).1 := by
  unfold orderLeaveService
  split
  · exact h
  · split
    · exact h
    · next e =>
      refine changePart_outputs _ _ h (.inr fun o => ?_)
      have := List.find?_eq_none.mp e o (List.mem_finRange o)
      simpa [Output.energized] using this

theorem leaveStarting_outputs {s : State} (h : OutputsSound s) : OutputsSound (leaveStarting s) := by
  unfold leaveStarting
  split
  · next e =>
    have hoff : ∀ o, (nth s.outputs o).state = .off := fun o => by
      by_contra k
      exact absurd (((h.law o).drive.2.1 k).1.symm.trans e) (by decide)
    have h1 : OutputsSound { s with engine := { s.engine with part := .standby } } := part_laws .standby h (.inr hoff)
    exact h1.passed (frame_trans ((frame_event _).showPart _) ((frame_event _).raiseAlert _))
  · exact h

/-! ## Every step -/

theorem outputsSound_order {k : OrderKind} {x : Item} (hk : k.touches x) (hx : outputItems x) (n : Fin 16) (d : List Byte) {s : State}
    (h : OutputsSound s) : OutputsSound (applyOrder k n d s).1 := by
  have hf := fun (e : ∀ x, k.touches x → x = .outputs) => (applyOrder_frame k n d s).mono e
  cases k
  case loadMatrix => exact orderLoadMatrix_outputs n d h
  case switchBank => exact orderSwitchBank_outputs h
  case setProfiles =>
    have hF : Frame (fun x => x = .profiles ∨ x = .outputs) s (applyOrder .setProfiles n d s).1 := applyOrder_frame .setProfiles n d s
    unfold OutputsSound
    rw [hF.driven (by simp) (by simp) (by simp) (by simp)]
    exact orderSetProfiles_laws d h
  case remoteTrip => exact outputsSound_of_laws (hf fun _ e => e) (orderRemoteTrip_laws d h)
  case resetLockout => exact outputsSound_of_laws (hf fun _ e => e) (orderResetLockout_laws d h)
  case isolateOutputs => exact outputsSound_of_laws (hf fun _ e => e) (orderIsolate_laws d h)
  case restoreOutputs => exact outputsSound_of_laws (hf fun _ e => e) (orderRestore_laws d h)
  case enterService => exact orderEnterService_outputs h
  case leaveService => exact orderLeaveService_outputs h
  all_goals rcases hx with rfl | rfl | rfl | rfl | rfl | rfl | rfl | rfl <;> simp [OrderKind.touches] at hk

theorem outputsSound_plain {c : Instr} (hp : plain c = true) {x : Item} (hc : touches c x) (hx : outputItems x) {s t : State}
    (he : exec c s = .next t) (h : OutputsSound s) : OutputsSound t := by
  have hf := execPlain_frame c hp s t he
  cases c <;> simp only [plain, Bool.false_eq_true] at hp <;> simp only [exec] at he
  case tripInputSample l =>
    simp only [execTripInputSample, Host.Outcome.next.injEq] at he; subst he
    split
    · exact List.foldlRecOn _ (sampleInput l) (motive := OutputsSound) (h.passed ((frame_event _).sched s _)) fun u hu i _ =>
        sampleInput_outputs l u i hu
    · exact h
  case tripInputQualified i =>
    simp only [execTripInputQualified, Host.Outcome.next.injEq] at he; subst he
    split
    · exact qualify_outputs i h
    · exact h
  case onTimerExpiry o =>
    refine outputsSound_of_laws hf ?_
    simp only [execOnTimerExpiry, Host.Outcome.next.injEq] at he; subst he
    split
    · next e => exact expireOnTimer_laws h e.1 rfl
    · exact h
  case feedbackSample c1 c2 =>
    refine outputsSound_of_laws hf ?_
    simp only [execFeedbackSample, Host.Outcome.next.injEq] at he; subst he
    split
    · exact outLaws_foldl _ _ (fun u o _ hu => sampleOutput_laws c1 c2 hu) (OutLaws.passed ((frame_event _).sched s _) h)
    · exact h
  case operateDeadline o =>
    refine outputsSound_of_laws hf ?_
    simp only [execOperateDeadline, Host.Outcome.next.injEq] at he; subst he
    split
    · exact same_update (changeFault_laws _ _ (tended_of h o))
    · exact h
  case releaseDeadline o =>
    refine outputsSound_of_laws hf ?_
    simp only [execReleaseDeadline, Host.Outcome.next.injEq] at he; subst he
    split
    · exact same_update (changeFault_laws _ _ (tended_of h o))
    · exact h
  case openDeadline o =>
    refine outputsSound_of_laws hf ?_
    simp only [execOpenDeadline, Host.Outcome.next.injEq] at he; subst he
    split
    · exact same_update (changeFault_laws _ _ (tended_of h o))
    · exact h
  case clearDeadline o =>
    refine outputsSound_of_laws hf ?_
    simp only [execClearDeadline, Host.Outcome.next.injEq] at he; subst he
    split
    · exact same_update (changeFault_laws _ _ (tended_of h o))
    · exact h
  case supplySample b =>
    refine outputsSound_of_supply hf ?_
    simp only [execSupplySample, Host.Outcome.next.injEq] at he; subst he
    split
    · exact sampleSupply_laws b (OutLaws.passed ((frame_event _).sched s _) h)
    · exact h
  case supplyLost =>
    refine outputsSound_of_supply hf ?_
    simp only [execSupplyLost, Host.Outcome.next.injEq] at he; subst he
    split
    · exact loseSupply_laws h
    · exact h
  case supplySettleDeadline =>
    refine outputsSound_of_supply hf ?_
    simp only [execSupplySettleDeadline, Host.Outcome.next.injEq] at he; subst he
    split
    · next e => exact settleSupply_laws h e.1
    · exact h
  all_goals rcases hx with rfl | rfl | rfl | rfl | rfl | rfl | rfl | rfl <;> simp [touches] at hc

theorem outputsSound_init {s : State} (ho : s.outputs = State.init.outputs) (hd : s.due = []) (hp : s.points = State.init.points) : OutputsSound s := by
  have hout : ∀ o, nth s.outputs o = {} := fun o => by rw [ho]; exact nth_replicate _ o
  refine ⟨dueIn_nil hd, fun o => ⟨?_, ?_, ?_⟩⟩
  · rw [hout]
    exact holds_off rfl rfl rfl _ _ _
  · rw [hout]
    exact ⟨fun k => Bool.noConfusion k, fun k => Bool.noConfusion k, fun k => Bool.noConfusion k, fun k => Bool.noConfusion k⟩
  · unfold FaultTold
    rw [hout, hp]
    refine (congrArg Point.contact (nth_tab _ _ (faultPoint o))).trans ?_
    unfold initContact
    rw [if_neg (by simp only [faultPoint]; omega), if_neg (by simp only [faultPoint]; omega),
      if_neg (by simp only [faultPoint]; omega)]
    rfl

theorem outputsSound_of_step {s t : State} (h : OutputsSound s) (he : step s = .next t) : OutputsSound t := by
  have hF : StepClosed (fun x => ¬outputItems x) fun s t => OutputsSound s → OutputsSound t :=
    .of_frame fun s t hf h => h.frame hf fun _ hx k => k hx
  have hx : ∀ c s t, c ≠ .powerOnReset → c ≠ .resetLine → Machine.exec c s = .next t → OutputsSound s → OutputsSound t := by
    refine fun c s t h1 h2 => hF.exec (fun s h => leaveStarting_outputs h) ?_ ?_ ?_ c s t h1 h2
    · rintro k n d s ⟨x, hx, hn⟩ h
      exact outputsSound_order hx (not_not.mp hn) n d h
    · intro o s t he
      cases o
      · exact fun hs => hs.frame (segmentRead_points_frame he) (by rintro x hx (rfl | rfl) <;> simp [outputItems] at hx)
      · exact segmentRead_matrix_outputs he
    · rintro c s t hp ⟨x, hx, hn⟩ he h
      exact outputsSound_plain hp hx (not_not.mp hn) he h
  exact hF.step (fun _ _ k => ⟨k.due, fun o => ⟨(k.law o).drive, (k.law o).timers, (k.law o).fault⟩⟩)
    (fun _ => outputsSound_init rfl rfl rfl) (fun _ _ => outputsSound_init rfl rfl rfl) hx s t h he

end Sys2Proof.Machine
end

section
/-! SUPPORT. The laws of the banks and of the trip inputs, and points 192 to 223, through every step (R81 to R91). -/

namespace Sys2Proof.Machine

/-! ## Banks -/

/-- The active bank is VALID, and the counts lie in 1-15 (R89, R91). -/
structure BanksBase (s : State) : Prop where
  active : ∀ bk, s.active = some bk → (s.bank bk).state = .valid
  counts : ∀ bk i, 1 ≤ (nth (s.bank bk).entries i).q ∧ (nth (s.bank bk).entries i).q ≤ 15

/-- The laws of the banks (R87 to R91). -/
structure BanksLaw (s : State) : Prop extends BanksBase s where
  loading : ∀ bk, (s.bank bk).state = .loading ↔ s.engine.loadMatrix.isSome = true ∧ bk = s.standby

theorem banksHold_iff (s : State) : s.banksHold ↔ BanksLaw s := by
  constructor
  · rintro ⟨⟨a1, a2, a3⟩, b1, b2, b3⟩
    exact ⟨⟨fun bk => by cases bk <;> assumption, fun bk => by cases bk <;> assumption⟩, fun bk => by cases bk <;> assumption⟩
  · intro h
    exact ⟨⟨h.active .a, h.loading .a, h.counts .a⟩, h.active .b, h.loading .b, h.counts .b⟩

/-- The items that the banks' laws rest on. -/
def bankItems (x : Item) : Prop := x = .bankA ∨ x = .bankB ∨ x = .active ∨ x = .matrixJob

theorem standby_congr {s t : State} (h : t.active = s.active) : t.standby = s.standby := by unfold State.standby; rw [h]

theorem bank_congr {s t : State} (h1 : t.bankA = s.bankA) (h2 : t.bankB = s.bankB) (bk : BankId) : t.bank bk = s.bank bk := by
  cases bk <;> assumption

theorem BanksBase.same {s t : State} (h : BanksBase s) (h1 : t.bankA = s.bankA) (h2 : t.bankB = s.bankB)
    (h3 : t.active = s.active) : BanksBase t where
  active bk k := by
    rw [bank_congr h1 h2]
    exact h.active bk (h3 ▸ k)
  counts bk := by
    rw [bank_congr h1 h2]
    exact h.counts bk

theorem BanksLaw.same {s t : State} (h : BanksLaw s) (h1 : t.bankA = s.bankA) (h2 : t.bankB = s.bankB) (h3 : t.active = s.active)
    (h4 : t.engine.loadMatrix.isSome = s.engine.loadMatrix.isSome) : BanksLaw t where
  toBanksBase := h.toBanksBase.same h1 h2 h3
  loading bk := by
    rw [bank_congr h1 h2, standby_congr h3, h4]
    exact h.loading bk

theorem BanksLaw.frame {F : Item → Prop} {s t : State} (h : BanksLaw s) (hf : Frame F s t) (hF : ∀ x, bankItems x → ¬F x) :
    BanksLaw t :=
  h.same (hf.items .bankA (hF _ (by simp [bankItems]))) (hf.items .bankB (hF _ (by simp [bankItems])))
    (hf.items .active (hF _ (by simp [bankItems])))
    (congrArg Option.isSome (hf.items .matrixJob (hF _ (by simp [bankItems]))))

/-- The standby bank is not the active one. -/
theorem active_ne_standby (s : State) : s.active ≠ some s.standby := by
  unfold State.standby
  split
  · next e => rw [e]; decide
  · next hn => exact fun e => hn e

theorem bank_setBank (b bk : BankId) (x : Bank) (s : State) : (s.setBank b x).bank bk = if bk = b then x else s.bank bk := by
  cases b <;> cases bk <;> rfl

/-- The standby bank replaced by one whose counts are in their range. -/
theorem BanksBase.setBank {s : State} (h : BanksBase s) {x : Bank}
    (hx : ∀ i, 1 ≤ (nth x.entries i).q ∧ (nth x.entries i).q ≤ 15) : BanksBase (s.setBank s.standby x) where
  active bk k := by
    have e : (s.setBank s.standby x).active = s.active := by rw [State.setBank_rest]
    rw [bank_setBank, if_neg]
    · exact h.active bk (e ▸ k)
    · rintro rfl
      exact active_ne_standby s (e ▸ k)
  counts bk := by
    rw [bank_setBank]
    split
    · exact hx
    · exact h.counts bk

theorem standby_setBank (x : Bank) (s : State) : (s.setBank s.standby x).standby = s.standby :=
  standby_congr (by rw [State.setBank_rest])

theorem orderLoadMatrix_banks (n : Fin 16) (d : List Byte) {s : State} (h : BanksLaw s) : BanksLaw (orderLoadMatrix n d s).1 := by
  unfold orderLoadMatrix
  split
  · exact h
  · next e =>
    dsimp only
    generalize hu : s.setBank s.standby { state := .loading } = u
    have hb : BanksBase u := by rw [← hu]; exact h.toBanksBase.setBank fun i => bankFits_empty.2 i
    refine ⟨hb.same rfl rfl rfl, fun bk => ?_⟩
    have h1 : ∀ v : State, v.bank bk = u.bank bk → v.standby = s.standby → v.engine.loadMatrix.isSome = true →
        ((v.bank bk).state = .loading ↔ v.engine.loadMatrix.isSome = true ∧ bk = v.standby) := by
      intro v k1 k2 k3
      rw [k1, k2, k3, ← hu, bank_setBank]
      by_cases k : bk = s.standby
      · simp [k]
      · rw [if_neg k, h.loading bk, e]
        simp [k]
    refine h1 _ ?_ ?_ rfl
    · cases bk <;> rfl
    · rw [← standby_setBank { state := .loading } s, hu]
      rfl

theorem orderSwitchBank_banks {s : State} (h : BanksLaw s) : BanksLaw (orderSwitchBank s).1 := by
  unfold orderSwitchBank
  dsimp only
  split
  · exact h
  · next e1 =>
    split
    · exact h
    · next e2 =>
      split
      · exact h
      · dsimp only
        have hf : Frame (· = .inputs) { s with active := some s.standby } (Machine.offer
            (settingsRecord .switchBank s.stamp 0 s.standby.code (bankCode s.active) 0 0)
            ((List.finRange 32).foldl showNewCount (State.showMatrix (State.showActive { s with active := some s.standby })))) := by
          refine frame_trans (frame_trans (frame_trans ((frame_event _).showActive _) ((frame_event _).showMatrix _)) ?_)
            ((frame_event _).offer _ _)
          exact (frame_event (· = .inputs)).foldl _ _ _ fun u i _ =>
            (frame_event (· = .inputs)).showNewCount rfl u i
        have h1 : BanksLaw { s with active := some s.standby } := by
          have hb : ∀ bk, State.bank { s with active := some s.standby } bk = s.bank bk := fun bk => by cases bk <;> rfl
          refine ⟨⟨fun bk k => ?_, fun bk => ?_⟩, fun bk => ?_⟩
          · rw [hb, ← Option.some.inj k]
            exact not_not.mp e2
          · rw [hb]
            exact h.counts bk
          · rw [hb, h.loading bk]
            simp only [ne_eq, not_not] at e1
            simp [e1]
        exact h1.frame hf (by rintro x hx rfl; simp [bankItems] at hx)

/-- The end of a LOAD MATRIX. -/
theorem matrixEnded_banks {s u : State} (h : BanksLaw s) (hu : imageEnded .loadMatrix s u) (n : Fin 16) (r : Result) (d : List Byte) :
    BanksLaw (finish n r d (u.setJob .loadMatrix none)) := by
  obtain ⟨x, r', c, hx, rfl⟩ := hu
  have hp : Passed (s.setBank s.standby x) (endMatrix s.standby x r' c s) :=
    frame_trans ((frame_event _).showMatrix _) ((frame_event _).offer _ _)
  generalize endMatrix s.standby x r' c s = u at hp
  have hA := hp.items .bankA id
  have hB := hp.items .bankB id
  have hact := hp.items .active id
  have h1 : BanksLaw (u.setJob .loadMatrix none) := by
    refine ⟨(h.toBanksBase.setBank hx.2).same hA hB hact, fun bk => ?_⟩
    rw [show (u.setJob .loadMatrix none).bank bk = (s.setBank s.standby x).bank bk from bank_congr hA hB bk, bank_setBank]
    refine iff_of_false ?_ fun k => Bool.noConfusion k.1
    split
    · exact hx.1
    · next k => exact fun e => k ((h.loading bk).mp e).2
  exact h1.frame (F := fun _ => False) ((frame_event _).finish _ _ _ _) fun _ _ => id

theorem segmentRead_banks {o : ImageOrder} {s t : State} (he : exec (.segmentRead o) s = .next t) (h : BanksLaw s) : BanksLaw t := by
  cases o
  · exact h.frame (segmentRead_points_frame he) (by rintro x hx (rfl | rfl) <;> simp [bankItems] at hx)
  · rcases segmentRead_outcome he with rfl | ⟨j, e, ⟨j', _, rfl⟩ | ⟨u, r, d, hu, rfl⟩⟩
    · exact h
    · refine h.same rfl rfl rfl ?_
      rw [show s.engine.loadMatrix = some j from e]
      rfl
    · exact matrixEnded_banks h hu _ _ _

theorem banks_order {k : OrderKind} {x : Item} (hk : k.touches x) (hx : bankItems x) (n : Fin 16) (d : List Byte) {s : State}
    (h : BanksLaw s) : BanksLaw (applyOrder k n d s).1 := by
  cases k
  case loadMatrix => exact orderLoadMatrix_banks n d h
  case switchBank => exact orderSwitchBank_banks h
  all_goals rcases hx with rfl | rfl | rfl | rfl <;> simp [OrderKind.touches] at hk

/-- No plain command touches the banks. -/
theorem not_touches_banks {c : Instr} (hp : plain c = true) {x : Item} (hx : bankItems x) : ¬touches c x := by
  rcases hx with rfl | rfl | rfl | rfl <;> cases c <;> simp_all [touches, plain]

theorem banksLaw_init {s : State} (hA : s.bankA = {}) (hB : s.bankB = {}) (ha : s.active = none) (hm : s.engine.loadMatrix = none) :
    BanksLaw s := by
  have hb : ∀ bk, s.bank bk = {} := fun bk => by cases bk <;> assumption
  refine ⟨⟨fun bk k => ?_, fun bk i => ?_⟩, fun bk => ?_⟩
  · rw [ha] at k; cases k
  · rw [hb]
    exact bankFits_empty.2 i
  · rw [hb, hm]
    exact iff_of_false (by decide) fun k => Bool.noConfusion k.1

/-! ## Trip inputs -/

/-- The laws of trip input i and of point 192 + i (R2, R81, R82). -/
structure InputLaw (s : State) (i : Fin 32) : Prop where
  run : (nth s.inputs i).holds
  told : (nth s.points (tripPoint i)).contact = contactOf (nth s.inputs i).qualified

/-- The laws of the trip inputs that `P` names. -/
structure InputLaws (P : Fin 32 → Prop) (s : State) : Prop where
  due : dueIn journalPoint s
  law : ∀ i, P i → InputLaw s i

theorem tripPoint_not_journal (i : Fin 32) : ¬journalPoint (tripPoint i) := by
  rintro (e | e) <;> exact absurd (congrArg Fin.val e) (by simp only [tripPoint]; omega)

theorem InputLaws.frame {F : Item → Prop} {P : Fin 32 → Prop} {s t : State} (h : InputLaws P s) (hf : Frame F s t)
    (hF : ¬F .inputs) : InputLaws P t := by
  obtain ⟨hd, hc⟩ := hf.contacts h.due
  refine ⟨hd, fun i hi => ?_⟩
  have e : t.inputs = s.inputs := hf.items .inputs hF
  refine ⟨e ▸ (h.law i hi).run, ?_⟩
  rw [e, (hc _ (tripPoint_not_journal i) ?_).1]
  · exact (h.law i hi).told
  · rintro ⟨x, hx, hx'⟩
    rw [owner_tripPoint] at hx
    obtain rfl : Item.inputs = x := Option.some.inj hx
    exact hF hx'

/-- An input replaced, its own laws left open. -/
theorem InputLaws.put {P : Fin 32 → Prop} {s : State} (h : InputLaws P s) (i : Fin 32) (y : TripInput) :
    InputLaws (fun j => P j ∧ j ≠ i) { s with inputs := upd s.inputs i y } := by
  refine ⟨h.due, fun j ⟨hj, hi⟩ => ?_⟩
  have e : nth (upd s.inputs i y) j = nth s.inputs j := nth_upd_other _ _ (Ne.symm hi)
  refine ⟨?_, ?_⟩ <;> dsimp only <;> rw [e]
  · exact (h.law j hj).run
  · exact (h.law j hj).told

/-- An input replaced by one that obeys its laws and is qualified as before. -/
theorem InputLaws.replace {s : State} (h : InputLaws (fun _ => True) s) (i : Fin 32) (y : TripInput) (hy : y.holds)
    (hq : y.qualified = (nth s.inputs i).qualified) : InputLaws (fun _ => True) { s with inputs := upd s.inputs i y } := by
  refine ⟨h.due, fun j _ => ?_⟩
  by_cases e : i = j
  · subst e
    refine ⟨?_, ?_⟩ <;> dsimp only <;> rw [nth_upd_same]
    · exact hy
    · rw [hq]
      exact (h.law i trivial).told
  · exact (h.put i y).law j ⟨trivial, Ne.symm e⟩

/-- A qualification ends with all the laws (R82). -/
theorem qualify_inputs (i : Fin 32) {s : State} (h : InputLaws (fun j => j ≠ i) s) : InputLaws (fun _ => True) (qualify i s) := by
  unfold qualify
  dsimp only
  generalize hx : ({ nth s.inputs i with qualified := (nth s.inputs i).level, run := 0, start := none } : TripInput) = y
  have hy : y.holds := by rw [← hx]; exact .inl ⟨rfl, rfl, rfl⟩
  have hq : y.qualified = (nth s.inputs i).level := by rw [← hx]
  have hf : Frame (· = .outputs) { s with inputs := upd s.inputs i y } ((List.finRange 24).foldl (handEdge s.drivers)
      (Machine.offer (tripInputRecord i (nth s.inputs i).level ((nth s.inputs i).start.getD s.moment).stamp s)
        (State.showInput i { s with inputs := upd s.inputs i y }))) := by
    have hE := frame_event (· = .outputs)
    exact hE.back (hE.foldl _ _ _ fun v o _ => hE.handEdge rfl (ownReport_fault rfl) _ v o)
      (hE.back (hE.offer _ _) (hE.showInput i _))
  have hin := hf.items .inputs (by simp)
  have h1 := (h.put i y).frame hf (by simp)
  generalize (List.finRange 24).foldl (handEdge s.drivers) _ = u at hf hin h1
  generalize hc : (if (nth s.inputs i).level = true then Contact.closed else .opened) = c
  have hc' : c = contactOf y.qualified := by rw [← hc, hq]; rfl
  have k := takeContact_told (tripPoint_not_journal i) c ((nth s.inputs i).start.getD s.moment).run
    ((nth s.inputs i).start.getD s.moment).stamp false u
  have hin' : (takeContact (tripPoint i) c ((nth s.inputs i).start.getD s.moment).run
    ((nth s.inputs i).start.getD s.moment).stamp false u).inputs = upd s.inputs i y := (k.items .inputs id).trans hin
  refine ⟨(k.contact h1.due).1, fun j _ => ?_⟩
  by_cases e : j = i
  · subst e
    refine ⟨?_, ?_⟩ <;> rw [hin', nth_upd_same]
    · exact hy
    · exact (k.contact h1.due).2.trans hc'
  · have hne : tripPoint j ≠ tripPoint i := fun e' => e (Fin.ext (by
      have := congrArg Fin.val e'
      simp only [tripPoint] at this
      omega))
    have hj := h1.law j ⟨e, e⟩
    have hin2 : u.inputs = upd s.inputs i y := hin
    rw [show InputLaw u j ↔ _ from Iff.rfl] at hj
    refine ⟨?_, ?_⟩ <;> rw [hin', ← hin2]
    · exact hj.run
    · rw [(k.others h1.due _ hne (tripPoint_not_journal j)).1]
      exact hj.told

/-- A sample leaves an input that obeys its laws, or has brought its run to its count (R81, R82). -/
theorem sampled_holds {x : TripInput} (h : x.holds) (l : Bool) {q : Nat} (hq : 1 ≤ q ∧ q ≤ 15) (m : Receipt)
    (hr : (x.sampled l q m).runMet = false) : (x.sampled l q m).holds := by
  unfold TripInput.sampled at hr ⊢
  dsimp only at hr ⊢
  split
  · next e => exact .inl ⟨e, rfl, rfl⟩
  · next e =>
    rw [if_neg e] at hr
    have hlt : x.run + 1 < q := by simpa [TripInput.runMet] using hr
    refine .inr ⟨e, Nat.succ_pos _, hlt, hq.2, ?_⟩
    dsimp only
    split
    · simp
    · next hn => exact (h.resolve_left fun k => hn k.2.1).2.2.2.2

theorem qOf_range {s : State} (h : BanksLaw s) (i : Fin 32) : 1 ≤ s.qOf i ∧ s.qOf i ≤ 15 := by
  unfold State.qOf State.activeEntry
  rcases s.active with _ | bk
  · exact ⟨le_refl 1, (by decide : 1 ≤ 15)⟩
  · exact h.counts bk i

theorem sampleInput_inputs (lines : BitVec 32) {s : State} (i : Fin 32) (hb : BanksLaw s) (h : InputLaws (fun _ => True) s) :
    InputLaws (fun _ => True) (sampleInput lines s i) := by
  unfold sampleInput
  dsimp only
  have hq := sampled_qualified (nth s.inputs i) (lines.getLsbD i.val) (s.qOf i) s.moment
  have hy := sampled_holds (h.law i trivial).run (lines.getLsbD i.val) (qOf_range hb i) s.moment
  generalize TripInput.sampled (nth s.inputs i) (lines.getLsbD i.val) (s.qOf i) s.moment = y at hq hy
  have h1 : ∀ {P}, InputLaws P { s with inputs := upd s.inputs i y } → InputLaws P (if (nth s.inputs i).shows y = true then
      State.showInput i { s with inputs := upd s.inputs i y } else { s with inputs := upd s.inputs i y }) := by
    intro P k
    split
    · exact k.frame (F := fun _ => False) ((frame_event _).showInput i _) id
    · exact k
  split
  · refine qualify_inputs i (h1 ?_)
    have := h.put i y
    exact ⟨this.due, fun j hj => this.law j ⟨trivial, hj⟩⟩
  · next hr => exact h1 (h.replace i y (hy (by simpa using hr)) hq)

/-- The banks' and the inputs' laws together. -/
structure TripLaw (s : State) : Prop where
  banks : BanksLaw s
  inputs : InputLaws (fun _ => True) s

/-- The items that they rest on. -/
def tripItems (x : Item) : Prop := bankItems x ∨ x = .inputs

theorem TripLaw.frame {F : Item → Prop} {s t : State} (h : TripLaw s) (hf : Frame F s t) (hF : ∀ x, tripItems x → ¬F x) :
    TripLaw t := ⟨h.banks.frame hf fun x hx => hF x (.inl hx), h.inputs.frame hf (hF _ (.inr rfl))⟩

theorem sampleInput_frame (lines : BitVec 32) (s : State) (i : Fin 32) :
    Frame (fun x => x = .inputs ∨ x = .outputs) s (sampleInput lines s i) :=
  (frame_event _).sampleInput (.inr rfl) (ownReport_fault (.inr rfl)) (.inl rfl) (ownReport_trip (.inl rfl)) lines s i

theorem not_bank_of_inputs {x : Item} (hx : bankItems x) : ¬(x = .inputs ∨ x = .outputs) := by
  rcases hx with rfl | rfl | rfl | rfl <;> simp

theorem showNewCount_inputs {s : State} (i : Fin 32) (h : InputLaws (fun _ => True) s) :
    InputLaws (fun _ => True) (showNewCount s i) := by
  unfold showNewCount
  dsimp only
  split
  · exact h
  · exact (h.replace i { nth s.inputs i with qShown := s.qOf i } (h.law i trivial).run rfl).frame (F := fun _ => False)
      ((frame_event _).showInput i _) id

theorem orderSwitchBank_inputs {s : State} (h : InputLaws (fun _ => True) s) : InputLaws (fun _ => True) (orderSwitchBank s).1 := by
  unfold orderSwitchBank
  dsimp only
  split
  · exact h
  · split
    · exact h
    · split
      · exact h
      · dsimp only
        refine InputLaws.frame (F := fun _ => False) ?_ ((frame_event _).offer _ _) id
        refine List.foldlRecOn _ showNewCount (motive := InputLaws fun _ => True) ?_ fun u hu i _ => showNewCount_inputs i hu
        have hE := frame_event (· = .active)
        exact h.frame (hE.back (hE.showMatrix _) (hE.back (hE.showActive _) (hE.active rfl s (some s.standby)))) (by simp)

theorem tripLaw_order {k : OrderKind} {x : Item} (hk : k.touches x) (hx : tripItems x) (n : Fin 16) (d : List Byte) {s : State}
    (h : TripLaw s) : TripLaw (applyOrder k n d s).1 := by
  have hf := applyOrder_frame k n d s
  by_cases hb : ∃ y, k.touches y ∧ bankItems y
  · obtain ⟨y, hy, hb⟩ := hb
    refine ⟨banks_order hy hb n d h.banks, ?_⟩
    cases k
    case switchBank => exact orderSwitchBank_inputs h.inputs
    all_goals exact h.inputs.frame hf (by simp [OrderKind.touches])
  · obtain rfl : x = .inputs := hx.resolve_left fun k => hb ⟨x, hk, k⟩
    cases k <;> simp [OrderKind.touches] at hk
    exact absurd ⟨.active, .inl rfl, by simp [bankItems]⟩ hb

theorem tripLaw_plain {c : Instr} (hp : plain c = true) {x : Item} (hc : touches c x) (hx : tripItems x) {s t : State}
    (he : exec c s = .next t) (h : TripLaw s) : TripLaw t := by
  obtain rfl : x = .inputs := hx.resolve_left fun k => not_touches_banks hp k hc
  have hf := execPlain_frame c hp s t he
  refine ⟨h.banks.frame hf fun y hy => not_touches_banks hp hy, ?_⟩
  cases c <;> simp only [plain, Bool.false_eq_true] at hp <;> simp only [touches, reduceCtorEq, or_self] at hc <;>
    simp only [exec] at he
  case tripInputSample l =>
    simp only [execTripInputSample, Host.Outcome.next.injEq] at he; subst he
    split
    · refine (List.foldlRecOn _ (sampleInput l) (motive := TripLaw) (h.frame ((frame_event fun _ => False).sched s _) fun _ _ => id)
        fun u hu i _ => ⟨?_, sampleInput_inputs l i hu.banks hu.inputs⟩).inputs
      exact hu.banks.frame (sampleInput_frame l u i) fun y hy => not_bank_of_inputs hy
    · exact h.inputs
  case tripInputQualified i =>
    simp only [execTripInputQualified, Host.Outcome.next.injEq] at he; subst he
    split
    · exact qualify_inputs i ⟨h.inputs.due, fun j _ => h.inputs.law j trivial⟩
    · exact h.inputs

theorem inputLaws_init {s : State} (hi : s.inputs = State.init.inputs) (hd : s.due = []) (hp : s.points = State.init.points) :
    InputLaws (fun _ => True) s := by
  have hin : ∀ i, nth s.inputs i = {} := fun i => by rw [hi]; exact nth_replicate _ i
  refine ⟨dueIn_nil hd, fun i _ => ⟨?_, ?_⟩⟩ <;> rw [hin]
  · exact .inl ⟨rfl, rfl, rfl⟩
  · rw [hp]
    refine (congrArg Point.contact (nth_tab _ _ (tripPoint i))).trans ?_
    unfold initContact
    rw [if_neg (by simp only [tripPoint]; omega), if_pos (by simp only [tripPoint]; omega)]
    rfl

theorem tripLaw_init {s : State} (h1 : s.bankA = {}) (h2 : s.bankB = {}) (h3 : s.active = none) (h4 : s.engine.loadMatrix = none)
    (h5 : s.inputs = State.init.inputs) (hd : s.due = []) (hp : s.points = State.init.points) : TripLaw s :=
  ⟨banksLaw_init h1 h2 h3 h4, inputLaws_init h5 hd hp⟩

theorem tripLaw_segmentRead {o : ImageOrder} {s t : State} (he : exec (.segmentRead o) s = .next t) (h : TripLaw s) : TripLaw t := by
  refine ⟨segmentRead_banks he h.banks, ?_⟩
  have hF := frame_step (· ≠ .inputs)
  exact h.inputs.frame (hF.segmentRead (by simp) (by simp) (by simp) (by simp) (fun bs u => hF.complete (by simp) bs u) o s t he)
    (by simp)

theorem tripLaw_of_step {s t : State} (h : TripLaw s) (he : step s = .next t) : TripLaw t := by
  have hF : StepClosed (fun x => ¬tripItems x) fun s t => TripLaw s → TripLaw t :=
    .of_frame fun s t hf h => h.frame hf fun _ hx k => k hx
  have hx : ∀ c s t, c ≠ .powerOnReset → c ≠ .resetLine → Machine.exec c s = .next t → TripLaw s → TripLaw t := by
    refine fun c s t h1 h2 => hF.exec (fun s => hF.leaveStarting (by simp [tripItems, bankItems]) s) ?_ ?_ ?_ c s t h1 h2
    · rintro k n d s ⟨x, hx, hn⟩ h
      exact tripLaw_order hx (not_not.mp hn) n d h
    · exact fun o s t he => tripLaw_segmentRead he
    · rintro c s t hp ⟨x, hx, hn⟩ he h
      exact tripLaw_plain hp hx (not_not.mp hn) he h
  exact hF.step (fun _ _ k => ⟨k.banks.same rfl rfl rfl rfl, ⟨k.inputs.due, fun i hi => ⟨(k.inputs.law i hi).run, (k.inputs.law i hi).told⟩⟩⟩)
    (fun _ => tripLaw_init rfl rfl rfl rfl rfl rfl rfl) (fun _ _ => tripLaw_init rfl rfl rfl rfl rfl rfl rfl) hx s t h he

end Sys2Proof.Machine
end

section
/-! SUPPORT. The links' laws, and the contact states of the field points and of points 248 to 251, through the operations on
one link (R59 to R78). -/

namespace Sys2Proof.Machine

/-! ## The laws -/

/-- The field points of link k: contact states of a contact point, and, as `rep` and `fresh` say, none unreported and none
stale (R1, R16). -/
structure FieldsLaw (s : State) (k : Fin 4) (rep fresh : Prop) : Prop where
  kind : ∀ j, (nth s.points (fieldPoint k j)).contact = .opened ∨ (nth s.points (fieldPoint k j)).contact = .closed
    ∨ (nth s.points (fieldPoint k j)).contact = .unreported
  reported : rep → ∀ j, (nth s.points (fieldPoint k j)).contact ≠ .unreported
  fresh : fresh → ∀ j, (nth s.points (fieldPoint k j)).stale = false

/-- The laws of one link, and of the contact states that follow it (R2, R16). -/
structure LinkLaw (s : State) (k : Fin 4) : Prop where
  link : (nth s.links k).holds
  fields : FieldsLaw s k ((nth s.links k).state = .up) ((nth s.links k).state = .up)
  told : (nth s.points (linkPoint k)).contact = conditionOf (decide ((nth s.links k).state ≠ .up))

/-- The laws of every link. -/
structure LinkLaws (s : State) : Prop where
  due : dueIn journalPoint s
  law : ∀ k, LinkLaw s k

/-! ## What an event of one link leaves -/

/-- The points whose contact state follows link k. -/
def ofLink (k : Fin 4) (p : Fin 256) : Prop := p = linkPoint k ∨ ∃ j, p = fieldPoint k j

theorem linkPoint_not_journal (k : Fin 4) : ¬journalPoint (linkPoint k) := by
  rintro (e | e) <;> exact absurd (congrArg Fin.val e) (by simp only [linkPoint]; omega)

theorem fieldPoint_not_journal (k : Fin 4) (j : Fin 48) : ¬journalPoint (fieldPoint k j) := by
  rintro (e | e) <;> exact absurd (congrArg Fin.val e) (by simp only [fieldPoint]; omega)

theorem linkPoint_ne_fieldPoint (k q : Fin 4) (j : Fin 48) : linkPoint k ≠ fieldPoint q j := fun e =>
  absurd (congrArg Fin.val e) (by simp only [linkPoint, fieldPoint]; omega)

theorem fieldPoint_inj {k q : Fin 4} {i j : Fin 48} (e : fieldPoint k i = fieldPoint q j) : k = q ∧ i = j := by
  have := congrArg Fin.val e
  simp only [fieldPoint] at this
  exact ⟨Fin.ext (by omega), Fin.ext (by omega)⟩

theorem not_ofLink_linkPoint {k q : Fin 4} (h : q ≠ k) : ¬ofLink k (linkPoint q) := by
  rintro (e | ⟨j, e⟩)
  · exact h (Fin.ext (by have := congrArg Fin.val e; simp only [linkPoint] at this; omega))
  · exact linkPoint_ne_fieldPoint _ _ _ e

theorem not_ofLink_fieldPoint {k q : Fin 4} (h : q ≠ k) (j : Fin 48) : ¬ofLink k (fieldPoint q j) := by
  rintro (e | ⟨i, e⟩)
  · exact linkPoint_ne_fieldPoint _ _ _ e.symm
  · exact h (fieldPoint_inj e).1

/-- What an event of link k leaves of the other links and of the contact states that do not follow it. -/
structure LinkStep (k : Fin 4) (s t : State) : Prop where
  due : dueIn journalPoint s → dueIn journalPoint t
  links : ∀ q, q ≠ k → nth t.links q = nth s.links q
  contacts : dueIn journalPoint s → ∀ p, ¬journalPoint p → ¬ofLink k p → sameContact s t p

theorem linkStep_passed (k : Fin 4) {s t : State} (h : Passed s t) : LinkStep k s t where
  due hd := (h.contacts hd).1
  links q _ := by rw [show t.links = s.links from h.items .links id]
  contacts hd p hp _ := (h.contacts hd).2 p hp (not_owned_none p)

theorem linkStep_put (k : Fin 4) (x : Link) (s : State) : LinkStep k s (putLink k x s) where
  due := id
  links _ hq := nth_upd_other _ _ (Ne.symm hq)
  contacts _ _ _ _ := ⟨rfl, rfl⟩

theorem linkStep_told {k : Fin 4} {p : Fin 256} (hp : ofLink k p) {c : Contact} {s t : State} (h : Told p c s t) : LinkStep k s t where
  due hd := (h.contact hd).1
  links q _ := by rw [show t.links = s.links from h.items .links id]
  contacts hd q hq ho := h.others hd q (fun e => ho (e ▸ hp)) hq

theorem FieldsLaw.same {s t : State} {k : Fin 4} {a b : Prop} (h : FieldsLaw s k a b)
    (hs : ∀ j, sameContact s t (fieldPoint k j)) : FieldsLaw t k a b where
  kind j := by rw [(hs j).1]; exact h.kind j
  reported ha j := by rw [(hs j).1]; exact h.reported ha j
  fresh hb j := by rw [(hs j).2]; exact h.fresh hb j

/-- The laws of every link but k. -/
structure OtherLinks (k : Fin 4) (s : State) : Prop where
  due : dueIn journalPoint s
  law : ∀ q, q ≠ k → LinkLaw s q

theorem OtherLinks.step {k : Fin 4} {s t : State} (h : OtherLinks k s) (hs : LinkStep k s t) : OtherLinks k t := by
  refine ⟨hs.due h.due, fun q hq => ?_⟩
  have l := h.law q hq
  have e := hs.links q hq
  refine ⟨?_, ?_, ?_⟩ <;> rw [e]
  · exact l.link
  · exact l.fields.same fun j => hs.contacts h.due _ (fieldPoint_not_journal q j) (not_ofLink_fieldPoint hq j)
  · rw [(hs.contacts h.due _ (linkPoint_not_journal q) (not_ofLink_linkPoint hq)).1]
    exact l.told

/-! ## One link in the middle of an event -/

/-- Link k in the middle of an event: what it is, what point 248 + k has been told, and what holds of its field points; the
other links obey their laws. -/
structure LinkView (k : Fin 4) (x : Link) (c : Contact) (rep fresh : Prop) (s : State) : Prop where
  others : OtherLinks k s
  link : nth s.links k = x
  told : (nth s.points (linkPoint k)).contact = c
  fields : FieldsLaw s k rep fresh

theorem LinkLaws.view {s : State} (h : LinkLaws s) (k : Fin 4) :
    LinkView k (nth s.links k) (conditionOf (decide ((nth s.links k).state ≠ .up))) ((nth s.links k).state = .up)
      ((nth s.links k).state = .up) s :=
  ⟨⟨h.due, fun q _ => h.law q⟩, rfl, (h.law k).told, (h.law k).fields⟩

section one
variable {k : Fin 4} {x : Link} {c : Contact} {a b : Prop} {s t : State}

/-- The event is at its end when the link obeys its laws and the contact states follow it. -/
theorem LinkView.close (h : LinkView k x c a b s) (hx : x.holds) (hc : c = conditionOf (decide (x.state ≠ .up)))
    (ha : x.state = .up → a ∧ b) : LinkLaws s := by
  refine ⟨h.others.due, fun q => ?_⟩
  by_cases e : q = k
  · subst e
    refine ⟨?_, ?_, ?_⟩ <;> rw [h.link]
    · exact hx
    · exact ⟨h.fields.kind, fun k => h.fields.reported (ha k).1, fun k => h.fields.fresh (ha k).2⟩
    · exact h.told.trans hc
  · exact h.others.law q e

/-- With the link as it was, the laws hold again. -/
theorem LinkView.weaken (h : LinkView k x c a b s) {a' b' : Prop} (ha : a' → a) (hb : b' → b) : LinkView k x c a' b' s :=
  ⟨h.others, h.link, h.told, ⟨h.fields.kind, h.fields.reported ∘ ha, h.fields.fresh ∘ hb⟩⟩

theorem LinkView.passed (hp : Passed s t) (h : LinkView k x c a b s) : LinkView k x c a b t := by
  have hc := (hp.contacts h.others.due).2
  refine ⟨h.others.step (linkStep_passed k hp), ?_, ?_, ?_⟩
  · rw [show t.links = s.links from hp.items .links id]
    exact h.link
  · rw [(hc _ (linkPoint_not_journal k) (not_owned_none _)).1]
    exact h.told
  · exact h.fields.same fun j => hc _ (fieldPoint_not_journal k j) (not_owned_none _)

theorem LinkView.put (h : LinkView k x c a b s) (y : Link) : LinkView k y c a b (putLink k y s) :=
  ⟨h.others.step (linkStep_put k y s), nth_upd_same _ _ _, h.told, h.fields.same fun _ => ⟨rfl, rfl⟩⟩

theorem LinkView.change (h : LinkView k x c a b s) (y : Link) (e : LinkCause) : LinkView k y c a b (changeLink k y e s) := by
  unfold changeLink
  exact (h.put y).passed ((frame_event _).offerLink _ _)

/-- Point 248 + k is reported. -/
theorem LinkView.report (h : LinkView k x c a b s) {r : Report} (hr : r.point = linkPoint k) :
    LinkView k x (conditionOf r.present) a b (reportNow r s) := by
  have ht := reportNow_told (r := r) (hr ▸ linkPoint_not_journal k) s
  rw [hr] at ht
  refine ⟨h.others.step (linkStep_told (.inl rfl) ht), ?_, (ht.contact h.others.due).2, ?_⟩
  · rw [show (reportNow r s).links = s.links from ht.items .links id]
    exact h.link
  · exact h.fields.same fun j => ht.others h.others.due _ (linkPoint_ne_fieldPoint k k j).symm (fieldPoint_not_journal k j)

/-- A contact report of a field point of the link. -/
theorem LinkView.takeContact (h : LinkView k x c a b s) (j : Fin 48) (v : Bool) (n : Int) (st : Stamp) (f : Bool) :
    LinkView k x c a b (takeContact (fieldPoint k j) (contactOf v) n st f s)
    ∧ (nth (Machine.takeContact (fieldPoint k j) (contactOf v) n st f s).points (fieldPoint k j)).contact = contactOf v
    ∧ ∀ i, i ≠ j → (nth (Machine.takeContact (fieldPoint k j) (contactOf v) n st f s).points (fieldPoint k i)).contact
      = (nth s.points (fieldPoint k i)).contact := by
  have ht := takeContact_told (fieldPoint_not_journal k j) (contactOf v) n st f s
  have hd := h.others.due
  have hown := (ht.contact hd).2
  have hoth : ∀ i, i ≠ j → sameContact s (Machine.takeContact (fieldPoint k j) (contactOf v) n st f s) (fieldPoint k i) := fun i hi =>
    ht.others hd _ (fun e => hi (fieldPoint_inj e).2) (fieldPoint_not_journal k i)
  refine ⟨⟨h.others.step (linkStep_told (.inr ⟨j, rfl⟩) ht), ?_, ?_, ⟨fun i => ?_, fun ha i => ?_, fun hb i => ?_⟩⟩, hown,
    fun i hi => (hoth i hi).1⟩
  · rw [show (Machine.takeContact (fieldPoint k j) (contactOf v) n st f s).links = s.links from ht.items .links id]
    exact h.link
  · rw [(ht.others hd _ (linkPoint_ne_fieldPoint k k j) (linkPoint_not_journal k)).1]
    exact h.told
  · by_cases e : i = j
    · rw [e, hown]
      cases v <;> simp [contactOf]
    · rw [(hoth i e).1]
      exact h.fields.kind i
  · by_cases e : i = j
    · rw [e, hown]
      cases v <;> simp [contactOf]
    · rw [(hoth i e).1]
      exact h.fields.reported ha i
  · by_cases e : i = j
    · rw [e, ht.stale hd]
      exact h.fields.fresh hb j
    · rw [(hoth i e).2]
      exact h.fields.fresh hb i

theorem LinkView.takeEntry (h : LinkView k x c a b s) (r : Receipt) (l : Nat) (e : ChangeEntry) :
    LinkView k x c a b (takeEntry k r l s e) := by
  unfold Machine.takeEntry
  split
  · exact (h.takeContact _ _ _ _ _).1
  · exact h

/-- After a comparison no field point of the link is unreported (R8, R66). -/
theorem LinkView.compareInputs (h : LinkView k x c a b s) (r : Receipt) (v : Vector Bool 48) :
    LinkView k x c True b (compareInputs k r v s) := by
  unfold Machine.compareInputs
  have hstep : ∀ (u : State) (j : Fin 48), LinkView k x c a b u → LinkView k x c a b (compareInput k r v u j)
      ∧ (nth (compareInput k r v u j).points (fieldPoint k j)).contact = contactOf (nth v j)
      ∧ ∀ i, i ≠ j → (nth (compareInput k r v u j).points (fieldPoint k i)).contact = (nth u.points (fieldPoint k i)).contact := by
    intro u j hu
    unfold compareInput
    dsimp only
    split
    · exact hu.takeContact j (nth v j) _ _ _
    · next e => exact ⟨hu, not_not.mp e, fun _ _ => rfl⟩
  obtain ⟨h1, h2⟩ := foldl_each (P := LinkView k x c a b)
    (Q := fun j u => (nth u.points (fieldPoint k j)).contact = contactOf (nth v j)) (f := compareInput k r v)
    (fun u j hu => (hstep u j hu).1) (fun u j hu => (hstep u j hu).2.1)
    (fun u i j hu hj e => ((hstep u i hu).2.2 j hj).trans e) (List.finRange 48) s h
  refine ⟨h1.others, h1.link, h1.told, h1.fields.kind, fun _ j => ?_, h1.fields.fresh⟩
  rw [h2 j (.inl (List.mem_finRange j))]
  cases nth v j <;> simp [contactOf]

/-- An edit of a field point's stale flag and pending change. -/
theorem LinkView.editField (h : LinkView k x c a b s) (j : Fin 48) {y : Point}
    (hy : y.contact = (nth s.points (fieldPoint k j)).contact) (hb : b → y.stale = false) :
    LinkView k x c a b (State.showPoint (fieldPoint k j) (putPoint (fieldPoint k j) y s)) := by
  generalize hu : State.showPoint (fieldPoint k j) (putPoint (fieldPoint k j) y s) = u
  have hp : ∀ q, nth u.points q = if fieldPoint k j = q then y else nth s.points q := fun q => by
    rw [← hu, State.showPoint_points, putPoint_points, nth_upd]
  have hl : u.links = s.links := by rw [← hu]; simp
  have hd : u.due = s.due := by rw [← hu]; simp
  have hoth : ∀ q, fieldPoint k j ≠ q → sameContact s u q := fun q hq => by
    unfold sameContact
    rw [hp, if_neg hq]
    exact ⟨rfl, rfl⟩
  have hcon : ∀ i, (nth u.points (fieldPoint k i)).contact = (nth s.points (fieldPoint k i)).contact := fun i => by
    rw [hp]
    split
    · next e => exact e ▸ hy
    · rfl
  refine ⟨h.others.step ⟨fun k r hr => k r (hd ▸ hr), fun q _ => by rw [hl], fun _ p _ ho => hoth p fun e => ho (.inr ⟨j, e.symm⟩)⟩,
    hl ▸ h.link, ?_, ⟨fun i => ?_, fun ha i => ?_, fun hb' i => ?_⟩⟩
  · rw [(hoth _ (linkPoint_ne_fieldPoint k k j).symm).1]
    exact h.told
  · rw [hcon]
    exact h.fields.kind i
  · rw [hcon]
    exact h.fields.reported ha i
  · rw [hp]
    split
    · exact hb hb'
    · exact h.fields.fresh hb' i

theorem LinkView.panelStale (h : LinkView k x c a b s) : LinkView k x c a False (panelStale k s) := by
  unfold Machine.panelStale
  refine List.foldlRecOn _ (makeStale k) (motive := LinkView k x c a False) (h.weaken id False.elim) fun u hu j _ => ?_
  unfold makeStale
  exact hu.editField j rfl False.elim

/-- After the recovery no field point of the link is stale (R16). -/
theorem LinkView.recovered (h : LinkView k x c a b s) (r : Receipt) : LinkView k x c a True (recovered k r s) := by
  have h1 : LinkView k x c a True ((List.finRange 48).foldl (clearStale k) s) := by
    obtain ⟨h1, h2⟩ := foldl_each (P := LinkView k x c a False) (Q := fun j u => (nth u.points (fieldPoint k j)).stale = false)
      (f := clearStale k)
      (fun u j hu => by unfold clearStale; exact hu.editField j rfl False.elim)
      (fun u j _ => by
        unfold clearStale
        dsimp only
        rw [State.showPoint_points, putPoint_points, nth_upd_same])
      (fun u i j _ hj e => by
        unfold clearStale
        dsimp only
        rw [State.showPoint_points, putPoint_points, nth_upd_other _ _ fun e => hj (fieldPoint_inj e).2.symm]
        exact e)
      (List.finRange 48) s (h.weaken id False.elim)
    exact ⟨h1.others, h1.link, h1.told, h1.fields.kind, h1.fields.reported, fun _ j => h2 j (.inl (List.mem_finRange j))⟩
  unfold Machine.recovered
  generalize (List.finRange 48).foldl (clearStale k) s = u at h1
  have hF := frame_alarm fun _ => False
  exact h1.passed (hF.back (hF.endAlarm _) (hF.foldl _ _ _ fun u j _ => hF.recoverPoint k r u j))

/-! ## Composite operations -/

theorem LinkView.releaseButtons (h : LinkView k x c a b s) : LinkView k { x with buttons := {} } c a b (releaseButtons k s) := by
  unfold Machine.releaseButtons
  dsimp only
  rw [h.link]
  split
  · exact (h.put { x with buttons := {} }).passed ((frame_event _).putPanel k _ _)
  · exact h.put { x with buttons := {} }

/-- A link that has left UP: its field points stale, point 248 + k present, its buttons released (R67). -/
theorem LinkView.leaveUp (h : LinkView k x c a b s) :
    LinkView k { x with buttons := {} } .present False False (leaveUp k s) :=
  ((h.panelStale.report (r := { point := linkPoint k, present := true, run := (Machine.panelStale k s).now, stamp := (Machine.panelStale k s).stamp }) rfl).weaken False.elim False.elim).releaseButtons

theorem LinkView.finishRestart (h : LinkView k x c a b s) (r : Result) :
    LinkView k { x with restart := none } c a b (finishRestart k r s) := by
  unfold Machine.finishRestart
  dsimp only
  rw [h.link]
  split
  · next e => rw [← e]; exact h
  · exact (h.put { x with restart := none }).passed ((frame_event _).finish _ _ _ _)

theorem LinkView.takeButtons (h : LinkView k x c a b s) (v : Buttons) : LinkView k { x with buttons := v } c a b (takeButtons k v s) := by
  have hE := frame_event fun _ => False
  unfold Machine.takeButtons
  dsimp only
  rw [h.link]
  refine (h.put { x with buttons := v }).passed ?_
  exact hE.back (hE.onlyIf _ _ _ (hE.putPanel k _ _)) (hE.back (hE.onlyIf _ _ _ (hE.putPanel k _ _))
    (hE.back (hE.onlyIf _ _ _ (hE.panelAction k _ _)) (hE.back (hE.onlyIf _ _ _ (hE.panelAction k _ _))
      (hE.onlyIf _ _ _ (hE.panelAction k _ _)))))

end one

end Sys2Proof.Machine
end

section
/-! SUPPORT. The links' laws through answers, misses, the orders of the links and every step. -/

namespace Sys2Proof.Machine

variable {k : Fin 4} {s : State}

/-- Other items of a link in the same state, with the laws kept. -/
theorem LinkLaws.put (h : LinkLaws s) {x : Link} (hx : x.holds) (hs : x.state = (nth s.links k).state) :
    LinkLaws (putLink k x s) :=
  ((h.view k).put x).close hx (by rw [hs]) fun e => ⟨hs ▸ e, hs ▸ e⟩

theorem LinkLaws.frame {F : Item → Prop} {t : State} (h : LinkLaws s) (hf : Frame F s t) (hF : ¬F .links) : LinkLaws t := by
  obtain ⟨hd, hc⟩ := hf.contacts h.due
  have hown : ∀ p, owner p = some .links → ¬owned F p := fun p e ⟨x, hx, hx'⟩ => hF (by
    rw [e] at hx
    obtain rfl : Item.links = x := Option.some.inj hx
    exact hx')
  refine ⟨hd, fun q => ?_⟩
  have e : t.links = s.links := hf.items .links hF
  refine ⟨?_, ?_, ?_⟩ <;> rw [e]
  · exact (h.law q).link
  · exact (h.law q).fields.same fun j => hc _ (fieldPoint_not_journal q j) (hown _ (owner_fieldPoint q j))
  · rw [(hc _ (linkPoint_not_journal q) (hown _ (owner_linkPoint q))).1]
    exact (h.law q).told

theorem LinkLaws.passed {t : State} (hp : Passed s t) (h : LinkLaws s) : LinkLaws t := h.frame hp id

/-! ## Scans, misses and answers -/

theorem missScan_laws (e : LinkError) (h : LinkLaws s) : LinkLaws (missScan k e s) := by
  obtain ⟨l1, l2, l3, l4, l5, l6, l7, l8, l9⟩ := (h.law k).link
  have hmin : min 255 ((nth s.links k).miss + 1) ≤ 255 := Nat.min_le_left _ _
  unfold missScan
  dsimp only
  refine LinkLaws.passed ((frame_event _).showLink k _) ?_
  split
  · next hs =>
    split
    · refine ((((h.view k).put _).change { nth s.links k with
        lastError := e, miss := min 255 ((nth s.links k).miss + 1), state := .lost, validRun := 0 } .misses).leaveUp).close
        ⟨?_, fun q => LinkState.noConfusion q, fun _ => rfl, fun _ => .inr rfl, Nat.zero_le _, hmin, l7, l8,
          fun q => LinkState.noConfusion q⟩ rfl fun q => LinkState.noConfusion q
      exact ⟨fun q => LinkState.noConfusion q, fun q => absurd (hs.symm.trans (l1.mpr q)) (by decide)⟩
    · next hm =>
      have hm' : min 255 ((nth s.links k).miss + 1) ≤ 2 := by simpa using hm
      exact h.put ⟨l1, fun q => ⟨hm', (l2 q).2⟩, l3, l4, l5, hmin, l7, l8, l9⟩ rfl
  · next hs =>
    exact h.put ⟨l1, fun q => absurd (hs.symm.trans q) (by decide), l3, l4, Nat.zero_le _, hmin, l7, l8, l9⟩ rfl
  · next hs =>
    exact h.put ⟨l1, fun q => absurd (hs.symm.trans q) (by decide), l3, l4, Nat.zero_le _, hmin, l7, l8, l9⟩ rfl
  · exact h

theorem linkUp_laws (a : Answer) (r : Receipt) (h : LinkLaws s) (hs : (nth s.links k).state = .starting) :
    LinkLaws (linkUp k a r s) := by
  obtain ⟨l1, _, _, _, _, _, l7, l8, _⟩ := (h.law k).link
  unfold linkUp
  dsimp only
  have h1 := (((h.view k).change { nth s.links k with state := .up, validRun := 0, miss := 0 } .validAnswers).compareInputs r
    a.inputs).recovered r
  have h2 := h1.report (r := { point := linkPoint k, present := false, run := r.run, stamp := r.stamp }) rfl
  generalize reportNow _ _ = u at h2
  have h3 := ((h2.put { nth u.links k with buttons := a.buttons }).finishRestart .doneOk)
  refine h3.close ?_ ?_ fun _ => ⟨trivial, trivial⟩ <;> rw [h2.link]
  · exact ⟨⟨fun q => LinkState.noConfusion q, fun q => absurd (hs.symm.trans (l1.mpr q)) (by decide)⟩,
      fun _ => ⟨Nat.zero_le _, rfl⟩, fun q => absurd rfl q, fun q => Bool.noConfusion q, Nat.zero_le _, Nat.zero_le _, l7, l8,
      fun q => LinkState.noConfusion q⟩
  · rfl

theorem takeEntries_view {x : Link} {c : Contact} {a b : Prop} (r : Receipt) (l : Nat) (es : List ChangeEntry)
    (h : LinkView k x c a b s) : LinkView k x c a b (es.foldl (takeEntry k r l) s) :=
  List.foldlRecOn es (takeEntry k r l) (motive := LinkView k x c a b) h fun _ hu e _ => hu.takeEntry r l e

theorem takeAnswer_laws (v : Answer) (r : Receipt) (h : LinkLaws s) (hs : (nth s.links k).state = .up) :
    LinkLaws (takeAnswer k v r s) := by
  obtain ⟨l1, l2, l3, l4, l5, l6, l7, l8, l9⟩ := (h.law k).link
  have hmin : ∀ n, min 255 (n + 1) ≤ 255 := fun n => Nat.min_le_left _ _
  have h1 := takeEntries_view r (nth s.links k).latency v.entries (h.view k)
  unfold takeAnswer
  dsimp only
  generalize v.entries.foldl (takeEntry k r (nth s.links k).latency) s = u at h1
  have h2 : ∃ n, n ≤ 255 ∧ LinkView k { nth s.links k with entriesLost := n } (conditionOf (decide ((nth s.links k).state ≠ .up)))
      ((nth s.links k).state = .up) ((nth s.links k).state = .up) (onlyIf v.overflow (countEntriesLost k) u) := by
    unfold onlyIf
    split
    · refine ⟨_, hmin (nth s.links k).entriesLost, ?_⟩
      unfold countEntriesLost
      dsimp only
      rw [h1.link]
      exact (h1.put _).passed ((frame_event _).offerLink _ _)
    · exact ⟨(nth s.links k).entriesLost, l8, h1⟩
  obtain ⟨n, hn, h2⟩ := h2
  refine ((h2.compareInputs r v.inputs).takeButtons v.buttons).close ?_ rfl fun _ => ⟨trivial, hs⟩
  exact ⟨l1, l2, fun q => absurd hs q, l4, l5, l6, l7, hn, l9⟩

theorem validAnswer_laws (v : Answer) (r : Receipt) (h : LinkLaws s) : LinkLaws (validAnswer k v r s) := by
  obtain ⟨l1, l2, l3, l4, l5, l6, l7, l8, l9⟩ := (h.law k).link
  unfold validAnswer
  dsimp only
  refine LinkLaws.passed ((frame_event _).showLink k _) ?_
  split
  · next hs =>
    split
    · exact linkUp_laws v r h hs
    · next hn =>
      have hn' : (nth s.links k).validRun + 1 ≤ 2 := by omega
      exact h.put ⟨l1, fun q => absurd (hs.symm.trans q) (by decide), l3, l4, hn', Nat.zero_le _, l7, l8, l9⟩ rfl
  · next hs =>
    have h1 : LinkLaws (putLink k { nth s.links k with miss := 0 } s) :=
      h.put ⟨l1, fun q => ⟨Nat.zero_le _, (l2 q).2⟩, l3, l4, l5, Nat.zero_le _, l7, l8, l9⟩ rfl
    exact takeAnswer_laws v r h1 (by rw [show nth (putLink k { nth s.links k with miss := 0 } s).links k = _ from nth_upd_same _ _ _]; exact hs)
  · next hs =>
    refine ((h.view k).change { nth s.links k with state := .starting, validRun := 1, miss := 0 } .answer).close ?_ (by rw [hs]; rfl)
      fun q => LinkState.noConfusion q
    exact ⟨⟨fun q => LinkState.noConfusion q, fun q => absurd (hs.symm.trans (l1.mpr q)) (by decide)⟩,
      fun q => LinkState.noConfusion q, fun _ => l3 (by rw [hs]; decide), fun _ => .inl rfl,
      (by decide : 1 ≤ 2), Nat.zero_le _, l7, l8, fun q => LinkState.noConfusion q⟩
  · exact h

/-! ## Orders of the links -/

theorem finishRestart_laws (r : Result) (h : LinkLaws s) : LinkLaws (finishRestart k r s) := by
  obtain ⟨l1, l2, l3, l4, l5, l9⟩ := (h.law k).link
  exact ((h.view k).finishRestart r).close ⟨l1, l2, l3, fun q => Bool.noConfusion q, l5, l9⟩ rfl fun q => ⟨q, q⟩

theorem switchLink_laws {x : Link} {en : Bool} (h : LinkLaws s) (hs : x.state = (nth s.links k).state) (he : x.enabled = en)
    (hv : x.validRun ≤ 2 ∧ x.miss ≤ 255 ∧ x.latency ≤ 15 ∧ x.entriesLost ≤ 255)
    (hu : x.state = .up → x.miss ≤ 2 ∧ x.validRun = 0) (hb : x.state ≠ .up → x.buttons = {})
    (hr : x.restart.isSome = true → x.state = .starting ∨ x.state = .lost) (ha : x.state = .disabled → x.awaiting = false) :
    LinkLaws (switchLink k x en s) := by
  obtain ⟨v1, v2, v3, v4⟩ := hv
  have hview := h.view k
  rw [← hs] at hview
  unfold switchLink
  split
  · next e =>
    refine (hview.change { x with state := .starting, miss := 0, validRun := 0 } .enabled).close ?_ (by rw [e]; rfl)
      fun q => LinkState.noConfusion q
    exact ⟨⟨fun q => LinkState.noConfusion q, fun q => absurd (he.symm.trans q) (by decide)⟩, fun q => LinkState.noConfusion q,
      fun _ => hb (by rw [e]; decide), fun _ => .inl rfl, Nat.zero_le _, Nat.zero_le _, v3, v4, fun q => LinkState.noConfusion q⟩
  · next e => exact h.put ⟨⟨fun _ => he, fun _ => e⟩, hu, hb, hr, v1, v2, v3, v4, ha⟩ hs
  · next hn =>
    exact h.put ⟨⟨fun q => absurd q hn, fun q => absurd (he.symm.trans q) (by decide)⟩, hu, hb, hr, v1, v2, v3, v4, ha⟩ hs
  · next hn =>
    dsimp only
    have h1 := hview.change { x with state := .disabled, awaiting := false, rx := [], receipt := none } .disabled
    split
    · refine (h1.leaveUp.finishRestart .refusedState).close ?_ rfl fun q => LinkState.noConfusion q
      exact ⟨⟨fun _ => he, fun _ => rfl⟩, fun q => LinkState.noConfusion q, fun _ => rfl, fun q => Bool.noConfusion q, v1, v2, v3, v4, fun _ => rfl⟩
    · next hnu =>
      refine (h1.finishRestart .refusedState).close ?_ (by rw [decide_eq_true hnu]; rfl) fun q => LinkState.noConfusion q
      exact ⟨⟨fun _ => he, fun _ => rfl⟩, fun q => LinkState.noConfusion q, fun _ => hb hnu, fun q => Bool.noConfusion q, v1, v2, v3, v4, fun _ => rfl⟩

theorem orderSetLink_laws (d : List Byte) (h : LinkLaws s) : LinkLaws (orderSetLink d s).1 := by
  unfold orderSetLink
  split
  · exact h
  · next k _ =>
    split
    · exact h
    · next hr =>
      dsimp only
      obtain ⟨l1, l2, l3, l4, l5, l6, l7, l8, l9⟩ := (h.law k).link
      refine LinkLaws.passed (frame_trans ((frame_event _).offer _ _) ((frame_event _).showLink k _)) ?_
      exact switchLink_laws h rfl rfl ⟨l5, l6, by dsimp only; omega, l8⟩ l2 l3 l4 l9

theorem orderRestartLink_laws (n : Fin 16) (d : List Byte) (h : LinkLaws s) : LinkLaws (orderRestartLink n d s).1 := by
  unfold orderRestartLink
  split
  · exact h
  · next k _ =>
    dsimp only
    obtain ⟨l1, l2, l3, l4, l5, l6, l7, l8, l9⟩ := (h.law k).link
    split
    · exact h
    · next hnd =>
      split
      · exact h
      · dsimp only
        refine LinkLaws.passed ((frame_event _).showLink k _) ?_
        have h1 := (h.view k).change { nth s.links k with
          state := .starting, validRun := 0, miss := 0, restart := some (n, s.now + 1000) } .restartOrder
        have hen : LinkState.starting = .disabled ↔ (nth s.links k).enabled = false :=
          ⟨fun q => LinkState.noConfusion q, fun q => absurd (l1.mpr q) hnd⟩
        split
        · exact h1.leaveUp.close ⟨hen, fun q => LinkState.noConfusion q, fun _ => rfl, fun _ => .inl rfl,
            Nat.zero_le _, Nat.zero_le _, l7, l8, fun q => LinkState.noConfusion q⟩ rfl fun q => LinkState.noConfusion q
        · next hnu =>
          exact h1.close ⟨hen, fun q => LinkState.noConfusion q, fun _ => l3 hnu, fun _ => .inl rfl,
            Nat.zero_le _, Nat.zero_le _, l7, l8, fun q => LinkState.noConfusion q⟩ (by rw [decide_eq_true hnu]; rfl)
            fun q => LinkState.noConfusion q

/-! ## Every step -/

theorem linkLaws_plain {c : Instr} (hp : plain c = true) (hc : touches c .links) {t : State}
    (he : exec c s = .next t) (h : LinkLaws s) : LinkLaws t := by
  cases c <;> simp only [plain, Bool.false_eq_true] at hp <;> simp only [touches, reduceCtorEq, or_self] at hc <;>
    simp only [exec] at he
  case scanFrame k =>
    simp only [execScanFrame, Host.Outcome.next.injEq] at he; subst he
    split
    · next e =>
      obtain ⟨l1, l2, l3, l4, l5, l6, l7, l8, _⟩ := (h.law k).link
      exact LinkLaws.passed ((frame_event _).showLink k _) (h.put ⟨l1, l2, l3, l4, l5, l6, l7, l8, fun q => absurd q e.1⟩ rfl)
    · exact h
  case answerReceipt k b =>
    simp only [execAnswerReceipt, Host.Outcome.next.injEq] at he; subst he
    split
    · obtain ⟨l1, l2, l3, l4, l5, l9⟩ := (h.law k).link
      exact h.put ⟨l1, l2, l3, l4, l5, l9⟩ rfl
    · exact h
  case answerLimit k b =>
    simp only [execAnswerLimit, Host.Outcome.next.injEq] at he; subst he
    split
    · obtain ⟨l1, l2, l3, l4, l5, l6, l7, l8, _⟩ := (h.law k).link
      have h1 : LinkLaws (putLink k { nth s.links k with awaiting := false, rx := [], receipt := none } s) :=
        h.put ⟨l1, l2, l3, l4, l5, l6, l7, l8, fun _ => rfl⟩ rfl
      split
      · exact missScan_laws _ h1
      · exact validAnswer_laws _ _ h1
    · exact h
  case restartLinkDeadline k =>
    simp only [execRestartLinkDeadline, Host.Outcome.next.injEq] at he; subst he
    split
    · exact h
    · split
      · exact LinkLaws.passed ((frame_event _).showLink k _) (finishRestart_laws _ h)
      · exact h

theorem linkLaws_init (hl : s.links = State.init.links) (hd : s.due = []) (hp : s.points = State.init.points) : LinkLaws s := by
  have hln : ∀ k, nth s.links k = {} := fun k => by rw [hl]; exact nth_replicate _ k
  have hcon : ∀ p, nth s.points p = { contact := initContact p } := fun p => by rw [hp]; exact nth_tab _ _ p
  refine ⟨dueIn_nil hd, fun k => ⟨?_, ⟨fun j => ?_, fun q => ?_, fun q => ?_⟩, ?_⟩⟩
  · rw [hln]
    exact ⟨by decide, fun q => LinkState.noConfusion q, fun _ => rfl, fun q => Bool.noConfusion q, by decide, by decide, by decide, by decide, fun _ => rfl⟩
  · rw [hcon]
    unfold initContact
    rw [if_pos (by simp only [fieldPoint]; omega)]
    exact .inr (.inr rfl)
  · rw [hln] at q
    exact LinkState.noConfusion q
  · rw [hln] at q
    exact LinkState.noConfusion q
  · rw [hcon, hln]
    unfold initContact
    rw [if_neg (by simp only [linkPoint]; omega), if_neg (by simp only [linkPoint]; omega),
      if_pos (by simp only [linkPoint]; omega)]
    rfl

theorem linkLaws_of_step {t : State} (h : LinkLaws s) (he : step s = .next t) : LinkLaws t := by
  have hF : StepClosed (· ≠ .links) fun s t => LinkLaws s → LinkLaws t := .of_frame fun s t hf h => h.frame hf (by simp)
  have hx : ∀ c s t, c ≠ .powerOnReset → c ≠ .resetLine → Machine.exec c s = .next t → LinkLaws s → LinkLaws t := by
    refine fun c s t h1 h2 => hF.exec (fun s => hF.leaveStarting (by simp) s) ?_ ?_ ?_ c s t h1 h2
    · rintro k n d s ⟨x, hx, hn⟩ h
      obtain rfl : x = .links := by simpa using hn
      cases k <;> simp [OrderKind.touches] at hx
      · exact orderSetLink_laws d h
      · exact orderRestartLink_laws n d h
    · exact fun o s t he => hF.segmentRead (by simp) (by simp) (by simp) (by simp)
        (fun bs u hu => hu.frame ((frame_step (· = .settings)).complete rfl bs u) (by simp)) o s t he
    · rintro c s t hp ⟨x, hx, hn⟩ he h
      obtain rfl : x = .links := by simpa using hn
      exact linkLaws_plain hp hx he h
  exact hF.step (fun _ _ k => ⟨k.due, fun q => ⟨(k.law q).link, (k.law q).fields.same fun _ => ⟨rfl, rfl⟩, (k.law q).told⟩⟩)
    (fun _ => linkLaws_init rfl rfl rfl) (fun _ _ => linkLaws_init rfl rfl rfl) hx s t h he

end Sys2Proof.Machine
end

section
/-! SUPPORT. The form of the memory, which every step keeps (log entry 8), and the memory of the slots: outside a take and a
DONE write no event of the part writes it. -/

namespace Sys2Proof.Machine

/-! ## The form of the memory -/

theorem memoryReach_all : AnyClosed (fun _ => True) (MemoryReach fun _ => True) := memoryReach_any fun _ _ => trivial

theorem memoryHolds_resetLine {s : State} (h : s.memoryHolds) {t : State} (he : execResetLine s = .next t) : t.memoryHolds := by
  simp only [execResetLine, Host.Outcome.next.injEq] at he; subst he
  have hm : (memoryAtReset s).wf = true := by
    unfold memoryAtReset
    split
    · exact h
    · exact Memory.wf_writeWord _ _ (Memory.wf_writeBytes _ _ h)
  have h0 : (lineInit s).memoryHolds := by
    unfold State.memoryHolds lineInit
    dsimp only
    exact Memory.wf_writeWords _ (Memory.wf_kept hm)
  have h1 := memoryReach_all.offer (lineRestart s.journal) (lineInit s)
  generalize offer (lineRestart s.journal) (lineInit s) = v at h1
  refine List.foldlRecOn _ abandonSlot (motive := State.memoryHolds) (h1.wf h0) fun u hu n _ => ?_
  unfold abandonSlot
  split
  · exact (memoryReach_all.done (fun _ _ _ => trivial) n .abandoned [] u).wf hu
  · exact hu

theorem memoryHolds_exec {c : Instr} {s t : State} (h : s.memoryHolds) (he : exec c s = .next t) : t.memoryHolds := by
  by_cases hc : AnyClosed.inner c = true
  · exact (memoryReach_all.exec (fun _ _ _ => trivial) c s t hc (fun _ _ _ _ => trivial) he).wf h
  · cases c <;> simp only [AnyClosed.inner, not_true_eq_false] at hc <;> simp only [exec] at he
    case powerOnReset =>
      simp only [execPowerOnReset, Host.Outcome.next.injEq] at he; subst he
      exact (memoryReach_all.offer _ _).wf (Memory.wf_writeWords _ rfl)
    case resetLine => exact memoryHolds_resetLine h he
    case hostWordWrite a v =>
      simp only [execHostWordWrite, Host.Outcome.next.injEq] at he; subst he
      split
      · exact h
      · exact Memory.wf_writeWord _ _ h

theorem memoryHolds_of_step {s t : State} (h : s.memoryHolds) (he : step s = .next t) : t.memoryHolds := by
  unfold step at he
  split at he
  · cases he
    exact h
  · next c rest _ => exact memoryHolds_exec (s := { s with pending := rest }) h he

/-! ## Orders and commands that write in no slot -/

/-- The commands that, outside walks, resets and segment reads, may make a DONE write or are a host write. -/
def mayFinish : Instr → Bool
  | .answerLimit _ _ | .restartLinkDeadline _ | .hostWordWrite _ _ => true
  | _ => false

namespace AnyClosed

variable {A : Nat → Prop} {R : State → State → Prop} (h : AnyClosed A R)
include h

theorem guard {p : Prop} [Decidable p] {s x : State} (hx : p → R s x) : R s (if p then x else s) := by
  split
  · next e => exact hx e
  · exact h.refl s

/-- An order that finishes no other. -/
theorem applyOrder_alone {k : OrderKind} (hk : k ≠ .setLink) (n : Fin 16) (d : List Byte) (s : State) (w : pageOk A s) :
    R s (Machine.applyOrder k n d s).1 := by
  cases k
  case loadPoints => exact h.orderLoadPoints n d s
  case setChatter => exact h.orderSetChatter d s
  case shelvePoint => exact h.orderShelve d s
  case unshelvePoint => exact h.orderUnshelve d s
  case readPoint => exact h.orderReadPoint d s
  case acknowledge => exact h.orderAcknowledge d s
  case silence => exact h.orderAction _ _ _ s
  case resetAlarms => exact h.orderAction _ _ _ s
  case lampTest => exact h.orderLampTest d s
  case setLink => exact absurd rfl hk
  case restartLink => exact h.orderRestartLink n d s
  case loadMatrix => exact h.orderLoadMatrix n d s
  case switchBank => exact h.orderSwitchBank s
  case setProfiles => exact h.orderSetProfiles d s
  case remoteTrip => exact h.orderRemoteTrip d s
  case resetLockout => exact h.orderResetLockout d s
  case isolateOutputs => exact h.orderIsolate d s
  case restoreOutputs => exact h.orderRestore d s
  case setTime => exact h.orderSetTime d s
  case setJournal => exact h.orderSetJournal d s
  case flushJournal => exact h.orderFlushJournal s w
  case enterService => exact h.orderEnterService s
  case leaveService => exact h.orderLeaveService s
  case lock => exact h.orderLock d s
  case unlock => exact h.orderUnlock s

theorem execPlain_alone {c : Instr} (hp : plain c = true) (hc : mayFinish c = false) {s t : State} (w : pageOk A s)
    (he : Machine.exec c s = .next t) : R s t := by
  cases c <;> simp only [plain, Bool.false_eq_true] at hp <;> simp only [mayFinish, Bool.true_eq_false] at hc <;>
    simp only [Machine.exec] at he
  case alertClear v =>
    simp only [execAlertClear, Host.Outcome.next.injEq] at he; subst he
    refine h.back (h.words _ _ fun c hc => ?_) (h.setEngine _ s)
    simp only [List.mem_cons, List.not_mem_nil, or_false] at hc
    rcases hc with rfl | rfl | rfl | rfl <;> constructor <;> (simp only [partByte]; omega)
  case discardedRegisterWrite r l v =>
    simp only [execDiscardedRegisterWrite, Host.Outcome.next.injEq] at he; subst he; exact h.refl s
  case scanFrame k =>
    simp only [execScanFrame, Host.Outcome.next.injEq] at he; subst he
    exact h.guard fun _ => h.back (h.showLink k _) (h.putLink k _ s)
  case answerReceipt k b =>
    simp only [execAnswerReceipt, Host.Outcome.next.injEq] at he; subst he
    exact h.guard fun _ => h.putLink k _ s
  case pendingChangeDeadline p =>
    simp only [execPendingChangeDeadline, Host.Outcome.next.injEq] at he; subst he
    split
    · exact h.guard fun _ => h.back (h.endAlarm _) (h.side.accept p _ s trivial)
    · exact h.refl s
  case leakStep =>
    simp only [execLeakStep, Host.Outcome.next.injEq] at he; subst he
    exact h.guard fun _ => h.back (h.leak _) (h.quiet rfl rfl)
  case settleDeadline g =>
    simp only [execSettleDeadline, Host.Outcome.next.injEq] at he; subst he
    exact h.guard fun _ => h.back (h.endAlarm _) (h.side.latch g s fun _ _ => trivial)
  case buttonTestEnd k =>
    simp only [execButtonTestEnd, Host.Outcome.next.injEq] at he; subst he
    exact h.guard fun _ => h.putPanel k _ s
  case orderTestEnd k =>
    simp only [execOrderTestEnd, Host.Outcome.next.injEq] at he; subst he
    exact h.guard fun _ => h.putPanel k _ s
  case ringbackToneCycle z =>
    simp only [execRingbackToneCycle, Host.Outcome.next.injEq] at he; subst he
    split
    · exact h.refl s
    · exact h.guard fun _ => h.quiet rfl rfl
  case tripInputSample l =>
    simp only [execTripInputSample, Host.Outcome.next.injEq] at he; subst he
    exact h.guard fun _ => h.back (h.side.foldl _ _ _ fun u i _ => h.sampleInput l u i) (h.quiet rfl rfl)
  case tripInputQualified i =>
    simp only [execTripInputQualified, Host.Outcome.next.injEq] at he; subst he
    exact h.guard fun _ => h.qualify i s
  case onTimerExpiry o =>
    simp only [execOnTimerExpiry, Host.Outcome.next.injEq] at he; subst he
    exact h.guard fun _ => h.expireOnTimer o s
  case feedbackSample c1 c2 =>
    simp only [execFeedbackSample, Host.Outcome.next.injEq] at he; subst he
    exact h.guard fun _ => h.back (h.side.foldl _ _ _ fun u o _ => h.sampleOutput c1 c2 u o) (h.quiet rfl rfl)
  case operateDeadline o =>
    simp only [execOperateDeadline, Host.Outcome.next.injEq] at he; subst he
    exact h.guard fun _ => h.changeFault o _ _ s
  case releaseDeadline o =>
    simp only [execReleaseDeadline, Host.Outcome.next.injEq] at he; subst he
    exact h.guard fun _ => h.changeFault o _ _ s
  case openDeadline o =>
    simp only [execOpenDeadline, Host.Outcome.next.injEq] at he; subst he
    exact h.guard fun _ => h.changeFault o _ _ s
  case clearDeadline o =>
    simp only [execClearDeadline, Host.Outcome.next.injEq] at he; subst he
    exact h.guard fun _ => h.changeFault o _ _ s
  case supplySample b =>
    simp only [execSupplySample, Host.Outcome.next.injEq] at he; subst he
    exact h.guard fun _ => h.back (h.sampleSupply b _) (h.quiet rfl rfl)
  case supplyLost =>
    simp only [execSupplyLost, Host.Outcome.next.injEq] at he; subst he
    exact h.guard fun _ => h.loseSupply s
  case supplySettleDeadline =>
    simp only [execSupplySettleDeadline, Host.Outcome.next.injEq] at he; subst he
    exact h.guard fun _ => h.settleSupply s
  case syncPulse =>
    simp only [execSyncPulse, Host.Outcome.next.injEq] at he; subst he
    split
    · exact h.refl s
    · split
      · exact h.back (h.judgePulse _) (h.quiet rfl rfl)
      · exact h.quiet rfl rfl
  case syncMissDeadline =>
    simp only [execSyncMissDeadline, Host.Outcome.next.injEq] at he; subst he
    split
    · split
      · exact h.back (h.showClock _) (h.quiet rfl rfl)
      · exact h.back (h.raiseSyncFault _ _) (h.quiet rfl rfl)
    · exact h.refl s
  case journalRescan =>
    simp only [execJournalRescan, Host.Outcome.next.injEq] at he; subst he
    exact h.guard fun _ => h.back (h.retryOpening _) (h.quiet rfl rfl)
  case recordWrite =>
    simp only [execRecordWrite, Host.Outcome.next.injEq] at he; subst he
    exact h.guard fun _ => h.writeEvent s w
  case flushDeadline =>
    simp only [execFlushDeadline, Host.Outcome.next.injEq] at he; subst he
    split
    · exact h.refl s
    · next f e => exact h.guard fun _ => h.closePage _ f s (w f e)
  case runTimeRise =>
    simp only [execRunTimeRise, Host.Outcome.next.injEq] at he; subst he
    exact h.quiet rfl rfl

end AnyClosed

end Sys2Proof.Machine
end

section
/-! SUPPORT. The slots of the orders in flight: each order has its own, which reads TAKEN (R166, R170). -/

namespace Sys2Proof.Machine

/-! ## Who holds a slot -/

/-- Who may hold a slot: the image order in flight of each kind, and the RESTART LINK in flight of each link (R170). -/
abbrev Holder := ImageOrder ⊕ Fin 4

/-- The slot it holds. -/
def heldBy (s : State) : Holder → Option (Fin 16)
  | .inl o => (s.job o).map (·.slot)
  | .inr k => (nth s.links k).restart.map (·.1)

/-- Every possible holder. -/
def holders : List Holder := [.inl .loadPoints, .inl .loadMatrix] ++ (List.finRange 4).map .inr

theorem mem_holders (a : Holder) : a ∈ holders := by rcases a with (_ | _) | k <;> simp [holders]

theorem nodup_holders : holders.Nodup := by decide

theorem flying_eq (s : State) : s.flying = holders.filterMap (heldBy s) := by
  unfold State.flying holders
  rw [List.filterMap_append, List.filterMap_map]
  congr 1
  unfold heldBy State.job
  cases s.engine.loadPoints <;> cases s.engine.loadMatrix <;> rfl

/-- The laws of the slots, by holder. -/
structure SlotsLaw (s : State) : Prop where
  apart : ∀ a b n, heldBy s a = some n → heldBy s b = some n → a = b
  taken : ∀ a n, heldBy s a = some n → s.mem.readWord (slotBase n) = 2

theorem slotsHold_iff (s : State) : s.slotsHold ↔ SlotsLaw s := by
  have hmem : ∀ n, n ∈ s.flying ↔ ∃ a, heldBy s a = some n := fun n => by
    rw [flying_eq, List.mem_filterMap]
    exact ⟨fun ⟨a, _, e⟩ => ⟨a, e⟩, fun ⟨a, e⟩ => ⟨a, mem_holders a, e⟩⟩
  have hnodup : s.flying.Nodup ↔ ∀ a b n, heldBy s a = some n → heldBy s b = some n → a = b := by
    rw [flying_eq, List.Nodup, List.pairwise_filterMap]
    constructor
    · intro h a b n ha hb
      by_contra hab
      have hsymm : Std.Symm fun a a' : Holder => ∀ n, heldBy s a = some n → ∀ m, heldBy s a' = some m → n ≠ m :=
        ⟨fun a b k n hn m hm => (k m hm n hn).symm⟩
      exact h.forall (mem_holders a) (mem_holders b) hab n ha n hb rfl
    · intro h
      refine List.Pairwise.imp ?_ nodup_holders
      rintro a b hab n ha m hb rfl
      exact hab (h a b n ha hb)
  constructor
  · rintro ⟨h1, h2⟩
    exact ⟨hnodup.mp h1, fun a n e => h2 n ((hmem n).mpr ⟨a, e⟩)⟩
  · rintro ⟨h1, h2⟩
    exact ⟨hnodup.mpr h1, fun n hn => have ⟨a, e⟩ := (hmem n).mp hn; h2 a n e⟩

theorem inFlight_iff (s : State) (n : Fin 16) : s.inFlight n = true ↔ ∃ a, heldBy s a = some n := by
  have hjob : ∀ j : Option ImageJob, jobIn j n = true ↔ j.map (·.slot) = some n := fun j => by
    cases j <;> simp [jobIn]
  have hrestart : ∀ l : Link, restartIn l n = true ↔ l.restart.map (·.1) = some n := fun l => by
    unfold restartIn
    cases l.restart <;> simp
  constructor
  · intro h
    simp only [State.inFlight, Bool.or_eq_true, hjob, List.any_eq_true, hrestart] at h
    rcases h with (h | h) | ⟨k, _, h⟩
    · exact ⟨.inl .loadPoints, h⟩
    · exact ⟨.inl .loadMatrix, h⟩
    · exact ⟨.inr k, h⟩
  · rintro ⟨(_ | _) | k, h⟩ <;> simp only [State.inFlight, Bool.or_eq_true, hjob, List.any_eq_true, hrestart]
    · exact .inl (.inl h)
    · exact .inl (.inr h)
    · exact .inr ⟨k, List.mem_finRange k, h⟩

/-! ## What events leave of the slots -/

/-- The bytes outside the order table (section 11.5). -/
abbrev outsideSlots (a : Nat) : Prop := a < 256 ∨ 768 ≤ a

theorem outsideSlots_any : AnyClosed outsideSlots (MemoryReach outsideSlots) :=
  memoryReach_any fun a h => by simp only [partByte] at h; omega

/-- With the FILLING page a free page, the journal writes outside the order table. -/
theorem pageOk_of_law {s : State} (h : PageLaw s.journal) : pageOk outsideSlots s := fun f hf a ha => by
  have := (h.filling f hf).2.2.1
  simp only [outsideSlots]
  omega

theorem readWord_of_read {m m' : Memory} {a : Nat} (h0 : m'.read a = m.read a) (h1 : m'.read (a + 1) = m.read (a + 1)) :
    m'.readWord a = m.readWord a := by unfold Memory.readWord; rw [h0, h1]

theorem slotWord_of_reach {s t : State} (h : MemoryReach outsideSlots s t) (n : Fin 16) :
    t.mem.readWord (slotBase n) = s.mem.readWord (slotBase n) := by
  refine readWord_of_read (h.same _ ?_) (h.same _ ?_) <;> simp only [outsideSlots, slotBase] <;> omega

/-- No slot is written, and every holder keeps its own. -/
structure SlotsKept (s t : State) : Prop where
  memory : MemoryReach outsideSlots s t
  holders : ∀ a, heldBy t a = heldBy s a

/-- At most orders in flight end: who holds a slot held it before, and its state word is as it was. -/
def SlotsDrop (s t : State) : Prop :=
  ∀ a n, heldBy t a = some n → heldBy s a = some n ∧ t.mem.readWord (slotBase n) = s.mem.readWord (slotBase n)

theorem SlotsKept.refl (s : State) : SlotsKept s s := ⟨outsideSlots_any.refl s, fun _ => rfl⟩

theorem SlotsKept.trans {s t u : State} (h : SlotsKept s t) (k : SlotsKept t u) : SlotsKept s u :=
  ⟨outsideSlots_any.trans h.memory k.memory, fun a => (k.holders a).trans (h.holders a)⟩

/-- The last step first, so that the state between is read from the goal. -/
theorem SlotsKept.back {s t u : State} (k : SlotsKept t u) (h : SlotsKept s t) : SlotsKept s u := h.trans k

theorem SlotsKept.drop {s t : State} (h : SlotsKept s t) : SlotsDrop s t := fun a n e =>
  ⟨(h.holders a).symm.trans e, slotWord_of_reach h.memory n⟩

theorem SlotsDrop.trans {s t u : State} (h : SlotsDrop s t) (k : SlotsDrop t u) : SlotsDrop s u := fun a n e =>
  have ⟨e1, w1⟩ := k a n e
  have ⟨e2, w2⟩ := h a n e1
  ⟨e2, w1.trans w2⟩

theorem SlotsDrop.law {s t : State} (h : SlotsDrop s t) (hs : SlotsLaw s) : SlotsLaw t where
  apart a b n ha hb := hs.apart a b n (h a n ha).1 (h b n hb).1
  taken a n ha := (h a n ha).2.trans (hs.taken a n (h a n ha).1)

theorem SlotsDrop.free {s t : State} (h : SlotsDrop s t) {n : Fin 16} (hn : ∀ a, heldBy s a ≠ some n) (a : Holder) :
    heldBy t a ≠ some n := fun e => hn a (h a n e).1

/-- Holders are items of the links and of the Order Engine. -/
theorem heldBy_of_frame {F : Item → Prop} {s t : State} (h : Frame F s t) (hl : ¬F .links) (hp : ¬F .pointsJob)
    (hm : ¬F .matrixJob) (a : Holder) : heldBy t a = heldBy s a := by
  rcases a with (_ | _) | k
  · exact congrArg (Option.map _) (h.items .pointsJob hp)
  · exact congrArg (Option.map _) (h.items .matrixJob hm)
  · unfold heldBy
    dsimp only
    rw [show t.links = s.links from h.items .links hl]

theorem slotsKept_of_passed {s t : State} (hm : MemoryReach outsideSlots s t) (h : Passed s t) : SlotsKept s t :=
  ⟨hm, heldBy_of_frame h id id id⟩

/-- The operations of the alarm side. -/
theorem slotsKept_of_side {s t : State} (hm : MemoryReach outsideSlots s t) (h : SideOnly s t) : SlotsKept s t := by
  refine ⟨hm, fun a => ?_⟩
  rcases a with o | k
  · exact congrArg (Option.map _) (by cases o <;> simp only [State.job, h.engine])
  · unfold heldBy
    dsimp only
    rw [h.links]

/-! ## DONE writes -/

/-- The bytes of slot n. -/
def slotByte (n : Fin 16) (a : Nat) : Prop := slotBase n ≤ a ∧ a < slotBase n + 32

theorem slotWord_finish {n m : Fin 16} (hm : m ≠ n) (r : Result) (d : List Byte) (s : State) :
    (finish n r d s).mem.readWord (slotBase m) = s.mem.readWord (slotBase m) := by
  have hr : AnyClosed (fun a => outsideSlots a ∨ slotByte n a) (MemoryReach fun a => outsideSlots a ∨ slotByte n a) :=
    memoryReach_any fun a h => by simp only [partByte] at h; simp only [outsideSlots]; omega
  have h := hr.finish n r d s fun i hi => .inr ⟨by omega, by omega⟩
  have hv : m.val ≠ n.val := fun e => hm (Fin.ext e)
  refine readWord_of_read (h.same _ ?_) (h.same _ ?_) <;> simp only [outsideSlots, slotByte, slotBase] <;> omega

/-- A DONE write in a slot that no order in flight holds. -/
theorem finish_drop {n : Fin 16} {s : State} (hn : ∀ a, heldBy s a ≠ some n) (r : Result) (d : List Byte) :
    SlotsDrop s (finish n r d s) := fun a m e => by
  rw [heldBy_of_frame ((frame_event fun _ => False).finish n r d s) id id id] at e
  exact ⟨e, slotWord_finish (fun k => hn a (e.trans (congrArg some k))) r d s⟩

/-- An order in flight ends: its holder gives up the slot, the others keep theirs, and the DONE write is made. -/
theorem finish_held {b : Holder} {n : Fin 16} {s t : State} (hs : SlotsLaw s) (hb : heldBy s b = some n)
    (hm : t.mem = s.mem) (hn : heldBy t b = none) (ho : ∀ a, a ≠ b → heldBy t a = heldBy s a) (r : Result) (d : List Byte) :
    SlotsDrop s (finish n r d t) := by
  have h1 : SlotsDrop s t := fun a m e => by
    have hab : a ≠ b := by
      rintro rfl
      exact absurd (hn.symm.trans e) (by simp)
    exact ⟨(ho a hab).symm.trans e, by rw [hm]⟩
  refine h1.trans (finish_drop (fun a e => ?_) r d)
  obtain rfl := hs.apart a b n (h1 a n e).1 hb
  exact absurd (hn.symm.trans e) (by simp)

end Sys2Proof.Machine
end

section
/-! SUPPORT. The slots through the links' operations: no slot is written but by the DONE write of a RESTART LINK that ends
(R77). -/

namespace Sys2Proof.Machine

/-! ## The operations that end no order -/

theorem sideReach_any : SideClosed (fun _ => True) outsideSlots (SideReach (fun _ => True) outsideSlots) :=
  sideReach_closed (fun a h => by simp only [recordByte] at h; omega)
    (fun p _ => by simp only [pointAddr, outsideSlots]; omega) (fun _ _ => trivial)

theorem SideReach.slots {s t : State} (h : SideReach (fun _ => True) outsideSlots s t) : SlotsKept s t :=
  slotsKept_of_side h.memory h.only

section one
variable (k : Fin 4)

theorem heldBy_putLink (x : Link) (s : State) {a : Holder} (ha : a ≠ .inr k) : heldBy (putLink k x s) a = heldBy s a := by
  rcases a with (_ | _) | q
  · rfl
  · rfl
  · unfold heldBy
    dsimp only
    rw [show nth (putLink k x s).links q = nth s.links q from nth_upd_other _ _ fun e => ha (e ▸ rfl)]

theorem heldBy_putLink_same (x : Link) (s : State) : heldBy (putLink k x s) (.inr k) = x.restart.map (·.1) := by
  unfold heldBy
  dsimp only
  rw [show nth (putLink k x s).links k = x from nth_upd_same _ _ _]

/-- A change of the link that leaves its RESTART LINK. -/
theorem slotsKept_putLink {x : Link} {s : State} (hx : x.restart = (nth s.links k).restart) : SlotsKept s (putLink k x s) := by
  refine ⟨outsideSlots_any.putLink k x s, fun a => ?_⟩
  by_cases ha : a = .inr k
  · rw [ha, heldBy_putLink_same, hx]
    rfl
  · exact heldBy_putLink k x s ha

theorem slotsKept_offerLink (r : Record) (s : State) : SlotsKept s (offerLink r s) :=
  slotsKept_of_passed (outsideSlots_any.offerLink r s) ((frame_event _).offerLink r s)

theorem slotsKept_showLink (s : State) : SlotsKept s (State.showLink k s) :=
  slotsKept_of_passed (outsideSlots_any.showLink k s) ((frame_event _).showLink k s)

theorem slotsKept_putPanel (x : Panel) (s : State) : SlotsKept s (putPanel k x s) :=
  slotsKept_of_passed (outsideSlots_any.putPanel k x s) ((frame_event _).putPanel k x s)

theorem slotsKept_changeLink {x : Link} (c : LinkCause) {s : State} (hx : x.restart = (nth s.links k).restart) :
    SlotsKept s (changeLink k x c s) := by
  unfold changeLink
  exact (slotsKept_offerLink _ _).back (slotsKept_putLink k hx)

theorem slotsKept_releaseButtons (s : State) : SlotsKept s (releaseButtons k s) := by
  unfold releaseButtons
  dsimp only
  have h1 : SlotsKept s (putLink k { nth s.links k with buttons := {} } s) := slotsKept_putLink k rfl
  split
  · exact (slotsKept_putPanel k _ _).back h1
  · exact h1

theorem slotsKept_panelStale (s : State) : SlotsKept s (panelStale k s) :=
  (sideReach_any.foldl _ _ _ fun _ _ _ =>
    sideReach_any.trans (sideReach_any.putPoint _ _ _ trivial) (sideReach_any.showPoint _ _ trivial)).slots

theorem slotsKept_reportNow (r : Report) (s : State) : SlotsKept s (reportNow r s) :=
  (sideReach_any.reportNow r s trivial fun _ _ => trivial).2.slots

theorem slotsKept_leaveUp (s : State) : SlotsKept s (leaveUp k s) :=
  (slotsKept_releaseButtons k _).back ((slotsKept_reportNow _ _).back (slotsKept_panelStale k s))

theorem slotsKept_missScan (e : LinkError) (s : State) : SlotsKept s (missScan k e s) := by
  unfold missScan
  dsimp only
  refine (slotsKept_showLink k _).back ?_
  split
  · split
    · refine (slotsKept_leaveUp k _).back ((slotsKept_changeLink k _ ?_).back (slotsKept_putLink k rfl))
      rw [show nth (putLink k _ s).links k = _ from nth_upd_same _ _ _]
    · exact slotsKept_putLink k rfl
  · exact slotsKept_putLink k rfl
  · exact slotsKept_putLink k rfl
  · exact .refl s

theorem slotsKept_takeContact (p : Fin 256) (c : Contact) (t : Int) (st : Stamp) (f : Bool) (s : State) :
    SlotsKept s (takeContact p c t st f s) := (sideReach_any.takeContact p c t st f s trivial fun _ _ => trivial).2.slots

theorem slotsKept_foldl {α : Type} (f : State → α → State) (hf : ∀ s a, SlotsKept s (f s a)) (l : List α) (s : State) :
    SlotsKept s (l.foldl f s) :=
  List.foldlRecOn l f (motive := SlotsKept s) (.refl s) fun u hu a _ => hu.trans (hf u a)

theorem slotsKept_takeEntry (r : Receipt) (l : Nat) (s : State) (e : ChangeEntry) : SlotsKept s (takeEntry k r l s e) := by
  unfold takeEntry
  split
  · exact slotsKept_takeContact _ _ _ _ _ s
  · exact .refl s

theorem slotsKept_compareInputs (r : Receipt) (v : Vector Bool 48) (s : State) : SlotsKept s (compareInputs k r v s) := by
  refine slotsKept_foldl _ (fun u j => ?_) _ s
  unfold compareInput
  dsimp only
  split
  · exact slotsKept_takeContact _ _ _ _ _ u
  · exact .refl u

theorem slotsKept_recovered (r : Receipt) (s : State) : SlotsKept s (recovered k r s) := by
  have h := sideReach_any
  refine SideReach.slots (h.trans (h.trans (h.foldl _ _ _ fun u j _ => ?_) (h.foldl _ _ _ fun u j _ => ?_))
    (h.endAlarm _ fun _ _ => trivial).2)
  · exact h.trans (h.putPoint _ _ _ trivial) (h.showPoint _ _ trivial)
  · unfold recoverPoint
    dsimp only
    split
    · exact h.startChange _ _ _ _ _ trivial
    · exact h.refl u

theorem slotsKept_onlyIf (b : Bool) {f : State → State} {s : State} (h : SlotsKept s (f s)) : SlotsKept s (onlyIf b f s) := by
  unfold onlyIf
  split
  · exact h
  · exact .refl s

theorem slotsKept_panelAction (a : Action) (s : State) : SlotsKept s (panelAction k a s) :=
  slotsKept_of_passed (outsideSlots_any.panelAction k a s) ((frame_event _).act _ _ _ s)

theorem slotsKept_testPress (s : State) : SlotsKept s (testPress k s) := slotsKept_putPanel k _ s

theorem slotsKept_testRelease (s : State) : SlotsKept s (testRelease k s) := slotsKept_putPanel k _ s

theorem slotsKept_takeButtons (b : Buttons) (s : State) : SlotsKept s (takeButtons k b s) := by
  unfold takeButtons
  dsimp only
  have hact : ∀ (p : Bool) (a : Action) (u : State), SlotsKept u (onlyIf p (panelAction k a) u) := fun p a u =>
    slotsKept_onlyIf p (slotsKept_panelAction k a u)
  have h1 : SlotsKept s (putLink k { nth s.links k with buttons := b } s) := slotsKept_putLink k rfl
  generalize putLink k { nth s.links k with buttons := b } s = u at h1
  refine SlotsKept.back (slotsKept_onlyIf _ (slotsKept_testRelease k _)) ?_
  refine SlotsKept.back (slotsKept_onlyIf _ (slotsKept_testPress k _)) ?_
  exact (hact _ _ _).back ((hact _ _ _).back ((hact _ _ _).back h1))

theorem slotsKept_takeAnswer (a : Answer) (r : Receipt) (s : State) : SlotsKept s (takeAnswer k a r s) := by
  unfold takeAnswer
  dsimp only
  refine (slotsKept_takeButtons k _ _).back ((slotsKept_compareInputs k r _ _).back ((slotsKept_onlyIf _ ?_).back
    (slotsKept_foldl _ (slotsKept_takeEntry k r _) _ s)))
  unfold countEntriesLost
  exact (slotsKept_offerLink _ _).back (slotsKept_putLink k rfl)

/-! ## The operations that end a RESTART LINK -/

theorem finishRestart_drop (r : Result) {s : State} (hs : SlotsLaw s) : SlotsDrop s (finishRestart k r s) := by
  unfold finishRestart
  dsimp only
  split
  · exact (SlotsKept.refl s).drop
  · next x e =>
    refine finish_held (b := .inr k) (t := putLink k { nth s.links k with restart := none } s) hs ?_ rfl ?_
      (fun a ha => heldBy_putLink k _ s ha) _ _
    · unfold heldBy
      dsimp only
      rw [e]
      rfl
    · rw [heldBy_putLink_same]
      rfl

/-- A RESTART LINK ends after operations that end no order. -/
theorem SlotsKept.finishRestart {s t : State} (h : SlotsKept s t) (r : Result) (hs : SlotsLaw s) :
    SlotsDrop s (finishRestart k r t) := h.drop.trans (finishRestart_drop k r (h.drop.law hs))

theorem linkUp_drop (a : Answer) (r : Receipt) {s : State} (hs : SlotsLaw s) : SlotsDrop s (linkUp k a r s) := by
  unfold linkUp
  dsimp only
  have h1 : SlotsKept s (changeLink k { nth s.links k with state := .up, validRun := 0, miss := 0 } .validAnswers s) :=
    slotsKept_changeLink k _ rfl
  generalize changeLink k { nth s.links k with state := .up, validRun := 0, miss := 0 } .validAnswers s = u at h1
  have h2 := (slotsKept_reportNow { point := linkPoint k, present := false, run := r.run, stamp := r.stamp } _).back
    ((slotsKept_recovered k r _).back ((slotsKept_compareInputs k r a.inputs u).back h1))
  generalize reportNow _ _ = v at h2
  refine SlotsKept.finishRestart k (h2.trans ?_) _ hs
  exact slotsKept_putLink k rfl

theorem validAnswer_drop (a : Answer) (r : Receipt) {s : State} (hs : SlotsLaw s) : SlotsDrop s (validAnswer k a r s) := by
  unfold validAnswer
  dsimp only
  refine SlotsDrop.trans ?_ (slotsKept_showLink k _).drop
  split
  · split
    · exact linkUp_drop k a r hs
    · exact SlotsKept.drop (slotsKept_putLink k rfl)
  · have h1 : SlotsKept s (putLink k { nth s.links k with miss := 0 } s) := slotsKept_putLink k rfl
    exact (h1.trans (slotsKept_takeAnswer k a r _)).drop
  · exact SlotsKept.drop (slotsKept_changeLink k _ rfl)
  · exact (SlotsKept.refl s).drop

theorem switchLink_drop {x : Link} (en : Bool) {s : State} (hx : x.restart = (nth s.links k).restart) (hs : SlotsLaw s) :
    SlotsDrop s (switchLink k x en s) := by
  unfold switchLink
  split
  · exact SlotsKept.drop (slotsKept_changeLink k _ hx)
  · exact SlotsKept.drop (slotsKept_putLink k hx)
  · exact SlotsKept.drop (slotsKept_putLink k hx)
  · dsimp only
    have h1 : SlotsKept s (changeLink k { x with state := .disabled, awaiting := false, rx := [], receipt := none } .disabled s) :=
      slotsKept_changeLink k _ hx
    refine SlotsKept.finishRestart k ?_ _ hs
    split
    · exact h1.trans (slotsKept_leaveUp k _)
    · exact h1

end one

theorem orderSetLink_drop (d : List Byte) {s : State} (hs : SlotsLaw s) : SlotsDrop s (orderSetLink d s).1 := by
  unfold orderSetLink
  split
  · exact (SlotsKept.refl s).drop
  · next k _ =>
    split
    · exact (SlotsKept.refl s).drop
    · dsimp only
      refine SlotsDrop.trans ?_ (SlotsKept.drop ((slotsKept_showLink k _).back
        (slotsKept_of_passed (outsideSlots_any.offer _ _) ((frame_event _).offer _ _))))
      exact switchLink_drop k _ rfl hs

end Sys2Proof.Machine
end

section
/-! SUPPORT. The slots through takes, walks, segment reads, host writes and resets. -/

namespace Sys2Proof.Machine

/-! ## Orders taken -/

/-- An order in flight joins with a slot that no other holds and that reads TAKEN. -/
theorem SlotsLaw.add {n : Fin 16} {b : Holder} {s t : State} (hs : SlotsLaw s) (hn : ∀ a, heldBy s a ≠ some n)
    (hw : s.mem.readWord (slotBase n) = 2) (hm : MemoryReach outsideSlots s t) (hb : heldBy t b = some n)
    (ho : ∀ a, a ≠ b → heldBy t a = heldBy s a) : SlotsLaw t := by
  have hcase : ∀ a m, heldBy t a = some m → (a = b ∧ m = n) ∨ (a ≠ b ∧ heldBy s a = some m) := fun a m e => by
    by_cases k : a = b
    · rw [k, hb, Option.some.injEq] at e
      exact .inl ⟨k, e.symm⟩
    · exact .inr ⟨k, (ho a k).symm.trans e⟩
  refine ⟨fun a a' m e e' => ?_, fun a m e => ?_⟩
  · rcases hcase a m e with ⟨k, q⟩ | ⟨k, q⟩ <;> rcases hcase a' m e' with ⟨k', q'⟩ | ⟨k', q'⟩
    · exact k.trans k'.symm
    · exact absurd (q ▸ q') (hn a')
    · exact absurd (q' ▸ q) (hn a)
    · exact hs.apart a a' m q q'
  · rw [slotWord_of_reach hm]
    rcases hcase a m e with ⟨_, rfl⟩ | ⟨_, q⟩
    · exact hw
    · exact hs.taken a m q

section taken
variable {n : Fin 16} {s : State}

/-- What holds of slot n when its order is judged: it is held by no order in flight and reads TAKEN. -/
structure SlotTaken (n : Fin 16) (s : State) : Prop where
  law : SlotsLaw s
  free : ∀ a, heldBy s a ≠ some n
  word : s.mem.readWord (slotBase n) = 2

theorem SlotTaken.endTake (h : SlotTaken n s) {x : State × Taken} (hx : SlotsDrop s x.1) : SlotsLaw (endTake n x) := by
  unfold Machine.endTake
  split
  · exact (finish_drop (hx.free h.free) _ _).law (hx.law h.law)
  · exact hx.law h.law

theorem SlotTaken.reply (h : SlotTaken n s) (r : Taken) : SlotsLaw (Machine.endTake n (s, r)) :=
  h.endTake (SlotsKept.refl s).drop

theorem SlotTaken.loadPoints (h : SlotTaken n s) (d : List Byte) : SlotsLaw (Machine.endTake n (orderLoadPoints n d s)) := by
  unfold orderLoadPoints
  split
  · exact h.reply _
  · refine h.law.add (b := .inl .loadPoints) h.free h.word (outsideSlots_any.setEngine _ s) rfl fun a ha => ?_
    rcases a with (_ | _) | k
    · exact absurd rfl ha
    · rfl
    · rfl

theorem SlotTaken.loadMatrix (h : SlotTaken n s) (d : List Byte) : SlotsLaw (Machine.endTake n (orderLoadMatrix n d s)) := by
  have hm := outsideSlots_any.orderLoadMatrix n d s
  unfold orderLoadMatrix at hm ⊢
  split at hm
  · exact h.reply _
  · have hl : ∀ (b : BankId) (x : Bank), (s.setBank b x).links = s.links := fun b x => by cases b <;> rfl
    have hp : ∀ (b : BankId) (x : Bank), (s.setBank b x).engine = s.engine := fun b x => by cases b <;> rfl
    refine h.law.add (b := .inl .loadMatrix) h.free h.word hm rfl fun a ha => ?_
    rcases a with (_ | _) | k
    · exact congrArg (fun e => (Engine.loadPoints e).map (·.slot)) (hp _ _)
    · exact absurd rfl ha
    · exact congrArg (fun l => (nth l k).restart.map (·.1)) (hl _ _)

theorem SlotTaken.restartLink (h : SlotTaken n s) (d : List Byte) : SlotsLaw (Machine.endTake n (orderRestartLink n d s)) := by
  unfold orderRestartLink
  split
  · exact h.reply _
  · next k _ =>
    dsimp only
    split
    · exact h.reply _
    · split
      · exact h.reply _
      · dsimp only [Machine.endTake]
        generalize hx : ({ nth s.links k with
          state := .starting, validRun := 0, miss := 0, restart := some (n, s.now + 1000) } : Link) = x
        have h1 : SlotsLaw (putLink k x s) :=
          h.law.add (b := .inr k) h.free h.word (outsideSlots_any.putLink k x s)
            (by rw [heldBy_putLink_same, ← hx]; rfl) fun a ha => heldBy_putLink k x s ha
        have h2 : SlotsLaw (changeLink k x .restartOrder s) := (slotsKept_offerLink _ _).drop.law h1
        refine (slotsKept_showLink k _).drop.law ?_
        split
        · exact (slotsKept_leaveUp k _).drop.law h2
        · exact h2

/-- The orders that hold no slot after their take. -/
def brief : OrderKind → Bool
  | .loadPoints | .loadMatrix | .restartLink | .setLink => false
  | _ => true

theorem slotsKept_order {k : OrderKind} (hk : brief k = true) (n : Fin 16) (d : List Byte) {s : State} (hj : PageLaw s.journal) :
    SlotsKept s (applyOrder k n d s).1 := by
  refine ⟨outsideSlots_any.applyOrder_alone (by rintro rfl; exact Bool.noConfusion hk) n d s (pageOk_of_law hj),
    heldBy_of_frame (applyOrder_frame k n d s) ?_ ?_ ?_⟩ <;>
  cases k <;> simp [brief, OrderKind.touches] at hk ⊢

theorem SlotTaken.order (h : SlotTaken n s) (hj : PageLaw s.journal) (k : OrderKind) (d : List Byte) :
    SlotsLaw (Machine.endTake n (applyOrder k n d s)) := by
  by_cases hk : brief k = true
  · exact h.endTake (slotsKept_order hk n d hj).drop
  · cases k <;> simp only [brief, not_true_eq_false] at hk
    case loadPoints => exact h.loadPoints d
    case loadMatrix => exact h.loadMatrix d
    case restartLink => exact h.restartLink d
    case setLink => exact h.endTake (orderSetLink_drop d h.law)

theorem SlotTaken.judge (h : SlotTaken n s) (hj : PageLaw s.journal) (kind : Nat) (d : List Byte) :
    SlotsLaw (Machine.endTake n (judgeOrder kind n d s)) := by
  unfold judgeOrder
  split
  · exact h.reply _
  · split
    · exact h.reply _
    · split
      · exact h.reply _
      · exact h.order hj _ d

end taken

/-! ## Walks -/

/-- What a walk keeps, and what its takes rest on. -/
structure WalkLaw (s : State) : Prop where
  memory : s.memoryHolds
  journal : JournalSound s
  slots : SlotsLaw s

theorem slotTaken_put {n : Fin 16} {s : State} (h : WalkLaw s) (hf : s.inFlight n = false) :
    SlotTaken n (s.putWord (slotBase n) 2) := by
  have hn : ∀ a, heldBy s a ≠ some n := fun a e => by
    rw [(inFlight_iff s n).mpr ⟨a, e⟩] at hf
    exact Bool.noConfusion hf
  have hh : ∀ a, heldBy (s.putWord (slotBase n) 2) a = heldBy s a := fun a => by rcases a with (_ | _) | k <;> rfl
  refine ⟨⟨fun a b m e e' => ?_, fun a m e => ?_⟩, fun a => ?_, ?_⟩
  · rw [hh] at e e'
    exact h.slots.apart a b m e e'
  · rw [hh] at e
    rw [State.putWord_mem, Memory.readWord_writeWord_other]
    · exact h.slots.taken a m e
    · have : m.val ≠ n.val := fun k => hn a (e.trans (congrArg some (Fin.ext k)))
      simp only [slotBase]
      omega
  · rw [hh]
    exact hn a
  · rw [State.putWord_mem]
    exact Memory.readWord_writeWord_same _ h.memory (by simp only [slotBase]; omega)

theorem WalkLaw.take {n : Fin 16} {s : State} (h : WalkLaw s) (hf : s.inFlight n = false) : WalkLaw (takeSlot n s) where
  memory := (memoryReach_all.takeSlot (fun _ _ _ => trivial) n s fun _ _ _ _ => trivial).wf h.memory
  journal :=
    have hJ := journalSound_step (F := fun _ => True)
    hJ.toEventClosed.takeSlot (fun k m d u => hJ.applyOrder k (fun _ _ => trivial) m d u) n s h.journal
  slots := (slotTaken_put h hf).judge (s := s.putWord (slotBase n) 2) h.journal.page _ _

theorem WalkLaw.walkSlot {s : State} (h : WalkLaw s) (n : Fin 16) : WalkLaw (walkSlot s n) := by
  unfold Machine.walkSlot
  dsimp only
  split
  · next e =>
    have h1 := h.take e.2
    generalize takeSlot n s = u at h1
    refine ⟨h1.memory, h1.journal.same rfl rfl fun _ _ => rfl, SlotsDrop.law (s := u) (SlotsKept.drop ?_) h1.slots⟩
    exact slotsKept_of_passed (outsideSlots_any.setEngine _ u) ((frame_event _).engine u _)
  · exact h

theorem WalkLaw.walk {s : State} (h : WalkLaw s) : WalkLaw (walk s) :=
  List.foldlRecOn _ Machine.walkSlot (motive := WalkLaw) h fun _ hu n _ => hu.walkSlot n

theorem WalkLaw.noticeWalk {s : State} (h : WalkLaw s) : WalkLaw (noticeWalk s) := by
  unfold Machine.noticeWalk
  split
  · exact h
  · exact h.walk

theorem WalkLaw.leaveStarting {s : State} (h : WalkLaw s) : WalkLaw (leaveStarting s) where
  memory := (memoryReach_all.leaveStarting s).wf h.memory
  journal := journalSound_event.leaveStarting (F := fun _ => True) trivial s h.journal
  slots := (SlotsKept.mk (outsideSlots_any.leaveStarting s)
    (heldBy_of_frame ((frame_event (· = .part)).leaveStarting rfl s) (by simp) (by simp) (by simp))).drop.law h.slots

theorem WalkLaw.retryOpening {s : State} (h : WalkLaw s) : WalkLaw (retryOpening s) where
  memory := (memoryReach_all.retryOpening s).wf h.memory
  journal := (journalSound_step (F := fun _ => True)).retryOpening s h.journal
  slots := (slotsKept_of_passed (outsideSlots_any.retryOpening s) ((frame_step _).retryOpening s)).drop.law h.slots

/-! ## Segment reads -/

theorem slotsKept_imageEnded {o : ImageOrder} {s u : State} (h : imageEnded o s u) : SlotsKept s u := by
  cases o
  case loadPoints =>
    refine ⟨?_, heldBy_of_frame (imageEnded_frame h) (by simp) (by simp) (by simp)⟩
    rcases h with e | ⟨bs, e⟩ <;> rw [e]
    · exact outsideSlots_any.refl s
    · exact outsideSlots_any.applyPoints bs s
  case loadMatrix =>
    obtain ⟨x, r, n, _, e⟩ := h
    rw [e]
    exact ⟨outsideSlots_any.endMatrix _ _ _ _ s, heldBy_of_frame
      ((frame_event fun i => i = .bankA ∨ i = .bankB).endMatrix (.inl rfl) (.inr rfl) _ _ _ _ s) (by simp) (by simp) (by simp)⟩

theorem job_setJob (o : ImageOrder) (j : Option ImageJob) (s : State) : (s.setJob o j).job o = j := by cases o <;> rfl

theorem heldBy_setJob (o : ImageOrder) (j : Option ImageJob) (s : State) {a : Holder} (ha : a ≠ .inl o) :
    heldBy (s.setJob o j) a = heldBy s a := by
  rcases a with a | k
  · cases o <;> cases a <;> first | exact absurd rfl ha | rfl
  · cases o <;> rfl

theorem setJob_mem (o : ImageOrder) (j : Option ImageJob) (s : State) : (s.setJob o j).mem = s.mem := by cases o <;> rfl

theorem segmentRead_slots {o : ImageOrder} {s t : State} (he : exec (.segmentRead o) s = .next t) (hs : SlotsLaw s) :
    SlotsLaw t := by
  rcases segmentRead_outcome he with rfl | ⟨j, hj, ⟨j', e, rfl⟩ | ⟨u, r, d, hu, rfl⟩⟩
  · exact hs
  · refine SlotsDrop.law (fun a m k => ?_) hs
    rw [setJob_mem]
    refine ⟨?_, rfl⟩
    by_cases ha : a = .inl o
    · rw [ha] at k ⊢
      unfold heldBy at k ⊢
      dsimp only at k ⊢
      rw [job_setJob] at k
      rw [hj]
      exact (congrArg some e).symm.trans k
    · exact (heldBy_setJob o _ s ha).symm.trans k
  · have hk := slotsKept_imageEnded hu
    have hlaw := hk.drop.law hs
    refine (finish_held (b := .inl o) (s := u) hlaw ?_ (setJob_mem o none u) ?_ (fun a ha => heldBy_setJob o none u ha) r d).law hlaw
    · rw [hk.holders]
      unfold heldBy
      dsimp only
      rw [hj]
      rfl
    · unfold heldBy
      dsimp only
      rw [job_setJob]
      rfl

/-! ## Host writes -/

/-- A host write that is not discarded lies outside every slot in flight (R166). -/
theorem hostWrite_outside {s : State} {a : Nat} {n : Fin 16} (h : s.slotLocked (2 * a) = false) (hn : s.inFlight n = true) :
    slotBase n + 2 ≤ 2 * a ∨ 2 * a + 2 ≤ slotBase n := by
  by_contra hc
  have ha : 256 ≤ 2 * a ∧ 2 * a < 768 := by simp only [slotBase] at hc; omega
  have hslot : Fin.ofNat 16 ((2 * a - 256) / 32) = n := by
    refine Fin.ext ?_
    simp only [slotBase] at hc
    rw [Fin.val_ofNat]
    omega
  unfold State.slotLocked slotAt at h
  rw [if_pos ha] at h
  dsimp only at h
  rw [hslot, hn] at h
  exact Bool.noConfusion h

theorem hostWordWrite_slots {a : BitVec 15} {v : Word} {s t : State} (he : execHostWordWrite a v s = .next t)
    (hs : SlotsLaw s) : SlotsLaw t := by
  simp only [execHostWordWrite, Host.Outcome.next.injEq] at he; subst he
  split
  · exact hs
  · next hl =>
    refine SlotsDrop.law (fun b n e => ⟨by rcases b with (_ | _) | k <;> exact e, ?_⟩) hs
    rw [State.putWord_mem]
    refine Memory.readWord_writeWord_other _ ?_
    exact hostWrite_outside (by simpa using hl)
      ((inFlight_iff s n).mpr ⟨b, by rcases b with (_ | _) | k <;> exact e⟩)

/-! ## Every step -/

theorem slotsLaw_plain {c : Instr} (hp : plain c = true) {s t : State} (hj : PageLaw s.journal) (he : exec c s = .next t)
    (hs : SlotsLaw s) : SlotsLaw t := by
  by_cases hl : touches c .links
  · cases c <;> simp only [plain, Bool.false_eq_true] at hp <;> simp only [touches, reduceCtorEq, or_self] at hl <;>
      simp only [exec] at he
    case scanFrame k =>
      simp only [execScanFrame, Host.Outcome.next.injEq] at he; subst he
      split
      · exact SlotsDrop.law (SlotsKept.drop ((slotsKept_showLink k _).back (slotsKept_putLink k rfl))) hs
      · exact hs
    case answerReceipt k b =>
      simp only [execAnswerReceipt, Host.Outcome.next.injEq] at he; subst he
      split
      · exact SlotsDrop.law (SlotsKept.drop (slotsKept_putLink k rfl)) hs
      · exact hs
    case answerLimit k b =>
      simp only [execAnswerLimit, Host.Outcome.next.injEq] at he; subst he
      split
      · have h1 : SlotsLaw (putLink k { nth s.links k with awaiting := false, rx := [], receipt := none } s) :=
          SlotsDrop.law (SlotsKept.drop (slotsKept_putLink k rfl)) hs
        split
        · exact (slotsKept_missScan k _ _).drop.law h1
        · exact (validAnswer_drop k _ _ h1).law h1
      · exact hs
    case restartLinkDeadline k =>
      simp only [execRestartLinkDeadline, Host.Outcome.next.injEq] at he; subst he
      split
      · exact hs
      · split
        · exact (slotsKept_showLink k _).drop.law ((finishRestart_drop k _ hs).law hs)
        · exact hs
  · by_cases hc : mayFinish c = true
    · cases c <;> simp only [mayFinish, Bool.false_eq_true] at hc <;> simp only [touches, not_true_eq_false] at hl
      exact hostWordWrite_slots he hs
    · have hk : SlotsKept s t := by
        refine ⟨outsideSlots_any.execPlain_alone hp (by simpa using hc) (pageOk_of_law hj) he,
          heldBy_of_frame (execPlain_frame c hp s t he) hl ?_ ?_⟩ <;>
        cases c <;> simp [plain, touches] at hp ⊢
      exact hk.drop.law hs

theorem slotsLaw_of_none {s : State} (h : ∀ a, heldBy s a = none) : SlotsLaw s :=
  ⟨fun a _ _ e => absurd ((h a).symm.trans e) (by simp), fun a _ e => absurd ((h a).symm.trans e) (by simp)⟩

/-- After a reset no order is in flight. -/
theorem slotsLaw_init {s t : State} (hl : s.links = State.init.links) (hp : s.engine.loadPoints = none)
    (hm : s.engine.loadMatrix = none) (hf : Passed s t) : SlotsLaw t := by
  refine slotsLaw_of_none fun a => (heldBy_of_frame hf id id id a).trans ?_
  rcases a with (_ | _) | k <;> unfold heldBy <;> dsimp only
  · rw [State.job, hp]; rfl
  · rw [State.job, hm]; rfl
  · rw [hl, show nth State.init.links k = {} from nth_replicate _ k]
    rfl

theorem slotsLaw_exec {c : Instr} {s t : State} (h : WalkLaw s) (he : exec c s = .next t) : SlotsLaw t := by
  by_cases hp : plain c = true
  · exact slotsLaw_plain hp h.journal.page he h.slots
  · cases c <;> simp only [plain, not_true_eq_false] at hp
    case powerOnReset =>
      simp only [exec, execPowerOnReset, Host.Outcome.next.injEq] at he; subst he
      exact slotsLaw_init (s := { State.init with pending := s.pending }) rfl rfl rfl ((frame_event _).offer _ _)
    case resetLine =>
      simp only [exec, execResetLine, Host.Outcome.next.injEq] at he; subst he
      refine slotsLaw_init (s := lineInit s) rfl rfl rfl (frame_trans ((frame_event _).offer _ _)
        ((frame_event _).foldl _ _ _ fun u n _ => ?_))
      unfold abandonSlot
      split
      · exact (frame_event _).finish n _ _ u
      · exact frame_refl u
    case segmentRead o => exact segmentRead_slots he h.slots
    case notice v o =>
      simp only [exec] at he
      cases o <;> simp only [execNotice, Host.Outcome.next.injEq] at he <;> subst he
      · exact h.noticeWalk.retryOpening.slots
      · exact h.retryOpening.noticeWalk.slots
    case orderTableWalk =>
      simp only [exec, execOrderTableWalk, Host.Outcome.next.injEq] at he; subst he
      split
      · have h1 : WalkLaw { s with sched := { s.sched with walkFrom := s.now + 1 } } :=
          ⟨h.memory, h.journal.same rfl rfl fun _ _ => rfl,
            SlotsDrop.law (s := s) (fun a m k => ⟨by rcases a with (_ | _) | q <;> exact k, rfl⟩) h.slots⟩
        exact h1.leaveStarting.walk.slots
      · exact h.slots

theorem slotsLaw_of_step {s t : State} (h : WalkLaw s) (he : step s = .next t) : SlotsLaw t := by
  unfold step at he
  split at he
  · cases he
    exact h.slots
  · next c rest _ =>
    refine slotsLaw_exec (s := { s with pending := rest }) ⟨h.memory, h.journal.same rfl rfl fun _ _ => rfl, ?_⟩ he
    exact SlotsDrop.law (s := s) (fun a m k => ⟨by rcases a with (_ | _) | q <;> exact k, rfl⟩) h.slots

end Sys2Proof.Machine
end

section
/-! SUPPORT. The laws of the part as the groups of laws that are each kept by every step. -/

namespace Sys2Proof.Machine

/-- The laws of the part, grouped with the contact states that follow them. -/
structure PartLaws (s : State) : Prop where
  memory : s.memoryHolds
  windows : s.windowsHold
  alarm : AlarmLaws s
  journal : JournalSound s
  clock : ClockLaw s
  supply : SupplyLaw s
  outputs : OutputsSound s
  trip : TripLaw s
  links : LinkLaws s
  slots : SlotsLaw s

/-! ## Contact states -/

theorem conditionOf_decide (p : Prop) [Decidable p] : conditionOf (decide p) = if p then .present else .absent := by
  unfold conditionOf
  simp

theorem conditionOf_not (p : Prop) [Decidable p] : conditionOf (decide ¬p) = if p then .absent else .present := by
  rw [conditionOf_decide]
  exact ite_not p _ _

/-- The internal points: one for each output and each link, and four more (R2). -/
theorem internal_point_cases {p : Fin 256} (h : 224 ≤ p.val) :
    (∃ o, p = faultPoint o) ∨ (∃ k, p = linkPoint k) ∨ p = 252 ∨ p = 253 ∨ p = 254 ∨ p = 255 := by
  by_cases h1 : p.val < 248
  · exact .inl ⟨⟨p.val - 224, by omega⟩, Fin.ext (by simp only [faultPoint]; omega)⟩
  by_cases h2 : p.val < 252
  · exact .inr (.inl ⟨⟨p.val - 248, by omega⟩, Fin.ext (by simp only [linkPoint]; omega)⟩)
  have h3 : p.val = 252 ∨ p.val = 253 ∨ p.val = 254 ∨ p.val = 255 := by omega
  rcases h3 with e | e | e | e
  · exact .inr (.inr (.inl (Fin.ext e)))
  · exact .inr (.inr (.inr (.inl (Fin.ext e))))
  · exact .inr (.inr (.inr (.inr (.inl (Fin.ext e)))))
  · exact .inr (.inr (.inr (.inr (.inr (Fin.ext e)))))

theorem internalContacts_of_contacts {s : State} (h : s.contactsHold) : InternalContacts s := by
  obtain ⟨-, -, hfault, hlink, h252, h253, h254, h255⟩ := h
  have hite : ∀ (q : Prop) [Decidable q] (x y : Contact), (x = .absent ∨ x = .present) → (y = .absent ∨ y = .present) →
      (if q then x else y) = .absent ∨ (if q then x else y) = .present := fun q _ x y hx hy => by
    split
    · exact hx
    · exact hy
  intro p hp
  rcases internal_point_cases hp with ⟨o, rfl⟩ | ⟨k, rfl⟩ | rfl | rfl | rfl | rfl
  · rw [hfault]
    exact hite _ _ _ (.inl rfl) (.inr rfl)
  · rw [hlink]
    exact hite _ _ _ (.inl rfl) (.inr rfl)
  · rw [h252]
    exact hite _ _ _ (.inr rfl) (.inl rfl)
  · rw [h253]
    exact hite _ _ _ (.inl rfl) (.inr rfl)
  · rw [h254]
    exact hite _ _ _ (.inr rfl) (.inl rfl)
  · rw [h255]
    exact hite _ _ _ (.inr rfl) (.inl rfl)

/-! ## The laws, grouped -/

theorem partLaws_of_sound {s : State} (h : s.Sound) : PartLaws s := by
  obtain ⟨hfield, htrip, hfault, hlink, h252, h253, h254, h255⟩ := h.contacts
  obtain ⟨hqueue, hpage⟩ := (journalHolds_iff s).mp h.journal
  have hdue : dueIn journalPoint s := dueIn_nil h.due
  exact {
    memory := h.memory
    windows := h.windows
    alarm := ⟨h.points, internalContacts_of_contacts h.contacts, h.marks, h.horns⟩
    journal := ⟨hqueue, hpage, informed_of_contacts h.due h252 h253⟩
    clock := ⟨h.clock, hdue, h254⟩
    supply := ⟨⟨h.supply.1, h.supply.2.1, h.supply.2.2⟩, hdue, h255.trans (conditionOf_decide _).symm⟩
    outputs := ⟨hdue, fun o =>
      have ⟨k1, k2, k3, k4⟩ := h.timers o
      ⟨h.outputs o, ⟨k1, k2, k3, k4⟩, (hfault o).trans (conditionOf_not _).symm⟩⟩
    trip := ⟨(banksHold_iff s).mp h.banks, hdue, fun i _ => ⟨h.inputs i, htrip i⟩⟩
    links := ⟨hdue, fun k => ⟨h.links k,
      ⟨fun j => (hfield k j).1, fun u j => ((hfield k j).2 u).1, fun u j => ((hfield k j).2 u).2⟩,
      (hlink k).trans (conditionOf_not _).symm⟩⟩
    slots := (slotsHold_iff s).mp h.slots }

theorem PartLaws.contactsHold {s : State} (h : PartLaws s) : s.contactsHold := by
  have hj := h.journal.informed.contacts
  refine ⟨fun k j => ⟨(h.links.law k).fields.kind j, fun u => ⟨(h.links.law k).fields.reported u j, (h.links.law k).fields.fresh u j⟩⟩,
    fun i => (h.trip.inputs.law i trivial).told, fun o => (h.outputs.law o).fault.trans (conditionOf_not _),
    fun k => (h.links.law k).told.trans (conditionOf_not _), hj.1, hj.2, h.clock.fault.2,
    h.supply.loss.2.trans (conditionOf_decide _)⟩

theorem PartLaws.sound {s : State} (h : PartLaws s) : s.Sound where
  memory := h.memory
  clock := h.clock.clock
  points := h.alarm.points
  windows := h.windows
  horns := h.alarm.horns
  marks := h.alarm.marks
  contacts := h.contactsHold
  links k := (h.links.law k).link
  inputs i := (h.trip.inputs.law i trivial).run
  banks := (banksHold_iff s).mpr h.trip.banks
  outputs o := (h.outputs.law o).drive
  timers o :=
    have k := (h.outputs.law o).timers
    ⟨k.operate, k.release, k.opening, k.clearing⟩
  supply := ⟨h.supply.items.absence, h.supply.items.lost, h.supply.items.settle⟩
  journal := (journalHolds_iff s).mpr ⟨h.journal.queue, h.journal.page⟩
  slots := (slotsHold_iff s).mpr h.slots
  due := h.journal.informed.due

/-- Every group of laws is kept by every step, the slots' with the memory's and the journal's. -/
theorem PartLaws.step {s t : State} (h : PartLaws s) (he : step s = .next t) : PartLaws t where
  memory := memoryHolds_of_step h.memory he
  windows := stepKeepsWindowsApart s t h.windows he
  alarm := alarmLaws_of_step h.alarm he
  journal := journalSound_of_step h.journal he
  clock := clockLaw_of_step h.clock he
  supply := supplyLaw_of_step h.supply he
  outputs := outputsSound_of_step h.outputs he
  trip := tripLaw_of_step h.trip he
  links := linkLaws_of_step h.links he
  slots := slotsLaw_of_step ⟨h.memory, h.journal, h.slots⟩ he

/-- Settles O60: the laws fall into groups, each with the contact states that follow it, and every step keeps each group;
only the slots' laws rest on others, those of the memory and of the journal. -/
theorem stepKeepsSound : Obligations.StepKeepsSound := by
  unfold Obligations.StepKeepsSound
  exact fun s t hs he => ((partLaws_of_sound hs).step he).sound

end Sys2Proof.Machine
end

section
/-! The windows, the horns and the lamp tests (sections 2.4 to 2.6). -/

namespace Sys2Proof.Machine

/-! ## Horns (R38, R39) -/

@[simp] theorem Zone.takeHorn_horn (x : Zone) (h : HornState) (n : Nat) : (x.takeHorn h n).horn = h := by
  unfold Zone.takeHorn
  split
  · next e => exact e.symm
  · cases h <;> rfl

/-- A horn that takes a state leaves the zone's flags. -/
theorem Zone.takeHorn_flags (x : Zone) (h : HornState) (n : Nat) :
    (x.takeHorn h n).silenced = x.silenced ∧ (x.takeHorn h n).rbSilenced = x.rbSilenced := by
  unfold Zone.takeHorn
  split
  · exact ⟨rfl, rfl⟩
  · cases h <;> exact ⟨rfl, rfl⟩

/-- The line and the tone cycle of a horn that takes another state (R39). -/
theorem Zone.takeHorn_line (x : Zone) {h : HornState} (n : Nat) (hn : h ≠ x.horn) :
    (x.takeHorn h n).line = decide (h ≠ .off)
    ∧ (x.takeHorn h n).toggle = if h = .ringbackTone then some (n + 500) else none := by
  unfold Zone.takeHorn
  rw [if_neg hn]
  cases h <;> exact ⟨rfl, rfl⟩

/-- What a zone judged again is (R38). -/
structure Rejudged (s : State) (z : Fin 8) (x y : Zone) : Prop where
  alert : y.nAlert = countZone s z fun q => decide (q = SeqState.alert) || decide (q = SeqState.alertCleared)
  standing : y.nStanding = countZone s z fun q => decide (q = SeqState.standing)
  ringback : y.nRingback = countZone s z fun q => decide (q = SeqState.ringback)
  silenced : y.silenced = x.silenced
  rbSilenced : y.rbSilenced = x.rbSilenced
  horn : y.horn = y.judgeHorn
  line : y.horn ≠ x.horn → y.line = decide (y.horn ≠ .off)
    ∧ y.toggle = if y.horn = .ringbackTone then some (s.now + 500) else none

theorem rejudged_spec (s : State) (z : Fin 8) (x : Zone) : Rejudged s z x (rejudged s z x) := by
  unfold rejudged
  dsimp only
  generalize hy : ({ x with
    nAlert := countZone s z fun q => decide (q = SeqState.alert) || decide (q = SeqState.alertCleared)
    nStanding := countZone s z fun q => decide (q = SeqState.standing)
    nRingback := countZone s z fun q => decide (q = SeqState.ringback) } : Zone) = y
  obtain ⟨h1, h2, h3, h4⟩ := takeHorn_judged y s.now
  obtain ⟨h5, h6⟩ := y.takeHorn_flags y.judgeHorn s.now
  have hx : y.horn = x.horn := by rw [← hy]
  refine ⟨h1.trans ?_, h2.trans ?_, h3.trans ?_, h5.trans ?_, h6.trans ?_, h4, fun hn => ?_⟩
  case refine_6 =>
    rw [Zone.takeHorn_horn] at hn ⊢
    exact y.takeHorn_line s.now (hx ▸ hn)
  all_goals rw [← hy]

/-- The horn by the counts and the flags (R38). -/
theorem Rejudged.horn_eq {s : State} {z : Fin 8} {x y : Zone} (h : Rejudged s z x y) : y.horn =
    if y.nAlert ≠ 0 ∧ y.silenced = false then .alertTone
    else if y.nRingback ≠ 0 ∧ y.rbSilenced = false then .ringbackTone else .off := h.horn

theorem showZone_memory (z : Fin 8) (s : State) : sameMemoryBut (zoneByte z) s.mem (s.showZone z).mem := fun a ha => by
  simp only [zoneByte] at ha
  refine Memory.read_writeWords_other _ fun c hc => ?_
  simp only [List.mem_cons, List.not_mem_nil, or_false] at hc
  rcases hc with rfl | rfl | rfl <;> dsimp only <;> omega

/-- A zone that is judged again is replaced and shown, or is as it was (R40). -/
theorem rejudgeZone_cases (z : Fin 8) (s : State) : rejudgeZone z s = s ∨ ∃ y, rejudgeZone z s
    = State.showZone z { s with zones := upd s.zones z y } := by
  unfold rejudgeZone putZone
  dsimp only
  split
  · exact .inl rfl
  · exact .inr ⟨_, rfl⟩

theorem rejudgeZone_zones (z : Fin 8) (s : State) :
    (rejudgeZone z s).zones = upd s.zones z (rejudged s z (nth s.zones z)) := putZone_zones z _ s

/-- Settles O35: the zone is the one judged again, and nothing else is written. -/
theorem hornFollowsCounts : Obligations.HornFollowsCounts := by
  unfold Obligations.HornFollowsCounts
  intro z s inZone y
  have h : Rejudged s z (nth s.zones z) y := by
    have hy : y = rejudged s z (nth s.zones z) := by
      simp only [y]
      rw [rejudgeZone_zones, nth_upd_same]
    rw [hy]
    exact rejudged_spec s z _
  have hhorn := h.horn_eq
  refine ⟨h.alert, h.standing, h.ringback, h.silenced, h.rbSilenced, fun ha hs => ?_, fun ha hr hs => ?_, fun ha hr => ?_,
    h.line, fun z' hz => ?_, rejudgeZone_points z s, ?_, ?_, ?_⟩
  · rw [hhorn, if_pos ⟨ha, hs⟩]
  · rw [hhorn, if_neg (by rintro ⟨k1, k2⟩; rcases ha with e | e <;> simp_all), if_pos ⟨hr, hs⟩]
  · rw [hhorn, if_neg (by rintro ⟨k1, k2⟩; rcases ha with e | e <;> simp_all),
      if_neg (by rintro ⟨k1, k2⟩; rcases hr with e | e <;> simp_all)]
  · rw [rejudgeZone_zones, nth_upd_other _ _ (Ne.symm hz)]
  · rcases rejudgeZone_cases z s with e | ⟨x, e⟩ <;> rw [e]
    rfl
  · exact (sideOnly_closed (P := fun _ => True) (A := fun _ => True) (fun _ _ => trivial) (fun _ _ => ⟨trivial, trivial⟩)
      (fun _ _ => trivial)).rejudgeZone z s
  · rcases rejudgeZone_cases z s with e | ⟨x, e⟩ <;> rw [e]
    · exact fun _ _ => rfl
    · exact showZone_memory z { s with zones := upd s.zones z x }

/-- Settles O38: the toggle that has come, and no cycle in another horn state. -/
theorem ringbackToneCycles : Obligations.RingbackToneCycles := by
  unfold Obligations.RingbackToneCycles
  intro z s x
  refine ⟨fun d hh ht hd => ?_, fun hh => ?_⟩
  · simp only [exec, execRingbackToneCycle, show (nth s.zones z).toggle = some d from ht,
      if_pos (show (nth s.zones z).horn = .ringbackTone ∧ d ≤ s.now from ⟨hh, hd⟩), add_ite]
    rfl
  · simp only [exec, execRingbackToneCycle]
    split
    · rfl
    · rw [if_neg fun k => hh k.1]

/-! ## Windows (R41) -/

theorem testing_iff (s : State) (k : Fin 4) :
    s.testing k = true ↔ (nth s.panels k).buttonEnd ≠ none ∨ (nth s.panels k).orderEnd ≠ none := by
  simp only [State.testing, Bool.or_eq_true, Option.isSome_iff_ne_none]

/-- A point names a window when it is enabled, has a window, and it is this one (R41). -/
def State.names (s : State) (w p : Fin 256) : Prop :=
  (nth s.points p).settings.enabled = true ∧ (nth s.points p).settings.hasWindow = true
    ∧ (nth s.points p).settings.window = w

theorem namer_names {s : State} {w p : Fin 256} (h : s.namer w = some p) : s.names w p := by
  have := List.find?_some h
  simp only [Bool.and_eq_true, decide_eq_true_eq, and_assoc] at this
  exact this

theorem namer_eq_none {s : State} {w : Fin 256} : s.namer w = none ↔ ∀ p, ¬s.names w p := by
  simp only [State.namer, State.names, List.find?_eq_none, List.mem_finRange, true_implies, Bool.and_eq_true,
    decide_eq_true_eq, and_assoc]

/-- Where no two points name one window, the point that names it is the one found (R19). -/
theorem namer_eq_some {s : State} {w p : Fin 256} (hw : s.windowsHold) (hp : s.names w p) : s.namer w = some p := by
  cases hn : s.namer w with
  | none => exact absurd hp (namer_eq_none.mp hn p)
  | some q =>
    obtain ⟨q1, q2, q3⟩ := namer_names hn
    obtain ⟨p1, p2, p3⟩ := hp
    by_contra hpq
    have := hw q p fun e => hpq (congrArg some e)
    simp [sharesWindow, q1, q2, q3, p1, p2, p3] at this

/-- Settles O36: a lamp test apart, the window shows the one point that names it. -/
theorem lampCodeOfWindow : Obligations.LampCodeOfWindow := by
  unfold Obligations.LampCodeOfWindow
  intro s w hw panel testing names
  have htest : s.testing (windowPanel w) = true ↔ testing := testing_iff s panel
  refine ⟨fun ht => ?_, fun ht hn => ?_, fun p ht hp => ?_⟩
  · rw [State.lamp, if_pos (htest.mpr ht)]
  · rw [State.lamp, if_neg (mt htest.mp ht), namer_eq_none.mpr hn]
  · rw [State.lamp, if_neg (mt htest.mp ht), namer_eq_some hw hp]
    dsimp only
    generalize (nth s.points p).seq = q
    generalize (nth s.points p).firstMark = m
    cases q <;> cases m <;> rfl

end Sys2Proof.Machine
end

section
/-! The lamp tests (section 2.6). -/

namespace Sys2Proof.Machine

/-! ## A step of each index once -/

/-- A fold over distinct indices: each step brings about a law of its own index from what stood before it, and keeps what
stands for the others. -/
theorem foldl_once {ι : Type} {P : State → Prop} {pre post : ι → State → Prop} {f : State → ι → State}
    (hP : ∀ s i, P s → P (f s i)) (hown : ∀ s i, P s → pre i s → post i (f s i))
    (hpre : ∀ s i j, P s → j ≠ i → pre j s → pre j (f s i)) (hpost : ∀ s i j, P s → j ≠ i → post j s → post j (f s i))
    {l : List ι} (hn : l.Nodup) {s : State} (hs : P s) (h0 : ∀ i ∈ l, pre i s) :
    P (l.foldl f s) ∧ ∀ i ∈ l, post i (l.foldl f s) := by
  induction l generalizing s with
  | nil => exact ⟨hs, by simp⟩
  | cons a l ih =>
    obtain ⟨ha, hl⟩ := List.nodup_cons.mp hn
    have hne : ∀ i ∈ l, i ≠ a := fun i hi e => ha (e ▸ hi)
    obtain ⟨h1, h2⟩ := ih hl (hP s a hs) fun i hi => hpre s a i hs (hne i hi) (h0 i (List.mem_cons_of_mem _ hi))
    have hfirst : P (l.foldl f (f s a)) ∧ post a (l.foldl f (f s a)) :=
      List.foldlRecOn l f (motive := fun t => P t ∧ post a t) ⟨hP s a hs, hown s a hs (h0 a List.mem_cons_self)⟩
        fun t ht i hi => ⟨hP t i ht.1, hpost t i a ht.1 (hne i hi).symm ht.2⟩
    refine ⟨h1, fun i hi => ?_⟩
    rcases List.mem_cons.mp hi with rfl | hi
    · exact hfirst.2
    · exact h2 i hi

/-! ## The lamp-test flag (R45) -/

/-- The bytes of the word that holds panel k's lamp-test flag (section 11.9). -/
abbrev testByte (k : Fin 4) (a : Nat) : Prop := linkByte k a ∧ a < hallBase + 208 + 8 * k.val + 2

/-- Panel k's lamp-test flag reads `v`. -/
def flagReads (k : Fin 4) (v : Bool) (m : Memory) : Prop := (m.read (hallBase + 208 + 8 * k.val)).getLsbD 4 = v

/-- A lamp test runs while one of its ends is to come (R43). -/
def Panel.testing (x : Panel) : Bool := x.buttonEnd.isSome || x.orderEnd.isSome

/-- The flag is bit 4 of the first byte of a link's entry (section 11.9). -/
theorem Link.mirror_flag (l : Link) (b : Bool) : (loByte (l.mirror b 0)).getLsbD 4 = b := by
  have hs : l.state.code ≤ 3 := by cases l.state <;> decide
  have he : l.lastError.code ≤ 7 := by cases l.lastError <;> decide
  have hbit : ∀ b : Bool, bit b ≤ 1 := by decide
  have key : ∀ a e r c z : Nat, a ≤ 3 → e ≤ 1 → r ≤ 1 → c ≤ 7 →
      decide ((a + 4 * e + 8 * r + 16 * bit b + 32 * c + 256 * z) / 16 % 2 = 1) = b := by
    intro a e r c z ha he hr hc
    cases b
    · exact decide_eq_false (by rw [show bit false = 0 from rfl]; omega)
    · exact decide_eq_true (by rw [show bit true = 1 from rfl]; omega)
  simp only [Link.mirror, loByte, BitVec.getLsbD_extractLsb', word, BitVec.getLsbD_ofNat, Nat.testBit_eq_decide_div_mod_eq]
  exact key _ _ _ _ _ hs (hbit _) (hbit _) he

theorem showTest_flag {s : State} (k : Fin 4) (w : s.mem.wf = true) : flagReads k (s.testing k) (s.showTest k).mem := by
  have hk : hallBase + 208 + 8 * k.val + 1 < 65536 := by simp only [hallBase]; omega
  rw [flagReads, State.showTest, State.putWord_mem, Memory.read_writeWord _ w hk, if_pos rfl, Link.mirror_flag]

/-- A panel replaced: nothing else changes but memory. -/
theorem putPanel_rest (k : Fin 4) (x : Panel) (s : State) :
    putPanel k x s = { s with panels := upd s.panels k x, mem := (putPanel k x s).mem } := by
  unfold putPanel
  dsimp only
  split <;> rfl

@[simp] theorem putPanel_panels (k : Fin 4) (x : Panel) (s : State) : (putPanel k x s).panels = upd s.panels k x := by
  rw [putPanel_rest]

theorem testing_panels (k : Fin 4) (x : Panel) (s : State) : State.testing { s with panels := upd s.panels k x } k = x.testing := by
  simp only [State.testing, nth_upd_same, Panel.testing]

/-- The flag is written when a test starts or ends (R45). -/
theorem putPanel_mem (k : Fin 4) (x : Panel) (s : State) : (putPanel k x s).mem =
    if x.testing = s.testing k then s.mem else (State.showTest k { s with panels := upd s.panels k x }).mem := by
  unfold putPanel
  dsimp only
  rw [testing_panels]
  split <;> rfl

theorem putPanel_quiet {k : Fin 4} {x : Panel} {s : State} (h : x.testing = s.testing k) : (putPanel k x s).mem = s.mem := by
  rw [putPanel_mem, if_pos h]

theorem putPanel_flag {k : Fin 4} {x : Panel} {s : State} (w : s.mem.wf = true) (h : x.testing ≠ s.testing k) :
    flagReads k x.testing (putPanel k x s).mem := by
  have := showTest_flag (s := { s with panels := upd s.panels k x }) k w
  rw [testing_panels] at this
  rw [putPanel_mem, if_neg h]
  exact this

theorem putPanel_memory (k : Fin 4) (x : Panel) (s : State) : MemoryReach (testByte k) s (putPanel k x s) := by
  rw [show MemoryReach (testByte k) s (putPanel k x s) ↔
    MemoryReach (testByte k) s { s with mem := (putPanel k x s).mem } from ⟨fun h => ⟨h.wf, h.same⟩, fun h => ⟨h.wf, h.same⟩⟩]
  rw [putPanel_mem]
  split
  · exact ⟨id, fun _ _ => rfl⟩
  · refine ⟨Memory.wf_writeWord _ _, fun a ha => Memory.read_writeWord_other _ ?_⟩
    simp only [testByte, linkByte] at ha
    omega

/-- One test end of a panel has changed: what the flag and the rest of memory are then (R43, R45). -/
theorem putPanel_spec (k : Fin 4) (x : Panel) (s : State) :
    putPanel k x s = { s with panels := upd s.panels k x, mem := (putPanel k x s).mem }
    ∧ (x.testing = s.testing k → (putPanel k x s).mem = s.mem)
    ∧ (x.testing ≠ s.testing k → s.mem.wf = true → flagReads k x.testing (putPanel k x s).mem)
    ∧ sameMemoryBut (testByte k) s.mem (putPanel k x s).mem :=
  ⟨putPanel_rest k x s, putPanel_quiet, fun h w => putPanel_flag w h, (putPanel_memory k x s).same⟩

/-! ## LAMP TEST (R44) -/

/-- Panels and memory differ, and nothing else. -/
def PanelsOnly (s t : State) : Prop := t = { s with panels := t.panels, mem := t.mem }

theorem panelsOnly_trans {s t u : State} (h : PanelsOnly s t) (k : PanelsOnly t u) : PanelsOnly s u := by
  cases s; cases t; cases u
  simp_all [PanelsOnly]

theorem putPanel_only (k : Fin 4) (x : Panel) (s : State) : PanelsOnly s (putPanel k x s) := by
  unfold PanelsOnly
  rw [putPanel_panels]
  exact putPanel_rest k x s

/-- What the tests of a LAMP TEST leave of the rest of the part. -/
structure TestsOnly (mask : Byte) (u t : State) : Prop where
  rest : PanelsOnly u t
  memory : MemoryReach (fun a => ∃ k : Fin 4, mask.getLsbD k.val = true ∧ testByte k a) u t

/-- A panel of the mask has its order test end, and its flag where no test was running; another panel is as it was. -/
def panelTested (mask : Byte) (stop : Nat) (u : State) (k : Fin 4) (t : State) : Prop :=
  if mask.getLsbD k.val then
    nth t.panels k = { nth u.panels k with orderEnd := some stop }
      ∧ (u.testing k = false → u.mem.wf = true → flagReads k true t.mem)
  else nth t.panels k = nth u.panels k

theorem testPanel_only {mask : Byte} {stop : Nat} {u t : State} (h : TestsOnly mask u t) (k : Fin 4) :
    TestsOnly mask u (testPanel mask stop t k) := by
  unfold testPanel
  split
  · next hk =>
    have hm := putPanel_memory k { nth t.panels k with orderEnd := some stop } t
    refine ⟨panelsOnly_trans h.rest (putPanel_only k _ t), fun w => hm.wf (h.memory.wf w), fun a ha =>
      (hm.same a fun e => ha ⟨k, hk, e⟩).trans (h.memory.same a ha)⟩
  · exact h

/-- The step of one panel leaves the others, and their flags. -/
theorem testPanel_other (mask : Byte) (stop : Nat) (t : State) {k j : Fin 4} (hj : j ≠ k) :
    nth (testPanel mask stop t k).panels j = nth t.panels j
    ∧ ∀ v, flagReads j v t.mem → flagReads j v (testPanel mask stop t k).mem := by
  unfold testPanel
  split
  · refine ⟨by rw [putPanel_panels, nth_upd_other _ _ hj.symm], fun v hv => ?_⟩
    have hjk : j.val ≠ k.val := fun e => hj (Fin.ext e)
    unfold flagReads at hv ⊢
    rw [(putPanel_memory k _ t).same _ fun h => ?_]
    · exact hv
    · simp only [testByte, linkByte] at h
      omega
  · exact ⟨rfl, fun _ => id⟩

theorem testPanel_own {mask : Byte} {stop : Nat} {u t : State} (h : TestsOnly mask u t) {k : Fin 4}
    (hk : nth t.panels k = nth u.panels k) : panelTested mask stop u k (testPanel mask stop t k) := by
  unfold panelTested testPanel
  split
  · refine ⟨by rw [putPanel_panels, nth_upd_same, hk], fun hu w => ?_⟩
    have htest : t.testing k = false := by
      rw [State.testing, hk]
      exact hu
    have hx : Panel.testing { nth t.panels k with orderEnd := some stop } = true := Bool.or_true _
    have := putPanel_flag (k := k) (h.memory.wf w) (show Panel.testing { nth t.panels k with orderEnd := some stop }
      ≠ t.testing k by rw [hx, htest]; decide)
    rwa [hx] at this
  · exact hk

theorem testPanels_spec (mask : Byte) (stop : Nat) (u : State) :
    TestsOnly mask u ((List.finRange 4).foldl (testPanel mask stop) u)
    ∧ ∀ k, panelTested mask stop u k ((List.finRange 4).foldl (testPanel mask stop) u) := by
  obtain ⟨h1, h2⟩ := foldl_once (P := TestsOnly mask u) (pre := fun k t => nth t.panels k = nth u.panels k)
    (post := panelTested mask stop u) (f := testPanel mask stop) (fun t k h => testPanel_only h k)
    (fun t k h hk => testPanel_own h hk) (fun t k j _ hj e => (testPanel_other mask stop t hj).1.trans e)
    (fun t k j _ hj e => by
      obtain ⟨k1, k2⟩ := testPanel_other mask stop t hj
      unfold panelTested at e ⊢
      rw [k1]
      split
      · next hb =>
        rw [if_pos hb] at e
        exact ⟨e.1, fun hu w => k2 _ (e.2 hu w)⟩
      · next hb => rwa [if_neg hb] at e)
    (List.nodup_finRange 4) (s := u) ⟨rfl, id, fun _ _ => rfl⟩ fun _ _ => rfl
  exact ⟨h1, fun k => h2 k (List.mem_finRange k)⟩

/-- A LAMP TEST duration, brought into its range (R44). -/
theorem clampSeconds_eq (n : Nat) : clampSeconds n = if n = 0 then 1 else if 30 < n then 30 else n := by
  unfold clampSeconds
  split
  · rfl
  · split <;> omega

/-- Settles O37: each end and each press replaces one end of a panel, and LAMP TEST does so to every panel of its mask. -/
theorem lampTestEndsClear : Obligations.LampTestEndsClear := by
  unfold Obligations.LampTestEndsClear
  intro k n d b s flagIs
  refine ⟨fun hd hb => ?_, fun hd ho => ?_, ?_, ?_, fun w ho hn => ?_, fun w ho hn => ?_⟩
  · have hrun : s.testing k = true := (testing_iff s k).mpr (.inl (by rw [hb]; simp))
    obtain ⟨h1, h2, h3, h4⟩ := putPanel_spec k { nth s.panels k with buttonEnd := none } s
    have hx : Panel.testing { nth s.panels k with buttonEnd := none } = (nth s.panels k).orderEnd.isSome := rfl
    rw [hx, hrun] at h2 h3
    refine ⟨putPanel k { nth s.panels k with buttonEnd := none } s, ?_, h1, ?_, fun h => h2 (Option.isSome_iff_ne_none.mpr h),
      fun h w => ?_, h4⟩
    · simp only [exec, execButtonTestEnd, hb, dueAt, decide_eq_true hd, if_true]
    · rw [testing_iff, putPanel_panels, nth_upd_same]
      simp
    · have := h3 (by simp [h]) w
      rwa [h] at this
  · have hrun : s.testing k = true := (testing_iff s k).mpr (.inr (by rw [ho]; simp))
    obtain ⟨h1, h2, h3, h4⟩ := putPanel_spec k { nth s.panels k with orderEnd := none } s
    have hx : Panel.testing { nth s.panels k with orderEnd := none } = (nth s.panels k).buttonEnd.isSome := Bool.or_false _
    rw [hx, hrun] at h2 h3
    refine ⟨putPanel k { nth s.panels k with orderEnd := none } s, ?_, h1, ?_, fun h => h2 (Option.isSome_iff_ne_none.mpr h),
      fun h w => ?_, h4⟩
    · simp only [exec, execOrderTestEnd, ho, dueAt, decide_eq_true hd, if_true]
    · rw [testing_iff, putPanel_panels, nth_upd_same]
      simp
    · have := h3 (by simp [h]) w
      rwa [h] at this
  · obtain ⟨h1, h2, h3, h4⟩ := putPanel_spec k { nth s.panels k with buttonEnd := some (s.now + 30000) } s
    have hx : Panel.testing { nth s.panels k with buttonEnd := some (s.now + 30000) } = true := rfl
    rw [hx] at h2 h3
    exact ⟨h1, fun h => h2 h.symm, fun h => h3 (by simp [h]), h4⟩
  · obtain ⟨h1, h2, h3, h4⟩ := putPanel_spec k { nth s.panels k with buttonEnd := none } s
    have hx : Panel.testing { nth s.panels k with buttonEnd := none } = (nth s.panels k).orderEnd.isSome := rfl
    rw [hx, State.testing] at h2 h3
    refine ⟨h1, fun h => h2 ?_, fun hb ho w => ?_, h4⟩
    · rcases h with h | h
      · simp [h]
      · simp [Option.isSome_iff_ne_none.mpr h]
    · have := h3 (by simp [Option.isSome_iff_ne_none.mpr hb, ho]) w
      rwa [ho] at this
  · refine orderEnds_of w ho rfl (by decide) ?_
    simp only [applyOrder, orderLampTest, if_pos hn]
    rfl
  · intro t seconds
    have hsec : clampSeconds (numAt b 1) = seconds := clampSeconds_eq _
    obtain ⟨hf, hp⟩ := testPanels_spec (byteAt b 0) (s.now + 1000 * seconds) (s.taking n)
    generalize hv : (List.finRange 4).foldl (testPanel (byteAt b 0) (s.now + 1000 * seconds)) (s.taking n) = v at hf hp
    have ht : t = finish n (if seconds = numAt b 1 ∨ numAt b 0 = 0 then .doneOk else .doneClamped) [] v := by
      refine takeSlot_done ho rfl (by decide) ?_
      simp only [applyOrder, orderLampTest, if_neg (Nat.not_le.mpr hn), hsec]
      rw [← hv]
      rfl
    have hpan : t.panels = v.panels := by rw [ht, finish_rest]
    have w1 : (s.taking n).mem.wf = true := Memory.wf_writeWord _ _ w
    have hbase := slotBase_bounds n
    refine ⟨?_, fun k => ?_, fun k hk hu w' => ?_, ?_, fun a ha => ?_⟩
    · rw [ht]
      exact finish_slot n _ _ v (hf.memory.wf w1)
    · have := hp k
      rw [hpan]
      unfold panelTested at this
      change if (numAt b 0).testBit k.val = true then _ else _ at this
      split
      · next h => rw [if_pos h] at this; exact this.1
      · next h => rw [if_neg h] at this; exact this
    · have := hp k
      unfold panelTested at this
      rw [if_pos (show (byteAt b 0).getLsbD k.val = true from hk)] at this
      have hflag := this.2 hu w1
      unfold flagReads at hflag
      rw [ht, finish_memory n _ _ v _ (by simp only [doneByte, hallBase]; omega)]
      exact hflag
    · have hve : v.engine = s.engine := by rw [hf.rest]; rfl
      have : finish n (if seconds = numAt b 1 ∨ numAt b 0 = 0 then .doneOk else .doneClamped) [] v
          = { s with panels := v.panels, engine := s.engine.counted, mem := t.mem } := by
        rw [finish_rest, hve, ← ht]
        conv_lhs => rw [hf.rest]
        rfl
      rw [hpan, ← this, ht]
    · rw [not_or] at ha
      rw [ht, finish_memory n _ _ v a ha.1, hf.memory.same a fun ⟨j, h1, h2⟩ => ha.2 ⟨j, h1, h2⟩]
      refine Memory.read_writeWord_other _ ?_
      have := ha.1
      simp only [doneByte] at this
      omega

end Sys2Proof.Machine
end

section
/-! Operator actions (section 2.3): what an action makes of every point, zone and group, and the three orders that apply it. -/

namespace Sys2Proof.Machine

/-! ## What the alarm side can reach by an action -/

namespace SideClosed

variable {P : Fin 256 → Prop} {A : Nat → Prop} {R : State → State → Prop} (h : SideClosed P A R)
include h

theorem actPoint (a : Action) (t : Target) (s : State) (p : Fin 256) (hp : P p) : R s (Machine.actPoint a t s p) := by
  unfold Machine.actPoint
  dsimp only
  split
  · exact h.trans (h.trans (h.point s p _ hp) (h.showPoint p _ hp)) (h.zones _ _)
  · exact h.refl s

theorem actZone (a : Action) (t : Target) (old : Vector Zone 8) (s : State) (z : Fin 8) :
    R s (Machine.actZone a t old s z) := by
  unfold Machine.actZone
  dsimp only
  split
  · exact h.zones s _
  · exact h.trans (h.zones s _) (h.showZone z _)

theorem rearmReset (hP : ∀ p, P p) (s : State) (g : Fin 16) : R s (Machine.rearmReset s g) := by
  unfold Machine.rearmReset
  split
  · unfold rearm
    dsimp only
    refine h.trans ?_ (h.trans (h.offerInside _ _) (h.putGroup g _ _))
    split
    · exact h.setMark _ _ s (hP _)
    · exact h.refl s
  · exact h.refl s

theorem applyAction (hP : ∀ p, P p) (a : Action) (t : Target) (o : Nat) (s : State) :
    R s (Machine.applyAction a t o s) := by
  unfold Machine.applyAction
  dsimp only
  have h1 := h.trans (h.foldl _ (List.finRange 256) s fun u p _ => h.actPoint a t u p (hP p))
    (h.foldl _ (List.finRange 8) _ fun u z _ => h.actZone a t s.zones u z)
  have h2 := h.trans h1 (h.offerFiltered .action (actionRecord a t o (moved a t s) s.stamp) _)
  split
  · exact h.trans h2 (h.foldl _ _ _ fun u g _ => h.rearmReset hP u g)
  · exact h2

end SideClosed

/-! ## The moves (R29, R30) -/

/-- A point after an action (R31 step 1). -/
def Target.acted (t : Target) (a : Action) (p : Fin 256) (x : Point) : Point :=
  if t.reaches p x = true then { x with seq := a.move x.seq x.settings.ringback } else x

@[simp] theorem Target.acted_settings (t : Target) (a : Action) (p : Fin 256) (x : Point) :
    (t.acted a p x).settings = x.settings := by unfold Target.acted; split <;> rfl

@[simp] theorem Target.acted_firstMark (t : Target) (a : Action) (p : Fin 256) (x : Point) :
    (t.acted a p x).firstMark = x.firstMark := by unfold Target.acted; split <;> rfl

theorem newRingback_eq_false {q r : SeqState} : newRingback q r = false ↔ (r = .ringback → q = .ringback) := by
  cases q <;> cases r <;> decide

/-- No action brings a new alert. -/
theorem Target.acted_newAlert (t : Target) (a : Action) (p : Fin 256) (x : Point) :
    newAlert x.seq (t.acted a p x).seq = false := by
  have hself : ∀ q, newAlert q q = false := by intro q; cases q <;> rfl
  have hmove : ∀ q b, newAlert q (a.move q b) = false := by intro q b; cases a <;> cases q <;> cases b <;> rfl
  unfold Target.acted
  split
  · exact hmove _ _
  · exact hself _

/-- A zone none of whose points moves keeps its flags (R37). -/
theorem Zone.afterMove_self (x : Zone) (q : SeqState) : x.afterMove q q = x := by
  cases q <;> simp [Zone.afterMove, newAlert, newRingback]

/-- A point that an action does not move changes nothing. -/
theorem actPoint_unmoved {a : Action} {t : Target} {s : State} {p : Fin 256}
    (h : t.acted a p (nth s.points p) = nth s.points p) : actPoint a t s p = s := by
  refine if_neg fun ⟨h1, h2⟩ => h2 ?_
  rw [Target.acted, if_pos h1] at h
  exact congrArg Point.seq h

/-- What the step of one point is: its move, shown, and the flags of its zone (R31). -/
theorem actPoint_moved {a : Action} {t : Target} {s : State} {p : Fin 256}
    (h : t.acted a p (nth s.points p) ≠ nth s.points p) :
    actPoint a t s p = { State.showPoint p { s with points := upd s.points p (t.acted a p (nth s.points p)) } with
      zones := upd s.zones (nth s.points p).settings.zone ((nth s.zones (nth s.points p).settings.zone).afterMove
        (nth s.points p).seq (t.acted a p (nth s.points p)).seq) } := by
  have hr : t.reaches p (nth s.points p) = true := by
    by_contra k
    exact h (if_neg k)
  have he : t.acted a p (nth s.points p)
      = { nth s.points p with seq := a.move (nth s.points p).seq (nth s.points p).settings.ringback } := if_pos hr
  rw [he]
  refine if_pos ⟨hr, fun k => h ?_⟩
  rw [he, k]

theorem actPoint_points (a : Action) (t : Target) (s : State) (p : Fin 256) :
    (actPoint a t s p).points = upd s.points p (t.acted a p (nth s.points p)) := by
  by_cases h : t.acted a p (nth s.points p) = nth s.points p
  · rw [actPoint_unmoved h, h, upd_nth]
  · rw [actPoint_moved h]
    rfl

theorem actPoint_zones (a : Action) (t : Target) (s : State) (p : Fin 256) :
    (actPoint a t s p).zones = upd s.zones (nth s.points p).settings.zone
      ((nth s.zones (nth s.points p).settings.zone).afterMove (nth s.points p).seq (t.acted a p (nth s.points p)).seq) := by
  by_cases h : t.acted a p (nth s.points p) = nth s.points p
  · rw [actPoint_unmoved h, h, Zone.afterMove_self, upd_nth]
  · rw [actPoint_moved h]

/-- The step of one point touches nothing of the First-Out Unit, the journal and the clock, and writes its mirror word. -/
theorem actPoint_rest (a : Action) (t : Target) (s : State) (p : Fin 256) :
    (actPoint a t s p).groups = s.groups ∧ (actPoint a t s p).journal = s.journal ∧ (actPoint a t s p).time = s.time
    ∧ sameMemoryBut (pointByte p) s.mem (actPoint a t s p).mem := by
  by_cases h : t.acted a p (nth s.points p) = nth s.points p
  · rw [actPoint_unmoved h]
    exact ⟨rfl, rfl, rfl, fun _ _ => rfl⟩
  · rw [actPoint_moved h]
    refine ⟨rfl, rfl, rfl, fun b hb => Memory.read_writeWord_other _ ?_⟩
    simp only [pointByte] at hb
    omega

/-! ## All points -/

/-- The moves of an action (R31 step 1). -/
def pointsActed (a : Action) (t : Target) (s : State) : State := (List.finRange 256).foldl (actPoint a t) s

theorem pointsActed_points (a : Action) (t : Target) (s : State) (p : Fin 256) :
    nth (pointsActed a t s).points p = t.acted a p (nth s.points p) :=
  (foldl_once (P := fun _ => True) (pre := fun p u => nth u.points p = nth s.points p)
    (post := fun p u => nth u.points p = t.acted a p (nth s.points p)) (f := actPoint a t) (fun _ _ _ => trivial)
    (fun u p _ e => by rw [actPoint_points, nth_upd_same, e])
    (fun u p q _ hq e => by rw [actPoint_points, nth_upd_other _ _ hq.symm, e])
    (fun u p q _ hq e => by rw [actPoint_points, nth_upd_other _ _ hq.symm, e])
    (List.nodup_finRange 256) trivial fun _ _ => rfl).2 p (List.mem_finRange p)

theorem pointsActed_rest (a : Action) (t : Target) (s : State) : (pointsActed a t s).groups = s.groups
    ∧ (pointsActed a t s).journal = s.journal ∧ (pointsActed a t s).time = s.time :=
  List.foldlRecOn _ (actPoint a t) (motive := fun u => u.groups = s.groups ∧ u.journal = s.journal ∧ u.time = s.time)
    ⟨rfl, rfl, rfl⟩ fun u ⟨h1, h2, h3⟩ p _ => by
      obtain ⟨k1, k2, k3, _⟩ := actPoint_rest a t u p
      exact ⟨k1.trans h1, k2.trans h2, k3.trans h3⟩

/-- The moves into RINGBACK clear the ringback-silenced flag of their zones, and no move clears a silenced flag (R37). -/
theorem actPoints_flags (a : Action) (t : Target) {l : List (Fin 256)} (hn : l.Nodup) (s : State) (z : Fin 8) :
    (nth (l.foldl (actPoint a t) s).zones z).silenced = (nth s.zones z).silenced
    ∧ ((nth (l.foldl (actPoint a t) s).zones z).rbSilenced = true ↔ (nth s.zones z).rbSilenced = true
      ∧ ∀ p ∈ l, (nth s.points p).settings.zone = z →
        newRingback (nth s.points p).seq (t.acted a p (nth s.points p)).seq = false) := by
  induction l generalizing s with
  | nil => simp
  | cons p l ih =>
    obtain ⟨hp, hl⟩ := List.nodup_cons.mp hn
    obtain ⟨h1, h2⟩ := ih hl (actPoint a t s p)
    have hother : ∀ q ∈ l, nth (actPoint a t s p).points q = nth s.points q := fun q hq => by
      rw [actPoint_points, nth_upd_other]
      rintro rfl
      exact hp hq
    have hrest : (∀ q ∈ l, (nth (actPoint a t s p).points q).settings.zone = z →
          newRingback (nth (actPoint a t s p).points q).seq (t.acted a q (nth (actPoint a t s p).points q)).seq = false)
        ↔ ∀ q ∈ l, (nth s.points q).settings.zone = z →
          newRingback (nth s.points q).seq (t.acted a q (nth s.points q)).seq = false :=
      forall₂_congr fun q hq => by rw [hother q hq]
    rw [List.foldl_cons, h1, h2, hrest, List.forall_mem_cons, actPoint_zones, nth_upd]
    split
    · next e =>
      subst e
      simp [Zone.afterMove, t.acted_newAlert, and_assoc]
    · next e => simp [e]

/-! ## All zones -/

/-- Whether a zone is in the mask of an action (R37). -/
def Target.inMask (t : Target) (z : Fin 8) : Bool :=
  match t with
  | .zones m => m.getLsbD z.val
  | .point _ => false

/-- The silence flags that a silence sets (R37). -/
theorem silenceZone_eq (a : Action) (t : Target) (z : Fin 8) (x : Zone) : silenceZone a t z x
    = if a = .silence ∧ t.inMask z = true then { x with silenced := true, rbSilenced := true } else x := by
  cases a <;> cases t <;> simp [silenceZone, Target.inMask]

/-- The moves of an action with flags and horns worked out (R31 steps 1 to 3). -/
def zonesActed (a : Action) (t : Target) (s : State) : State :=
  (List.finRange 8).foldl (actZone a t s.zones) (pointsActed a t s)

theorem actZone_rest (a : Action) (t : Target) (old : Vector Zone 8) (s : State) (z : Fin 8) :
    (actZone a t old s z).groups = s.groups ∧ (actZone a t old s z).journal = s.journal
    ∧ (actZone a t old s z).time = s.time := by
  unfold actZone
  dsimp only
  split <;> exact ⟨rfl, rfl, rfl⟩

/-- What a zone judged again is depends on the points and the clock alone. -/
theorem rejudged_congr {s u : State} (hp : u.points = s.points) (ht : u.time = s.time) (z : Fin 8) (x : Zone) :
    rejudged u z x = rejudged s z x := by
  unfold rejudged countZone State.now
  rw [hp, ht]

theorem zonesActed_spec (a : Action) (t : Target) (s : State) :
    (zonesActed a t s).points = (pointsActed a t s).points ∧ (zonesActed a t s).groups = s.groups
    ∧ (zonesActed a t s).journal = s.journal
    ∧ ∀ z, nth (zonesActed a t s).zones z
      = rejudged (pointsActed a t s) z (silenceZone a t z (nth (pointsActed a t s).zones z)) := by
  obtain ⟨g1, j1, t1⟩ := pointsActed_rest a t s
  have hown := fun (u : State) (z : Fin 8) => actZone_zones a t s.zones u z
  obtain ⟨⟨h1, h2, h3, _⟩, h4⟩ := foldl_once
    (P := fun u => u.points = (pointsActed a t s).points ∧ u.groups = s.groups ∧ u.journal = s.journal
      ∧ u.time = (pointsActed a t s).time)
    (pre := fun z u => nth u.zones z = nth (pointsActed a t s).zones z)
    (post := fun z u => nth u.zones z
      = rejudged (pointsActed a t s) z (silenceZone a t z (nth (pointsActed a t s).zones z)))
    (f := actZone a t s.zones)
    (fun u z ⟨p1, p2, p3, p4⟩ => by
      obtain ⟨k1, k2, k3⟩ := actZone_rest a t s.zones u z
      exact ⟨(hown u z).2.trans p1, k1.trans p2, k2.trans p3, k3.trans p4⟩)
    (fun u z ⟨p1, _, _, p4⟩ e => by rw [(hown u z).1, nth_upd_same, e, rejudged_congr p1 p4])
    (fun u z w _ hw e => by rw [(hown u z).1, nth_upd_other _ _ hw.symm, e])
    (fun u z w _ hw e => by rw [(hown u z).1, nth_upd_other _ _ hw.symm, e])
    (List.nodup_finRange 8) (s := pointsActed a t s) ⟨rfl, g1, j1, rfl⟩ fun _ _ => rfl
  exact ⟨h1, h2, h3, fun z => h4 z (List.mem_finRange z)⟩

/-! ## The re-arm of a reset (R56) -/

theorem groupQuiet_iff (s : State) (g : Fin 16) : groupQuiet s g = true ↔
    ∀ p, (nth s.points p).settings.group = some g → (nth s.points p).seq = .quiet := by
  simp only [groupQuiet, List.all_eq_true, List.mem_finRange, true_implies, Bool.or_eq_true, decide_eq_true_eq]
  exact forall_congr' fun p => by tauto

/-- A group that a reset re-arms: LATCHED, with every point QUIET (R56). -/
def resettable (s : State) (g : Fin 16) : Prop := (nth s.groups g).state = .latched ∧ groupQuiet s g = true

theorem rearm_groups (o : FirstOutcome) (g : Fin 16) (s : State) : (rearm o g s).groups = upd s.groups g {} := by
  unfold rearm
  dsimp only
  rw [putGroup_groups, offerInside_groups]
  split <;> rfl

/-- A re-arm clears the first mark of its group's marked candidate (R55). -/
theorem rearm_points (o : FirstOutcome) (g : Fin 16) (s : State) (p : Fin 256) : nth (rearm o g s).points p
    = if (nth s.groups g).marked = true ∧ (nth s.groups g).candidate = some p then { nth s.points p with firstMark := false }
      else nth s.points p := by
  unfold rearm
  dsimp only
  rw [putGroup_points, offerInside_points]
  split
  · next q hm hc =>
    rw [setMark_points, nth_upd]
    by_cases e : q = p
    · subst e
      rw [if_pos rfl, if_pos ⟨hm, hc⟩]
    · rw [if_neg e, if_neg fun k => e (Option.some.inj (hc.symm.trans k.2))]
  · next h => rw [if_neg fun k => h p k.1 k.2]

/-- What the re-arms of the groups of a list leave of each group and of each point (R56). -/
structure Rearmed (l : List (Fin 16)) (s t : State) : Prop where
  zones : t.zones = s.zones
  done : ∀ g ∈ l, resettable s g → nth t.groups g = {}
  kept : ∀ g, (g ∈ l → ¬resettable s g) → nth t.groups g = nth s.groups g
  points : ∀ p, nth t.points p = { nth s.points p with firstMark := (nth t.points p).firstMark }
  marks : ∀ p, (nth t.points p).firstMark = true ↔ (nth s.points p).firstMark = true
    ∧ ∀ g ∈ l, resettable s g → (nth s.groups g).marked = true → (nth s.groups g).candidate ≠ some p

/-- Whether a group is re-armed looks at its record and at settings and sequence states alone. -/
theorem resettable_congr {s t : State} {g : Fin 16} (hg : nth t.groups g = nth s.groups g)
    (hp : ∀ p, nth t.points p = { nth s.points p with firstMark := (nth t.points p).firstMark }) :
    resettable t g ↔ resettable s g := by
  have hs : ∀ p, (nth t.points p).settings = (nth s.points p).settings ∧ (nth t.points p).seq = (nth s.points p).seq :=
    fun p => by rw [hp p]; exact ⟨rfl, rfl⟩
  unfold resettable
  rw [groupQuiet_iff, groupQuiet_iff, hg]
  simp only [hs]

/-- The step of one group. -/
theorem rearmReset_step (s : State) (g : Fin 16) : Rearmed [g] s (rearmReset s g) := by
  unfold rearmReset
  split
  · next h =>
    have hr : resettable s g := h
    have hpts := rearm_points .rearmedReset g s
    refine ⟨(seqSame_rearm _ g s).zones, fun i hi _ => ?_, fun i hi => ?_, fun p => ?_, fun p => ?_⟩
    · rw [rearm_groups, List.mem_singleton.mp hi, nth_upd_same]
    · rw [rearm_groups, nth_upd_other]
      rintro rfl
      exact hi List.mem_cons_self hr
    · rw [hpts]
      split <;> rfl
    · rw [hpts]
      simp only [List.mem_singleton, forall_eq, hr, true_implies]
      split
      · next k => simp [k.1, k.2]
      · next k => exact ⟨fun m => ⟨m, fun k1 k2 => k ⟨k1, k2⟩⟩, fun m => m.1⟩
  · next h =>
    have hr : ¬resettable s g := h
    exact ⟨rfl, fun i hi k => absurd (List.mem_singleton.mp hi ▸ k) hr, fun _ _ => rfl, fun _ => rfl, fun p => by
      simp [hr]⟩

/-- The re-arms one after another: each group is judged by its own record, and by what no re-arm changes. -/
theorem rearmResets_spec {l : List (Fin 16)} (hn : l.Nodup) (s : State) : Rearmed l s (l.foldl rearmReset s) := by
  induction l generalizing s with
  | nil => exact ⟨rfl, fun _ h => absurd h (by simp), fun _ _ => rfl, fun _ => rfl, fun p => by simp⟩
  | cons g l ih =>
    obtain ⟨hg, hl⟩ := List.nodup_cons.mp hn
    have h1 := rearmReset_step s g
    have h2 := ih hl (rearmReset s g)
    have hne : ∀ i ∈ l, i ≠ g := fun i hi e => hg (e ▸ hi)
    have hsame : ∀ i, i ≠ g → nth (rearmReset s g).groups i = nth s.groups i := fun i hi =>
      h1.kept i fun k => absurd (List.mem_singleton.mp k) hi
    have hres : ∀ i ∈ l, (resettable (rearmReset s g) i ↔ resettable s i) := fun i hi =>
      resettable_congr (hsame i (hne i hi)) h1.points
    rw [List.foldl_cons]
    refine ⟨h2.zones.trans h1.zones, fun i hi hr => ?_, fun i hi => ?_, fun p => ?_, fun p => ?_⟩
    · rcases List.mem_cons.mp hi with rfl | hi
      · rw [h2.kept i fun k => absurd k hg]
        exact h1.done i List.mem_cons_self hr
      · exact h2.done i hi ((hres i hi).mpr hr)
    · rw [h2.kept i fun k => mt (hres i k).mp (hi (List.mem_cons_of_mem _ k))]
      exact h1.kept i fun k => hi (List.mem_singleton.mp k ▸ List.mem_cons_self)
    · rw [h2.points p, h1.points p]
    · have hrest : (∀ i ∈ l, resettable (rearmReset s g) i → (nth (rearmReset s g).groups i).marked = true →
            (nth (rearmReset s g).groups i).candidate ≠ some p)
          ↔ ∀ i ∈ l, resettable s i → (nth s.groups i).marked = true → (nth s.groups i).candidate ≠ some p :=
        forall₂_congr fun i hi => by rw [hres i hi, hsame i (hne i hi)]
      rw [h2.marks p, h1.marks p, hrest, and_assoc]
      simp only [List.forall_mem_cons, List.not_mem_nil, false_implies, implies_true, and_true]

/-! ## The action whole (R31) -/

/-- An action up to its ACTION record (R31, R32). -/
def actionTold (a : Action) (t : Target) (o : Nat) (s : State) : State :=
  offerFiltered .action (actionRecord a t o (moved a t s) s.stamp) (zonesActed a t s)

theorem applyAction_eq (a : Action) (t : Target) (o : Nat) (s : State) : applyAction a t o s
    = if a = .reset then (List.finRange 16).foldl rearmReset (actionTold a t o s) else actionTold a t o s := rfl

/-- The state with only a reset's groups re-armed (R56). -/
theorem applyAction_rearmed (a : Action) (t : Target) (o : Nat) (s : State) :
    Rearmed (if a = .reset then List.finRange 16 else []) (actionTold a t o s) (applyAction a t o s) := by
  rw [applyAction_eq]
  split
  · exact rearmResets_spec (List.nodup_finRange 16) _
  · exact rearmResets_spec List.nodup_nil _

theorem actionTold_points (a : Action) (t : Target) (o : Nat) (s : State) (p : Fin 256) :
    nth (actionTold a t o s).points p = t.acted a p (nth s.points p) := by
  rw [actionTold, offerFiltered_points, (zonesActed_spec a t s).1, pointsActed_points]

theorem actionTold_groups (a : Action) (t : Target) (o : Nat) (s : State) : (actionTold a t o s).groups = s.groups := by
  rw [actionTold, offerFiltered_groups, (zonesActed_spec a t s).2.1]

/-- The groups that an action re-arms (R56). -/
theorem resettable_actionTold (a : Action) (t : Target) (o : Nat) (s : State) (g : Fin 16) :
    resettable (actionTold a t o s) g ↔ (nth s.groups g).state = .latched
      ∧ ∀ p, (nth s.points p).settings.group = some g → (t.acted a p (nth s.points p)).seq = .quiet := by
  unfold resettable
  rw [groupQuiet_iff, actionTold_groups]
  simp only [actionTold_points, Target.acted_settings]

/-- A zone after an action: its counts, and its horn by R38. -/
theorem applyAction_zone (a : Action) (t : Target) (o : Nat) (s : State) (z : Fin 8) :
    Rejudged (pointsActed a t s) z (silenceZone a t z (nth (pointsActed a t s).zones z)) (nth (applyAction a t o s).zones z) := by
  obtain ⟨_, _, _, hz⟩ := zonesActed_spec a t s
  rw [(applyAction_rearmed a t o s).zones, actionTold, offerFiltered_zones, hz]
  exact rejudged_spec _ z _

/-- The flags of a zone after an action (R37). -/
theorem applyAction_flags (a : Action) (t : Target) (o : Nat) (s : State) (z : Fin 8) :
    ((nth (applyAction a t o s).zones z).silenced = true
      ↔ (nth s.zones z).silenced = true ∨ (a = .silence ∧ t.inMask z = true))
    ∧ ((nth (applyAction a t o s).zones z).rbSilenced = true ↔ (a = .silence ∧ t.inMask z = true)
      ∨ ((nth s.zones z).rbSilenced = true ∧ ∀ p, (nth s.points p).settings.zone = z →
        (t.acted a p (nth s.points p)).seq = .ringback → (nth s.points p).seq = .ringback)) := by
  have h := applyAction_zone a t o s z
  obtain ⟨h1, h2⟩ := actPoints_flags a t (List.nodup_finRange 256) s z
  simp only [List.mem_finRange, true_implies, newRingback_eq_false] at h2
  rw [h.silenced, h.rbSilenced, silenceZone_eq]
  split
  · next e => simp [e]
  · next e =>
    simp only [e, or_false, false_or]
    exact ⟨by rw [pointsActed, h1], h2⟩

/-- The ACTION record's bytes by action and target (section 11.7). -/
theorem actionRecord_eq (a : Action) (t : Target) (o n : Nat) (st : Stamp) : actionRecord a t o n st = Record.stamped
    { kind := .action, high := false, subject := (match t with | .zones _ => 0 | .point q => byte q.val)
      x0 := (match a with | .acknowledge => 1 | .silence => 2 | .reset => 3), x1 := byte o
      x2 := (match t with | .zones _ => 0 | .point _ => 1), x3 := (match t with | .zones m => m | .point _ => 0)
      x4 := byte (min 255 n) } st := by
  cases a <;> cases t <;> rfl

/-- The ACTION record joins the queue, unless the mask names it (R32). -/
theorem applyAction_record (a : Action) (t : Target) (o : Nat) (s : State) (hf : s.filters .action = false) :
    recordJoins (actionRecord a t o (moved a t s) s.stamp) s (applyAction a t o s) := by
  refine recordJoins_of_filtered (zonesActed_spec a t s).2.2.1 hf ?_
  rw [applyAction_eq]
  split
  · exact queueGrows_alarm.foldl _ _ _ fun u g _ => queueGrows_alarm.rearmReset u g
  · exact queueGrows_alarm.refl _

/-! ## The orders (R34 to R36) -/

/-- What an action by order has left when its slot reads DONE: the action with origin STATION, and the DONE write. -/
theorem takeSlot_action {n : Fin 16} {k : OrderKind} {d data : List Byte} {a : Action} {t : Target} {counted : Bool} {s : State}
    (w : s.mem.wf = true) (ho : s.holdsOrder n k d) (hb : barred s.engine k = false) (hk : k ≠ .remoteTrip)
    (ha : applyOrder k n d (s.taking n) = orderAction a t counted (s.taking n))
    (hd : data = if counted then [byte (min 255 (moved a t s))] else []) :
    SlotDone (takeSlot n s).mem n .doneOk data
    ∧ takeSlot n s = { endAlarm (applyAction a t 4 (s.taking n)) with
        engine := s.engine.counted, mem := (takeSlot n s).mem }
    ∧ sameMemoryBut (doneByte n) (endAlarm (applyAction a t 4 (s.taking n))).mem (takeSlot n s).mem := by
  have hr := alarmSide.trans (alarmSide.applyAction (fun _ => trivial) a t 4 (s.taking n)) (endAlarm_reach fun _ _ => trivial)
  have ht := takeSlot_done ho hb hk ha
  rw [show station = 4 from rfl] at ht
  rw [ht, hd]
  refine ⟨finish_slot n _ _ _ (hr.memory.wf (Memory.wf_writeWord _ _ w)), ?_, finish_memory n _ _ _⟩
  rw [finish_rest, show (endAlarm (applyAction a t 4 (s.taking n))).engine = s.engine from hr.only.engine]

/-- Settles O34: an action is its moves, the zones judged again, its record and a reset's re-arms, and the orders apply it. -/
theorem actionsMovePoints : Obligations.ActionsMovePoints := by
  unfold Obligations.ActionsMovePoints
  intro a t origin n d s p moves reached count x q u v y rearms inMask inZone w done
  have hy : ∀ p, y p = t.acted a p (nth s.points p) := fun p => by cases t <;> rfl
  have hspec := applyAction_rearmed a t origin s
  have hrearm : ∀ g, rearms g ↔ g ∈ (if a = .reset then List.finRange 16 else []) ∧ resettable (actionTold a t origin s) g := by
    intro g
    rw [resettable_actionTold]
    simp only [rearms, hy]
    split <;> simp [*]
  have hcount : ∀ a t, min 255 (moved a t s) = count a t := fun a t =>
    congrArg (fun f => min 255 ((List.finRange 256).countP f)) (funext fun p => by cases t <;> rfl)
  have hdata : ∀ a t, [byte (count a t)] = [byte (min 255 (moved a t s))] := fun a t => by rw [hcount]
  have hzone : ∀ (z : Fin 8) f, countZone (pointsActed a t s) z f = inZone z f := fun z f => by
    simp only [countZone, inZone, pointsActed_points, Target.acted_settings, hy]
  refine ⟨⟨fun hr => ⟨?_, fun hq hx => ?_⟩, fun hr => ?_, fun p' hp => ?_, (actPoint_rest a t s p).1,
    (actPoint_rest a t s p).2.1, (alarmSide.actPoint a t s p trivial).only, (actPoint_rest a t s p).2.2.2⟩,
    ⟨fun p => ?_, fun p => ?_, fun g => ⟨fun hg => ?_, fun hg => ?_⟩, fun z => ?_, ?_, ?_, fun hf => ?_⟩, fun hw => ?_⟩
  · rw [actPoint_points, nth_upd_same, Target.acted, if_pos hr]
    rfl
  · have hseq : (t.acted a p x).seq = .ringback := by
      rw [Target.acted, if_pos hr]
      exact hq
    rw [actPoint_zones, nth_upd_same]
    simp [Zone.afterMove, newRingback, hseq, hx, x]
  · exact actPoint_unmoved (if_neg (by rw [hr]; decide))
  · rw [actPoint_points, nth_upd_other _ _ hp.symm]
  · rw [hspec.points p, actionTold_points, hy]
  · rw [hspec.marks p, actionTold_points, actionTold_groups, Target.acted_firstMark]
    exact and_congr Iff.rfl (forall_congr' fun g => by rw [hrearm g, and_imp])
  · exact hspec.done g ((hrearm g).mp hg).1 ((hrearm g).mp hg).2
  · rw [hspec.kept g fun k1 k2 => hg ((hrearm g).mpr ⟨k1, k2⟩), actionTold_groups]
  · have hj := applyAction_zone a t origin s z
    obtain ⟨h1, h2⟩ := applyAction_flags a t origin s z
    simp only [← hy] at h2
    exact ⟨h1, h2, hj.alert.trans (hzone z _), hj.standing.trans (hzone z _), hj.ringback.trans (hzone z _), hj.horn_eq⟩
  · exact (alarmSide.applyAction (fun _ => trivial) a t origin s).only
  · exact (alarmSide.applyAction (fun _ => trivial) a t origin s).memory.same
  · have h := applyAction_record a t origin s hf
    rw [actionRecord_eq, hcount] at h
    exact h
  · refine ⟨fun ho h0 => ?_, fun ho h1 hp => ?_, fun ho hr => ?_, fun ho => ?_, fun ho => ?_⟩
    · exact takeSlot_action (counted := true) hw ho rfl (by decide) (if_pos h0) (hdata .acknowledge (.zones (byteAt d 1)))
    · refine takeSlot_action (counted := true) hw ho rfl (by decide) ?_ (hdata .acknowledge (.point p))
      have : pointOf (wordAt d 2) = some p := by rw [hp, pointOf, dif_pos p.isLt]
      simp only [applyOrder, orderAcknowledge, h1, this, one_ne_zero, if_false, if_true]
    · refine orderEnds_of hw ho rfl (by decide) ?_
      have h0 : numAt d 0 ≠ 0 := by omega
      have hn : numAt d 0 = 1 → pointOf (wordAt d 2) = none := fun h1 => dif_neg (by omega)
      simp only [applyOrder, orderAcknowledge, if_neg h0]
      split
      · next h1 => rw [hn h1]; rfl
      · rfl
    · exact takeSlot_action (counted := false) hw ho rfl (by decide) rfl rfl
    · exact takeSlot_action (counted := true) hw ho rfl (by decide) rfl (hdata .reset (.zones (byteAt d 1)))

end Sys2Proof.Machine
end

section
/-! A valid answer (sections 3.4 and 3.5): what its entries, inputs and buttons reach, and how a link comes UP. -/

namespace Sys2Proof.Machine

/-! ## What the alarm side reaches -/

/-- What an event of the alarm side may change beside its points, zones and groups and the journal: the mirrors' bytes. -/
abbrev AlarmReach (s t : State) : Prop := SideReach (fun _ => True) (fun a => mirrorByte a ∨ recordByte a) s t

theorem takeContact_alarm (p : Fin 256) (c : Contact) (n : Int) (st : Stamp) (f : Bool) (s : State) :
    AlarmReach s (takeContact p c n st f s) := (alarmSide.takeContact p c n st f s trivial fun _ _ => trivial).2

theorem reportNow_alarm (r : Report) (s : State) : AlarmReach s (reportNow r s) :=
  (alarmSide.reportNow r s trivial fun _ _ => trivial).2

theorem offerLink_alarm (r : Record) (s : State) : AlarmReach s (offerLink r s) :=
  (alarmSide.offerUnless .link r s fun _ _ => trivial).2

theorem panelAction_alarm (k : Fin 4) (a : Action) (s : State) : AlarmReach s (panelAction k a s) :=
  alarmSide.trans (alarmSide.applyAction (fun _ => trivial) a _ _ s) (endAlarm_reach fun _ _ => trivial)

theorem takeEntries_alarm (k : Fin 4) (r : Receipt) (n : Nat) (es : List ChangeEntry) (s : State) :
    AlarmReach s (es.foldl (takeEntry k r n) s) :=
  alarmSide.foldl _ _ _ fun u e _ => by
    unfold takeEntry
    split
    · exact takeContact_alarm _ _ _ _ _ u
    · exact alarmSide.refl u

theorem compareInputs_alarm (k : Fin 4) (r : Receipt) (v : Vector Bool 48) (s : State) :
    AlarmReach s (compareInputs k r v s) :=
  alarmSide.foldl _ _ _ fun u j _ => by
    unfold compareInput
    dsimp only
    split
    · exact takeContact_alarm _ _ _ _ _ u
    · exact alarmSide.refl u

theorem clearStale_alarm (k : Fin 4) (s : State) (j : Fin 48) : AlarmReach s (clearStale k s j) :=
  alarmSide.trans (alarmSide.putPoint _ _ s trivial) (alarmSide.showPoint _ _ trivial)

theorem recoverPoint_alarm (k : Fin 4) (r : Receipt) (s : State) (j : Fin 48) : AlarmReach s (recoverPoint k r s j) := by
  unfold recoverPoint
  dsimp only
  split
  · exact alarmSide.startChange _ _ _ _ s trivial
  · exact alarmSide.refl s

theorem recovered_alarm (k : Fin 4) (r : Receipt) (s : State) : AlarmReach s (recovered k r s) :=
  alarmSide.trans (alarmSide.trans (alarmSide.foldl _ _ s fun u j _ => clearStale_alarm k u j)
    (alarmSide.foldl _ _ _ fun u j _ => recoverPoint_alarm k r u j)) (endAlarm_reach fun _ _ => trivial)

/-! ## What an event of one link reaches -/

/-- The bytes an answer of link k may change, but for a DONE write. -/
abbrev answerByte (k : Fin 4) (a : Nat) : Prop := linkByte k a ∨ mirrorByte a ∨ recordByte a

/-- What an answer of link k leaves of the part, but for the end of a RESTART LINK. -/
structure LinkEvent (k : Fin 4) (s t : State) : Prop where
  rest : SideOnly { s with links := t.links, panels := t.panels } t
  others : ∀ q, q ≠ k → nth t.links q = nth s.links q ∧ nth t.panels q = nth s.panels q
  memory : MemoryReach (answerByte k) s t

theorem MemoryReach.mono {A B : Nat → Prop} {s t : State} (h : MemoryReach A s t) (hAB : ∀ a, A a → B a) : MemoryReach B s t :=
  ⟨h.wf, fun a ha => h.same a fun hA => ha (hAB a hA)⟩

namespace LinkEvent

variable {k : Fin 4} {s t u : State}

theorem trans (h : LinkEvent k s t) (j : LinkEvent k t u) : LinkEvent k s u where
  rest := ⟨j.rest.pending.trans h.rest.pending, j.rest.time.trans h.rest.time, j.rest.classes.trans h.rest.classes, rfl,
    j.rest.settleWindow.trans h.rest.settleWindow, rfl, j.rest.inputs.trans h.rest.inputs, j.rest.bankA.trans h.rest.bankA,
    j.rest.bankB.trans h.rest.bankB, j.rest.active.trans h.rest.active, j.rest.outputs.trans h.rest.outputs,
    j.rest.profiles.trans h.rest.profiles, j.rest.supply.trans h.rest.supply, j.rest.engine.trans h.rest.engine,
    j.rest.sched.trans h.rest.sched⟩
  others q hq := ⟨(j.others q hq).1.trans (h.others q hq).1, (j.others q hq).2.trans (h.others q hq).2⟩
  memory := ⟨fun w => j.memory.wf (h.memory.wf w), fun a ha => (j.memory.same a ha).trans (h.memory.same a ha)⟩

theorem alarm (h : AlarmReach s t) : LinkEvent k s t where
  rest := { h.only with links := rfl, panels := rfl }
  others q _ := by rw [h.only.links, h.only.panels]; exact ⟨rfl, rfl⟩
  memory := h.memory.mono fun _ => .inr

theorem putLink (k : Fin 4) (x : Link) (s : State) : LinkEvent k s (putLink k x s) where
  rest := ⟨rfl, rfl, rfl, rfl, rfl, rfl, rfl, rfl, rfl, rfl, rfl, rfl, rfl, rfl, rfl⟩
  others _ hq := ⟨nth_upd_other _ _ hq.symm, rfl⟩
  memory := ⟨id, fun _ _ => rfl⟩

theorem putPanel (k : Fin 4) (x : Panel) (s : State) : LinkEvent k s (putPanel k x s) where
  rest := by
    rw [putPanel_rest]
    exact ⟨rfl, rfl, rfl, rfl, rfl, rfl, rfl, rfl, rfl, rfl, rfl, rfl, rfl, rfl, rfl⟩
  others _ hq := ⟨by rw [putPanel_rest], by rw [putPanel_panels, nth_upd_other _ _ hq.symm]⟩
  memory := (putPanel_memory k x s).mono fun _ h => .inl h.1

theorem onlyIf (b : Bool) {f : State → State} {s : State} (h : LinkEvent k s (f s)) : LinkEvent k s (onlyIf b f s) := by
  unfold Machine.onlyIf
  split
  · exact h
  · exact alarm (alarmSide.refl s)

end LinkEvent

/-- A link's entry is what is written when it is shown (R79). -/
theorem showLink_memory (k : Fin 4) (s : State) : MemoryReach (linkByte k) s (State.showLink k s) := by
  refine ⟨Memory.wf_writeWords _, fun a ha => Memory.read_writeWords_other _ fun c hc => ?_⟩
  simp only [List.mem_map, List.mem_range] at hc
  obtain ⟨j, hj, rfl⟩ := hc
  simp only [linkByte] at ha
  dsimp only
  omega

theorem LinkEvent.showLink (k : Fin 4) (s : State) : LinkEvent k s (State.showLink k s) where
  rest := ⟨rfl, rfl, rfl, rfl, rfl, rfl, rfl, rfl, rfl, rfl, rfl, rfl, rfl, rfl, rfl⟩
  others _ _ := ⟨rfl, rfl⟩
  memory := (showLink_memory k s).mono fun _ => .inl

/-! ## Contact states -/

/-- The points of panel k hold the contact states that an answer reports. -/
structure Reports (k : Fin 4) (v : Vector Bool 48) (s : State) : Prop where
  due : dueIn journalPoint s
  contacts : ∀ j, (nth s.points (fieldPoint k j)).contact = contactOf (nth v j)

/-- No point of panel k is stale. -/
def fresh (k : Fin 4) (s : State) : Prop := ∀ j, (nth s.points (fieldPoint k j)).stale = false

section contacts
variable {k : Fin 4} {v : Vector Bool 48} {s t : State}

/-- The contact states and stale flags of panel k's points stand. -/
def sameFields (k : Fin 4) (s t : State) : Prop := ∀ j, sameContact s t (fieldPoint k j)

theorem Reports.same (h : Reports k v s) (hd : dueIn journalPoint t) (hs : sameFields k s t) : Reports k v t :=
  ⟨hd, fun j => (hs j).1.trans (h.contacts j)⟩

theorem fresh_same (h : fresh k s) (hs : sameFields k s t) : fresh k t := fun j => (hs j).2.trans (h j)

/-- An event that reports no contact leaves them. -/
theorem fields_passed (hp : Passed s t) (hd : dueIn journalPoint s) : dueIn journalPoint t ∧ sameFields k s t :=
  ⟨(hp.contacts hd).1, fun j => (hp.contacts hd).2 _ (fieldPoint_not_journal k j) (not_owned_none _)⟩

theorem Reports.passed (h : Reports k v s) (hp : Passed s t) : Reports k v t :=
  h.same (fields_passed (k := k) hp h.due).1 (fields_passed hp h.due).2

theorem Reports.put (h : Reports k v s) (x : Link) : Reports k v (putLink k x s) := ⟨h.due, h.contacts⟩

/-- One input's comparison: its point holds what is reported, and the others' contact states stand (R8). -/
theorem compareInput_contacts (k : Fin 4) (r : Receipt) (v : Vector Bool 48) {s : State} (j : Fin 48)
    (hd : dueIn journalPoint s) : dueIn journalPoint (compareInput k r v s j)
      ∧ (nth (compareInput k r v s j).points (fieldPoint k j)).contact = contactOf (nth v j)
      ∧ ∀ i, i ≠ j → (nth (compareInput k r v s j).points (fieldPoint k i)).contact
        = (nth s.points (fieldPoint k i)).contact := by
  unfold compareInput
  dsimp only
  split
  · have ht := takeContact_told (fieldPoint_not_journal k j) (contactOf (nth v j)) r.run r.stamp true s
    exact ⟨(ht.contact hd).1, (ht.contact hd).2, fun i hi =>
      (ht.others hd _ (fun e => hi (fieldPoint_inj e).2) (fieldPoint_not_journal k i)).1⟩
  · next e => exact ⟨hd, not_not.mp e, fun _ _ => rfl⟩

/-- After a comparison the points hold the contact states that the answer reports (R66, R71). -/
theorem compareInputs_reports (k : Fin 4) (r : Receipt) (v : Vector Bool 48) {s : State} (hd : dueIn journalPoint s) :
    Reports k v (compareInputs k r v s) := by
  obtain ⟨h1, h2⟩ := foldl_each (P := dueIn journalPoint)
    (Q := fun j u => (nth u.points (fieldPoint k j)).contact = contactOf (nth v j)) (f := compareInput k r v)
    (fun u j hu => (compareInput_contacts k r v j hu).1) (fun u j hu => (compareInput_contacts k r v j hu).2.1)
    (fun u i j hu hj e => ((compareInput_contacts k r v i hu).2.2 j hj).trans e) (List.finRange 48) s hd
  exact ⟨h1, fun j => h2 j (.inl (List.mem_finRange j))⟩

/-- A stale flag that clears leaves every contact state, and the other stale flags. -/
theorem clearStale_fields (k : Fin 4) (s : State) (j i : Fin 48) :
    (nth (clearStale k s j).points (fieldPoint k i)).contact = (nth s.points (fieldPoint k i)).contact
    ∧ (nth (clearStale k s j).points (fieldPoint k i)).stale
      = if i = j then false else (nth s.points (fieldPoint k i)).stale := by
  unfold clearStale
  dsimp only
  rw [State.showPoint_points, putPoint_points, nth_upd]
  by_cases e : i = j
  · subst e
    simp
  · simp [e, show fieldPoint k j ≠ fieldPoint k i from fun h => e (fieldPoint_inj h).2.symm]

/-- After the recovery the points hold what they held, and none is stale (R16). -/
theorem recovered_fields (r : Receipt) (h : Reports k v s) : Reports k v (recovered k r s) ∧ fresh k (recovered k r s) := by
  obtain ⟨h1, h2⟩ := foldl_each (P := Reports k v) (Q := fun j u => (nth u.points (fieldPoint k j)).stale = false)
    (f := clearStale k)
    (fun u j hu => ⟨hu.due, fun i => (clearStale_fields k u j i).1.trans (hu.contacts i)⟩)
    (fun u j _ => (clearStale_fields k u j j).2.trans (if_pos rfl))
    (fun u i j _ hj e => ((clearStale_fields k u i j).2.trans (if_neg hj)).trans e) (List.finRange 48) s h
  have hF := frame_alarm fun _ => False
  have hp : Passed ((List.finRange 48).foldl (clearStale k) s) (recovered k r s) :=
    hF.back (hF.endAlarm _) (hF.foldl _ _ _ fun u j _ => hF.recoverPoint k r u j)
  exact ⟨h1.passed hp, fresh_same (fun j => h2 j (.inl (List.mem_finRange j))) (fields_passed hp h1.due).2⟩

theorem takeEntries_due (k : Fin 4) (r : Receipt) (n : Nat) (es : List ChangeEntry) {s : State} (hd : dueIn journalPoint s) :
    dueIn journalPoint (es.foldl (takeEntry k r n) s) :=
  List.foldlRecOn es (takeEntry k r n) (motive := dueIn journalPoint) hd fun u hu e _ => by
    unfold takeEntry
    split
    · exact ((takeContact_told (fieldPoint_not_journal k _) _ _ _ _ u).contact hu).1
    · exact hu

end contacts

/-! ## How the record of a link joins the queue -/

theorem reportNow_grows (r : Report) (s : State) : QueueGrows s (reportNow r s) :=
  queueGrows_trans (queueGrows_same rfl) (queueGrows_alarm.takeContact _ _ _ _ _ s)

theorem queueGrows_editPoint (p : Fin 256) (x : Point) (s : State) : QueueGrows s (State.showPoint p (putPoint p x s)) :=
  queueGrows_same (by rw [State.showPoint_journal, putPoint_journal])

/-- Whatever an event brings, it lets the queue only grow. -/
theorem queueGrows_event : EventClosed (fun _ => True) (fun _ _ => True) QueueGrows where
  refl _ := queueGrows_same rfl
  trans := queueGrows_trans
  still _ _ h := queueGrows_same h.journal
  offer r s := offerWith_grows (fun r s _ => reportNow_grows r s) r s
  contact p c n st f s _ := queueGrows_trans (queueGrows_same rfl) (queueGrows_alarm.takeContact p c n st f s)
  act a t o s := queueGrows_trans (queueGrows_alarm.applyAction a t o s) (queueGrows_alarm.endAlarm _)
  stale k s _ := queueGrows_alarm.foldl (makeStale k) _ s fun u _ _ => queueGrows_editPoint _ _ u
  recovered k r s _ := queueGrows_alarm.back (queueGrows_alarm.endAlarm _) (queueGrows_alarm.back
    (queueGrows_alarm.foldl (recoverPoint k r) _ _ fun u j _ => queueGrows_alarm.recoverPoint k r u j)
    (queueGrows_alarm.foldl (clearStale k) _ s fun u _ _ => queueGrows_editPoint _ _ u))

/-- What leaves the journal leaves the records that have joined its queue. -/
theorem recordJoins_same {r : Record} {s t u : State} (h : recordJoins r s t) (hj : u.journal = t.journal) :
    recordJoins r s u := by
  intro hr
  rw [hj]
  exact h hr

/-- A record offered from outside the alarm side as the event begins, unless the mask names it, when it does not. -/
theorem recordJoins_of_unless {f : Filterable} {r : Record} {s u t : State} (hu : u.journal = s.journal)
    (hf : s.filters f = false) (h : QueueGrows (offerUnless f r u) t) : recordJoins r s t := by
  intro hr
  have hfu : u.filters f = false := by
    rw [← hf]
    exact congrArg (fun j : Journal => j.mask.getLsbD (filterBit f)) hu
  have e : offerUnless f r u = stage r u := by
    unfold offerUnless offer
    rw [hfu, offerWith_roomy _ r u (show u.roomy r.high by unfold State.roomy; rw [hu]; exact hr)]
    rfl
  rw [e] at h
  obtain ⟨_, _, h3⟩ := h (by rw [stage_journal, hu]; exact hr.2)
  rw [stage_journal, hu] at h3
  exact h3

end Sys2Proof.Machine
end

section
/-! The buttons, the entries lost and the way UP of a valid answer, and O29. -/

namespace Sys2Proof.Machine

/-! ## Buttons (R72) -/

/-- A press is a level that was released and is pressed. -/
theorem onlyIf_press (now before : Bool) (f : State → State) (s : State) :
    onlyIf (now && !before) f s = if now = true ∧ before = false then f s else s := by
  cases now <;> cases before <;> rfl

/-- A release is a press of the level the other way. -/
theorem onlyIf_release (now before : Bool) (f : State → State) (s : State) :
    onlyIf (!now && before) f s = if before = true ∧ now = false then f s else s := by
  cases now <;> cases before <;> rfl

/-- The button presses that are operator actions, after the levels are taken. -/
def buttonActions (k : Fin 4) (old new : Buttons) (s : State) : State :=
  onlyIf (new.reset && !old.reset) (panelAction k .reset)
    (onlyIf (new.silence && !old.silence) (panelAction k .silence)
      (onlyIf (new.ack && !old.ack) (panelAction k .acknowledge) s))

theorem takeButtons_eq (k : Fin 4) (new : Buttons) (s : State) : takeButtons k new s =
    let old := (nth s.links k).buttons
    onlyIf (!new.test && old.test) (testRelease k) (onlyIf (new.test && !old.test) (testPress k)
      (buttonActions k old new (putLink k { nth s.links k with buttons := new } s))) := rfl

theorem onlyIf_alarm (b : Bool) {f : State → State} {s : State} (h : AlarmReach s (f s)) : AlarmReach s (onlyIf b f s) := by
  unfold onlyIf
  split
  · exact h
  · exact alarmSide.refl s

theorem buttonActions_alarm (k : Fin 4) (old new : Buttons) (s : State) : AlarmReach s (buttonActions k old new s) :=
  alarmSide.trans (alarmSide.trans (onlyIf_alarm _ (panelAction_alarm k _ _)) (onlyIf_alarm _ (panelAction_alarm k _ _)))
    (onlyIf_alarm _ (panelAction_alarm k _ _))

theorem takeButtons_event (k : Fin 4) (new : Buttons) (s : State) : LinkEvent k s (takeButtons k new s) := by
  rw [takeButtons_eq]
  dsimp only
  have h1 := (LinkEvent.putLink k { nth s.links k with buttons := new } s).trans
    (.alarm (buttonActions_alarm k (nth s.links k).buttons new _))
  generalize buttonActions k (nth s.links k).buttons new _ = u at h1
  have h2 : LinkEvent k s (onlyIf (new.test && !(nth s.links k).buttons.test) (testPress k) u) :=
    h1.trans (LinkEvent.onlyIf _ (LinkEvent.putPanel k _ u))
  generalize onlyIf (new.test && !(nth s.links k).buttons.test) (testPress k) u = v at h2
  exact h2.trans (LinkEvent.onlyIf _ (LinkEvent.putPanel k _ v))

/-- A panel after the TEST edges of an answer (R72). -/
def Panel.tested (x : Panel) (old new : Buttons) (now : Nat) : Panel :=
  if new.test = true ∧ old.test = false then { x with buttonEnd := some (now + 30000) }
  else if new.test = false ∧ old.test = true then { x with buttonEnd := none } else x

theorem testPress_rest (k : Fin 4) (s : State) : (testPress k s).links = s.links
    ∧ (testPress k s).panels = upd s.panels k { nth s.panels k with buttonEnd := some (s.now + 30000) } :=
  ⟨by rw [testPress, putPanel_rest], putPanel_panels k _ s⟩

theorem testRelease_rest (k : Fin 4) (s : State) : (testRelease k s).links = s.links
    ∧ (testRelease k s).panels = upd s.panels k { nth s.panels k with buttonEnd := none } :=
  ⟨by rw [testRelease, putPanel_rest], putPanel_panels k _ s⟩

/-- The link takes the levels, and the panel the TEST edges. -/
theorem takeButtons_own (k : Fin 4) (new : Buttons) (s : State) :
    nth (takeButtons k new s).links k = { nth s.links k with buttons := new }
    ∧ nth (takeButtons k new s).panels k = (nth s.panels k).tested (nth s.links k).buttons new s.now := by
  rw [takeButtons_eq]
  dsimp only
  generalize (nth s.links k).buttons = old
  have h := (buttonActions_alarm k old new (putLink k { nth s.links k with buttons := new } s)).only
  generalize buttonActions k old new (putLink k { nth s.links k with buttons := new } s) = u at h
  have hl : nth u.links k = { nth s.links k with buttons := new } := by rw [h.links]; exact nth_upd_same _ _ _
  have hp : nth u.panels k = nth s.panels k := by rw [h.panels]; rfl
  have ht : u.now = s.now := by unfold State.now; rw [h.time]; rfl
  rw [onlyIf_press, onlyIf_release]
  unfold Panel.tested
  by_cases h1 : new.test = true ∧ old.test = false
  · obtain ⟨k1, k2⟩ := testPress_rest k u
    rw [if_pos h1, if_neg (by simp [h1]), k1, k2, nth_upd_same, hl, hp, ht, if_pos h1]
    exact ⟨rfl, rfl⟩
  · rw [if_neg h1, if_neg h1]
    by_cases h2 : old.test = true ∧ new.test = false
    · obtain ⟨k1, k2⟩ := testRelease_rest k u
      rw [if_pos h2, k1, k2, nth_upd_same, hl, hp, if_pos h2.symm]
      exact ⟨rfl, rfl⟩
    · rw [if_neg h2, if_neg fun e => h2 e.symm]
      exact ⟨hl, hp⟩

/-- Buttons report no contact. -/
theorem takeButtons_passed (k : Fin 4) (new : Buttons) (s : State) :
    Passed (putLink k { nth s.links k with buttons := new } s) (takeButtons k new s) := by
  have hE := frame_event fun _ => False
  exact hE.back (hE.onlyIf _ _ _ (hE.putPanel k _ _)) (hE.back (hE.onlyIf _ _ _ (hE.putPanel k _ _))
    (hE.back (hE.onlyIf _ _ _ (hE.panelAction k _ _)) (hE.back (hE.onlyIf _ _ _ (hE.panelAction k _ _))
      (hE.onlyIf _ _ _ (hE.panelAction k _ _)))))

/-! ## Entries lost (R70) -/

/-- The link with its entries-lost count raised (R70). -/
def Link.entryLost (l : Link) : Link := { l with entriesLost := min 255 (l.entriesLost + 1) }

theorem countEntriesLost_eq (k : Fin 4) (s : State) : countEntriesLost k s
    = offerLink (entriesLostRecord k (nth s.links k).entryLost s.stamp) (putLink k (nth s.links k).entryLost s) := rfl

theorem countEntriesLost_links (k : Fin 4) (s : State) :
    (countEntriesLost k s).links = upd s.links k (nth s.links k).entryLost := by
  rw [countEntriesLost_eq, (offerLink_alarm _ _).only.links]
  rfl

theorem offerLink_reach (r : Record) (s : State) (hd : s.due = []) : SideReach journalPoint recordByte s (offerLink r s) :=
  ((sideReach_closed (fun _ h => h) (fun p hp => by rcases hp with rfl | rfl <;> decide) (fun _ h => h)).offerUnless .link r s
    (dueIn_nil hd)).2

theorem offerLink_due (r : Record) {s : State} (hd : dueIn journalPoint s) : dueIn journalPoint (offerLink r s) :=
  (((frame_event fun _ => False).offerLink r s).contacts hd).1

theorem countEntriesLost_reach (k : Fin 4) (s : State) (hd : s.due = []) :
    SideReach journalPoint recordByte (putLink k (nth s.links k).entryLost s) (countEntriesLost k s) := by
  rw [countEntriesLost_eq]
  exact offerLink_reach _ _ hd

/-! ## An answer of an UP link (R70, R71) -/

/-- An answer's entries, its overflow flag and its input vector, taken before its buttons. -/
def inputsTaken (k : Fin 4) (a : Answer) (r : Receipt) (s : State) : State :=
  compareInputs k r a.inputs
    (onlyIf a.overflow (countEntriesLost k) (a.entries.foldl (takeEntry k r (nth s.links k).latency) s))

theorem takeAnswer_eq (k : Fin 4) (a : Answer) (r : Receipt) (s : State) :
    takeAnswer k a r s = takeButtons k a.buttons (inputsTaken k a r s) := rfl

theorem inputsTaken_event (k : Fin 4) (a : Answer) (r : Receipt) (s : State) : LinkEvent k s (inputsTaken k a r s) :=
  ((LinkEvent.alarm (takeEntries_alarm k r _ _ s)).trans
    (.onlyIf _ ((LinkEvent.putLink k _ _).trans (.alarm (offerLink_alarm _ _))))).trans (.alarm (compareInputs_alarm k r _ _))

theorem inputsTaken_link (k : Fin 4) (a : Answer) (r : Receipt) (s : State) : nth (inputsTaken k a r s).links k
    = if a.overflow = true then (nth s.links k).entryLost else nth s.links k := by
  unfold inputsTaken onlyIf
  rw [(compareInputs_alarm k r _ _).only.links]
  have hl := (takeEntries_alarm k r (nth s.links k).latency a.entries s).only.links
  split
  · rw [countEntriesLost_links, nth_upd_same, hl]
  · rw [hl]

theorem inputsTaken_panels (k : Fin 4) (a : Answer) (r : Receipt) (s : State) :
    (inputsTaken k a r s).panels = s.panels := by
  unfold inputsTaken onlyIf
  rw [(compareInputs_alarm k r _ _).only.panels]
  have hl := (takeEntries_alarm k r (nth s.links k).latency a.entries s).only.panels
  split
  · rw [countEntriesLost_eq, (offerLink_alarm _ _).only.panels]
    exact hl
  · exact hl

theorem inputsTaken_reports (k : Fin 4) (a : Answer) (r : Receipt) {s : State} (hd : dueIn journalPoint s) :
    Reports k a.inputs (inputsTaken k a r s) := by
  refine compareInputs_reports k r a.inputs ?_
  have h := takeEntries_due k r (nth s.links k).latency a.entries hd
  unfold onlyIf
  split
  · rw [countEntriesLost_eq]
    exact offerLink_due _ (s := putLink k _ _) h
  · exact h

/-- What an answer of an UP link makes of its link, its panel and its points (R70 to R72). -/
theorem takeAnswer_spec (k : Fin 4) (a : Answer) (r : Receipt) {s : State} (hd : dueIn journalPoint s) :
    LinkEvent k s (takeAnswer k a r s)
    ∧ nth (takeAnswer k a r s).links k
      = { (if a.overflow = true then (nth s.links k).entryLost else nth s.links k) with buttons := a.buttons }
    ∧ nth (takeAnswer k a r s).panels k = (nth s.panels k).tested (nth s.links k).buttons a.buttons s.now
    ∧ Reports k a.inputs (takeAnswer k a r s) := by
  obtain ⟨h1, h2⟩ := takeButtons_own k a.buttons (inputsTaken k a r s)
  have he := inputsTaken_event k a r s
  have hr := inputsTaken_reports k a r hd
  have hb : (nth (inputsTaken k a r s).links k).buttons = (nth s.links k).buttons := by
    rw [inputsTaken_link]
    split <;> rfl
  have ht : (inputsTaken k a r s).now = s.now := by unfold State.now; rw [he.rest.time]
  refine ⟨?_, ?_, ?_, ?_⟩ <;> rw [takeAnswer_eq]
  · exact he.trans (takeButtons_event k _ _)
  · rw [h1, inputsTaken_link]
  · rw [h2, hb, ht, inputsTaken_panels]
  · exact (hr.put _).passed (takeButtons_passed k a.buttons _)

/-! ## The way UP (R66) -/

/-- What an answer that brings a link UP tells the Point Filter: the comparison, the recovery, and point 248 + k absent. -/
def recovery (k : Fin 4) (a : Answer) (r : Receipt) (s : State) : State :=
  reportNow { point := linkPoint k, present := false, run := r.run, stamp := r.stamp }
    (recovered k r (compareInputs k r a.inputs s))

theorem recovery_alarm (k : Fin 4) (a : Answer) (r : Receipt) (s : State) : AlarmReach s (recovery k a r s) :=
  alarmSide.trans (alarmSide.trans (compareInputs_alarm k r _ s) (recovered_alarm k r _)) (reportNow_alarm _ _)

theorem recovery_grows (k : Fin 4) (a : Answer) (r : Receipt) (s : State) : QueueGrows s (recovery k a r s) :=
  queueGrows_trans (queueGrows_trans (queueGrows_event.compareInputs (fun _ _ _ => trivial) k r a.inputs s)
    (queueGrows_event.recovered k r _ fun _ _ => trivial)) (reportNow_grows _ _)

theorem recovery_points (k : Fin 4) (a : Answer) (r : Receipt) {s : State} (hd : dueIn journalPoint s) :
    Reports k a.inputs (recovery k a r s) ∧ fresh k (recovery k a r s)
    ∧ (nth (recovery k a r s).points (linkPoint k)).contact = .absent := by
  obtain ⟨h1, h2⟩ := recovered_fields r (compareInputs_reports k r a.inputs hd)
  have ht := reportNow_told (r := { point := linkPoint k, present := false, run := r.run, stamp := r.stamp })
    (linkPoint_not_journal k) (recovered k r (compareInputs k r a.inputs s))
  have hs : sameFields k (recovered k r (compareInputs k r a.inputs s)) (recovery k a r s) := fun j =>
    ht.others h1.due _ (linkPoint_ne_fieldPoint k k j).symm (fieldPoint_not_journal k j)
  exact ⟨h1.same (ht.contact h1.due).1 hs, fresh_same h2 hs, (ht.contact h1.due).2⟩

/-- The link as an answer brings it UP (R66). -/
def Link.cameUp (l : Link) : Link := { l with state := .up, validRun := 0, miss := 0 }

/-- A link that an answer has brought UP, before a RESTART LINK in flight ends. -/
def broughtUp (k : Fin 4) (a : Answer) (r : Receipt) (s : State) : State :=
  let u := recovery k a r (changeLink k (nth s.links k).cameUp .validAnswers s)
  putLink k { nth u.links k with buttons := a.buttons } u

theorem linkUp_eq (k : Fin 4) (a : Answer) (r : Receipt) (s : State) :
    linkUp k a r s = finishRestart k .doneOk (broughtUp k a r s) := rfl

/-- What bringing a link UP makes of its link and of its points, and its record (R66). -/
theorem broughtUp_spec (k : Fin 4) (a : Answer) (r : Receipt) {s : State} (hd : dueIn journalPoint s) :
    LinkEvent k s (broughtUp k a r s)
    ∧ nth (broughtUp k a r s).links k = { (nth s.links k).cameUp with buttons := a.buttons }
    ∧ (broughtUp k a r s).panels = s.panels
    ∧ (Reports k a.inputs (broughtUp k a r s) ∧ fresh k (broughtUp k a r s)
      ∧ (nth (broughtUp k a r s).points (linkPoint k)).contact = .absent)
    ∧ (s.filters .link = false → recordJoins (linkRecord k (nth s.links k).state (nth s.links k).cameUp .validAnswers
      (nth s.links k).miss s.stamp) s (broughtUp k a r s)) := by
  have h1 := offerLink_alarm (linkRecord k (nth s.links k).state (nth s.links k).cameUp .validAnswers (nth s.links k).miss s.stamp)
    (putLink k (nth s.links k).cameUp s)
  have h2 := recovery_alarm k a r (changeLink k (nth s.links k).cameUp .validAnswers s)
  have hev := ((LinkEvent.putLink k _ s).trans (.alarm h1)).trans (.alarm h2)
  have hl := h2.only.links.trans h1.only.links
  have hp := h2.only.panels.trans h1.only.panels
  obtain ⟨hr, hs, hc⟩ := recovery_points k a r (s := changeLink k (nth s.links k).cameUp .validAnswers s)
    (offerLink_due _ (s := putLink k (nth s.links k).cameUp s) hd)
  have hg := recovery_grows k a r (changeLink k (nth s.links k).cameUp .validAnswers s)
  unfold broughtUp
  generalize recovery k a r (changeLink k (nth s.links k).cameUp .validAnswers s) = u at *
  refine ⟨hev.trans (.putLink k _ u), ?_, hp, ⟨hr.put _, hs, hc⟩, fun hf => ?_⟩
  · rw [putLink_links, hl, putLink_links, nth_upd_same, nth_upd_same]
  · exact recordJoins_of_unless (u := putLink k (nth s.links k).cameUp s) rfl hf (queueGrows_trans hg (queueGrows_same rfl))

/-! ## A RESTART LINK that ends (R77) -/

/-- Words and bytes of a slot that no byte of is written read as before. -/
theorem SlotDone.of_read {m m' : Memory} {n : Fin 16} {r : Result} {d : List Byte} (h : SlotDone m n r d)
    (hs : ∀ a, slotBase n ≤ a → a < slotBase n + 32 → m'.read a = m.read a) : SlotDone m' n r d where
  state := (readWord_of_read (hs _ (by omega) (by omega)) (hs _ (by omega) (by omega))).trans h.state
  result := (readWord_of_read (hs _ (by omega) (by omega)) (hs _ (by omega) (by omega))).trans h.result
  data := by
    have hb : ∀ j b, slotBase n ≤ b → b + j ≤ slotBase n + 32 → m'.readBytes b j = m.readBytes b j := by
      intro j
      induction j with
      | zero => exact fun _ _ _ => rfl
      | succ j ih =>
        intro b h1 h2
        rw [Memory.readBytes, Memory.readBytes, hs b h1 (by omega), ih (b + 1) (by omega) (by omega)]
    exact (hb 24 _ (by omega) (by omega)).trans h.data

/-- What the end of a RESTART LINK in flight leaves, with the link shown after it. -/
structure RestartEnded (k : Fin 4) (s t : State) : Prop where
  rest : t = { s with links := upd s.links k { nth s.links k with restart := none }, engine := t.engine, mem := t.mem }
  none : (nth s.links k).restart = none → t.engine = s.engine
  some : ∀ n d, (nth s.links k).restart = some (n, d) →
    t.engine = s.engine.counted ∧ SlotDone t.mem n .doneOk (restartData (nth s.links k))
  memory : sameMemoryBut (fun a => linkByte k a ∨ ∃ x ∈ (nth s.links k).restart, doneByte x.1 a) s.mem t.mem

namespace RestartEnded

variable {k : Fin 4} {s t : State}

theorem link (h : RestartEnded k s t) : nth t.links k = { nth s.links k with restart := Option.none } := by
  rw [h.rest]
  exact nth_upd_same _ _ _

theorem links_other (h : RestartEnded k s t) {q : Fin 4} (hq : q ≠ k) : nth t.links q = nth s.links q := by
  rw [h.rest]
  exact nth_upd_other _ _ hq.symm

theorem kept (h : RestartEnded k s t) : t.points = s.points ∧ t.panels = s.panels ∧ t.journal = s.journal := by
  rw [h.rest]
  exact ⟨rfl, rfl, rfl⟩

/-- After an event of the link, nothing but links, panels and the engine differ beside what the alarm side reaches. -/
theorem sideOnly {s₀ : State} (h : RestartEnded k s t) (he : LinkEvent k s₀ s) :
    SideOnly { s₀ with links := t.links, panels := t.panels, engine := t.engine } t := by
  rw [h.rest]
  exact { he.rest with links := rfl, panels := rfl, engine := rfl }

end RestartEnded

/-- A write of memory after a change of links and engine. -/
theorem rest_of_rest {s u t : State} {v : Vector Link 4} {e : Engine}
    (hu : u = { s with links := v, engine := e, mem := u.mem }) (ht : t = { u with mem := t.mem }) :
    t = { s with links := v, engine := t.engine, mem := t.mem } := by
  rw [ht, hu]

theorem finishRestart_ended (k : Fin 4) {s : State} (w : s.mem.wf = true) :
    RestartEnded k s (State.showLink k (finishRestart k .doneOk s)) := by
  unfold finishRestart
  dsimp only
  split
  · next e =>
    have hl : { nth s.links k with restart := none } = nth s.links k := by rw [← e]
    refine ⟨?_, fun _ => rfl, fun n d h => ?_, fun a ha => (showLink_memory k s).same a fun h => ha (.inl h)⟩
    · rw [hl, upd_nth]
      rfl
    · rw [e] at h
      cases h
  · next x e =>
    have hrest := finish_rest x.1 .doneOk (restartData (nth s.links k)) (putLink k { nth s.links k with restart := none } s)
    have hslot := finish_slot x.1 .doneOk (restartData (nth s.links k)) (putLink k { nth s.links k with restart := none } s) w
    have hmem := finish_memory x.1 .doneOk (restartData (nth s.links k)) (putLink k { nth s.links k with restart := none } s)
    generalize finish x.1 .doneOk (restartData (nth s.links k)) (putLink k { nth s.links k with restart := none } s) = u
      at hrest hslot hmem
    have hm := showLink_memory k u
    have hbase := slotBase_bounds x.1
    refine ⟨?_, fun h => ?_, fun n d h => ?_, fun a ha => ?_⟩
    · exact rest_of_rest hrest rfl
    · rw [e] at h
      cases h
    · rw [e] at h
      cases h
      refine ⟨?_, hslot.of_read fun a h1 h2 => hm.same a ?_⟩
      · rw [State.showLink_engine, hrest]
        rfl
      · simp only [linkByte, hallBase]
        omega
    · rw [hm.same a fun h => ha (.inl h)]
      exact hmem a fun h => ha (.inr ⟨x, e, h⟩)

/-! ## The judgement (R65, R66) -/

/-- The link as its answer window closes (R62). -/
def Link.judged (l : Link) : Link := { l with awaiting := false, rx := [], receipt := none }

theorem putLink_putLink (k : Fin 4) (x y : Link) (s : State) : putLink k y (putLink k x s) = putLink k y s := by
  simp only [putLink, upd_upd]

/-- A valid answer in a window whose limit has come is taken as it was received, or as of now (log entry 7). -/
theorem answerLimit_valid {k : Fin 4} {rest : List RxByte} {s : State} (hd : (nth s.links k).state ≠ .disabled)
    (ha : (nth s.links k).awaiting = true) (hl : (nth s.links k).limit ≤ s.now)
    (hf : answerFault k (nth s.links k).carried ((nth s.links k).rx ++ rest) = none) :
    exec (.answerLimit k rest) s = .next (validAnswer k (readAnswer (((nth s.links k).rx ++ rest).map (·.value)))
      ((nth s.links k).receipt.getD ⟨s.now, s.stamp⟩) (putLink k (nth s.links k).judged s)) := by
  have hc : (nth s.links k).state ≠ .disabled ∧ (nth s.links k).awaiting = true ∧ (nth s.links k).limit ≤ s.now := ⟨hd, ha, hl⟩
  simp only [exec, execAnswerLimit, if_pos hc, hf]
  rfl

/-- On an UP link the miss count becomes 0 and the answer is taken whole (R65, R70). -/
theorem validAnswer_up {k : Fin 4} (a : Answer) (r : Receipt) {s : State} (hu : (nth s.links k).state = .up) :
    validAnswer k a r s = State.showLink k (takeAnswer k a r (putLink k { nth s.links k with miss := 0 } s)) := by
  unfold validAnswer
  dsimp only
  rw [hu]

/-- The third valid answer in a row brings a STARTING link UP (R66). -/
theorem validAnswer_third {k : Fin 4} (a : Answer) (r : Receipt) {s : State} (hs : (nth s.links k).state = .starting)
    (hv : (nth s.links k).validRun = 2) :
    validAnswer k a r s = State.showLink k (finishRestart k .doneOk (broughtUp k a r s)) := by
  unfold validAnswer
  dsimp only
  rw [hs, hv, ← linkUp_eq]
  dsimp only
  rw [if_pos (by decide)]

/-- Settles O29: the buttons in their order, the count of entries lost, and the two ways a valid answer is taken. -/
theorem validAnswerSetsContacts : Obligations.ValidAnswerSetsContacts := by
  unfold Obligations.ValidAnswerSetsContacts
  intro k rest new s l a r lost press act
  refine ⟨?_, fun hd => ?_, fun w hd ha hl hf hup => ?_⟩
  · rw [takeButtons_eq]
    simp only [buttonActions, onlyIf_press, onlyIf_release]
    rfl
  · have h := countEntriesLost_reach k s hd
    refine ⟨h.only, h.points, h.memory.same, fun hm => ?_, fun hm => ?_⟩
    · rw [countEntriesLost_eq, offerLink, offerUnless, if_pos (show (putLink k _ s).filters .link = true from hm)]
      rfl
    · exact recordJoins_of_unless (u := putLink k (nth s.links k).entryLost s) rfl hm (queueGrows_same rfl)
  · have hdis : l.state ≠ .disabled := by
      rcases hup with e | ⟨e, _⟩ <;> rw [e] <;> decide
    have hexec := answerLimit_valid hdis ha hl hf
    have hj : nth (putLink k l.judged s).links k = l.judged := nth_upd_same _ _ _
    rcases hup with hs | ⟨hs, hv⟩
    · rw [validAnswer_up _ _ (by rw [hj]; exact hs), hj, putLink_putLink] at hexec
      have hm : nth (putLink k { l.judged with miss := 0 } s).links k = { l.judged with miss := 0 } := nth_upd_same _ _ _
      obtain ⟨h1, h2, h3, h4⟩ := takeAnswer_spec k a r (s := putLink k { l.judged with miss := 0 } s) (dueIn_nil hd)
      rw [hm] at h2 h3
      have hev := (LinkEvent.putLink k _ s).trans h1
      have hns : l.state ≠ .starting := by rw [hs]; decide
      have hup : takeAnswer k a r (putLink k { l.judged with miss := 0 } s) = takeButtons k a.buttons
          (inputsTaken k a r (putLink k { l.judged with miss := 0 } s)) := takeAnswer_eq k a r _
      rw [inputsTaken, hm] at hup
      generalize takeAnswer k a r (putLink k { l.judged with miss := 0 } s) = u at *
      have hshow := hev.trans (.showLink k u)
      refine ⟨_, hexec, ?_, h4.contacts, fun e => absurd e hns, ?_, fun _ => ?_, hshow.others,
        { hshow.rest with engine := rfl }, fun _ => hshow.rest.engine, fun _ _ e => absurd e hns, fun b hb => ?_⟩
      · rw [State.showLink_links, h2]
        by_cases ho : a.overflow = true
        · rw [if_pos ho, if_pos hs, if_pos hs, if_pos ⟨hs, ho⟩, ← hs]
          rfl
        · rw [if_neg ho, if_pos hs, if_pos hs, if_neg fun h => ho h.2, ← hs]
          rfl
      · rw [State.showLink_panels, h3]
        simp only [hs, true_and]
        rfl
      · rw [hup]
        rfl
      · exact hshow.memory.same b fun h => hb (h.imp_right fun h => h.imp_right .inl)
    · rw [validAnswer_third _ _ (by rw [hj]; exact hs) (by rw [hj]; exact hv)] at hexec
      obtain ⟨h1, h2, h3, ⟨h4, h5, h6⟩, h7⟩ := broughtUp_spec k a r (s := putLink k l.judged s) (dueIn_nil hd)
      rw [hj] at h2 h7
      have hev := (LinkEvent.putLink k _ s).trans h1
      generalize broughtUp k a r (putLink k l.judged s) = u at *
      have he := finishRestart_ended k (hev.memory.wf w)
      generalize State.showLink k (finishRestart k .doneOk u) = t at *
      obtain ⟨hpoints, hpanels, hjournal⟩ := he.kept
      have hlink := he.link
      have hside := he.sideOnly hev
      have hothers := fun q hq => he.links_other (q := q) hq
      obtain ⟨_, hnone, hsome, hmem⟩ := he
      rw [h2] at hlink hnone hsome hmem
      rw [h3] at hpanels
      have hnu : l.state ≠ .up := by rw [hs]; decide
      refine ⟨_, hexec, ?_, fun j => ?_, fun _ => ⟨?_, ?_, fun hm => ?_⟩, ?_, fun e => absurd e hnu, fun q hq => ⟨?_, ?_⟩, hside,
        fun h => ?_, fun n d _ h => ?_, fun b hb => ?_⟩
      · rw [hlink, if_neg hnu, if_neg hnu, if_neg fun h => hnu h.1]
        rfl
      · rw [hpoints]
        exact h4.contacts j
      · rw [hpoints]
        exact h5
      · rw [hpoints]
        exact h6
      · rw [← hs]
        exact recordJoins_same (h7 hm) hjournal
      · rw [if_neg fun h => hnu h.1, if_neg fun h => hnu h.1, hpanels]
        rfl
      · exact (hothers q hq).trans (hev.others q hq).1
      · rw [hpanels]
        rfl
      · exact (hnone (h.resolve_left hnu)).trans hev.rest.engine
      · obtain ⟨k1, k2⟩ := hsome n d h
        rw [hlink, k1, hev.rest.engine]
        exact ⟨rfl, k2⟩
      · rw [hmem b fun h => hb ?_, hev.memory.same b fun h => hb (h.imp_right fun h => h.imp_right .inl)]
        rcases h with h | ⟨x, hx, h⟩
        · exact .inl h
        · exact .inr (.inr (.inr ⟨x, hx, hs, h⟩))

end Sys2Proof.Machine
end

section
/-! The first-out groups (chapter 3): what a report and a settle deadline make of a group, of its candidate's first mark and
of the group's entry, and that a LATCHED group outlasts the reports taken at the end of an event. -/

namespace Sys2Proof.Machine

/-! ## A group's entry (R58) -/

theorem bit_le_one (b : Bool) : bit b ≤ 1 := by cases b <;> decide

theorem Group.nibble_lt (x : Group) : x.nibble < 16 := by
  have hs : x.state.code ≤ 2 := by cases x.state <;> decide
  have hm := bit_le_one x.marked
  have hc := bit_le_one x.candidate.isSome
  unfold Group.nibble
  omega

/-- A group by the number of its state word and its place in that word. -/
theorem exists_word_place (g : Fin 16) : ∃ k i : Fin 4, g = ⟨4 * k.val + i.val, by omega⟩ :=
  ⟨⟨g.val / 4, by omega⟩, ⟨g.val % 4, by omega⟩, Fin.ext (Nat.div_add_mod _ _).symm⟩

/-- The hexadecimal digits of state word k are those of its four groups. -/
theorem wordDigits_sum (d : Fin 16 → Nat) (k : Fin 4) :
    (List.finRange 16).foldl (fun n j => n + if j.val / 4 = k.val then d j * 16 ^ (j.val % 4) else 0) 0
      = d ⟨4 * k.val, by omega⟩ + d ⟨4 * k.val + 1, by omega⟩ * 16 + d ⟨4 * k.val + 2, by omega⟩ * 256
        + d ⟨4 * k.val + 3, by omega⟩ * 4096 := by
  fin_cases k <;> simp [List.finRange_succ]

/-- A group's four bits of its state word. -/
theorem groupWord_digit (gs : Vector Group 16) (g : Fin 16) :
    groupWord gs g >>> (4 * (g.val % 4)) &&& 15 = word (nth gs g).nibble := by
  obtain ⟨k, i, rfl⟩ := exists_word_place g
  have hk : (4 * k.val + i.val) / 4 = k.val := by omega
  have hi : (4 * k.val + i.val) % 4 = i.val := by omega
  have hd : ∀ j, (nth gs j).nibble < 16 := fun j => (nth gs j).nibble_lt
  unfold groupWord
  dsimp only
  rw [hk, hi, wordDigits_sum fun j => (nth gs j).nibble]
  have h0 := hd ⟨4 * k.val, by omega⟩
  have h1 := hd ⟨4 * k.val + 1, by omega⟩
  have h2 := hd ⟨4 * k.val + 2, by omega⟩
  have h3 := hd ⟨4 * k.val + 3, by omega⟩
  have h15 : BitVec.toNat (15 : Word) = 2 ^ 4 - 1 := rfl
  apply BitVec.eq_of_toNat_eq
  rw [BitVec.toNat_and, BitVec.toNat_ushiftRight, Nat.shiftRight_eq_div_pow, h15, Nat.and_two_pow_sub_one_eq_mod,
    BitVec.toNat_ofNat, BitVec.toNat_ofNat]
  fin_cases i <;> dsimp only [Nat.add_zero, Nat.mul_zero] at * <;> omega

/-- A group's candidate word, its low byte 0 without a candidate (R58). -/
theorem Group.mirror_eq (x : Group) : x.mirror = word ((x.candidate.getD 0).val + 256 * x.contenders) := by
  unfold Group.mirror
  cases x.candidate <;> rfl

theorem putGroup_mem (g : Fin 16) (x : Group) (s : State) : (putGroup g x s).mem =
    (s.mem.writeWord (hallBase + 48 + 2 * (g.val / 4)) (groupWord (upd s.groups g x) g)).writeWord
      (hallBase + 56 + 2 * g.val) x.mirror := by
  have h : (nth (upd s.groups g x) g).mirror = x.mirror := by rw [nth_upd_same]
  rw [← h]
  rfl

/-- What a group put back shows: its candidate word and its bits of the state word (R58). -/
theorem putGroup_shown (g : Fin 16) (x : Group) (s : State) (w : s.mem.wf = true) :
    (putGroup g x s).mem.readWord (hallBase + 56 + 2 * g.val) = word ((x.candidate.getD 0).val + 256 * x.contenders)
    ∧ (putGroup g x s).mem.readWord (hallBase + 48 + 2 * (g.val / 4)) >>> (4 * (g.val % 4)) &&& 15 = word x.nibble := by
  have hg := g.isLt
  rw [putGroup_mem]
  constructor
  · rw [Memory.readWord_writeWord_same _ (Memory.wf_writeWord _ _ w) (by simp only [hallBase]; omega), Group.mirror_eq]
  · rw [Memory.readWord_writeWord_other _ (by omega),
      Memory.readWord_writeWord_same _ w (by simp only [hallBase]; omega), groupWord_digit, nth_upd_same]

theorem putGroup_memory (g : Fin 16) (x : Group) (s : State) : sameMemoryBut (groupByte g) s.mem (putGroup g x s).mem :=
  fun a ha => by
    simp only [groupByte, hallBase, not_or] at ha
    obtain ⟨h1, h2⟩ := ha
    rw [putGroup_mem, Memory.read_writeWord_other _ (by simp only [hallBase]; omega),
      Memory.read_writeWord_other _ (by simp only [hallBase]; omega)]

/-! ## A report's comparison (R49) -/

theorem Group.displaces_iff {x : Group} {c : Fin 256} (hc : x.candidate = some c) (p : Fin 256) (t : Nat) :
    x.displaces p t = true ↔ p ≠ c ∧ (t < x.candidateTime ∨ (t = x.candidateTime ∧ p < c)) := by
  simp [Group.displaces, hc]

theorem Group.compare_displaced {x : Group} {p : Fin 256} {t : Nat} (h : x.displaces p t = true) :
    x.compare p t = { x with
      candidate := some p, candidateTime := t, runnerUp := some x.candidateTime, contenders := min 255 (x.contenders + 1) } :=
  if_pos h

theorem Group.compare_kept {x : Group} {p : Fin 256} {t : Nat} (h : ¬x.displaces p t = true) :
    x.compare p t = { x with
      runnerUp := some (match x.runnerUp with | none => t | some r => min r t), contenders := min 255 (x.contenders + 1) } :=
  (if_neg h).trans rfl

/-! ## The latch (R51, R53) -/

/-- A group's record once it has latched on the point x (R51). -/
def Group.settled (y : Group) (g : Fin 16) (x : Point) : Group :=
  { y with state := .latched, deadline := none, marked := decide (judgeCandidate g x = .marked) }

/-- A group with a candidate latches by a mark, its own record, and an offer of the FIRST OUT record. -/
theorem latch_eq {g : Fin 16} {p : Fin 256} {s : State} (h : (nth s.groups g).candidate = some p) :
    latch g s = offerInside
      (firstOutRecord g { nth s.groups g with state := .deciding } (judgeCandidate g (nth s.points p)) s.stamp)
      (putGroup g ((nth s.groups g).settled g (nth s.points p))
        (if judgeCandidate g (nth s.points p) = .marked then setMark p true s else s)) := by
  unfold latch
  dsimp only
  split
  · next e => exact absurd (e.symm.trans h) nofun
  · next q e =>
    obtain rfl : q = p := Option.some.inj (e.symm.trans h)
    rfl

theorem latch_groups {g : Fin 16} {p : Fin 256} {s : State} (h : (nth s.groups g).candidate = some p) :
    (latch g s).groups = upd s.groups g ((nth s.groups g).settled g (nth s.points p)) := by
  rw [latch_eq h, offerInside_groups, putGroup_groups]
  split <;> rfl

/-- The candidate of a group that latches is marked when the judgement says so, and holds its mark when it had one. -/
theorem latch_mark {g : Fin 16} {p : Fin 256} {s : State} (h : (nth s.groups g).candidate = some p) :
    (latch g s).points = upd s.points p { nth s.points p with
      firstMark := (nth s.points p).firstMark || decide (judgeCandidate g (nth s.points p) = .marked) } := by
  rw [latch_eq h, offerInside_points, putGroup_points]
  split
  · next hm => rw [setMark_points, decide_eq_true hm, Bool.or_true]
  · next hm => rw [decide_eq_false hm, Bool.or_false, upd_nth]

/-- The FIRST OUT record of a latch is the next one of the queue (R53). -/
theorem recordJoins_of_latch {g : Fin 16} {p : Fin 256} {s u t : State} (h : (nth u.groups g).candidate = some p)
    (hj : u.journal = s.journal) (hg : QueueGrows (latch g u) t) :
    recordJoins (firstOutRecord g { nth u.groups g with state := .deciding } (judgeCandidate g (nth u.points p)) u.stamp)
      s t := by
  rw [latch_eq h] at hg
  refine recordJoins_of_offer (Eq.trans ?_ hj) hg
  rw [putGroup_journal]
  split <;> rfl

/-- The judgement of R51, by its mark and its outcome. -/
theorem markOutcome_eq (g : Fin 16) (x : Point) :
    markOutcome g x = (decide (judgeCandidate g x = .marked), judgeCandidate g x) := by
  unfold markOutcome judgeCandidate
  split
  · rfl
  · split
    · rfl
    · split <;> rfl

/-- A candidate is eligible when it is enabled, not shelved and of the group (R51). -/
theorem judgeCandidate_marked_iff (g : Fin 16) (x : Point) : judgeCandidate g x = .marked
    ↔ x.settings.enabled = true ∧ x.shelved = false ∧ x.settings.group = some g := by
  unfold judgeCandidate
  split
  · next h => simp [h]
  · next h =>
    split
    · next k => simp [k]
    · next k =>
      split
      · next l => simp [l]
      · next l => exact iff_of_true rfl ⟨by simpa using h, by simpa using k, not_not.mp l⟩

/-! ## Reports (R48 to R50) -/

/-- The record with which an ARMED group takes its first report (R48). -/
def Group.opened (p : Fin 256) (t : Nat) (s : State) : Group where
  state := .deciding
  candidate := some p
  candidateTime := t
  runnerUp := none
  contenders := 1
  deadline := some (s.now + s.settleWindow)
  marked := false

theorem alertReport_latched {g : Fin 16} {s : State} (h : (nth s.groups g).state = .latched) (p : Fin 256) (t : Nat) :
    alertReport g p t s = s := by
  unfold alertReport
  simp only [h]

theorem alertReport_deciding {g : Fin 16} {s : State} (h : (nth s.groups g).state = .deciding) (p : Fin 256) (t : Nat) :
    alertReport g p t s = putGroup g ((nth s.groups g).compare p t) s := by
  unfold alertReport
  simp only [h]

theorem alertReport_armed {g : Fin 16} {s : State} (h : (nth s.groups g).state = .armed) (p : Fin 256) (t : Nat) :
    alertReport g p t s = if s.settleWindow = 0 then latch g (putGroup g (Group.opened p t s) s)
      else putGroup g (Group.opened p t s) s := by
  unfold alertReport
  simp only [h]
  rfl

/-- A report to a group leaves every other group (R48 to R50). -/
theorem alertReport_other (g : Fin 16) (p : Fin 256) (t : Nat) (s : State) {g' : Fin 16} (hg : g' ≠ g) :
    nth (alertReport g p t s).groups g' = nth s.groups g' := by
  cases hs : (nth s.groups g).state with
  | latched => rw [alertReport_latched hs]
  | deciding => rw [alertReport_deciding hs, putGroup_groups, nth_upd_other _ _ hg.symm]
  | armed =>
    rw [alertReport_armed hs]
    split
    · rw [latch_groups (p := p) (by rw [putGroup_groups, nth_upd_same]; rfl), nth_upd_other _ _ hg.symm,
        putGroup_groups, nth_upd_other _ _ hg.symm]
    · rw [putGroup_groups, nth_upd_other _ _ hg.symm]

/-- Beside other groups a report reaches what the alarm side reaches. -/
theorem alertReport_reach (g : Fin 16) (p : Fin 256) (t : Nat) (s : State) :
    SideReach (fun q => q = p ∨ journalPoint q) (fun a => pointByte p a ∨ recordByte a) s (alertReport g p t s) :=
  (pointSide p).alertReport g p t s (.inl rfl)

/-- Settles O39, by the state of the group that takes the report: a LATCHED one is left, a DECIDING one compares, an ARMED one
opens and, with no settle window, latches at once. -/
theorem alertReportsAreCompared : Obligations.AlertReportsAreCompared := by
  unfold Obligations.AlertReportsAreCompared
  intro g p c run s x t y others written
  have hothers : others := ⟨fun g' hg => alertReport_other g p run s hg, (alertReport_reach g p run s).only⟩
  refine ⟨fun hs => alertReport_latched hs p run, fun hs hc => ?_, fun hs hw => ?_, fun hs hw => ?_⟩
  · have ht : t = putGroup g (x.compare p run) s := alertReport_deciding hs p run
    have hy : y = x.compare p run := by simp only [y, ht, putGroup_groups, nth_upd_same]
    have hwritten : written := fun w => by
      rw [ht, hy]
      exact putGroup_shown g _ s w
    rw [hy, ht]
    refine ⟨(x.compare_state p run).trans hs, x.compare_deadline p run, x.compare_contenders p run, fun hne h => ?_,
      fun h => ?_, hothers, fun _ => ⟨x.compare_marked p run, hwritten⟩, rfl, rfl, putGroup_memory g _ s⟩
    · rw [Group.compare_displaced ((Group.displaces_iff hc p run).mpr ⟨hne, h⟩)]
      exact ⟨rfl, rfl, rfl⟩
    · have hkept : ¬x.displaces p run = true := by
        rw [Group.displaces_iff hc]
        omega
      rw [Group.compare_kept hkept]
      exact ⟨hc, rfl, rfl⟩
  · have ht : t = putGroup g (Group.opened p run s) s :=
      (alertReport_armed hs p run).trans (if_neg (Nat.pos_iff_ne_zero.mp hw))
    have hy : y = Group.opened p run s := by simp only [y, ht, putGroup_groups, nth_upd_same]
    have hwritten : written := fun w => by
      rw [ht, hy]
      exact putGroup_shown g _ s w
    rw [ht]
    exact ⟨hy, hothers, hwritten, rfl, rfl, putGroup_memory g _ s⟩
  · have ht : t = latch g (putGroup g (Group.opened p run s) s) := (alertReport_armed hs p run).trans (if_pos hw)
    have hopened : nth (putGroup g (Group.opened p run s) s).groups g = Group.opened p run s := by
      rw [putGroup_groups, nth_upd_same]
    have hcand : (nth (putGroup g (Group.opened p run s) s).groups g).candidate = some p := by rw [hopened]; rfl
    have hjoin := recordJoins_of_latch hcand (putGroup_journal g _ s) (queueGrows_same (t := t) (by rw [ht]))
    rw [hopened, putGroup_points] at hjoin
    rw [markOutcome_eq]
    refine ⟨?_, hothers, ?_, hjoin, (alertReport_reach g p run s).memory.same⟩
    · simp only [y, ht]
      rw [latch_groups hcand, nth_upd_same, hopened]
      rfl
    · rw [ht, latch_mark hcand]
      rfl

/-! ## A LATCHED group until the event ends -/

/-- No LATCHED group differs (R50). -/
def LatchedStay (s t : State) : Prop := ∀ g, (nth s.groups g).state = .latched → nth t.groups g = nth s.groups g

theorem latchedStay_same {s t : State} (h : t.groups = s.groups) : LatchedStay s t := fun _ _ => by rw [h]

theorem latchedStay_trans {s t u : State} (h : LatchedStay s t) (k : LatchedStay t u) : LatchedStay s u := fun g hg =>
  (k g (by rw [h g hg]; exact hg)).trans (h g hg)

theorem alertReport_latchedStay (g : Fin 16) (p : Fin 256) (t : Nat) (s : State) : LatchedStay s (alertReport g p t s) := by
  intro g' hg
  by_cases e : g' = g
  · rw [alertReport_latched (e ▸ hg)]
  · exact alertReport_other g p t s e

theorem putZone_groups (z : Fin 8) (x : Zone) (s : State) : (putZone z x s).groups = s.groups := by
  unfold putZone
  dsimp only
  split <;> rfl

theorem takeChange_latchedStay (p : Fin 256) (c : Change) (s : State) : LatchedStay s (takeChange p c s) := by
  unfold takeChange
  dsimp only
  generalize hv : offerPoint p _ _ c _ = v
  have hoffer : LatchedStay s v := latchedStay_same (by rw [← hv]; simp)
  refine latchedStay_trans ?_ (latchedStay_same (putZone_groups _ _ _))
  split
  · exact latchedStay_trans hoffer (alertReport_latchedStay _ p _ _)
  · exact hoffer

theorem latchedStay_closed (p : Fin 256) : PointClosed p LatchedStay where
  refl _ := latchedStay_same rfl
  trans := latchedStay_trans
  edit _ _ _ _ _ _ hg := latchedStay_same hg
  takeChange c s := takeChange_latchedStay p c s

namespace PointClosed

variable {R : State → State → Prop}

theorem still {p : Fin 256} (h : PointClosed p R) {s t : State} (hp : t.points = s.points) (hz : t.zones = s.zones)
    (hg : t.groups = s.groups) : R s t :=
  h.edit s t (nth s.points p) ⟨rfl, rfl, rfl⟩ (hp.trans (upd_nth _ p).symm) hz hg

theorem edited {p : Fin 256} (h : PointClosed p R) (y : Point) (s : State) (hy : (nth s.points p).unseen y) :
    R s (Machine.putPoint p y s) := h.edit s _ y hy rfl rfl rfl

theorem startChange {p : Fin 256} (h : PointClosed p R) (t : Nat) (st : Stamp) (a : Bool) (s : State) :
    R s (Machine.startChange p t st a s) := by
  unfold Machine.startChange
  dsimp only
  split
  · exact h.accept _ s
  · exact h.edited _ s ⟨rfl, rfl, rfl⟩

/-- A contact report edits the point and, at the most, leads to an acceptance (R9). -/
theorem contactReport {p : Fin 256} (h : PointClosed p R) (c : Contact) (t : Int) (st : Stamp) (a : Bool) (s : State) :
    R s (Machine.contactReport p c t st a s) := by
  by_cases hq : (nth s.points p).settings.enabled = false
      ∨ ({ nth s.points p with contact := c } : Point).raw = (nth s.points p).raw
  · rw [contactReport_quiet hq]
    exact h.edited _ s ⟨rfl, rfl, rfl⟩
  · obtain ⟨he, hr⟩ := not_or.mp hq
    rw [contactReport_transition (by simpa using he) hr]
    have hx : (nth s.points p).unseen (({ nth s.points p with contact := c } : Point).ordered t st a) :=
      ({ nth s.points p with contact := c } : Point).ordered_unseen t st a
    rcases transition_cases p { nth s.points p with contact := c } t st a s with
      ⟨_, e⟩ | ⟨_, _, e⟩ | ⟨_, _, _, e⟩ | ⟨_, _, _, e⟩
    · rw [e]
      exact h.edited _ s hx
    · rw [e]
      refine h.trans ?_ (h.still (offerFiltered_points _ _ _) (offerFiltered_zones _ _ _) (offerFiltered_groups _ _ _))
      exact h.putPoint _ s hx
    · rw [e]
      refine h.trans ?_ (h.startChange _ _ _ _)
      exact h.edited _ s hx
    · rw [e]
      exact h.edited _ s hx

theorem takeWaiting (h : ∀ p, PointClosed p R) (n : Nat) (s : State) : R s (Machine.takeWaiting n s) := by
  induction n generalizing s with
  | zero => exact (h 0).refl s
  | succ n ih =>
    unfold Machine.takeWaiting
    split
    · exact (h 0).refl s
    · next r rest _ =>
      have hpop : R s { s with due := rest } := (h r.point).still rfl rfl rfl
      exact (h r.point).trans hpop ((h r.point).trans ((h r.point).contactReport _ _ _ _ _) (ih _))

theorem endAlarm (h : ∀ p, PointClosed p R) (s : State) : R s (Machine.endAlarm s) := takeWaiting h _ s

end PointClosed

/-! ## The settle deadline (R51) -/

/-- Settles O40: the deadline's latch, whose group, mark, record and reach are known, and then the end of the event. -/
theorem settleDeadlineLatches : Obligations.SettleDeadlineLatches := by
  unfold Obligations.SettleDeadlineLatches
  intro g p d s hdue hp x c hs hd hnow hc mark outcome
  have houtcome : judgeCandidate g c = outcome := rfl
  have hmark : decide (judgeCandidate g c = .marked) = mark := by
    rw [Bool.eq_iff_iff, decide_eq_true_iff, judgeCandidate_marked_iff]
    simp [mark, and_assoc]
  have hlatched : nth (latch g s).groups g = x.settled g c := by rw [latch_groups hc, nth_upd_same]
  have hstay := PointClosed.endAlarm latchedStay_closed (latch g s) g (by rw [hlatched]; rfl)
  have hown := dueIn_of_frame ((frame_alarm fun _ => False).latch g s) (dueIn_nil hdue)
  have hreach := (((pointSide p).tracked.trans ((pointSide p).tracked.latch g s fun q hq => .inl ?_)
    ((pointSide p).endAlarm _)) (dueIn_nil hdue)).2
  refine ⟨endAlarm (latch g s), ?_, ?_, ?_, hreach.points, hreach.only, ?_, hreach.memory.same⟩
  · have hdl : dueAt x.deadline s.now = true := by simp [hd, dueAt, hnow]
    exact congrArg _ (if_pos ⟨hs, hdl⟩)
  · rw [hstay, hlatched, Group.settled, hmark]
  · rw [endAlarm_points hown hp, latch_mark hc, nth_upd_same, ← hmark]
  · have hjoin := recordJoins_of_latch hc (rfl : s.journal = s.journal) (queueGrows_alarm.endAlarm (latch g s))
    rw [← houtcome]
    rwa [← hs] at hjoin
  · exact (Option.some.inj (hc.symm.trans hq)).symm

end Sys2Proof.Machine
end

section
/-! A scan's frame and an answer window's bytes, and O24 and O25 (sections 4.2 and 4.3). -/

namespace Sys2Proof.Machine

/-! ## The run of lamp codes (R61) -/

theorem lampCode_lt (q : SeqState) (m : Bool) : lampCode q m < 8 := by cases q <;> cases m <;> decide

/-- A lamp code has three bits (R41). -/
theorem State.lamp_lt (s : State) (w : Fin 256) : s.lamp w < 8 := by
  unfold State.lamp
  split
  · decide
  · split
    · decide
    · exact lampCode_lt _ _

theorem lampRun_lt {cs : List Nat} (h : ∀ c ∈ cs, c < 8) : lampRun cs < 8 ^ cs.length := by
  induction cs with
  | nil => decide
  | cons c cs ih =>
    obtain ⟨hc, hcs⟩ := List.forall_mem_cons.mp h
    have := ih hcs
    rw [lampRun, List.length_cons, Nat.pow_succ]
    omega

/-- Code w stands in bits 3w to 3w + 2 of the run. -/
theorem lampRun_code {cs : List Nat} (h : ∀ c ∈ cs, c < 8) (w : Nat) (hw : w < cs.length) :
    lampRun cs / 8 ^ w % 8 = cs[w] := by
  induction cs generalizing w with
  | nil => exact absurd hw (Nat.not_lt_zero w)
  | cons c cs ih =>
    obtain ⟨hc, hcs⟩ := List.forall_mem_cons.mp h
    rw [lampRun]
    cases w with
    | zero =>
      rw [Nat.pow_zero, Nat.div_one, List.getElem_cons_zero]
      omega
    | succ w =>
      rw [Nat.pow_succ', ← Nat.div_div_eq_div_mul, show (c + 8 * lampRun cs) / 8 = lampRun cs by omega,
        List.getElem_cons_succ]
      exact ih hcs w (by simpa using hw)

/-- The number that n base-256 digits of N spell, from digit a on. -/
theorem foldr_digits (N n a : Nat) :
    (List.range' a n).foldr (fun i x => N / 256 ^ i % 256 + 256 * x) 0 = N / 256 ^ a % 256 ^ n := by
  induction n generalizing a with
  | zero => simp [Nat.mod_one]
  | succ n ih =>
    rw [List.range'_succ, List.foldr_cons, ih, Nat.pow_succ' (m := 256) (n := n), Nat.mod_mul, Nat.pow_succ,
      Nat.div_div_eq_div_mul]

/-! ## Frames (R61, section 11.11) -/

theorem byteSum_lt (bs : List Byte) : byteSum bs < 65536 := by
  cases bs with
  | nil => decide
  | cons b bs => exact Nat.mod_lt _ (by decide)

theorem wordAt_bytes2 {n : Nat} (h : n < 65536) : wordAt (bytes2 n) 0 = n := by
  simp only [wordAt, numAt, byteAt, bytes2, byte, List.getD_cons_zero, List.getD_cons_succ, BitVec.toNat_ofNat]
  omega

/-- A number that begins where a first run of bytes has ended. -/
theorem numAt_append (as bs : List Byte) (d : Nat) : numAt (as ++ bs) (as.length + d) = numAt bs d := by
  simp only [numAt, byteAt, List.getD_eq_getElem?_getD]
  rw [List.getElem?_append_right (Nat.le_add_right _ _), Nat.add_sub_cancel_left]

theorem wordAt_append (as bs : List Byte) (d : Nat) : wordAt (as ++ bs) (as.length + d) = wordAt bs d := by
  rw [wordAt, wordAt, Nat.add_assoc, numAt_append, numAt_append]

/-- The bytes that a scan's check word sums. -/
def scanBody (k : Fin 4) (seq : Byte) (restart : Bool) (codes : List Nat) : List Byte :=
  [byte k.val, seq, byte (bit restart)] ++ (List.range 24).map fun j => byte (lampRun codes / 256 ^ j)

theorem scanBytes_eq (k : Fin 4) (seq : Byte) (restart : Bool) (codes : List Nat) : scanBytes k seq restart codes
    = (0xA5 :: scanBody k seq restart codes) ++ bytes2 (byteSum (scanBody k seq restart codes)) := rfl

@[simp] theorem scanBody_length (k : Fin 4) (seq : Byte) (restart : Bool) (codes : List Nat) :
    (scanBody k seq restart codes).length = 27 := by simp [scanBody]

theorem scanBytes_length (k : Fin 4) (seq : Byte) (restart : Bool) (codes : List Nat) :
    (scanBytes k seq restart codes).length = 30 := by simp [scanBytes_eq, bytes2]

theorem scanBytes_head (k : Fin 4) (seq : Byte) (restart : Bool) (codes : List Nat) :
    (scanBytes k seq restart codes).take 4 = [0xA5, byte k.val, seq, byte (bit restart)] := rfl

/-- The check word is the sum of the bytes between the start mark and it. -/
theorem scanBytes_check (k : Fin 4) (seq : Byte) (restart : Bool) (codes : List Nat) :
    wordAt (scanBytes k seq restart codes) 28 = byteSum (((scanBytes k seq restart codes).drop 1).take 27) := by
  have hbody : ((scanBytes k seq restart codes).drop 1).take 27 = scanBody k seq restart codes := by
    rw [scanBytes_eq, List.cons_append, List.drop_one, List.tail_cons]
    exact List.take_left' (scanBody_length k seq restart codes)
  rw [hbody, scanBytes_eq]
  have h := wordAt_append (0xA5 :: scanBody k seq restart codes) (bytes2 (byteSum (scanBody k seq restart codes))) 0
  rw [List.length_cons, scanBody_length] at h
  exact h.trans (wordAt_bytes2 (byteSum_lt _))

/-- Byte 4 + i of a frame is base-256 digit i of the run. -/
theorem scanBytes_digit (k : Fin 4) (seq : Byte) (restart : Bool) (codes : List Nat) {i : Nat} (hi : i < 24) :
    numAt (scanBytes k seq restart codes) (4 + i) = lampRun codes / 256 ^ i % 256 := by
  have hd := numAt_append [0xA5, byte k.val, seq, byte (bit restart)]
    (((List.range 24).map fun j => byte (lampRun codes / 256 ^ j)) ++ bytes2 (byteSum (scanBody k seq restart codes))) i
  refine hd.trans ?_
  rw [numAt, byteAt, List.getD_eq_getElem?_getD, List.getElem?_append_left (by simpa using hi)]
  simp [hi]

/-- The 24 bytes spell the run of 64 codes, each of three bits. -/
theorem scanBytes_codes (k : Fin 4) (seq : Byte) (restart : Bool) {codes : List Nat} (h : ∀ c ∈ codes, c < 8)
    (hl : codes.length = 64) (w : Nat) (hw : w < codes.length) :
    ((List.range 24).foldr (fun i x => numAt (scanBytes k seq restart codes) (4 + i) + 256 * x) 0) / 8 ^ w % 8
      = codes[w] := by
  have hrun : (List.range 24).foldr (fun i x => numAt (scanBytes k seq restart codes) (4 + i) + 256 * x) 0
      = lampRun codes := by
    have hlt : lampRun codes < 256 ^ 24 := by
      have := lampRun_lt h
      rw [hl] at this
      exact this.trans_le (by decide)
    calc (List.range 24).foldr (fun i x => numAt (scanBytes k seq restart codes) (4 + i) + 256 * x) 0
      _ = (List.range' 0 24).foldr (fun i x => lampRun codes / 256 ^ i % 256 + 256 * x) 0 := by
        rw [← List.range_eq_range']
        exact List.foldr_ext _ _ 0 fun i hi x => by rw [scanBytes_digit _ _ _ _ (List.mem_range.mp hi)]
      _ = lampRun codes := by rw [foldr_digits, Nat.pow_zero, Nat.div_one, Nat.mod_eq_of_lt hlt]
  rw [hrun]
  exact lampRun_code h w hw

/-! ## Scans (R60, R61) -/

/-- The frame shows the RESTART flag as it stands: clear while the link is UP. -/
theorem restartFlag_byte (l : Link) : byte (bit l.restartFlag) = if l.state = .up then 0 else 1 := by
  unfold Link.restartFlag
  by_cases h : l.state = .up <;> simp [h, bit]

/-- The link as a scan of it starts with a frame (R60 to R62). -/
def Link.scanned (l : Link) (frame : List Byte) (now : Nat) : Link :=
  { l with
    frame := frame, carried := l.scanSeq, scanSeq := l.scanSeq + 1, awaiting := true, limit := now + 3, rx := [],
    receipt := none, scanFrom := now + 1 }

theorem execScanFrame_due {k : Fin 4} {s : State} (hd : (nth s.links k).state ≠ .disabled) (hm : s.now % 5 = k.val)
    (hf : (nth s.links k).scanFrom ≤ s.now) : exec (.scanFrame k) s
      = .next (State.showLink k (putLink k ((nth s.links k).scanned (s.scanFrame k) s.now) s)) :=
  congrArg Host.Outcome.next (if_pos ⟨hd, hm, hf⟩)

/-- Settles O24: the frame is `scanBytes` of the lamp codes as they stand, and the link's entry is shown after it. -/
theorem scanFrameCarriesLampCodes : Obligations.ScanFrameCarriesLampCodes := by
  unfold Obligations.ScanFrameCarriesLampCodes
  intro k s _ l
  refine ⟨fun hd => congrArg Host.Outcome.next (if_neg fun h => h.1 hd), fun hd hm hf => ?_⟩
  refine ⟨_, execScanFrame_due hd hm hf, ?_⟩
  have hlink : nth (State.showLink k (putLink k (l.scanned (s.scanFrame k) s.now) s)).links k
      = l.scanned (s.scanFrame k) s.now := nth_upd_same _ _ _
  rw [hlink]
  refine ⟨rfl, rfl, ?_, (showLink_memory k _).same⟩
  have hcodes : ∀ c ∈ (List.finRange 64).map fun w => s.lamp ⟨64 * k.val + w.val, by omega⟩, c < 8 := by
    intro c hc
    obtain ⟨w, _, rfl⟩ := List.mem_map.mp hc
    exact s.lamp_lt _
  refine ⟨scanBytes_length _ _ _ _, ?_, scanBytes_check _ _ _ _, fun w => ?_⟩
  · rw [← restartFlag_byte]
    exact scanBytes_head _ _ _ _
  · refine (scanBytes_codes k l.scanSeq l.restartFlag hcodes (by simp) w.val (by simp)).trans ?_
    simp

/-! ## Answer windows (R62) -/

/-- Settles O25: the guard of the receipt, either way. -/
theorem answerReceiptNotesTime : Obligations.AnswerReceiptNotesTime := by
  unfold Obligations.AnswerReceiptNotesTime
  intro k bytes s l
  refine ⟨fun h => congrArg Host.Outcome.next (if_neg ?_), fun hd ha hl =>
    congrArg Host.Outcome.next (if_pos ⟨hd, ha, hl⟩)⟩
  rintro ⟨hd, ha, hl⟩
  rcases h with h | h | h
  · exact hd h
  · rw [show (nth s.links k).awaiting = false from h] at ha
    exact Bool.noConfusion ha
  · exact absurd hl (Nat.not_lt.mpr h)

end Sys2Proof.Machine
end

section
/-! How the operations on a link change it and leave the rest, and what every step keeps of the links (O56). -/

namespace Sys2Proof.Machine

variable {k : Fin 4} {s t : State}

/-! ## The links after each operation -/

theorem panelStale_alarm (k : Fin 4) (s : State) : AlarmReach s (panelStale k s) :=
  alarmSide.foldl _ _ s fun _ _ _ => alarmSide.trans (alarmSide.putPoint _ _ _ trivial) (alarmSide.showPoint _ _ trivial)

theorem changeLink_event (k : Fin 4) (x : Link) (c : LinkCause) (s : State) : LinkEvent k s (changeLink k x c s) :=
  (LinkEvent.putLink k x s).trans (.alarm (offerLink_alarm _ _))

@[simp] theorem changeLink_links (k : Fin 4) (x : Link) (c : LinkCause) (s : State) :
    (changeLink k x c s).links = upd s.links k x := (offerLink_alarm _ _).only.links

/-- Buttons released: the levels, and the button test of a pressed TEST (R73). -/
theorem releaseButtons_rest (k : Fin 4) (s : State) : releaseButtons k s = { s with
    links := upd s.links k { nth s.links k with buttons := {} }
    panels := upd s.panels k
      (if (nth s.links k).buttons.test then { nth s.panels k with buttonEnd := none } else nth s.panels k)
    mem := (releaseButtons k s).mem } := by
  unfold releaseButtons
  dsimp only
  split
  · rw [testRelease, putPanel_rest]
    rfl
  · rw [upd_nth]
    rfl

theorem releaseButtons_kept (k : Fin 4) (s : State) : (releaseButtons k s).points = s.points
    ∧ (releaseButtons k s).due = s.due := by
  rw [releaseButtons_rest]
  exact ⟨rfl, rfl⟩

theorem releaseButtons_panels (k : Fin 4) (s : State) : (releaseButtons k s).panels = upd s.panels k
    (if (nth s.links k).buttons.test then { nth s.panels k with buttonEnd := none } else nth s.panels k) := by
  rw [releaseButtons_rest]

theorem releaseButtons_event (k : Fin 4) (s : State) : LinkEvent k s (releaseButtons k s) := by
  unfold releaseButtons
  dsimp only
  split
  · exact (LinkEvent.putLink k _ s).trans (.putPanel k _ _)
  · exact .putLink k _ s

/-- What leaving UP tells the Point Filter: the stale points, and point 248 + k present (R67 steps 3 and 4). -/
def staleTold (k : Fin 4) (s : State) : State := reportCondition (linkPoint k) true (panelStale k s)

theorem leaveUp_eq (k : Fin 4) (s : State) : leaveUp k s = releaseButtons k (staleTold k s) := rfl

theorem reportCondition_alarm (p : Fin 256) (b : Bool) (s : State) : AlarmReach s (reportCondition p b s) :=
  reportNow_alarm _ s

theorem staleTold_alarm (k : Fin 4) (s : State) : AlarmReach s (staleTold k s) :=
  alarmSide.trans (panelStale_alarm k s) (reportCondition_alarm _ _ _)

theorem leaveUp_event (k : Fin 4) (s : State) : LinkEvent k s (leaveUp k s) :=
  (LinkEvent.alarm (staleTold_alarm k s)).trans (releaseButtons_event k _)

@[simp] theorem leaveUp_links (k : Fin 4) (s : State) :
    (leaveUp k s).links = upd s.links k { nth s.links k with buttons := {} } := by
  rw [leaveUp_eq, releaseButtons_rest, (staleTold_alarm k s).only.links]

theorem finishRestart_none (r : Result) (h : (nth s.links k).restart = none) : finishRestart k r s = s := by
  unfold finishRestart
  dsimp only
  rw [h]

theorem finishRestart_some {n : Fin 16} {d : Nat} (r : Result) (h : (nth s.links k).restart = some (n, d)) :
    finishRestart k r s
      = finish n r (restartData (nth s.links k)) (putLink k { nth s.links k with restart := none } s) := by
  unfold finishRestart
  dsimp only
  rw [h]

/-- Beside memory, the end of a RESTART LINK in flight takes it off the link and counts the order (R77, R169). -/
theorem finishRestart_rest (k : Fin 4) (r : Result) (s : State) : finishRestart k r s = { s with
    links := upd s.links k { nth s.links k with restart := none }
    engine := if (nth s.links k).restart = none then s.engine else s.engine.counted
    mem := (finishRestart k r s).mem } := by
  cases h : (nth s.links k).restart with
  | none => rw [finishRestart_none r h, if_pos rfl, ← h, upd_nth]
  | some x =>
    rw [finishRestart_some r h, if_neg (Option.some_ne_none x)]
    have hf := finish_rest x.1 r (restartData (nth s.links k)) (putLink k { nth s.links k with restart := none } s)
    generalize finish x.1 r _ _ = u at hf ⊢
    rw [hf]
    rfl

@[simp] theorem finishRestart_links (k : Fin 4) (r : Result) (s : State) :
    (finishRestart k r s).links = upd s.links k { nth s.links k with restart := none } := by rw [finishRestart_rest]

theorem finish_reach (n : Fin 16) (r : Result) (d : List Byte) (s : State) : MemoryReach (doneByte n) s (finish n r d s) :=
  ⟨(memoryReach_all.done (fun _ _ _ => trivial) n r d s).wf, finish_memory n r d s⟩

theorem finishRestart_memory (k : Fin 4) (r : Result) (s : State) :
    MemoryReach (fun a => ∃ x ∈ (nth s.links k).restart, doneByte x.1 a) s (finishRestart k r s) := by
  cases h : (nth s.links k).restart with
  | none =>
    rw [finishRestart_none r h]
    exact ⟨id, fun _ _ => rfl⟩
  | some x =>
    rw [finishRestart_some r h]
    have hreach := finish_reach x.1 r (restartData (nth s.links k)) (putLink k { nth s.links k with restart := none } s)
    exact ⟨hreach.wf, fun a ha => hreach.same a fun hd => ha ⟨x, rfl, hd⟩⟩

/-- The slot of a RESTART LINK that ends reads DONE with the link as it stands (R77). -/
theorem finishRestart_slot {n : Fin 16} {d : Nat} (r : Result) (h : (nth s.links k).restart = some (n, d))
    (w : s.mem.wf = true) : SlotDone (finishRestart k r s).mem n r (restartData (nth s.links k)) := by
  rw [finishRestart_some r h]
  exact finish_slot n r _ _ w

theorem LinkEvent.links_eq (h : LinkEvent k s t) : t.links = upd s.links k (nth t.links k) := by
  refine nth_ext fun q => ?_
  rw [nth_upd]
  split
  · next e => rw [e]
  · next e => exact (h.others q (Ne.symm e)).1

/-! ## A change of state, with what leaving UP brings (R67, R69, R75) -/

/-- A change of link k's state to x, with its record, and with what leaving UP brings where the link was UP. -/
def linkMoved (k : Fin 4) (x : Link) (c : LinkCause) (s : State) : State :=
  if (nth s.links k).state = .up then leaveUp k (changeLink k x c s) else changeLink k x c s

theorem linkMoved_event (k : Fin 4) (x : Link) (c : LinkCause) (s : State) : LinkEvent k s (linkMoved k x c s) := by
  unfold linkMoved
  split
  · exact (changeLink_event k x c s).trans (leaveUp_event k _)
  · exact changeLink_event k x c s

theorem linkMoved_links (k : Fin 4) (x : Link) (c : LinkCause) (s : State) : (linkMoved k x c s).links
    = upd s.links k { x with buttons := if (nth s.links k).state = .up then {} else x.buttons } := by
  unfold linkMoved
  split
  · rw [leaveUp_links, changeLink_links, nth_upd_same, upd_upd]
  · exact changeLink_links k x c s

/-! ## Misses (R64, R67) -/

/-- The link with a miss counted (R64): a miss out of UP also ends the valid run. -/
def Link.missed (l : Link) (e : LinkError) : Link :=
  { l with lastError := e, miss := min 255 (l.miss + 1), validRun := if l.state = .up then l.validRun else 0 }

/-- The link that a third miss in a row takes to LOST (R67). -/
def Link.lostBy (l : Link) (e : LinkError) : Link :=
  { l with state := .lost, lastError := e, miss := min 255 (l.miss + 1), validRun := 0 }

theorem missScan_disabled (e : LinkError) (h : (nth s.links k).state = .disabled) :
    missScan k e s = State.showLink k s := by
  unfold missScan
  dsimp only
  rw [h]

/-- A miss that does not take the link to LOST. -/
theorem missScan_short (e : LinkError) (hd : (nth s.links k).state ≠ .disabled)
    (hm : (nth s.links k).state = .up → (nth s.links k).miss < 2) :
    missScan k e s = State.showLink k (putLink k ((nth s.links k).missed e) s) := by
  unfold missScan Link.missed
  dsimp only
  cases h : (nth s.links k).state with
  | disabled => exact absurd h hd
  | up =>
    have := hm h
    rw [if_neg (by omega), if_pos rfl]
  | starting => rfl
  | lost => rfl

/-- The third miss in a row of an UP link. -/
theorem missScan_third (e : LinkError) (hu : (nth s.links k).state = .up) (hm : 2 ≤ (nth s.links k).miss) :
    missScan k e s = State.showLink k (linkMoved k ((nth s.links k).lostBy e) .misses
      (putLink k { nth s.links k with lastError := e, miss := min 255 ((nth s.links k).miss + 1) } s)) := by
  unfold missScan linkMoved
  dsimp only
  rw [putLink_links, nth_upd_same, hu, if_pos (by omega), if_pos rfl]
  rfl

/-! ## Valid answers (R65) -/

theorem validAnswer_disabled (a : Answer) (r : Receipt) (h : (nth s.links k).state = .disabled) :
    validAnswer k a r s = State.showLink k s := by
  unfold validAnswer
  dsimp only
  rw [h]

/-- A valid answer of a STARTING link short of the third raises the valid run. -/
theorem validAnswer_short (a : Answer) (r : Receipt) (h : (nth s.links k).state = .starting)
    (hv : (nth s.links k).validRun < 2) : validAnswer k a r s
      = State.showLink k (putLink k { nth s.links k with miss := 0, validRun := (nth s.links k).validRun + 1 } s) := by
  unfold validAnswer
  dsimp only
  rw [h]
  dsimp only
  rw [if_neg (by omega)]

/-- The link that a valid answer takes from LOST to STARTING (R68). -/
def Link.answered (l : Link) : Link := { l with state := .starting, validRun := 1, miss := 0 }

theorem validAnswer_lost (a : Answer) (r : Receipt) (h : (nth s.links k).state = .lost) : validAnswer k a r s
    = State.showLink k (linkMoved k (nth s.links k).answered .answer s) := by
  unfold validAnswer linkMoved
  dsimp only
  rw [h]
  rfl

/-- The link after a valid answer of an UP link (R70 to R72). -/
theorem takeAnswer_links (k : Fin 4) (a : Answer) (r : Receipt) (s : State) : (takeAnswer k a r s).links = upd s.links k
    { (if a.overflow = true then (nth s.links k).entryLost else nth s.links k) with buttons := a.buttons } := by
  rw [takeAnswer_eq, ((inputsTaken_event k a r s).trans (takeButtons_event k a.buttons _)).links_eq,
    (takeButtons_own k a.buttons _).1, inputsTaken_link]

/-- The link that its third valid answer has brought UP (R66). -/
theorem linkUp_links (k : Fin 4) (a : Answer) (r : Receipt) (s : State) : (linkUp k a r s).links
    = upd s.links k { (nth s.links k).cameUp with buttons := a.buttons, restart := none } := by
  rw [linkUp_eq, finishRestart_links, broughtUp]
  simp only [putLink_links, (recovery_alarm k a r _).only.links, changeLink_links, nth_upd_same, upd_upd]

/-! ## SET LINK and RESTART LINK -/

/-- The link a SET LINK makes DISABLED (R75, log entry 17). -/
def Link.switchedOff (x : Link) : Link := { x with state := .disabled, awaiting := false, rx := [], receipt := none }

/-- The link a SET LINK enables from DISABLED (R75). -/
def Link.switchedOn (x : Link) : Link := { x with state := .starting, miss := 0, validRun := 0 }

/-- SET LINK that enables a DISABLED link. -/
theorem switchLink_on {x : Link} (hx : x.state = (nth s.links k).state) (h : x.state = .disabled) :
    switchLink k x true s = linkMoved k x.switchedOn .enabled s := by
  unfold switchLink linkMoved
  rw [← hx, h]
  rfl

/-- SET LINK that leaves the link's state. -/
theorem switchLink_same {x : Link} {b : Bool} (h : x.state = .disabled ↔ b = false) :
    switchLink k x b s = putLink k x s := by
  unfold switchLink
  cases b with
  | false => rw [h.mpr rfl]
  | true =>
    have hd : x.state ≠ .disabled := fun e => Bool.noConfusion (h.mp e)
    cases hs : x.state with
    | disabled => exact absurd hs hd
    | starting => rfl
    | up => rfl
    | lost => rfl

/-- SET LINK that disables the link. -/
theorem switchLink_off {x : Link} (hx : x.state = (nth s.links k).state) (h : x.state ≠ .disabled) :
    switchLink k x false s = finishRestart k .refusedState (linkMoved k x.switchedOff .disabled s) := by
  unfold switchLink linkMoved
  rw [← hx]
  cases hs : x.state with
  | disabled => exact absurd hs h
  | starting => rfl
  | up => rfl
  | lost => rfl

/-- The link a RESTART LINK makes STARTING afresh, with the order in flight (R76). -/
def Link.restarted (l : Link) (n : Fin 16) (now : Nat) : Link :=
  { l with state := .starting, validRun := 0, miss := 0, restart := some (n, now + 1000) }

/-- RESTART LINK of a link above 3 (R76). -/
theorem orderRestartLink_range {n : Fin 16} {d : List Byte} (h : 4 ≤ numAt d 0) :
    orderRestartLink n d s = (s, .done .refusedRange []) := by
  unfold orderRestartLink
  rw [linkOf, dif_neg (Nat.not_lt.mpr h)]
  rfl

theorem linkOf_val {n : Nat} (h : n = k.val) : linkOf n = some k := by rw [h, linkOf, dif_pos k.isLt]

/-- RESTART LINK of a DISABLED link (R76). -/
theorem orderRestartLink_disabled {n : Fin 16} {d : List Byte} (hk : numAt d 0 = k.val)
    (hd : (nth s.links k).state = .disabled) : orderRestartLink n d s = (s, .done .refusedState []) := by
  unfold orderRestartLink
  rw [linkOf_val hk]
  dsimp only
  rw [if_pos hd]
  rfl

/-- RESTART LINK of a link with one in flight (R76). -/
theorem orderRestartLink_busy {n : Fin 16} {d : List Byte} (hk : numAt d 0 = k.val)
    (hd : (nth s.links k).state ≠ .disabled) (hr : (nth s.links k).restart ≠ none) :
    orderRestartLink n d s = (s, .done .refusedBusy []) := by
  unfold orderRestartLink
  rw [linkOf_val hk]
  dsimp only
  rw [if_neg hd, if_pos hr]
  rfl

/-- RESTART LINK of a link that it does not refuse. -/
theorem orderRestartLink_taken {n : Fin 16} {d : List Byte} (hk : numAt d 0 = k.val)
    (hd : (nth s.links k).state ≠ .disabled) (hr : (nth s.links k).restart = none) : orderRestartLink n d s
      = (State.showLink k (linkMoved k ((nth s.links k).restarted n s.now) .restartOrder s), .flying) := by
  unfold orderRestartLink
  rw [linkOf_val hk]
  dsimp only
  rw [if_neg hd, if_neg (not_not.mpr hr)]
  rfl

/-- The link with the settings that SET LINK gives (R75). -/
def Link.given (l : Link) (d : List Byte) : Link :=
  { l with enabled := decide (numAt d 1 = 1), zones := byteAt d 2, latency := numAt d 3 }

/-- SET LINK of a link above 3, of an enabled setting above 1 or of a latency above 15 (R75). -/
theorem orderSetLink_refused {d : List Byte} (h : ¬(numAt d 0 < 4 ∧ numAt d 1 ≤ 1 ∧ numAt d 3 ≤ 15)) :
    orderSetLink d s = (s, .done .refusedRange []) := by
  unfold orderSetLink
  split
  · rfl
  · next k hk =>
    have hk4 : numAt d 0 < 4 := by
      by_contra hn
      rw [linkOf, dif_neg hn] at hk
      cases hk
    rw [if_pos (by omega)]
    rfl

/-- SET LINK of settings in range. -/
theorem orderSetLink_taken {d : List Byte} (hk : numAt d 0 = k.val) (h1 : numAt d 1 ≤ 1) (h3 : numAt d 3 ≤ 15) :
    orderSetLink d s = (State.showLink k (offer
      (settingsRecord .setLink s.stamp k.val (numAt d 1) (numAt d 2) (numAt d 3) 0)
      (switchLink k ((nth s.links k).given d) (decide (numAt d 1 = 1)) s)), .done .doneOk []) := by
  unfold orderSetLink
  rw [linkOf_val hk]
  dsimp only
  rw [if_neg (by omega)]
  rfl

end Sys2Proof.Machine
end

section
/-! The laws of the links through every step (O56). -/

namespace Sys2Proof.Machine

variable {k : Fin 4} {s t : State}

/-! ## Links with the laws (R64 to R77) -/

theorem linksHold_upd (h : s.linksHold) {x : Link} (ht : t.links = upd s.links k x) (hx : x.holds) : t.linksHold := by
  intro q
  rw [ht, nth_upd]
  split
  · exact hx
  · exact h q

theorem linksHold_same (h : s.linksHold) (ht : t.links = s.links) : t.linksHold := by
  intro q
  rw [ht]
  exact h q

theorem showLink_linksHold (k : Fin 4) (h : s.linksHold) : (State.showLink k s).linksHold := h

theorem Link.judged_holds {l : Link} (h : l.holds) : l.judged.holds := by
  obtain ⟨h1, h2, h3, h4, h5, h6, h7, h8, _⟩ := h
  exact ⟨h1, h2, h3, h4, h5, h6, h7, h8, fun _ => rfl⟩

theorem Link.missed_holds {l : Link} (e : LinkError) (h : l.holds) (hm : l.state = .up → l.miss < 2) :
    (l.missed e).holds := by
  obtain ⟨h1, h2, h3, h4, h5, h6, h7, h8, h9⟩ := h
  have hrun : (if l.state = .up then l.validRun else 0) ≤ 2 := by split <;> omega
  refine ⟨h1, fun hu => ⟨?_, ?_⟩, h3, h4, hrun, Nat.min_le_left _ _, h7, h8, h9⟩
  · have := hm hu
    simp only [Link.missed]
    omega
  · exact (if_pos hu).trans (h2 hu).2

theorem Link.lostBy_holds {l : Link} (e : LinkError) (h : l.holds) (hu : l.state = .up) :
    ({ l.lostBy e with buttons := {} } : Link).holds := by
  obtain ⟨h1, _, _, _, _, _, h7, h8, _⟩ := h
  have hen : LinkState.lost = .disabled ↔ l.enabled = false :=
    ⟨fun q => LinkState.noConfusion q, fun q => absurd (hu.symm.trans (h1.mpr q)) (by decide)⟩
  exact ⟨hen, fun q => LinkState.noConfusion q, fun _ => rfl, fun _ => .inr rfl, Nat.zero_le _, Nat.min_le_left _ _, h7, h8,
    fun q => LinkState.noConfusion q⟩

/-- A link that an order or an answer makes STARTING, with its buttons released. -/
theorem Link.starting_holds {x : Link} (hs : x.state = .starting) (he : x.enabled = true) (hb : x.buttons = {})
    (hv : x.validRun ≤ 2) (hm : x.miss ≤ 255) (hl : x.latency ≤ 15) (hn : x.entriesLost ≤ 255) : x.holds := by
  refine ⟨?_, ?_, fun _ => hb, fun _ => .inl hs, hv, hm, hl, hn, ?_⟩ <;> rw [hs]
  · rw [he]
    decide
  · exact fun q => LinkState.noConfusion q
  · exact fun q => LinkState.noConfusion q

/-- A link that is not DISABLED is enabled (R75). -/
theorem Link.enabled_of_holds {l : Link} (h : l.holds) (hs : l.state ≠ .disabled) : l.enabled = true := by
  cases he : l.enabled with
  | false => exact absurd (h.1.mpr he) hs
  | true => rfl

/-- Buttons that leaving UP releases are released whatever the link's state was (R73). -/
theorem released_of_holds {l : Link} (h : l.holds) : (if l.state = .up then {} else l.buttons) = {} := by
  split
  · rfl
  · next hu => exact h.2.2.1 hu

/-! ## Misses and valid answers -/

theorem missScan_linksHold (e : LinkError) (h : s.linksHold) : (missScan k e s).linksHold := by
  by_cases hd : (nth s.links k).state = .disabled
  · rw [missScan_disabled e hd]
    exact h
  by_cases hm : (nth s.links k).state = .up → (nth s.links k).miss < 2
  · rw [missScan_short e hd hm]
    exact linksHold_upd h (putLink_links k _ s) (Link.missed_holds e (h k) hm)
  · obtain ⟨hu, hm⟩ := Classical.not_imp.mp hm
    rw [missScan_third e hu (Nat.not_lt.mp hm)]
    refine linksHold_upd (k := k) h ?_ (Link.lostBy_holds e (h k) hu)
    rw [State.showLink_links, linkMoved_links, putLink_links, nth_upd_same, if_pos hu, upd_upd]

theorem linkUp_linksHold (a : Answer) (r : Receipt) (h : s.linksHold) (hs : (nth s.links k).state = .starting) :
    (linkUp k a r s).linksHold := by
  obtain ⟨h1, _, _, _, _, _, h7, h8, _⟩ := h k
  have hen : LinkState.up = .disabled ↔ (nth s.links k).enabled = false :=
    ⟨fun q => LinkState.noConfusion q, fun q => absurd (hs.symm.trans (h1.mpr q)) (by decide)⟩
  exact linksHold_upd h (linkUp_links k a r s) ⟨hen, fun _ => ⟨Nat.zero_le _, rfl⟩, fun q => absurd rfl q,
    fun q => Bool.noConfusion q, Nat.zero_le _, Nat.zero_le _, h7, h8, fun q => LinkState.noConfusion q⟩

theorem takeAnswer_linksHold (a : Answer) (r : Receipt) (h : s.linksHold) (hu : (nth s.links k).state = .up) :
    (takeAnswer k a r s).linksHold := by
  obtain ⟨h1, h2, _, h4, h5, h6, h7, h8, h9⟩ := h k
  refine linksHold_upd h (takeAnswer_links k a r s) ?_
  split
  · exact ⟨h1, h2, fun q => absurd hu q, h4, h5, h6, h7, Nat.min_le_left _ _, h9⟩
  · exact ⟨h1, h2, fun q => absurd hu q, h4, h5, h6, h7, h8, h9⟩

theorem validAnswer_linksHold (a : Answer) (r : Receipt) (h : s.linksHold) : (validAnswer k a r s).linksHold := by
  have hk := h k
  obtain ⟨h1, h2, h3, h4, h5, h6, h7, h8, h9⟩ := id hk
  cases hs : (nth s.links k).state with
  | disabled =>
    rw [validAnswer_disabled a r hs]
    exact h
  | starting =>
    have hen := Link.enabled_of_holds hk (by rw [hs]; decide)
    rcases Nat.lt_or_ge (nth s.links k).validRun 2 with hv | hv
    · rw [validAnswer_short a r hs hv]
      exact linksHold_upd h (putLink_links k _ s) (Link.starting_holds hs hen
        (h3 (by rw [hs]; decide)) hv (Nat.zero_le _) h7 h8)
    · rw [validAnswer_third a r hs (Nat.le_antisymm h5 hv), ← linkUp_eq]
      exact showLink_linksHold k (linkUp_linksHold a r h hs)
  | up =>
    rw [validAnswer_up a r hs]
    have h0 : (putLink k { nth s.links k with miss := 0 } s).linksHold :=
      linksHold_upd h (putLink_links k _ s) ⟨h1, fun q => ⟨Nat.zero_le _, (h2 q).2⟩, h3, h4, h5, Nat.zero_le _, h7, h8, h9⟩
    exact showLink_linksHold k (takeAnswer_linksHold a r h0 (by rw [putLink_links, nth_upd_same]; exact hs))
  | lost =>
    have hen := Link.enabled_of_holds hk (by rw [hs]; decide)
    rw [validAnswer_lost a r hs]
    exact linksHold_upd h (linkMoved_links k _ _ s) (Link.starting_holds rfl hen (released_of_holds hk)
      (Nat.le_succ 1) (Nat.zero_le _) h7 h8)

/-! ## Orders of the links -/

theorem finishRestart_linksHold (r : Result) (h : s.linksHold) : (finishRestart k r s).linksHold := by
  obtain ⟨h1, h2, h3, _, h5, h9⟩ := h k
  exact linksHold_upd h (finishRestart_links k r s) ⟨h1, h2, h3, fun q => Bool.noConfusion q, h5, h9⟩

theorem orderRestartLink_linksHold (n : Fin 16) (d : List Byte) (h : s.linksHold) :
    (orderRestartLink n d s).1.linksHold := by
  rcases Nat.lt_or_ge (numAt d 0) 4 with hk | hk
  · obtain ⟨k, hk⟩ : ∃ k : Fin 4, numAt d 0 = k.val := ⟨⟨_, hk⟩, rfl⟩
    obtain ⟨_, _, _, _, _, _, h7, h8, _⟩ := h k
    by_cases hd : (nth s.links k).state = .disabled
    · rw [orderRestartLink_disabled hk hd]
      exact h
    by_cases hr : (nth s.links k).restart = none
    · have hen := Link.enabled_of_holds (h k) hd
      rw [orderRestartLink_taken hk hd hr]
      exact linksHold_upd h (linkMoved_links k _ _ s) (Link.starting_holds rfl hen
        (released_of_holds (h k)) (Nat.zero_le _) (Nat.zero_le _) h7 h8)
    · rw [orderRestartLink_busy hk hd hr]
      exact h
  · rw [orderRestartLink_range hk]
    exact h

/-- SET LINK's change of state keeps the laws, from a link whose latency is in range (R75). -/
theorem switchLink_linksHold {x : Link} {on : Bool} (h : s.linksHold) (hs : x.state = (nth s.links k).state)
    (he : x.enabled = on) (hv : x.validRun ≤ 2 ∧ x.miss ≤ 255 ∧ x.latency ≤ 15 ∧ x.entriesLost ≤ 255)
    (hu : x.state = .up → x.miss ≤ 2 ∧ x.validRun = 0) (hb : x.state ≠ .up → x.buttons = {})
    (hr : x.restart.isSome = true → x.state = .starting ∨ x.state = .lost) (ha : x.state = .disabled → x.awaiting = false) :
    (switchLink k x on s).linksHold := by
  obtain ⟨v1, v2, v3, v4⟩ := hv
  have hbut : (if (nth s.links k).state = .up then ({} : Buttons) else x.buttons) = {} := by
    rw [← hs]
    split
    · rfl
    · next hn => exact hb hn
  by_cases hsame : x.state = .disabled ↔ on = false
  · rw [switchLink_same hsame]
    exact linksHold_upd h (putLink_links k x s) ⟨hsame.trans (by rw [he]), hu, hb, hr, v1, v2, v3, v4, ha⟩
  · cases on with
    | true =>
      have hd : x.state = .disabled := by
        by_contra hn
        exact hsame ⟨fun q => absurd q hn, fun q => Bool.noConfusion q⟩
      rw [switchLink_on hs hd]
      exact linksHold_upd h (linkMoved_links k _ _ s)
        (Link.starting_holds rfl he hbut (Nat.zero_le _) (Nat.zero_le _) v3 v4)
    | false =>
      have hd : x.state ≠ .disabled := fun q => hsame ⟨fun _ => rfl, fun _ => q⟩
      rw [switchLink_off hs hd]
      refine linksHold_upd (k := k) (x := { x.switchedOff with buttons := {}, restart := none }) h ?_
        ⟨⟨fun _ => he, fun _ => rfl⟩, fun q => LinkState.noConfusion q, fun _ => rfl, fun q => Bool.noConfusion q, v1, v2,
          v3, v4, fun _ => rfl⟩
      rw [finishRestart_links, linkMoved_links, nth_upd_same, upd_upd, show x.switchedOff.buttons = x.buttons from rfl, hbut]

theorem orderSetLink_linksHold (d : List Byte) (h : s.linksHold) : (orderSetLink d s).1.linksHold := by
  by_cases hd : numAt d 0 < 4 ∧ numAt d 1 ≤ 1 ∧ numAt d 3 ≤ 15
  · obtain ⟨hk, h1, h3⟩ := hd
    obtain ⟨k, hk⟩ : ∃ k : Fin 4, numAt d 0 = k.val := ⟨⟨_, hk⟩, rfl⟩
    obtain ⟨_, l2, l3, l4, l5, l6, _, l8, l9⟩ := h k
    rw [orderSetLink_taken hk h1 h3]
    have hset := switchLink_linksHold (k := k) (x := (nth s.links k).given d) h rfl rfl ⟨l5, l6, h3, l8⟩ l2 l3 l4 l9
    exact showLink_linksHold k (linksHold_same hset (((frame_event fun _ => False).offer _ _).items .links id))
  · rw [orderSetLink_refused hd]
    exact h

/-! ## Every step -/

theorem linksHold_plain {c : Instr} (hp : plain c = true) (hc : touches c .links) {t : State}
    (he : exec c s = .next t) (h : s.linksHold) : t.linksHold := by
  cases c <;> simp only [plain, Bool.false_eq_true] at hp <;> simp only [touches, reduceCtorEq, or_self] at hc <;>
    simp only [exec] at he
  case scanFrame k =>
    simp only [execScanFrame, Host.Outcome.next.injEq] at he; subst he
    split
    · next e =>
      obtain ⟨l1, l2, l3, l4, l5, l6, l7, l8, _⟩ := h k
      exact linksHold_upd h (putLink_links k _ s) ⟨l1, l2, l3, l4, l5, l6, l7, l8, fun q => absurd q e.1⟩
    · exact h
  case answerReceipt k b =>
    simp only [execAnswerReceipt, Host.Outcome.next.injEq] at he; subst he
    split
    · exact linksHold_upd h (putLink_links k _ s) (h k)
    · exact h
  case answerLimit k b =>
    simp only [execAnswerLimit, Host.Outcome.next.injEq] at he; subst he
    split
    · have h1 : (putLink k (nth s.links k).judged s).linksHold :=
        linksHold_upd h (putLink_links k _ s) (Link.judged_holds (h k))
      split
      · exact missScan_linksHold _ h1
      · exact validAnswer_linksHold _ _ h1
    · exact h
  case restartLinkDeadline k =>
    simp only [execRestartLinkDeadline, Host.Outcome.next.injEq] at he; subst he
    split
    · exact h
    · split
      · exact finishRestart_linksHold (k := k) .linkNoAnswer h
      · exact h

theorem linksHold_init (hl : s.links = State.init.links) : s.linksHold := by
  intro k
  rw [hl, show nth State.init.links k = {} from nth_replicate _ k]
  decide

/-- Settles O56: of the part's events only those of the links change them, and each of those leaves one link, whose laws
hold by the link it was. -/
theorem stepKeepsLinkLaws : Obligations.StepKeepsLinkLaws := by
  unfold Obligations.StepKeepsLinkLaws
  intro s t h he
  have hF : StepClosed (· ≠ .links) fun s t => s.linksHold → t.linksHold :=
    .of_frame fun s t hf h q => (hf.items .links (by simp)) ▸ h q
  have hx : ∀ c s t, c ≠ .powerOnReset → c ≠ .resetLine → exec c s = .next t → s.linksHold → t.linksHold := by
    refine fun c s t h1 h2 => hF.exec (fun s => hF.leaveStarting (by simp) s) ?_ ?_ ?_ c s t h1 h2
    · rintro k n d s ⟨x, hx, hn⟩ h
      obtain rfl : x = .links := by simpa using hn
      cases k <;> simp [OrderKind.touches] at hx
      · exact orderSetLink_linksHold d h
      · exact orderRestartLink_linksHold n d h
    · exact fun o s t he => hF.segmentRead (by simp) (by simp) (by simp) (by simp)
        (fun bs u hu q => ((frame_step (· = .settings)).complete rfl bs u).items .links (by simp) ▸ hu q) o s t he
    · rintro c s t hp ⟨x, hx, hn⟩ he h
      obtain rfl : x = .links := by simpa using hn
      exact linksHold_plain hp hx he h
  exact hF.step (fun _ _ k => k) (fun _ => linksHold_init rfl) (fun _ _ => linksHold_init rfl) hx s t h he

end Sys2Proof.Machine
end

section
/-! Misses and answers that do not bring a link UP (sections 4.3 and 4.4), and O26, O27 and O28. -/

namespace Sys2Proof.Machine

variable {k : Fin 4} {s t u : State}

/-! ## What leaving UP tells the Point Filter (R16, R67) -/

/-- What leaves the points and the panels leaves what leaving UP has done. -/
theorem leftUp_after (h : leftUp k s t) (hp : samePointsBut journalPoint t u)
    (hn : u.panels = t.panels) : leftUp k s u := by
  obtain ⟨h1, h2⟩ := h
  refine ⟨fun hu => ?_, fun hu => ?_⟩
  · obtain ⟨hfield, hcontact, hother, hpanels⟩ := h1 hu
    refine ⟨fun j => (hp _ (fieldPoint_not_journal k j)).trans (hfield j), ?_, fun p hq => ?_, hn.trans hpanels⟩
    · rw [hp _ (linkPoint_not_journal k)]
      exact hcontact
    · exact (hp p fun hj => hq (.inr (.inr hj))).trans (hother p hq)
  · obtain ⟨hother, hpanels⟩ := h2 hu
    exact ⟨fun p hq => (hp p hq).trans (hother p hq), hn.trans hpanels⟩

/-- The panel's points are stale with no pending change, and the others stand (R16). -/
theorem panelStale_points (k : Fin 4) (s : State) :
    (∀ j, nth (panelStale k s).points (fieldPoint k j)
      = { nth s.points (fieldPoint k j) with stale := true, waiting := none })
    ∧ (∀ p, (∀ j, p ≠ fieldPoint k j) → nth (panelStale k s).points p = nth s.points p)
    ∧ (panelStale k s).due = s.due := by
  have hstep : ∀ (u : State) (j : Fin 48), (makeStale k u j).points = upd u.points (fieldPoint k j)
      { nth u.points (fieldPoint k j) with stale := true, waiting := none } := fun _ _ => rfl
  have hne : ∀ i j : Fin 48, j ≠ i → fieldPoint k i ≠ fieldPoint k j := fun i j h e => h (fieldPoint_inj e).2.symm
  obtain ⟨⟨h1, h2⟩, h3⟩ := foldl_once (f := makeStale k)
    (P := fun u => (∀ p, (∀ j, p ≠ fieldPoint k j) → nth u.points p = nth s.points p) ∧ u.due = s.due)
    (pre := fun j u => nth u.points (fieldPoint k j) = nth s.points (fieldPoint k j))
    (post := fun j u => nth u.points (fieldPoint k j)
      = { nth s.points (fieldPoint k j) with stale := true, waiting := none })
    (fun u i h => ⟨fun p hp => by rw [hstep, nth_upd_other _ _ (hp i).symm, h.1 p hp], h.2⟩)
    (fun u i _ h => by rw [hstep, nth_upd_same, h])
    (fun u i j _ hj h => by rw [hstep, nth_upd_other _ _ (hne i j hj), h])
    (fun u i j _ hj h => by rw [hstep, nth_upd_other _ _ (hne i j hj), h])
    (List.nodup_finRange 48) (s := s) ⟨fun _ _ => rfl, rfl⟩ (fun _ _ => rfl)
  exact ⟨fun j => h3 j (List.mem_finRange j), h1, h2⟩

/-- A report changes no point but its own and the Journal Unit's two. -/
theorem reportNow_points (r : Report) (hd : dueIn journalPoint s) :
    samePointsBut (fun p => p = r.point ∨ journalPoint p) s (reportNow r s) :=
  (((samePointsBut_closed (P := fun p => p = r.point ∨ journalPoint p) reachOf_record reachOf_mirror
    fun _ h => .inr h).reportNow r s (.inl rfl)) fun x hx => .inr (hd x hx)).2

theorem reportCondition_points (p : Fin 256) (b : Bool) (hd : dueIn journalPoint s) :
    samePointsBut (fun q => q = p ∨ journalPoint q) s (reportCondition p b s) :=
  reportNow_points { point := p, present := b, run := s.now, stamp := s.stamp } hd

/-- The points as leaving UP leaves them. -/
theorem staleTold_points (hd : dueIn journalPoint s) : dueIn journalPoint (staleTold k s)
    ∧ (∀ j, nth (staleTold k s).points (fieldPoint k j)
      = { nth s.points (fieldPoint k j) with stale := true, waiting := none })
    ∧ (nth (staleTold k s).points (linkPoint k)).contact = .present
    ∧ samePointsBut (fun p => (∃ j, p = fieldPoint k j) ∨ p = linkPoint k ∨ journalPoint p) s (staleTold k s) := by
  obtain ⟨hfield, hother, hdue⟩ := panelStale_points k s
  have hd' : dueIn journalPoint (panelStale k s) := fun r hr => hd r (hdue ▸ hr)
  obtain ⟨hd2, hcontact⟩ := (reportCondition_told (linkPoint_not_journal k) true (panelStale k s)).contact hd'
  have hpoints := reportCondition_points (linkPoint k) true hd'
  refine ⟨hd2, fun j => ?_, hcontact, fun p hp => ?_⟩
  · exact (hpoints _ fun h => h.elim (fun e => linkPoint_ne_fieldPoint k k j e.symm) (fieldPoint_not_journal k j)).trans
      (hfield j)
  · rw [not_or, not_exists] at hp
    exact (hpoints p hp.2).trans (hother p hp.1)

/-! ## A change of state (R67, R69) -/

/-- A change of state makes its record, and reaches nothing else beside the link. -/
theorem changeLink_reach (k : Fin 4) (x : Link) (c : LinkCause) (hd : s.due = []) :
    SideReach journalPoint recordByte (putLink k x s) (changeLink k x c s) := offerLink_reach _ _ hd

theorem linkMoved_not_up {x : Link} {c : LinkCause} (h : (nth s.links k).state ≠ .up) :
    linkMoved k x c s = changeLink k x c s := if_neg h

/-- A change of state does of leaving UP what the link's state asks for. -/
theorem linkMoved_left {x : Link} (c : LinkCause) (hd : s.due = []) (hx : x.buttons = (nth s.links k).buttons) :
    dueIn journalPoint (linkMoved k x c s) ∧ leftUp k s (linkMoved k x c s) := by
  have hreach := changeLink_reach k x c hd
  have hdue : dueIn journalPoint (changeLink k x c s) := offerLink_due _ (s := putLink k x s) (dueIn_nil hd)
  by_cases hu : (nth s.links k).state = .up
  · rw [linkMoved, if_pos hu, leaveUp_eq]
    have hpanels : (staleTold k (changeLink k x c s)).panels = s.panels :=
      (staleTold_alarm k _).only.panels.trans hreach.only.panels
    have hlink : nth (staleTold k (changeLink k x c s)).links k = x := by
      rw [(staleTold_alarm k _).only.links, changeLink_links, nth_upd_same]
    obtain ⟨hd2, hfield, hcontact, hother⟩ := staleTold_points (k := k) hdue
    have hkept := hreach.points
    generalize changeLink k x c s = v at *
    generalize staleTold k v = u at *
    obtain ⟨h1, h2⟩ := releaseButtons_kept k u
    refine ⟨fun r hr => hd2 r (h2 ▸ hr), fun _ => ⟨fun j => ?_, ?_, fun p hp => ?_, ?_⟩, fun hn => absurd hu hn⟩
    · rw [h1, hfield, hkept _ (fieldPoint_not_journal k j)]
      rfl
    · rw [h1]
      exact hcontact
    · rw [h1]
      exact (hother p hp).trans (hkept p fun hj => hp (.inr (.inr hj)))
    · rw [releaseButtons_panels, hlink, hpanels, hx]
  · rw [linkMoved_not_up hu]
    exact ⟨hdue, fun h => absurd h hu, fun _ => ⟨hreach.points, hreach.only.panels⟩⟩

theorem showLink_grows (k : Fin 4) (s : State) : QueueGrows s (State.showLink k s) := queueGrows_same rfl

/-- The LINK record of a change of state joins the queue (R78). -/
theorem linkMoved_record {x : Link} {c : LinkCause} (hf : s.filters .link = false)
    (hg : QueueGrows (linkMoved k x c s) t) :
    recordJoins (linkRecord k (nth s.links k).state x c (nth s.links k).miss s.stamp) s t := by
  refine recordJoins_of_unless (u := putLink k x s) rfl hf (queueGrows_trans ?_ hg)
  unfold linkMoved
  split
  · exact queueGrows_event.leaveUp trivial (fun _ _ => trivial) (fun _ _ _ => trivial) k (changeLink k x c s)
  · exact queueGrows_same rfl

/-- Of a link its LINK record shows the state, the last error kind and the entries-lost count (R78). -/
theorem linkRecord_congr {x y : Link} (h1 : x.state = y.state) (h2 : x.lastError = y.lastError)
    (h3 : x.entriesLost = y.entriesLost) (k : Fin 4) (before : LinkState) (c : LinkCause) (miss : Nat) (st : Stamp) :
    linkRecord k before x c miss st = linkRecord k before y c miss st := by
  unfold linkRecord
  rw [h1, h2, h3]

/-! ## Misses (R63, R64, R67) -/

/-- A window whose limit has come with no answer, or with one that fails a test, is a miss. -/
theorem answerLimit_fault {rest : List RxByte} {e : LinkError} (hd : (nth s.links k).state ≠ .disabled)
    (ha : (nth s.links k).awaiting = true) (hl : (nth s.links k).limit ≤ s.now)
    (hf : answerFault k (nth s.links k).carried ((nth s.links k).rx ++ rest) = some e) :
    exec (.answerLimit k rest) s = .next (missScan k e (putLink k (nth s.links k).judged s)) := by
  have hc : (nth s.links k).state ≠ .disabled ∧ (nth s.links k).awaiting = true ∧ (nth s.links k).limit ≤ s.now :=
    ⟨hd, ha, hl⟩
  simp only [exec, execAnswerLimit, if_pos hc, hf]
  rfl

/-- No byte at all fails the first test that looks at their number (R63). -/
theorem answerFault_nil (k : Fin 4) (c : Byte) : answerFault k c [] = some .timeout := by simp [answerFault]

/-- Settles O26: the guard of the judgement, and a miss that only counts. -/
theorem missIsCounted : Obligations.MissIsCounted := by
  unfold Obligations.MissIsCounted
  intro k rest e s _ l
  refine ⟨fun h => congrArg Host.Outcome.next (if_neg ?_), fun hd ha hl hm hf => ?_⟩
  · rintro ⟨hd, ha, hl⟩
    rcases h with h | h | h
    · exact hd h
    · rw [show (nth s.links k).awaiting = false from h] at ha
      exact Bool.noConfusion ha
    · exact absurd h (Nat.not_lt.mpr hl)
  · have hexec := answerLimit_fault hd ha hl hf
    have hj : nth (putLink k l.judged s).links k = l.judged := nth_upd_same _ _ _
    rw [missScan_short e (by rw [hj]; exact hd) (by rw [hj]; exact hm), hj, putLink_putLink] at hexec
    refine ⟨_, hexec, rfl, fun h1 h2 => ?_, (showLink_memory k _).same⟩
    rw [h1, h2, List.append_nil, answerFault_nil] at hf
    exact (Option.some.inj hf).symm

/-- Settles O27: the loss is a change of state of an UP link, taken after the miss is counted. -/
theorem thirdMissLosesLink : Obligations.ThirdMissLosesLink := by
  unfold Obligations.ThirdMissLosesLink
  intro k rest e s _ hdue l hu ha hl hm hf
  have hexec := answerLimit_fault (show l.state ≠ .disabled by rw [hu]; decide) ha hl hf
  have hj : nth (putLink k l.judged s).links k = l.judged := nth_upd_same _ _ _
  rw [missScan_third e (by rw [hj]; exact hu) (by rw [hj]; exact hm.ge), hj, putLink_putLink] at hexec
  set m : Link := { l.judged with lastError := e, miss := min 255 (l.judged.miss + 1) } with hmdef
  have hmiss : m.miss = 3 := by
    rw [hmdef, show l.judged.miss = 2 from hm]
    rfl
  have hlink : nth (putLink k m s).links k = m := nth_upd_same _ _ _
  have hup : (nth (putLink k m s).links k).state = .up := by rw [hlink]; exact hu
  obtain ⟨_, hleft⟩ := linkMoved_left (x := l.judged.lostBy e) .misses (s := putLink k m s) hdue
    (by rw [hlink]; rfl)
  have hevent := ((LinkEvent.putLink k m s).trans (linkMoved_event k (l.judged.lostBy e) .misses _)).trans (.showLink k _)
  have hlinks := linkMoved_links k (l.judged.lostBy e) .misses (putLink k m s)
  have hrecord := fun hf => linkMoved_record (k := k) (s := putLink k m s) (x := l.judged.lostBy e) (c := .misses)
    (t := State.showLink k (linkMoved k (l.judged.lostBy e) .misses (putLink k m s))) hf (showLink_grows k _)
  rw [hlink, hmiss, show m.state = .up from hu,
    linkRecord_congr (x := l.judged.lostBy e) (y := { l with state := .lost, lastError := e }) rfl rfl rfl] at hrecord
  obtain ⟨hfield, hcontact, hother, hpanels⟩ := hleft.1 hup
  generalize linkMoved k (l.judged.lostBy e) .misses (putLink k m s) = v at *
  refine ⟨_, hexec, ?_, hfield, hcontact, hother, hevent.others, ?_, { hevent.rest with }, hevent.memory.same, hrecord⟩
  · rw [State.showLink_links, hlinks, putLink_links, upd_upd, nth_upd_same, nth_upd_same,
      if_pos (show m.state = .up from hu)]
    rw [Link.lostBy, show l.judged.miss = 2 from hm]
    rfl
  · rw [State.showLink_panels, hpanels, hlink]
    exact nth_upd_same _ _ _

/-- Settles O28: the answer raises the run of a STARTING link, and changes the state of a LOST one. -/
theorem validAnswerRaisesRun : Obligations.ValidAnswerRaisesRun := by
  unfold Obligations.ValidAnswerRaisesRun
  intro k rest s _ hdue l ha hl hf hs
  have hdis : l.state ≠ .disabled := by
    rcases hs with e | ⟨e, _⟩ <;> rw [e] <;> decide
  have hexec := answerLimit_valid hdis ha hl hf
  have hj : nth (putLink k l.judged s).links k = l.judged := nth_upd_same _ _ _
  rcases hs with hs | ⟨hs, hv⟩
  · rw [validAnswer_lost _ _ (by rw [hj]; exact hs), hj] at hexec
    have hmoved : linkMoved k l.judged.answered .answer (putLink k l.judged s)
        = changeLink k l.judged.answered .answer (putLink k l.judged s) :=
      linkMoved_not_up (by rw [hj, show l.judged.state = .lost from hs]; decide)
    have hrecord := fun hf => linkMoved_record (k := k) (s := putLink k l.judged s) (x := l.judged.answered) (c := .answer)
      (t := State.showLink k (linkMoved k l.judged.answered .answer (putLink k l.judged s))) hf (showLink_grows k _)
    have hreach := changeLink_reach k l.judged.answered .answer (s := putLink k l.judged s) hdue
    rw [hj, show l.judged.state = .lost from hs,
      linkRecord_congr (x := l.judged.answered) (y := { l with state := .starting }) rfl rfl rfl] at hrecord
    rw [putLink_putLink] at hreach
    rw [hmoved] at hexec hrecord
    generalize changeLink k l.judged.answered .answer (putLink k l.judged s) = v at *
    have hlink : nth v.links k = l.judged.answered := by
      rw [hreach.only.links]
      exact nth_upd_same _ _ _
    refine ⟨_, hexec, ?_, ?_, hreach.points, fun a ha => ?_, fun _ => hrecord⟩
    · rw [State.showLink_links, hlink, if_pos hs]
      rfl
    · rw [State.showLink_links, hlink]
      exact { hreach.only with }
    · exact ((showLink_memory k v).same a fun h => ha (.inl h)).trans (hreach.memory.same a fun h => ha (.inr h))
  · rw [validAnswer_short _ _ (by rw [hj]; exact hs) (by rw [hj]; exact hv), hj, putLink_putLink] at hexec
    refine ⟨_, hexec, ?_, ?_, fun _ _ => rfl, fun a ha => (showLink_memory k _).same a fun h => ha (.inl h),
      fun h => ?_⟩
    · rw [State.showLink_links, putLink_links, nth_upd_same, if_neg (by rw [hs]; decide), ← hs]
      rfl
    · rw [State.showLink_links, putLink_links, nth_upd_same]
      exact { (alarmSide.refl (putLink k { l.judged with miss := 0, validRun := l.validRun + 1 } s)).only with }
    · rw [hs] at h
      cases h

end Sys2Proof.Machine
end

section
/-! The orders of the links (sections 4.5 and 4.6), and O30. -/

namespace Sys2Proof.Machine

variable {k : Fin 4} {n m : Fin 16} {d : Nat} {b : List Byte} {s t u : State}

/-! ## A RESTART LINK at its deadline (R77) -/

/-- A link's entry lies outside the slots. -/
theorem SlotDone.showLink {r : Result} {data : List Byte} (h : SlotDone s.mem n r data) (k : Fin 4) :
    SlotDone (State.showLink k s).mem n r data :=
  h.of_read fun a _ h2 => (showLink_memory k s).same a (by have := slotBase_bounds n; simp only [linkByte, hallBase]; omega)

theorem execRestartLinkDeadline_due (h : (nth s.links k).restart = some (m, d)) (hd : d ≤ s.now) :
    exec (.restartLinkDeadline k) s = .next (State.showLink k (finishRestart k .linkNoAnswer s)) := by
  simp only [exec, execRestartLinkDeadline, h, if_pos hd]

/-- The end of the RESTART LINK in flight: the link goes on without it, and the order is counted. -/
theorem finishRestart_flying (r : Result) (h : (nth s.links k).restart = some (m, d)) :
    finishRestart k r s = { s with
      links := upd s.links k { nth s.links k with restart := none }
      engine := s.engine.counted
      mem := (finishRestart k r s).mem }
    ∧ sameMemoryBut (doneByte m) s.mem (finishRestart k r s).mem := by
  have hrest := finishRestart_rest k r s
  rw [if_neg (by rw [h]; exact Option.some_ne_none _)] at hrest
  refine ⟨hrest, fun a ha => (finishRestart_memory k r s).same a ?_⟩
  rintro ⟨x, hx, hx'⟩
  obtain rfl : x = (m, d) := Option.some.inj (hx.symm.trans h)
  exact ha hx'

/-! ## RESTART LINK at its take (R76) -/

/-- The bytes of a link's events lie above the slots. -/
theorem answerByte_above {a : Nat} (h : answerByte k a) : 768 ≤ a := by
  simp only [answerByte, linkByte, mirrorByte, recordByte, hallBase] at h
  omega

/-- The state that a RESTART LINK leaves at its take. -/
theorem takeSlot_restartLink (ho : s.holdsOrder n .restartLink b) (hk : numAt b 0 = k.val)
    (hd : (nth s.links k).state ≠ .disabled) (hr : (nth s.links k).restart = none) : takeSlot n s
      = State.showLink k (linkMoved k ((nth s.links k).restarted n s.now) .restartOrder (s.taking n)) := by
  rw [takeSlot_eq ho rfl (by decide), applyOrder,
    orderRestartLink_taken hk (s := s.taking n) hd hr]
  rfl

/-! ## SET LINK (R75) -/

/-- The state that SET LINK's change of state leaves. -/
def linkSet (k : Fin 4) (b : List Byte) (s : State) : State :=
  switchLink k ((nth s.links k).given b) (decide (numAt b 1 = 1)) s

/-- The SETTINGS record of SET LINK (R75). -/
def linkSettings (k : Fin 4) (b : List Byte) (s : State) : Record :=
  settingsRecord .setLink s.stamp k.val (numAt b 1) (numAt b 2) (numAt b 3) 0

/-- The end of SET LINK after its change of state: its record, the link's entry and the DONE write. -/
def linkSetEnded (n : Fin 16) (k : Fin 4) (r : Record) (s : State) : State :=
  finish n .doneOk [] (State.showLink k (offer r s))

theorem takeSlot_setLink (ho : s.holdsOrder n .setLink b) (hc : s.engine.commissioning = false) (hk : numAt b 0 = k.val)
    (h1 : numAt b 1 ≤ 1) (h3 : numAt b 3 ≤ 15) :
    takeSlot n s = linkSetEnded n k (linkSettings k b s) (linkSet k b (s.taking n)) :=
  takeSlot_done ho hc (by decide) (orderSetLink_taken hk h1 h3)

/-- The end of SET LINK leaves its change of state but for the DONE write and what the record reaches. -/
theorem linkSetEnded_done (n : Fin 16) (k : Fin 4) (r : Record) (w : u.mem.wf = true) (hd : dueIn journalPoint u) :
    OrderDone n .doneOk [] journalPoint (fun a => linkByte k a ∨ recordByte a) u u (linkSetEnded n k r u)
    ∧ QueueGrows (offer r u) (linkSetEnded n k r u) := by
  have hreach := (((sideReach_closed (fun _ h => h) (fun p hp => by rcases hp with rfl | rfl <;> decide)
    (fun _ h => h)).offer r u) hd).2
  unfold linkSetEnded
  generalize offer r u = v at hreach ⊢
  have hmem := showLink_memory k v
  have hrest := finish_rest n .doneOk [] (State.showLink k v)
  have hslot := finish_slot n .doneOk [] _ (hmem.wf (hreach.memory.wf w))
  have hdone := finish_memory n .doneOk [] (State.showLink k v)
  generalize finish n .doneOk [] (State.showLink k v) = t at *
  refine ⟨⟨hslot, ?_, fun p hp => ?_, fun a ha => ?_⟩, queueGrows_same (by rw [hrest]; rfl)⟩
  · rw [hrest]
    exact { hreach.only with engine := congrArg Engine.counted hreach.only.engine }
  · rw [hrest]
    exact hreach.points p hp
  · obtain ⟨h1, h2⟩ := not_or.mp ha
    obtain ⟨h2, h3⟩ := not_or.mp h2
    rw [hdone a h1, hmem.same a h2, hreach.memory.same a h3]

/-- What SET LINK leaves of its change of state, and that the change's records go before its own. -/
theorem setLink_done (ho : s.holdsOrder n .setLink b) (hc : s.engine.commissioning = false)
    (hk : numAt b 0 = k.val) (h1 : numAt b 1 ≤ 1) (h3 : numAt b 3 ≤ 15)
    (hset : (linkSet k b (s.taking n)).mem.wf = true) (hd : dueIn journalPoint (linkSet k b (s.taking n))) :
    OrderDone n .doneOk [] journalPoint (fun a => linkByte k a ∨ recordByte a) (linkSet k b (s.taking n))
      (linkSet k b (s.taking n)) (takeSlot n s)
    ∧ QueueGrows (offer (linkSettings k b s) (linkSet k b (s.taking n))) (takeSlot n s) := by
  rw [takeSlot_setLink ho hc hk h1 h3]
  exact linkSetEnded_done n k (linkSettings k b s) hset hd

/-- The slot of an order in flight on a link is not one with none in flight. -/
theorem restart_slot_ne (hf : s.inFlight n = false) (hr : (nth s.links k).restart = some (m, d)) : m ≠ n := by
  rintro rfl
  have hheld : s.inFlight m = true := (inFlight_iff s m).mpr ⟨.inr k, by rw [heldBy, hr]; rfl⟩
  exact Bool.noConfusion (hf.symm.trans hheld)

/-- The bytes of another slot are none that the end of SET LINK writes. -/
theorem outside_of_slot (hne : m ≠ n) {a : Nat} (h1 : slotBase m ≤ a) (h2 : a < slotBase m + 32) :
    ¬(doneByte n a ∨ linkByte k a ∨ recordByte a) := by
  have hv : m.val ≠ n.val := fun e => hne (Fin.ext e)
  simp only [doneByte, linkByte, recordByte, hallBase, slotBase] at *
  omega

/-- What SET LINK's change of state leaves of the part, with the engine at `e`, when it ends the orders in the slots of
`B`. -/
structure LinkSet (k : Fin 4) (e : Engine) (B : Nat → Prop) (s u : State) : Prop where
  rest : SideOnly { s with links := u.links, panels := u.panels, engine := e } u
  memory : MemoryReach (fun a => B a ∨ answerByte k a) s u
  due : dueIn journalPoint u

theorem LinkSet.of_event {B : Nat → Prop} (h : LinkEvent k s u) (hd : dueIn journalPoint u) : LinkSet k s.engine B s u :=
  ⟨{ h.rest with engine := h.rest.engine }, h.memory.mono fun _ => .inr, hd⟩

/-- The end of SET LINK counts the order once more than its change of state does. -/
theorem LinkSet.ended {e : Engine} {B : Nat → Prop} (h : LinkSet k e B s u)
    (ht : SideOnly { u with engine := u.engine.counted } t) :
    SideOnly { s with links := t.links, panels := t.panels, engine := e.counted } t where
  pending := ht.pending.trans h.rest.pending
  time := ht.time.trans h.rest.time
  classes := ht.classes.trans h.rest.classes
  panels := rfl
  settleWindow := ht.settleWindow.trans h.rest.settleWindow
  links := rfl
  inputs := ht.inputs.trans h.rest.inputs
  bankA := ht.bankA.trans h.rest.bankA
  bankB := ht.bankB.trans h.rest.bankB
  active := ht.active.trans h.rest.active
  outputs := ht.outputs.trans h.rest.outputs
  profiles := ht.profiles.trans h.rest.profiles
  supply := ht.supply.trans h.rest.supply
  engine := ht.engine.trans (congrArg Engine.counted h.rest.engine)
  sched := ht.sched.trans h.rest.sched

/-- The settings that leave the link's state. -/
theorem linkSet_same (hs : (nth s.links k).state = .disabled ↔ ¬numAt b 1 = 1) :
    linkSet k b s = putLink k ((nth s.links k).given b) s :=
  switchLink_same (hs.trans decide_eq_false_iff_not.symm)

/-- The settings that enable a DISABLED link. -/
theorem linkSet_on (hs : (nth s.links k).state = .disabled) (hon : numAt b 1 = 1) :
    linkSet k b s = changeLink k ((nth s.links k).given b).switchedOn .enabled s := by
  rw [linkSet, decide_eq_true hon, switchLink_on (x := (nth s.links k).given b) rfl hs,
    linkMoved_not_up (by rw [hs]; decide)]

/-- The settings that disable a link: its change of state, and then the end of a RESTART LINK in flight. -/
theorem linkSet_off (hs : (nth s.links k).state ≠ .disabled) (hon : ¬numAt b 1 = 1) : linkSet k b s
    = finishRestart k .refusedState (linkMoved k ((nth s.links k).given b).switchedOff .disabled s) := by
  rw [linkSet, decide_eq_false hon, switchLink_off (x := (nth s.links k).given b) rfl hs]

/-- SET LINK disables the link (R75): it is not DISABLED, and the enabled setting is 0. -/
abbrev Link.disables (l : Link) (b : List Byte) : Prop := l.state ≠ .disabled ∧ ¬numAt b 1 = 1

/-- What SET LINK leaves of a link that it disables. -/
def Link.setOff (l : Link) (b : List Byte) : Link :=
  { (l.given b).switchedOff with restart := none, buttons := if l.state = .up then {} else l.buttons }

theorem linkSet_off_links (h : (nth s.links k).disables b) :
    (linkSet k b s).links = upd s.links k ((nth s.links k).setOff b) := by
  rw [linkSet_off h.1 h.2, finishRestart_links, linkMoved_links, nth_upd_same, upd_upd]
  rfl

/-- A link that SET LINK disables leaves UP and ends a RESTART LINK in flight (R75). -/
theorem linkSet_off_ends (hd : s.due = []) (h : (nth s.links k).disables b) :
    LinkSet k (if (nth s.links k).restart = none then s.engine else s.engine.counted)
      (fun a => ∃ x ∈ (nth s.links k).restart, doneByte x.1 a) s (linkSet k b s)
    ∧ leftUp k s (linkSet k b s)
    ∧ ∀ m d, (nth s.links k).restart = some (m, d) → s.mem.wf = true → SlotDone (linkSet k b s).mem m .refusedState
        [byte LinkState.disabled.code, byte (nth s.links k).miss, byte (nth s.links k).lastError.code] := by
  rw [linkSet_off h.1 h.2]
  obtain ⟨hdue, hleft⟩ := linkMoved_left (x := ((nth s.links k).given b).switchedOff) .disabled hd rfl
  have hevent := linkMoved_event k ((nth s.links k).given b).switchedOff .disabled s
  have hlinks := linkMoved_links k ((nth s.links k).given b).switchedOff .disabled s
  generalize linkMoved k ((nth s.links k).given b).switchedOff .disabled s = v at *
  have hlink : nth v.links k = { ((nth s.links k).given b).switchedOff with
      buttons := if (nth s.links k).state = .up then {} else (nth s.links k).buttons } := by
    rw [hlinks]
    exact nth_upd_same _ _ _
  have hrestart : (nth v.links k).restart = (nth s.links k).restart := by rw [hlink]; rfl
  have hrest := finishRestart_rest k .refusedState v
  have hmem := finishRestart_memory k .refusedState v
  have hslot := fun m d h => finishRestart_slot (k := k) (s := v) (n := m) (d := d) .refusedState (hrestart.trans h)
  rw [hrestart, show v.engine = s.engine from hevent.rest.engine] at hrest
  rw [hrestart] at hmem
  rw [hlink] at hslot
  generalize finishRestart k .refusedState v = u at *
  refine ⟨⟨?_, ?_, ?_⟩, leftUp_after hleft (fun p _ => by rw [hrest]) (by rw [hrest]),
    fun m d h w => hslot m d h (hevent.memory.wf w)⟩
  · rw [hrest]
    exact { hevent.rest with links := rfl, panels := rfl, engine := rfl }
  · exact ⟨fun w => hmem.wf (hevent.memory.wf w), fun a ha => (hmem.same a fun h => ha (.inl h)).trans
      (hevent.memory.same a fun h => ha (.inr h))⟩
  · exact fun r hr => hdue r ((show u.due = v.due by rw [hrest]) ▸ hr)

/-- A link that SET LINK does not disable is all that it changes, beside its record (R75). -/
theorem linkSet_keeps {B : Nat → Prop} (hd : s.due = []) (h : ¬(nth s.links k).disables b) :
    LinkSet k s.engine B s (linkSet k b s)
    ∧ samePointsBut journalPoint s (linkSet k b s) ∧ (linkSet k b s).panels = s.panels := by
  by_cases hon : (nth s.links k).state = .disabled ∧ numAt b 1 = 1
  · rw [linkSet_on hon.1 hon.2]
    have hreach := changeLink_reach k ((nth s.links k).given b).switchedOn .enabled hd
    exact ⟨.of_event (changeLink_event k _ _ s) (offerLink_due _ (s := putLink k _ s) (dueIn_nil hd)), hreach.points,
      hreach.only.panels⟩
  · have hsame : (nth s.links k).state = .disabled ↔ ¬numAt b 1 = 1 :=
      ⟨fun hs hn => hon ⟨hs, hn⟩, fun hn => by_contra fun hs => h ⟨hs, hn⟩⟩
    rw [linkSet_same hsame]
    exact ⟨.of_event (.putLink k _ s) (dueIn_nil hd), fun _ _ => rfl, rfl⟩

theorem linkSet_reach (hd : s.due = []) : LinkSet k
    (if (nth s.links k).disables b ∧ (nth s.links k).restart ≠ none then s.engine.counted else s.engine)
    (fun a => ∃ x ∈ (nth s.links k).restart, (nth s.links k).disables b ∧ doneByte x.1 a) s (linkSet k b s) := by
  by_cases h : (nth s.links k).disables b
  · have hset := (linkSet_off_ends hd h).1
    simp only [eq_true h, true_and, ne_eq, ite_not]
    exact hset
  · rw [if_neg fun h' => h h'.1]
    exact (linkSet_keeps hd h).1

/-- Settings that enable the link make its LINK record (R78). -/
theorem linkSet_on_record (hf : s.filters .link = false) (hs : (nth s.links k).state = .disabled) (hon : numAt b 1 = 1)
    (hg : QueueGrows (linkSet k b s) t) : recordJoins (linkRecord k .disabled
      ((nth s.links k).given b).switchedOn .enabled (nth s.links k).miss s.stamp) s t := by
  rw [linkSet_on hs hon, ← linkMoved_not_up (by rw [hs]; decide)] at hg
  rw [← hs]
  exact linkMoved_record hf hg

/-- Settings that disable the link make its LINK record, before the order in flight ends (R75, R78). -/
theorem linkSet_off_record (hf : s.filters .link = false) (h : (nth s.links k).disables b)
    (hg : QueueGrows (linkSet k b s) t) : recordJoins (linkRecord k (nth s.links k).state
      { (nth s.links k).given b with state := .disabled } .disabled (nth s.links k).miss s.stamp) s t := by
  rw [linkSet_off h.1 h.2] at hg
  have hjoin := linkMoved_record hf (queueGrows_trans (queueGrows_same (by rw [finishRestart_rest])) hg)
  rw [linkRecord_congr (y := { (nth s.links k).given b with state := .disabled }) ?_ ?_ ?_] at hjoin
  · exact hjoin
  all_goals rfl

/-- A record offered from outside the alarm side as the event begins joins the queue. -/
theorem recordJoins_of_now {r : Record} (hu : u.journal = s.journal) (h : QueueGrows (offer r u) t) : recordJoins r s t := by
  intro hr
  have e := offerWith_roomy reportNow r u (show u.roomy r.high by unfold State.roomy; rw [hu]; exact hr)
  obtain ⟨_, _, h3⟩ := h (by rw [offer, e, stage_journal, hu]; exact hr.2)
  rw [offer, e, stage_journal, hu] at h3
  exact h3

/-- Settles O30: the deadline ends the order in flight; each order refuses or moves the link, and SET LINK goes by the change
of state its settings bring. -/
theorem restartLinkDeadlineEndsOrder : Obligations.RestartLinkDeadlineEndsOrder := by
  unfold Obligations.RestartLinkDeadlineEndsOrder
  intro k n m d b s w l t
  refine ⟨fun hr hd => ?_, fun ho h4 => ?_, fun ho hk hd => ?_, fun ho hk hd hr => ?_, fun ho hk hd hr hdue => ?_,
    fun ho hc h => ?_, ?_⟩
  · obtain ⟨hrest, hmem⟩ := finishRestart_flying .linkNoAnswer hr
    have hslot := finishRestart_slot .linkNoAnswer hr w
    refine ⟨_, execRestartLinkDeadline_due hr hd, ?_, hslot.showLink k, fun a ha => ?_⟩
    · generalize finishRestart k .linkNoAnswer s = u at *
      rw [hrest]
      rfl
    · obtain ⟨h1, h2⟩ := not_or.mp ha
      exact ((showLink_memory k _).same a h2).trans (hmem a h1)
  · exact orderEnds_of w ho rfl (by decide) (orderRestartLink_range h4)
  · exact orderEnds_of w ho rfl (by decide) (orderRestartLink_disabled (s := s.taking n) hk hd)
  · exact orderEnds_of w ho rfl (by decide) (orderRestartLink_busy (s := s.taking n) hk hd hr)
  · have ht : t = _ := takeSlot_restartLink ho hk hd hr
    have hevent := (linkMoved_event k (l.restarted n s.now) .restartOrder (s.taking n)).trans (.showLink k _)
    have hlinks := linkMoved_links k (l.restarted n s.now) .restartOrder (s.taking n)
    obtain ⟨_, hleft⟩ := linkMoved_left (x := l.restarted n s.now) .restartOrder (s := s.taking n) hdue rfl
    have hrecord := fun hf => linkMoved_record (k := k) (s := s.taking n) (x := l.restarted n s.now) (c := .restartOrder)
      (t := State.showLink k (linkMoved k (l.restarted n s.now) .restartOrder (s.taking n))) hf (showLink_grows k _)
    generalize linkMoved k (l.restarted n s.now) .restartOrder (s.taking n) = v at *
    obtain ⟨_, htaken, hmem⟩ := taken_of (u := State.showLink k v) w rfl (fun a => answerByte_above) hevent.memory.same
    rw [ht]
    exact ⟨hlinks, htaken, hleft, { hevent.rest with }, hmem, hrecord⟩
  · refine orderEnds_of w ho hc (by decide) (orderSetLink_refused ?_)
    omega
  · intro ho hc hk h1 h3 hdue hfl on y ends e
    have hdue' : (s.taking n).due = [] := hdue
    have hset := linkSet_reach (k := k) (b := b) hdue'
    obtain ⟨hdone, hgrows⟩ := setLink_done ho hc hk h1 h3 (hset.memory.wf (Memory.wf_writeWord _ _ w)) hset.due
    have hall := queueGrows_trans (queueGrows_event.offer _ _) hgrows
    have hlinks : t.links = (linkSet k b (s.taking n)).links := hdone.rest.links
    have hpanels : t.panels = (linkSet k b (s.taking n)).panels := hdone.rest.panels
    refine ⟨hdone.slot, fun hs hn => ?_, fun hs => ?_, fun h => ?_, fun h => ?_, fun h => ?_, fun m d h hr => ?_, ?_,
      fun a ha => ?_, fun hf hs hn => ?_, fun hf h => ?_, fun hs => ?_⟩
    · rw [hlinks, linkSet_on (s := s.taking n) hs hn, changeLink_links]
      rfl
    · rw [hlinks, linkSet_same (s := s.taking n) hs, putLink_links]
      rfl
    · rw [hlinks, linkSet_off_links (s := s.taking n) h]
      rfl
    · exact leftUp_after (linkSet_off_ends hdue' h).2.1 hdone.points hpanels
    · obtain ⟨_, hpoints, hpan⟩ := linkSet_keeps (B := fun _ => False) hdue' h
      exact ⟨fun p hp => (hdone.points p hp).trans (hpoints p hp), hpanels.trans hpan⟩
    · have hslot := (linkSet_off_ends hdue' h).2.2 m d hr (Memory.wf_writeWord _ _ w)
      have hne : m ≠ n := restart_slot_ne hfl hr
      exact hslot.of_read fun a h1 h2 => hdone.memory a (outside_of_slot hne h1 h2)
    · have he : e = Engine.counted (if (nth (s.taking n).links k).disables b ∧ (nth (s.taking n).links k).restart ≠ none then
          (s.taking n).engine.counted else (s.taking n).engine) := by
        rw [apply_ite Engine.counted]
        rfl
      rw [he]
      exact { hset.ended hdone.rest with }
    · obtain ⟨h1, h2⟩ := not_or.mp ha
      obtain ⟨h2, h3⟩ := not_or.mp h2
      obtain ⟨h3, h4⟩ := not_or.mp h3
      obtain ⟨h4, h5⟩ := not_or.mp h4
      rw [hdone.memory a (not_or.mpr ⟨h1, not_or.mpr ⟨h3, h5⟩⟩), hset.memory.same a
        (not_or.mpr ⟨h2, not_or.mpr ⟨h3, not_or.mpr ⟨h4, h5⟩⟩⟩)]
      exact Memory.read_writeWord_other _ (by simp only [doneByte] at h1; omega)
    · exact linkSet_on_record (s := s.taking n) hf hs hn hall
    · exact linkSet_off_record (s := s.taking n) hf h hall
    · rw [linkSet_same (s := s.taking n) hs] at hgrows
      exact recordJoins_of_now (r := linkSettings k b s) (u := putLink k (l.given b) (s.taking n)) rfl hgrows

end Sys2Proof.Machine
end

section
/-! What a sample and a qualification make of the trip inputs (R81, R82), and the laws of the banks and of the inputs through
every step (O57). -/

namespace Sys2Proof.Machine

/-! ## One trip input -/

/-- The input once its run has ended in a qualification (R82). -/
def TripInput.settled (x : TripInput) : TripInput := { x with qualified := x.level, run := 0, start := none }

/-- The input after a sample that finds it at `level`, with the qualification that the sample brings about (R81, R82). -/
def TripInput.taken (x : TripInput) (level : Bool) (q : Nat) (m : Receipt) : TripInput :=
  if (x.sampled level q m).runMet then (x.sampled level q m).settled else x.sampled level q m

theorem TripInput.settled_holds (x : TripInput) : x.settled.holds := .inl ⟨rfl, rfl, rfl⟩

/-- A sample whose count is in range leaves an input with its laws (R81, R82). -/
theorem TripInput.taken_holds {x : TripInput} (h : x.holds) (l : Bool) {q : Nat} (hq : 1 ≤ q ∧ q ≤ 15) (m : Receipt) :
    (x.taken l q m).holds := by
  unfold TripInput.taken
  split
  · exact TripInput.settled_holds _
  · next hr => exact sampled_holds h l hq m (Bool.not_eq_true _ ▸ hr)

/-! ## A qualification, step by step (R82) -/

/-- The stamp and run time of a qualification: its run's start (R84, R85). -/
def State.runStart (s : State) (i : Fin 32) : Receipt := (nth s.inputs i).start.getD s.moment

/-- The state in which a qualification hands on its edges: the input has qualified, and the record is made (R85, R86). -/
def noted (i : Fin 32) (s : State) : State :=
  offer (tripInputRecord i (nth s.inputs i).level (s.runStart i).stamp s)
    (State.showInput i { s with inputs := upd s.inputs i (nth s.inputs i).settled })

/-- The state after the edges of a qualification (R93). -/
def edged (i : Fin 32) (s : State) : State := (List.finRange 24).foldl (handEdge s.drivers) (noted i s)

theorem qualify_eq (i : Fin 32) (s : State) : qualify i s = takeContact (tripPoint i)
    (if (nth s.inputs i).level then .closed else .opened) (s.runStart i).run (s.runStart i).stamp false (edged i s) := rfl

theorem noted_passed (i : Fin 32) (s : State) :
    Passed { s with inputs := upd s.inputs i (nth s.inputs i).settled } (noted i s) :=
  frame_trans ((frame_event _).showInput i _) ((frame_event _).offer _ _)

theorem edged_frame (i : Fin 32) (s : State) : Frame (· = .outputs) (noted i s) (edged i s) :=
  (frame_event (· = .outputs)).foldl _ _ _ fun u o _ =>
    (frame_event (· = .outputs)).handEdge rfl (ownReport_fault rfl) _ u o

theorem qualify_told (i : Fin 32) (s : State) :
    Told (tripPoint i) (if (nth s.inputs i).level then .closed else .opened) (edged i s) (qualify i s) :=
  takeContact_told (tripPoint_not_journal i) _ _ _ _ _

/-- Of the inputs a qualification changes its own alone. -/
theorem qualify_inputs_eq (i : Fin 32) (s : State) :
    (qualify i s).inputs = upd s.inputs i (nth s.inputs i).settled :=
  calc (qualify i s).inputs
    _ = (edged i s).inputs := (qualify_told i s).items .inputs id
    _ = (noted i s).inputs := (edged_frame i s).items .inputs (by simp)
    _ = _ := (noted_passed i s).items .inputs id

/-! ## A sample of one input -/

/-- The state in which a sampled input is tested for qualification: its items and its mirror entry are written (R81, R86). -/
def sampledAt (lines : BitVec 32) (s : State) (i : Fin 32) : State :=
  let x := nth s.inputs i
  let y := x.sampled (lines.getLsbD i.val) (s.qOf i) s.moment
  if x.shows y then State.showInput i { s with inputs := upd s.inputs i y } else { s with inputs := upd s.inputs i y }

/-- Beside the input itself only its mirror entry is written. -/
theorem sampledAt_rest (lines : BitVec 32) (s : State) (i : Fin 32) : sampledAt lines s i = { s with
    inputs := upd s.inputs i ((nth s.inputs i).sampled (lines.getLsbD i.val) (s.qOf i) s.moment)
    mem := (sampledAt lines s i).mem } := by
  unfold sampledAt
  dsimp only
  split <;> rfl

theorem sampledAt_inputs (lines : BitVec 32) (s : State) (i : Fin 32) : (sampledAt lines s i).inputs
    = upd s.inputs i ((nth s.inputs i).sampled (lines.getLsbD i.val) (s.qOf i) s.moment) := by
  rw [sampledAt_rest]

theorem nth_sampledAt (lines : BitVec 32) (s : State) (i : Fin 32) : nth (sampledAt lines s i).inputs i
    = (nth s.inputs i).sampled (lines.getLsbD i.val) (s.qOf i) s.moment := by
  rw [sampledAt_inputs, nth_upd_same]

/-- A sample's input is qualified when its run has reached its count (R82). -/
theorem sampleInput_eq (lines : BitVec 32) (s : State) (i : Fin 32) : sampleInput lines s i =
    if (nth (sampledAt lines s i).inputs i).runMet then qualify i (sampledAt lines s i) else sampledAt lines s i := by
  rw [nth_sampledAt]
  rfl

/-- Of the inputs a sample of one changes that one alone. -/
theorem sampleInput_inputs_eq (lines : BitVec 32) (s : State) (i : Fin 32) : (sampleInput lines s i).inputs
    = upd s.inputs i ((nth s.inputs i).taken (lines.getLsbD i.val) (s.qOf i) s.moment) := by
  rw [sampleInput_eq]
  unfold TripInput.taken
  split
  · next hr =>
    rw [nth_sampledAt] at hr
    rw [qualify_inputs_eq, nth_sampledAt, sampledAt_inputs, upd_upd, if_pos hr]
  · next hr =>
    rw [nth_sampledAt] at hr
    rw [sampledAt_inputs, if_neg hr]

/-- A switch of the active bank shows each input the count in force (R86). -/
theorem showNewCount_inputs_eq (s : State) (i : Fin 32) :
    (showNewCount s i).inputs = upd s.inputs i { nth s.inputs i with qShown := s.qOf i } := by
  unfold showNewCount
  dsimp only
  split
  · next e => rw [← e, upd_nth]
  · rfl

/-! ## The laws of the inputs through every step (R81, R82) -/

theorem inputsHold_upd {s t : State} (h : s.inputsHold) {i : Fin 32} {x : TripInput} (ht : t.inputs = upd s.inputs i x)
    (hx : x.holds) : t.inputsHold := by
  intro j
  rw [ht, nth_upd]
  split
  · exact hx
  · exact h j

theorem inputsHold_same {s t : State} (h : s.inputsHold) (ht : t.inputs = s.inputs) : t.inputsHold := by
  intro i
  rw [ht]
  exact h i

/-- The laws of the banks and those of the inputs, which rest on the counts of the active bank. -/
structure BanksAndInputs (s : State) : Prop where
  banks : BanksLaw s
  inputs : s.inputsHold

theorem BanksAndInputs.frame {F : Item → Prop} {s t : State} (h : BanksAndInputs s) (hf : Frame F s t)
    (hF : ∀ x, tripItems x → ¬F x) : BanksAndInputs t :=
  ⟨h.banks.frame hf fun x hx => hF x (.inl hx), inputsHold_same h.inputs (hf.items .inputs (hF _ (.inr rfl)))⟩

theorem sampleInput_inputsHold (lines : BitVec 32) {s : State} (i : Fin 32) (h : BanksAndInputs s) :
    (sampleInput lines s i).inputsHold :=
  inputsHold_upd h.inputs (sampleInput_inputs_eq lines s i) (TripInput.taken_holds (h.inputs i) _ (qOf_range h.banks i) _)

theorem sampleInput_law (lines : BitVec 32) {s : State} (i : Fin 32) (h : BanksAndInputs s) :
    BanksAndInputs (sampleInput lines s i) :=
  ⟨h.banks.frame (sampleInput_frame lines s i) fun _ => not_bank_of_inputs, sampleInput_inputsHold lines i h⟩

theorem orderSwitchBank_inputsHold {s : State} (h : s.inputsHold) : (orderSwitchBank s).1.inputsHold := by
  unfold orderSwitchBank
  dsimp only
  split
  · exact h
  · split
    · exact h
    · split
      · exact h
      · dsimp only
        have hcounts : ((List.finRange 32).foldl showNewCount (State.showMatrix (State.showActive
            { s with active := some s.standby }))).inputsHold :=
          List.foldlRecOn _ showNewCount (motive := State.inputsHold) h fun u hu i _ =>
            inputsHold_upd hu (showNewCount_inputs_eq u i) (hu i)
        exact inputsHold_same hcounts (((frame_event fun _ => False).offer _ _).items .inputs id)

/-- Of the orders only SWITCH BANK changes the inputs. -/
theorem inputsHold_order (k : OrderKind) (n : Fin 16) (d : List Byte) {s : State} (h : s.inputsHold) :
    (applyOrder k n d s).1.inputsHold := by
  by_cases hk : k.touches .inputs
  · cases k <;> simp [OrderKind.touches] at hk
    exact orderSwitchBank_inputsHold h
  · exact inputsHold_same h ((applyOrder_frame k n d s).items .inputs hk)

/-- Of the orders only LOAD MATRIX and SWITCH BANK change the banks. -/
theorem banksLaw_order (k : OrderKind) (n : Fin 16) (d : List Byte) {s : State} (h : BanksLaw s) :
    BanksLaw (applyOrder k n d s).1 := by
  by_cases hk : ∃ x, k.touches x ∧ bankItems x
  · obtain ⟨x, hx, hb⟩ := hk
    exact banks_order hx hb n d h
  · exact h.frame (applyOrder_frame k n d s) fun x hb hx => hk ⟨x, hx, hb⟩

theorem banksAndInputs_plain {c : Instr} (hp : plain c = true) (hc : touches c .inputs) {s t : State}
    (he : exec c s = .next t) (h : BanksAndInputs s) : BanksAndInputs t := by
  refine ⟨h.banks.frame (execPlain_frame c hp s t he) fun y hy => not_touches_banks hp hy, ?_⟩
  cases c <;> simp only [plain, Bool.false_eq_true] at hp <;> simp only [touches, reduceCtorEq, or_self] at hc <;>
    simp only [exec] at he
  case tripInputSample lines =>
    simp only [execTripInputSample, Host.Outcome.next.injEq] at he; subst he
    split
    · exact (List.foldlRecOn _ (sampleInput lines) (motive := BanksAndInputs)
        (h.frame ((frame_event fun _ => False).sched s _) fun _ _ => id) fun u hu i _ => sampleInput_law lines i hu).inputs
    · exact h.inputs
  case tripInputQualified i =>
    simp only [execTripInputQualified, Host.Outcome.next.injEq] at he; subst he
    split
    · exact inputsHold_upd h.inputs (qualify_inputs_eq i s) (TripInput.settled_holds _)
    · exact h.inputs

theorem banksAndInputs_segmentRead {o : ImageOrder} {s t : State} (he : exec (.segmentRead o) s = .next t)
    (h : BanksAndInputs s) : BanksAndInputs t := by
  have hF := frame_step (· ≠ .inputs)
  have hf := hF.segmentRead (by simp) (by simp) (by simp) (by simp) (fun bs u => hF.complete (by simp) bs u) o s t he
  exact ⟨segmentRead_banks he h.banks, inputsHold_same h.inputs (hf.items .inputs (by simp))⟩

theorem inputsHold_init {s : State} (h : s.inputs = State.init.inputs) : s.inputsHold := by
  intro i
  rw [h, show nth State.init.inputs i = {} from nth_replicate _ i]
  exact .inl ⟨rfl, rfl, rfl⟩

/-- Settles O57: of the part's events only LOAD MATRIX, SWITCH BANK and those of the trip lines change banks and inputs, and a
sample compares each run with a count of the active bank. -/
theorem stepKeepsBankAndInputLaws : Obligations.StepKeepsBankAndInputLaws := by
  unfold Obligations.StepKeepsBankAndInputLaws
  intro s t hb hi he
  have hF : StepClosed (fun x => ¬tripItems x) fun s t => BanksAndInputs s → BanksAndInputs t :=
    .of_frame fun s t hf h => h.frame hf fun _ hx k => k hx
  have hx : ∀ c s t, c ≠ .powerOnReset → c ≠ .resetLine → exec c s = .next t → BanksAndInputs s → BanksAndInputs t := by
    refine fun c s t h1 h2 => hF.exec (fun s => hF.leaveStarting (by simp [tripItems, bankItems]) s) ?_ ?_ ?_ c s t h1 h2
    · exact fun k n d s _ h => ⟨banksLaw_order k n d h.banks, inputsHold_order k n d h.inputs⟩
    · exact fun o s t he => banksAndInputs_segmentRead he
    · rintro c s t hp ⟨x, hx, hn⟩ he h
      obtain rfl : x = .inputs := (not_not.mp hn).resolve_left fun k => not_touches_banks hp k hx
      exact banksAndInputs_plain hp hx he h
  have hinit : ∀ {s : State}, s.bankA = {} → s.bankB = {} → s.active = none → s.engine.loadMatrix = none →
      s.inputs = State.init.inputs → BanksAndInputs s := fun h1 h2 h3 h4 h5 =>
    ⟨banksLaw_init h1 h2 h3 h4, inputsHold_init h5⟩
  obtain ⟨hb', hi'⟩ := hF.step (fun _ _ k => ⟨k.banks.same rfl rfl rfl rfl, k.inputs⟩) (fun _ => hinit rfl rfl rfl rfl rfl)
    (fun _ _ => hinit rfl rfl rfl rfl rfl) hx s t ⟨(banksHold_iff s).mp hb, hi⟩ he
  exact ⟨(banksHold_iff t).mpr hb', hi'⟩

end Sys2Proof.Machine
end

section
/-! SWITCH BANK (section 5.6). -/

namespace Sys2Proof.Machine

/-! ## Memory -/

theorem MemoryReach.trans {A : Nat → Prop} {s t u : State} (h : MemoryReach A s t) (k : MemoryReach A t u) :
    MemoryReach A s u := ⟨fun w => k.wf (h.wf w), fun a ha => (k.same a ha).trans (h.same a ha)⟩

/-- One word written. -/
theorem putWord_memory {A : Nat → Prop} {a : Nat} (w : Word) (s : State) (h : A a ∧ A (a + 1)) :
    MemoryReach A s (s.putWord a w) :=
  ⟨Memory.wf_writeWord _ _, fun b hb => Memory.read_writeWord_other _ (by
    have h1 : b ≠ a := fun e => hb (e ▸ h.1)
    have h2 : b ≠ a + 1 := fun e => hb (e ▸ h.2)
    omega)⟩

/-- A trip input's entry is what is written when it is shown (R86). -/
theorem showInput_memory (i : Fin 32) (s : State) : MemoryReach inputByte s (State.showInput i s) := by
  refine ⟨Memory.wf_writeWords _, fun a ha => Memory.read_writeWords_other _ fun c hc => ?_⟩
  simp only [inputByte] at ha
  simp only [List.mem_cons, List.not_mem_nil, or_false] at hc
  rcases hc with rfl | rfl | rfl <;> dsimp only <;> omega

/-! ## Refusals (R91) -/

theorem standby_eq (s : State) : s.standby = if s.active = some .a then .b else .a := by
  unfold State.standby
  rcases s.active with _ | _ | _ <;> rfl

theorem orderSwitchBank_busy {s : State} (h : s.engine.loadMatrix ≠ none) :
    orderSwitchBank s = (s, .done .refusedBusy []) := if_pos h

theorem orderSwitchBank_invalid {s : State} (h : s.engine.loadMatrix = none) (hb : (s.bank s.standby).state ≠ .valid) :
    orderSwitchBank s
      = (s, .done .refusedState [byte s.standby.code, byte (s.bank s.standby).state.code]) := by
  simp only [orderSwitchBank, h, ne_eq, not_true_eq_false, if_false, if_pos hb]

theorem orderSwitchBank_driven {s : State} {i : Fin 32} (h : s.engine.loadMatrix = none)
    (hb : (s.bank s.standby).state = .valid) (hi : s.lowestActive = some i) :
    orderSwitchBank s = (s, .done .refusedDriven [0, 0, byte i.val]) := by
  simp only [orderSwitchBank, h, hb, hi, ne_eq, not_true_eq_false, if_false]

/-! ## The switch (R86, R91) -/

/-- The state after the switch, with every entry shown and no record made. -/
def switched (s : State) : State :=
  (List.finRange 32).foldl showNewCount (State.showMatrix (State.showActive { s with active := some s.standby }))

theorem orderSwitchBank_switches {s : State} (h : s.engine.loadMatrix = none)
    (hb : (s.bank s.standby).state = .valid) (hi : s.lowestActive = none) : orderSwitchBank s
      = (offer (settingsRecord .switchBank s.stamp 0 s.standby.code (bankCode s.active) 0 0) (switched s),
        .done .doneOk [byte s.standby.code]) := by
  simp only [orderSwitchBank, h, hb, hi, ne_eq, not_true_eq_false, if_false]
  rfl

/-- Inputs and memory differ, and nothing else. -/
def InputsOnly (s t : State) : Prop := t = { s with inputs := t.inputs, mem := t.mem }

theorem inputsOnly_trans {s t u : State} (h : InputsOnly s t) (k : InputsOnly t u) : InputsOnly s u := by
  cases s; cases t; cases u
  simp_all [InputsOnly]

theorem showNewCount_only (s : State) (i : Fin 32) : InputsOnly s (showNewCount s i) := by
  unfold showNewCount
  dsimp only
  split <;> rfl

theorem InputsOnly.qOf {s t : State} (h : InputsOnly s t) (i : Fin 32) : t.qOf i = s.qOf i := by
  rw [h]
  unfold State.qOf State.activeEntry
  rcases s.active with _ | _ | _ <;> rfl

/-- After every count has been shown anew, each input shows the count in force. -/
theorem showNewCounts_inputs (s : State) : InputsOnly s ((List.finRange 32).foldl showNewCount s)
    ∧ ∀ i, nth ((List.finRange 32).foldl showNewCount s).inputs i = { nth s.inputs i with qShown := s.qOf i } := by
  obtain ⟨h1, h2⟩ := foldl_once (f := showNewCount) (P := InputsOnly s)
    (pre := fun i u => nth u.inputs i = nth s.inputs i)
    (post := fun i u => nth u.inputs i = { nth s.inputs i with qShown := s.qOf i })
    (fun u i hu => inputsOnly_trans hu (showNewCount_only u i))
    (fun u i hu h => by rw [showNewCount_inputs_eq, nth_upd_same, h, hu.qOf])
    (fun u i j _ hj h => by rw [showNewCount_inputs_eq, nth_upd_other _ _ hj.symm, h])
    (fun u i j _ hj h => by rw [showNewCount_inputs_eq, nth_upd_other _ _ hj.symm, h])
    (List.nodup_finRange 32) (s := s) rfl fun _ _ => rfl
  exact ⟨h1, fun i => h2 i (List.mem_finRange i)⟩

/-- The state that the switch leaves, but for its mirror entries: the other bank, and every input's new count. -/
def switchedTo (s : State) : State := { s with
  active := some s.standby
  inputs := tab 32 fun i => { nth s.inputs i with qShown := (nth (s.bank s.standby).entries i).q } }

theorem switched_rest (s : State) : switched s = { switchedTo s with mem := (switched s).mem } := by
  obtain ⟨h1, h2⟩ := showNewCounts_inputs (State.showMatrix (State.showActive { s with active := some s.standby }))
  have hq : ∀ i, (State.showMatrix (State.showActive { s with active := some s.standby })).qOf i
      = (nth (s.bank s.standby).entries i).q := fun i => by
    unfold State.qOf State.activeEntry
    dsimp only [State.showMatrix_active, State.showActive_active]
    cases s.standby <;> rfl
  have hinputs : (switched s).inputs = (switchedTo s).inputs := nth_ext fun i => by
    rw [switchedTo, nth_tab]
    exact (h2 i).trans (by rw [hq]; rfl)
  calc switched s
    _ = { s with active := some s.standby, inputs := (switched s).inputs, mem := (switched s).mem } := h1
    _ = _ := by rw [hinputs]; rfl

/-- The bytes that the switch writes: the active bank, the inputs' entries and the matrix entry. -/
abbrev switchByte (a : Nat) : Prop :=
  a = 26 ∨ a = 27 ∨ (hallBase + 88 ≤ a ∧ a < hallBase + 128) ∨ a = hallBase + 240 ∨ a = hallBase + 241

theorem switched_memory (s : State) : MemoryReach switchByte s (switched s) := by
  have h1 : MemoryReach switchByte { s with active := some s.standby } (State.showActive { s with active := some s.standby }) :=
    putWord_memory _ _ ⟨.inl rfl, .inr (.inl rfl)⟩
  have h2 := h1.trans ((showMatrix_memory _).mono fun a ha => .inr (.inr (.inr ha)))
  suffices h : MemoryReach switchByte { s with active := some s.standby } (switched s) from ⟨h.wf, h.same⟩
  refine List.foldlRecOn _ showNewCount (motive := MemoryReach switchByte _) h2 fun u hu i _ => hu.trans ?_
  unfold showNewCount
  dsimp only
  split
  · exact ⟨id, fun _ _ => rfl⟩
  · have h3 := showInput_memory i { u with inputs := upd u.inputs i { nth u.inputs i with qShown := u.qOf i } }
    exact ⟨h3.wf, fun a ha => h3.same a fun hb => ha (.inr (.inr (.inl hb)))⟩

/-- What holds of a state holds of it with other bytes. -/
theorem SideOnly.from_mem {s t u : State} {m : Memory} (h : SideOnly t u) (e : t = { s with mem := m }) : SideOnly s u := by
  subst e
  exact { h with }

/-- A switch that is not refused, with its SETTINGS record and its DONE write. -/
theorem switchBank_done {n : Fin 16} {d : List Byte} {s : State} (w : s.mem.wf = true) (hd : s.due = [])
    (ho : s.holdsOrder n .switchBank d) (hb : barred s.engine .switchBank = false) (hm : s.engine.loadMatrix = none)
    (hv : (s.bank s.standby).state = .valid) (hi : s.lowestActive = none) :
    OrderDone n .doneOk [byte s.standby.code] journalPoint (fun a => switchByte a ∨ recordByte a) s (switchedTo s)
      (takeSlot n s)
    ∧ recordJoins (settingsRecord .switchBank s.stamp 0 s.standby.code (bankCode s.active) 0 0) s (takeSlot n s) := by
  have hv' : ((s.taking n).bank (s.taking n).standby).state = .valid := (congrArg Bank.state (bank_congr rfl rfl _)).trans hv
  rw [takeSlot_done ho hb (by decide) (orderSwitchBank_switches (s := s.taking n) hm hv' hi)]
  have hrest := switched_rest (s.taking n)
  have hmem := switched_memory (s.taking n)
  have hreach := offer_reach (settingsRecord .switchBank s.stamp 0 s.standby.code (bankCode s.active) 0 0)
    (switched (s.taking n)) (by rw [hrest]; exact hd)
  generalize switched (s.taking n) = u at *
  refine ⟨orderDone_finish (hreach.memory.wf (hmem.wf (Memory.wf_writeWord _ _ w))) ?_ ?_ ?_,
    recordJoins_finish (recordJoins_of_now (u := u) (by rw [hrest]; rfl) (queueGrows_same rfl))⟩
  · have hside := hreach.only.from_mem hrest
    exact { hside with }
  · intro p hp
    exact (hreach.points p hp).trans (by rw [hrest]; rfl)
  · intro a ha
    obtain ⟨h1, h2⟩ := not_or.mp ha
    exact (hreach.memory.same a h2).trans (hmem.same a h1)

/-- Settles O20: the refusals leave the state, and the switch is the new bank shown and its record. -/
theorem switchBankChangesActiveBank : Obligations.SwitchBankChangesActiveBank := by
  unfold Obligations.SwitchBankChangesActiveBank
  intro n d s w hd ho hs hc bk
  have hbk : s.standby = bk := standby_eq s
  clear_value bk
  subst hbk
  have hb : barred s.engine .switchBank = false := by simp only [barred, hs, hc]; rfl
  have hbank : ∀ b, (s.taking n).bank b = s.bank b := bank_congr rfl rfl
  refine ⟨fun hm => ?_, fun hm hv => ?_, fun i hm hv hi hl => ?_, fun hm hv hi => ?_⟩
  · exact orderEnds_of w ho hb (by decide) (orderSwitchBank_busy (s := s.taking n) hm)
  · refine orderEnds_of w ho hb (by decide) ?_
    rw [← hbank] at hv ⊢
    exact orderSwitchBank_invalid (s := s.taking n) hm hv
  · rw [← hbank] at hv
    exact orderEnds_of w ho hb (by decide) (orderSwitchBank_driven (s := s.taking n) hm hv (find?_finRange hi hl))
  · have hnone : s.lowestActive = none := List.find?_eq_none.mpr fun i _ => by simp [hi i]
    obtain ⟨hdone, hjoin⟩ := switchBank_done w hd ho hb hm hv hnone
    refine ⟨{ hdone with memory := fun a ha => hdone.memory a ?_ }, hjoin⟩
    simpa only [switchByte, or_assoc] using ha

end Sys2Proof.Machine
end

section
/-! SUPPORT. What the operations on one output make of it, and what they can reach (chapters 6 and 7). -/

namespace Sys2Proof.Machine

/-! ## The outputs after each operation -/

@[simp] theorem offer_outputs (r : Record) (s : State) : (offer r s).outputs = s.outputs :=
  ((frame_event fun _ => False).offer r s).items .outputs id
@[simp] theorem offer_supplyPresent (r : Record) (s : State) : (offer r s).supplyPresent = s.supplyPresent :=
  congrArg (fun x : Supply => decide (x.state = .present)) (((frame_event fun _ => False).offer r s).items .supply id)
@[simp] theorem offer_now (r : Record) (s : State) : (offer r s).now = s.now :=
  congrArg TimeBase.run (((frame_event fun _ => False).offer r s).items .time id)

theorem reportFault_outputs (o : Fin 24) (b : Bool) (s : State) :
    (reportCondition (faultPoint o) b s).outputs = s.outputs :=
  (reportCondition_told (faultPoint_not_journal o) b s).items .outputs id

/-- An output once its supervision has attended to it: FAIL_TO_OPERATE clears without CURRENT on an output that is not
energized, and the timers are judged (R117, R118). -/
def Output.attended (x : Output) (present : Bool) (now : Nat) : Output :=
  if present = true ∧ x.fault = .failToOperate ∧ x.energized = false ∧ x.feedback ≠ .current then
    Output.judge { x with fault := .none, clearing := none } present now
  else x.judge present now

/-- What supervision leaves of the items of the Output Unit, and of the feedback. -/
theorem Output.attended_kept (x : Output) (p : Bool) (n : Nat) : (x.attended p n).state = x.state
    ∧ (x.attended p n).onTimer = x.onTimer ∧ (x.attended p n).minPassed = x.minPassed ∧ (x.attended p n).sel = x.sel
    ∧ (x.attended p n).isolated = x.isolated ∧ (x.attended p n).supervised = x.supervised
    ∧ (x.attended p n).feedback = x.feedback := by
  unfold Output.attended
  split <;> exact ⟨rfl, rfl, rfl, rfl, rfl, rfl, rfl⟩

/-- No fault clears on an energized output (R118). -/
theorem Output.attended_fault {x : Output} (h : x.energized = true) (p : Bool) (n : Nat) :
    (x.attended p n).fault = x.fault := by
  unfold Output.attended
  rw [if_neg fun k => Bool.noConfusion (h.symm.trans k.2.2.1)]
  rfl

theorem changeFault_outputs (o : Fin 24) (f : SupFault) (c : SupCause) (s : State) : (changeFault o f c s).outputs
    = upd s.outputs o (Output.judge { nth s.outputs o with fault := f, clearing := none } s.supplyPresent s.now) := by
  unfold changeFault
  dsimp only
  split
  · rw [offer_outputs]
    rfl
  · rw [reportFault_outputs, offer_outputs]
    rfl

theorem supervise_outputs (o : Fin 24) (s : State) :
    (supervise o s).outputs = upd s.outputs o ((nth s.outputs o).attended s.supplyPresent s.now) := by
  unfold supervise Output.attended
  dsimp only
  split
  · exact changeFault_outputs o _ _ s
  · rfl

/-- An output as an energize leaves it, before its supervision attends to it (R99, R118). -/
def Output.energizedTo (x : Output) (st : OutState) (timer : Option Nat) : Output :=
  { x with state := st, onTimer := timer, minPassed := false, seen := decide (x.feedback = .current) }

/-- An output as a de-energize leaves it, before its supervision attends to it (R99). -/
def Output.released (x : Output) : Output := { x with state := .off, onTimer := none, minPassed := false }

theorem energize_outputs (o : Fin 24) (st : OutState) (timer : Option Nat) (c : OutCause) (s : State) :
    (energize o st timer c s).outputs
      = upd s.outputs o (((nth s.outputs o).energizedTo st timer).attended s.supplyPresent s.now) := by
  unfold energize watchCurrent
  dsimp only
  generalize tripOutputRecord o _ _ c _ = r
  rw [supervise_outputs]
  have hp : ∀ x, (putOutput o x (offer r (State.showOutput o (putOutput o { nth s.outputs o with
      state := st, onTimer := timer, minPassed := false } s)))).supplyPresent = s.supplyPresent := fun x => offer_supplyPresent r _
  have hn : ∀ x, (putOutput o x (offer r (State.showOutput o (putOutput o { nth s.outputs o with
      state := st, onTimer := timer, minPassed := false } s)))).now = s.now := fun x => offer_now r _
  rw [hp, hn]
  simp only [putOutput_outputs, offer_outputs, State.showOutput_outputs, nth_upd_same, upd_upd]
  rfl

theorem deenergize_outputs (o : Fin 24) (c : OutCause) (s : State) : (deenergize o c s).outputs
    = upd s.outputs o ((nth s.outputs o).released.attended s.supplyPresent s.now) := by
  unfold deenergize
  dsimp only
  generalize tripOutputRecord o _ _ c _ = r
  rw [supervise_outputs, offer_supplyPresent, offer_now]
  simp only [putOutput_outputs, offer_outputs, State.showOutput_outputs, nth_upd_same, upd_upd]
  rfl

/-! ## Drives (R100, R101, R103) -/

/-- An output that a rising drive energizes: OFF, not isolated, with the part IN_SERVICE (R100, R101). -/
abbrev State.rises (s : State) (x : Output) : Prop := s.engine.part = .inService ∧ x.isolated = false ∧ x.state = .off

/-- An output that a falling drive lets go (R103). -/
abbrev State.falls (s : State) (x : Output) : Prop :=
  (s.profileOf x).mode = .follow ∧ x.state = .on ∧ x.minPassed = true

/-- The state that a rising drive brings, by the mode (R101). -/
def Mode.risen (m : Mode) : OutState := if m = .latch then .latched else .on

/-- The on-timer that a rising drive starts at run time `now` (R101). -/
def Profile.timer (p : Profile) (now : Nat) : Option Nat := if p.mode = .latch then none else some (now + 10 * p.onTime)

theorem risingDrive_energizes {o : Fin 24} {s : State} (c : OutCause) (h : s.rises (nth s.outputs o)) :
    risingDrive o c s = energize o (s.profileOf (nth s.outputs o)).mode.risen
      ((s.profileOf (nth s.outputs o)).timer s.now) c s := by
  obtain ⟨h1, h2, h3⟩ := h
  unfold risingDrive Mode.risen Profile.timer
  simp only [h1, h2, Output.energized, h3, ne_eq, not_true_eq_false, if_false, Bool.false_eq_true, decide_false]
  split <;> next hm => rw [hm]; rfl

theorem risingDrive_stays {o : Fin 24} {s : State} (c : OutCause) (h : ¬s.rises (nth s.outputs o)) :
    (risingDrive o c s).outputs = s.outputs := by
  unfold risingDrive
  dsimp only
  split
  · rw [offer_outputs]
  · next h1 =>
    split
    · rw [offer_outputs]
    · next h2 =>
      rw [if_pos]
      simp only [Output.energized, decide_eq_true_eq]
      exact fun h3 => h ⟨not_not.mp h1, Bool.not_eq_true _ ▸ h2, h3⟩

theorem fallingDrive_releases {o : Fin 24} {s : State} (h : s.falls (nth s.outputs o)) :
    fallingDrive o s = deenergize o .release s := if_pos h

theorem fallingDrive_stays {o : Fin 24} {s : State} (h : ¬s.falls (nth s.outputs o)) : fallingDrive o s = s := if_neg h

/-! ## Edges (R93) -/

theorem handEdge_none {before : Vector (Option (Fin 32)) 24} {s : State} {o : Fin 24} (h : s.driver o = nth before o) :
    handEdge before s o = s := if_pos h

theorem handEdge_rising {before : Vector (Option (Fin 32)) 24} {s : State} {o : Fin 24} {i : Fin 32}
    (hb : nth before o = none) (hd : s.driver o = some i) :
    handEdge before s o = risingDrive o (.matrix i) (State.showOutput o s) := by
  unfold handEdge
  simp only [hb, hd, reduceCtorEq, if_false]

theorem handEdge_falling {before : Vector (Option (Fin 32)) 24} {s : State} {o : Fin 24} {i : Fin 32}
    (hb : nth before o = some i) (hd : s.driver o = none) :
    handEdge before s o = fallingDrive o (State.showOutput o s) := by
  unfold handEdge
  simp only [hb, hd, reduceCtorEq, if_false]

theorem handEdge_passed {before : Vector (Option (Fin 32)) 24} {s : State} {o : Fin 24} {i i' : Fin 32}
    (hb : nth before o = some i) (hd : s.driver o = some i') (hne : i ≠ i') :
    handEdge before s o = State.showOutput o s := by
  unfold handEdge
  simp only [hb, hd, Option.some.injEq, hne.symm, if_false]

/-- An output after the edge between two drivers (R93). -/
def Output.edge (x : Output) (s : State) : Option (Fin 32) → Option (Fin 32) → Output
  | none, some _ => if s.rises x then
      (x.energizedTo (s.profileOf x).mode.risen ((s.profileOf x).timer s.now)).attended s.supplyPresent s.now else x
  | some _, none => if s.falls x then x.released.attended s.supplyPresent s.now else x
  | _, _ => x

theorem handEdge_outputs (before : Vector (Option (Fin 32)) 24) (s : State) (o : Fin 24) : (handEdge before s o).outputs
    = upd s.outputs o ((nth s.outputs o).edge s (nth before o) (s.driver o)) := by
  rcases hb : nth before o with _ | i <;> rcases hd : s.driver o with _ | i'
  · rw [handEdge_none (hd.trans hb.symm)]
    exact (upd_nth _ _).symm
  · rw [handEdge_rising hb hd]
    simp only [Output.edge]
    split
    · next h => rw [risingDrive_energizes (s := State.showOutput o s) _ h, energize_outputs]; rfl
    · next h => rw [risingDrive_stays (s := State.showOutput o s) _ h, upd_nth]; rfl
  · rw [handEdge_falling hb hd]
    simp only [Output.edge]
    split
    · next h => rw [fallingDrive_releases (s := State.showOutput o s) h, deenergize_outputs]; rfl
    · next h => rw [fallingDrive_stays (s := State.showOutput o s) h, upd_nth]; rfl
  · simp only [Output.edge, upd_nth]
    by_cases e : i = i'
    · rw [handEdge_none (hd.trans (e ▸ hb.symm))]
    · rw [handEdge_passed hb hd e]
      rfl

end Sys2Proof.Machine
end

section
/-! SUPPORT. What the operations on one output can reach, beside the output itself: its entry and its supervision byte, its
fault point, and what records bring (chapters 6 and 7). -/

namespace Sys2Proof.Machine

/-! ## What the operations are made of -/

/-- A relation kept by what the operations on output o are made of. -/
structure OutputClosed (o : Fin 24) (R : State → State → Prop) : Prop where
  refl : ∀ s, R s s
  trans : ∀ {s t u}, R s t → R t u → R s u
  put : ∀ x s, R s (putOutput o x s)
  entry : ∀ s, R s (State.showOutput o s)
  supByte : ∀ s, R s (State.showSup o s)
  offer : ∀ r s, R s (Machine.offer r s)
  report : ∀ b s, R s (reportCondition (faultPoint o) b s)

namespace OutputClosed

variable {o : Fin 24} {R : State → State → Prop} (h : OutputClosed o R)
include h

/-- The last step first, so that the state between is read from the goal. -/
theorem back {s t u : State} (k : R t u) (j : R s t) : R s u := h.trans j k

theorem changeFault (f : SupFault) (c : SupCause) (s : State) : R s (Machine.changeFault o f c s) := by
  unfold Machine.changeFault
  dsimp only
  have h1 : ∀ r y, R s (Machine.offer r (State.showSup o (putOutput o y s))) := fun r y =>
    h.back (h.offer r _) (h.back (h.supByte _) (h.put y s))
  split
  · exact h1 _ _
  · exact h.back (h.report _ _) (h1 _ _)

theorem supervise (s : State) : R s (Machine.supervise o s) := by
  unfold Machine.supervise
  dsimp only
  split
  · exact h.changeFault _ _ s
  · exact h.put _ s

/-- A change of drive, up to its record (R99). -/
theorem recorded (r : Record) (y : Output) (s : State) :
    R s (Machine.offer r (State.showOutput o (putOutput o y s))) :=
  h.back (h.offer r _) (h.back (h.entry _) (h.put y s))

theorem energize (st : OutState) (t : Option Nat) (c : OutCause) (s : State) : R s (Machine.energize o st t c s) :=
  h.back (h.supervise _) (h.back (h.put _ _) (h.recorded _ _ s))

theorem deenergize (c : OutCause) (s : State) : R s (Machine.deenergize o c s) :=
  h.back (h.supervise _) (h.recorded _ _ s)

theorem risingDrive (c : OutCause) (s : State) : R s (Machine.risingDrive o c s) := by
  unfold Machine.risingDrive
  dsimp only
  split
  · exact h.offer _ s
  · split
    · exact h.offer _ s
    · split
      · exact h.refl s
      · split <;> exact h.energize _ _ _ s

theorem fallingDrive (s : State) : R s (Machine.fallingDrive o s) := by
  by_cases hf : s.falls (nth s.outputs o)
  · rw [fallingDrive_releases hf]
    exact h.deenergize _ s
  · rw [fallingDrive_stays hf]
    exact h.refl s

theorem handEdge (before : Vector (Option (Fin 32)) 24) (s : State) : R s (Machine.handEdge before s o) := by
  unfold Machine.handEdge
  dsimp only
  split
  · exact h.refl s
  · split
    · exact h.back (h.risingDrive _ _) (h.entry s)
    · exact h.back (h.fallingDrive _) (h.entry s)
    · exact h.entry s

end OutputClosed

/-! ## What they reach -/

/-- What operations on outputs of `O` reach: those outputs, points of `P`, bytes of `A`, and what records bring. -/
structure OutputReach (O : Fin 24 → Prop) (P : Fin 256 → Prop) (A : Nat → Prop) (s t : State) : Prop where
  rest : SideOnly { s with outputs := t.outputs } t
  others : ∀ q, ¬O q → nth t.outputs q = nth s.outputs q
  memory : MemoryReach A s t
  points : samePointsBut P s t

/-- Points and bytes that the operations on the outputs of `O` may reach. -/
structure OutputBounds (O : Fin 24 → Prop) (P : Fin 256 → Prop) (A : Nat → Prop) : Prop where
  record : ∀ a, recordByte a → A a
  mirror : ∀ p, P p → A (pointAddr p) ∧ A (pointAddr p + 1)
  own : ∀ p, journalPoint p → P p
  fault : ∀ o, O o → P (faultPoint o)
  entry : ∀ o, O o → ∀ a, outputByte o a → A a

section bounds
variable {O : Fin 24 → Prop} {P : Fin 256 → Prop} {A : Nat → Prop} {s t u : State}

theorem OutputReach.refl (s : State) : OutputReach O P A s s :=
  ⟨⟨rfl, rfl, rfl, rfl, rfl, rfl, rfl, rfl, rfl, rfl, rfl, rfl, rfl, rfl, rfl⟩, fun _ _ => rfl, ⟨id, fun _ _ => rfl⟩,
    fun _ _ => rfl⟩

theorem OutputReach.trans (h : OutputReach O P A s t) (k : OutputReach O P A t u) : OutputReach O P A s u where
  rest := ⟨k.rest.pending.trans h.rest.pending, k.rest.time.trans h.rest.time, k.rest.classes.trans h.rest.classes,
    k.rest.panels.trans h.rest.panels, k.rest.settleWindow.trans h.rest.settleWindow, k.rest.links.trans h.rest.links,
    k.rest.inputs.trans h.rest.inputs, k.rest.bankA.trans h.rest.bankA, k.rest.bankB.trans h.rest.bankB,
    k.rest.active.trans h.rest.active, rfl, k.rest.profiles.trans h.rest.profiles, k.rest.supply.trans h.rest.supply,
    k.rest.engine.trans h.rest.engine, k.rest.sched.trans h.rest.sched⟩
  others q hq := (k.others q hq).trans (h.others q hq)
  memory := h.memory.trans k.memory
  points p hp := (k.points p hp).trans (h.points p hp)

/-- What records and reports reach, an operation on an output may reach. -/
theorem OutputReach.of_side (h : SideReach P A s t) : OutputReach O P A s t :=
  ⟨{ h.only with outputs := rfl }, fun q _ => by rw [h.only.outputs], h.memory, h.points⟩

/-- What writes to memory alone. -/
theorem OutputReach.of_memory {m : Memory} (h : MemoryReach A s { s with mem := m }) :
    OutputReach O P A s { s with mem := m } :=
  ⟨⟨rfl, rfl, rfl, rfl, rfl, rfl, rfl, rfl, rfl, rfl, rfl, rfl, rfl, rfl, rfl⟩, fun _ _ => rfl, h, fun _ _ => rfl⟩

theorem showOutput_reach (o : Fin 24) (s : State) :
    MemoryReach (fun a => a = hallBase + 128 + 2 * o.val ∨ a = hallBase + 129 + 2 * o.val) s (State.showOutput o s) :=
  putWord_memory _ s ⟨.inl rfl, .inr (by omega)⟩

theorem showOutput_memory (o : Fin 24) (s : State) : MemoryReach (outputByte o) s (State.showOutput o s) :=
  (showOutput_reach o s).mono fun a ha => .inl (by simp only [hallBase] at ha ⊢; omega)

theorem showSup_memory (o : Fin 24) (s : State) : MemoryReach (outputByte o) s (State.showSup o s) :=
  putWord_memory _ s ⟨.inr (by simp only [hallBase]; omega), .inr (by simp only [hallBase]; omega)⟩

/-- The operations on an output of `O`, when none but reports of points of `P` wait. -/
theorem outputReach_closed (b : OutputBounds O P A) {o : Fin 24} (ho : O o) :
    OutputClosed o (tracked P (OutputReach O P A)) :=
  have hs := sideReach_closed b.record b.mirror b.own
  have side : ∀ {s t}, tracked P (SideReach P A) s t → tracked P (OutputReach O P A) s t := fun h hd =>
    ⟨(h hd).1, .of_side (h hd).2⟩
  { refl := fun s hd => ⟨hd, .refl s⟩
    trans := fun h k hd => ⟨(k (h hd).1).1, (h hd).2.trans (k (h hd).1).2⟩
    put := fun _ _ hd => ⟨hd, ⟨rfl, rfl, rfl, rfl, rfl, rfl, rfl, rfl, rfl, rfl, rfl, rfl, rfl, rfl, rfl⟩,
      fun _ hq => nth_upd_other _ _ fun e => hq (e ▸ ho), ⟨id, fun _ _ => rfl⟩, fun _ _ => rfl⟩
    entry := fun s hd => ⟨hd, .of_memory ((showOutput_memory o s).mono (b.entry o ho))⟩
    supByte := fun s hd => ⟨hd, .of_memory ((showSup_memory o s).mono (b.entry o ho))⟩
    offer := fun r s => side (hs.offer r s)
    report := fun c s => side (hs.reportCondition _ c s (b.fault o ho)) }

end bounds

/-! ## Bounds -/

/-- One output: its entry and supervision byte, its fault point, and what records bring. -/
theorem oneOutput_bounds (o : Fin 24) : OutputBounds (· = o) (fun p => p = faultPoint o ∨ journalPoint p)
    (fun a => outputByte o a ∨ pointByte (faultPoint o) a ∨ recordByte a) where
  record _ h := .inr (.inr h)
  mirror p hp := by
    rcases hp with rfl | hj
    · exact ⟨.inr (.inl (.inl rfl)), .inr (.inl (.inr rfl))⟩
    · exact ⟨.inr (.inr (reachOf_journalPoint _ (reachOf_mirror p hj).1)),
        .inr (.inr (reachOf_journalPoint _ (reachOf_mirror p hj).2))⟩
  own _ := .inr
  fault _ e := .inl (congrArg faultPoint e)
  entry _ e _ h := .inl (e ▸ h)

/-- Several outputs: their entries and supervision bytes, the point mirror, and what records bring. -/
theorem outputs_bounds (O : Fin 24 → Prop) {P : Fin 256 → Prop} (hf : ∀ o, O o → P (faultPoint o))
    (hj : ∀ p, journalPoint p → P p) : OutputBounds O P (fun a => outputsByte a ∨ mirrorByte a ∨ recordByte a) where
  record _ h := .inr (.inr h)
  mirror p _ := by
    have := p.isLt
    constructor <;> exact .inr (.inl (by simp only [mirrorByte, pointAddr]; omega))
  own := hj
  fault := hf
  entry o _ a h := .inl (by simp only [outputByte, outputsByte, hallBase] at h ⊢; omega)

/-! ## De-energized outputs (R99, R105) -/

/-- The record of a de-energize is the next one of the queue (R105). -/
theorem deenergize_record (o : Fin 24) (c : OutCause) (s : State) :
    recordJoins (tripOutputRecord o (nth s.outputs o).state { nth s.outputs o with state := .off } c s) s
      (deenergize o c s) :=
  recordJoins_of_now (u := State.showOutput o (putOutput o (nth s.outputs o).released s)) rfl
    (queueGrows_event.supervise trivial (fun _ _ => trivial) o _)

/-- What a de-energize of output o leaves, from the state s in which it was ON (R99, R102, R103). -/
structure LetsGo (o : Fin 24) (c : OutCause) (s t : State) : Prop extends
    OutputReach (· = o) (fun p => p = faultPoint o ∨ journalPoint p)
      (fun a => outputByte o a ∨ pointByte (faultPoint o) a ∨ recordByte a) s t where
  state : (nth t.outputs o).state = .off
  minPassed : (nth t.outputs o).minPassed = false
  onTimer : (nth t.outputs o).onTimer = none
  sel : (nth t.outputs o).sel = (nth s.outputs o).sel
  isolated : (nth t.outputs o).isolated = (nth s.outputs o).isolated
  joins : recordJoins (tripOutputRecord o .on { nth s.outputs o with state := .off } c s) s t

/-- An ON output that is de-energized, whatever has become of its on-timer before. -/
theorem deenergize_letsGo {o : Fin 24} (c : OutCause) (timer : Option Nat) {s : State} (hd : s.due = [])
    (hs : (nth s.outputs o).state = .on) :
    LetsGo o c s (deenergize o c (putOutput o { nth s.outputs o with onTimer := timer } s)) := by
  have hclosed := outputReach_closed (oneOutput_bounds o) rfl
  have hreach := (hclosed.back (hclosed.deenergize c _) (hclosed.put { nth s.outputs o with onTimer := timer } s)
    (dueIn_nil hd)).2
  have hout : nth (deenergize o c (putOutput o { nth s.outputs o with onTimer := timer } s)).outputs o
      = (nth s.outputs o).released.attended s.supplyPresent s.now := by
    rw [deenergize_outputs, nth_upd_same, putOutput_outputs, nth_upd_same]
    rfl
  obtain ⟨h1, h2, h3, h4, h5, _, _⟩ := (nth s.outputs o).released.attended_kept s.supplyPresent s.now
  have hrecord := deenergize_record o c (putOutput o { nth s.outputs o with onTimer := timer } s)
  rw [putOutput_outputs, nth_upd_same, hs] at hrecord
  exact ⟨hreach, by rw [hout, h1]; rfl, by rw [hout, h3]; rfl, by rw [hout, h2]; rfl, by rw [hout, h4]; rfl,
    by rw [hout, h5]; rfl, hrecord⟩

end Sys2Proof.Machine
end

section
/-! How an output lets go: falling drives, the on-timer, RESET LOCKOUT (sections 6.2 to 6.4), and O44. -/

namespace Sys2Proof.Machine

/-! ## The driver in an output's entry (R94, R107) -/

/-- Bit 7 of an output's word says whether it is driven, and bits 8 to 12 give its driver (section 11.9). -/
theorem Output.mirror_driver (x : Output) (d : Option (Fin 32)) : (x.mirror d).getLsbD 7 = d.isSome
    ∧ ∀ i, d = some i → ((x.mirror d).extractLsb' 8 5).toNat = i.val := by
  have hs : x.state.code ≤ 2 := by cases x.state <;> decide
  have hbit : ∀ b : Bool, bit b ≤ 1 := by decide
  have hm := hbit x.minPassed
  have hi := hbit x.isolated
  have hv := hbit x.supervised
  have hsel := x.sel.isLt
  unfold Output.mirror word
  rw [BitVec.getLsbD_ofNat, Nat.testBit_eq_decide_div_mod_eq, decide_eq_true (by decide : 7 < 16), Bool.true_and]
  rcases d with _ | i
  · refine ⟨?_, fun i h => by cases h⟩
    simp only [Option.isSome_none, show bit false = 0 from rfl]
    exact decide_eq_false (by omega)
  · have hlt := i.isLt
    simp only [Option.isSome_some, show bit true = 1 from rfl]
    refine ⟨?_, fun j h => ?_⟩
    · exact decide_eq_true (by omega)
    · obtain rfl := Option.some.inj h
      rw [BitVec.extractLsb'_toNat, BitVec.toNat_ofNat, Nat.shiftRight_eq_div_pow]
      omega

/-- An output's entry, read back as it was shown. -/
theorem showOutput_read (o : Fin 24) {s : State} (w : s.mem.wf = true) :
    (State.showOutput o s).mem.readWord (hallBase + 128 + 2 * o.val) = (nth s.outputs o).mirror (s.driver o) :=
  Memory.readWord_writeWord_same _ w (by simp only [hallBase]; omega)

/-! ## The on-timer (R102) -/

theorem execOnTimerExpiry_waits {o : Fin 24} {s : State} {due : Nat} (h : (nth s.outputs o).state ≠ .on
    ∨ (nth s.outputs o).onTimer = none ∨ (nth s.outputs o).onTimer = some due ∧ s.now < due) :
    exec (.onTimerExpiry o) s = .next s := by
  have hn : ¬((nth s.outputs o).state = .on ∧ dueAt (nth s.outputs o).onTimer s.now = true) := by
    rintro ⟨h1, h2⟩
    rcases h with h | h | ⟨h, hlt⟩
    · exact h h1
    · rw [h] at h2
      cases h2
    · rw [h] at h2
      exact absurd (of_decide_eq_true h2) (by omega)
  simp only [exec, execOnTimerExpiry, if_neg hn]

theorem execOnTimerExpiry_due {o : Fin 24} {s : State} {due : Nat} (hs : (nth s.outputs o).state = .on)
    (ht : (nth s.outputs o).onTimer = some due) (hdue : due ≤ s.now) :
    exec (.onTimerExpiry o) s = .next (expireOnTimer o s) := by
  have hy : dueAt (nth s.outputs o).onTimer s.now = true := by
    rw [ht]
    exact decide_eq_true hdue
  simp only [exec, execOnTimerExpiry, if_pos (And.intro hs hy)]

/-- An output in PULSE mode, or in FOLLOW mode and not driven, goes OFF (R102). -/
theorem expireOnTimer_off {o : Fin 24} {s : State} (h : (s.profileOf (nth s.outputs o)).mode = .pulse
    ∨ (s.profileOf (nth s.outputs o)).mode = .follow ∧ s.driven o = false) : expireOnTimer o s
      = deenergize o .timer (putOutput o { nth s.outputs o with onTimer := none } s) := by
  unfold expireOnTimer
  rcases h with h | ⟨h, hd⟩
  · simp only [h]
  · simp only [h, hd, Bool.false_eq_true, if_false]

/-- A driven output in FOLLOW mode stays ON, its minimum time passed (R102). -/
theorem expireOnTimer_driven {o : Fin 24} {s : State} (h : (s.profileOf (nth s.outputs o)).mode = .follow)
    (hd : s.driven o = true) : expireOnTimer o s = State.showOutput o
      (putOutput o { nth s.outputs o with onTimer := none, minPassed := true } s) := by
  unfold expireOnTimer
  simp only [h, hd, if_true]

/-! ## Masks (section 11.5) -/

/-- A mask summed bit by bit is the mask read from its top bit. -/
theorem foldl_mask {n : Nat} (f : Fin n → Bool) (w a : Nat) :
    (List.finRange n).foldl (fun k o => k + if f o then w * 2 ^ o.val else 0) a
      = a + w * (List.finRange n).foldr (fun o m => bit (f o) + 2 * m) 0 := by
  induction n generalizing w a with
  | zero => rfl
  | succ n ih =>
    have h := ih (fun o => f o.succ) (2 * w) (a + if f 0 then w else 0)
    simp only [List.finRange_succ, List.foldl_cons, List.foldr_cons, List.foldl_map, List.foldr_map, Fin.val_zero,
      Fin.val_succ, Nat.pow_succ, pow_zero, mul_one]
    simp only [mul_comm _ 2, ← mul_assoc] at h ⊢
    rw [h]
    cases f 0 <;> simp [bit] <;> ring

theorem foldr_mask_eq_zero {n : Nat} (f : Fin n → Bool) :
    (List.finRange n).foldr (fun o m => bit (f o) + 2 * m) 0 = 0 ↔ ∀ o, f o = false := by
  induction n with
  | zero => exact ⟨fun _ o => o.elim0, fun _ => rfl⟩
  | succ n ih =>
    rw [List.finRange_succ, List.foldr_cons, List.foldr_map, Fin.forall_fin_succ, ← ih fun o => f o.succ]
    cases f 0 <;> simp [bit]

theorem maskBytes_maskOfSet (f : Fin 24 → Bool) : maskBytes (maskOfSet f) = outputMask f := by
  have h := foldl_mask f 1 0
  simp only [one_mul, zero_add] at h
  exact congrArg bytes4 h

theorem maskOfSet_eq_zero (f : Fin 24 → Bool) : maskOfSet f = 0 ↔ ∀ o, f o = false := by
  have h := foldl_mask f 1 0
  simp only [one_mul, zero_add] at h
  rw [← foldr_mask_eq_zero, ← h]
  rfl

/-! ## RESET LOCKOUT (R111) -/

/-- RESET LOCKOUT lets the output go when its mask names it: it is LATCHED and not driven. -/
abbrev State.resets (s : State) (o : Fin 24) : Prop := (nth s.outputs o).state = .latched ∧ s.driven o = false

section lockout
variable {O : Fin 24 → Prop} {P : Fin 256 → Prop} {A : Nat → Prop} {s t : State} {o : Fin 24}

theorem resetOutput_releases (h : s.resets o) : resetOutput s o = deenergize o .lockoutReset s := if_pos h

theorem resetOutput_stays (h : ¬s.resets o) : resetOutput s o = s := if_neg h

theorem OutputReach.driver (h : OutputReach O P A s t) (o : Fin 24) : t.driver o = s.driver o :=
  driver_congr (fun i => by rw [h.rest.inputs]) (maskOf_congr h.rest.active h.rest.bankA h.rest.bankB) o

/-- An output that stands is let go as it would have been in the state before. -/
theorem OutputReach.resets_iff (h : OutputReach O P A s t) (ho : nth t.outputs o = nth s.outputs o) :
    t.resets o ↔ s.resets o := by
  unfold State.resets State.driven
  rw [ho, h.driver]

theorem OutputReach.attended (h : OutputReach O P A s t) (x : Output) :
    x.attended t.supplyPresent t.now = x.attended s.supplyPresent s.now := by
  unfold State.supplyPresent State.now
  rw [h.rest.supply, h.rest.time]

/-- Operations on outputs of `O` reach from s to t, and only reports of points of `P` wait. -/
structure Resetting (O : Fin 24 → Prop) (P : Fin 256 → Prop) (A : Nat → Prop) (s t : State) : Prop where
  due : dueIn P t
  reach : OutputReach O P A s t

theorem Resetting.step (b : OutputBounds O P A) (h : Resetting O P A s t) (ho : s.resets o ↔ O o) :
    Resetting O P A s (resetOutput t o) := by
  by_cases hr : t.resets o
  · rw [resetOutput_releases hr]
    by_cases hO : O o
    · obtain ⟨hd, hk⟩ := (outputReach_closed b hO).deenergize .lockoutReset t h.due
      exact ⟨hd, h.reach.trans hk⟩
    · exact absurd (ho.mp ((h.reach.resets_iff (h.reach.others o hO)).mp hr)) hO
  · rw [resetOutput_stays hr]
    exact h

end lockout

/-- The outputs of a mask reset one after the other (R111). -/
def lockoutReset (m : Nat) (s : State) : State := (named m).foldl resetOutput s

/-- The LATCHED outputs of a mask. -/
def State.lockedOut (s : State) (m : Nat) (o : Fin 24) : Bool := m.testBit o.val && decide ((nth s.outputs o).state = .latched)

/-- The outputs of a mask that RESET LOCKOUT lets go. -/
def State.unlocks (s : State) (m : Nat) (o : Fin 24) : Bool := s.lockedOut m o && !s.driven o

theorem mem_named {m : Nat} {o : Fin 24} : o ∈ named m ↔ m.testBit o.val = true := by
  unfold named
  rw [List.mem_filter]
  exact and_iff_right (List.mem_finRange o)

theorem named_pairwise (m : Nat) : (named m).Pairwise (· < ·) := (List.pairwise_lt_finRange 24).filter _

theorem unlocks_iff {s : State} {m : Nat} {o : Fin 24} :
    s.unlocks m o = true ↔ m.testBit o.val = true ∧ s.resets o := by
  unfold State.unlocks State.lockedOut State.resets
  simp only [Bool.and_eq_true, decide_eq_true_eq, Bool.not_eq_true', and_assoc]

/-- What RESET LOCKOUT reaches: the outputs that it lets go, and their fault points. -/
theorem lockoutReset_reach (m : Nat) {s : State} (hd : s.due = []) :
    OutputReach (fun o => s.unlocks m o = true)
      (fun p => (∃ o, s.unlocks m o = true ∧ p = faultPoint o) ∨ journalPoint p)
      (fun a => outputsByte a ∨ mirrorByte a ∨ recordByte a) s (lockoutReset m s) := by
  have hb := outputs_bounds (fun o => s.unlocks m o = true)
    (P := fun p => (∃ o, s.unlocks m o = true ∧ p = faultPoint o) ∨ journalPoint p)
    (fun o ho => .inl ⟨o, ho, rfl⟩) fun _ => .inr
  refine (List.foldlRecOn (named m) resetOutput (motive := Resetting _ _ _ s) ⟨dueIn_nil hd, .refl s⟩ fun u hu o ho =>
    hu.step hb ?_).reach
  rw [unlocks_iff, and_iff_right (mem_named.mp ho)]

/-- What RESET LOCKOUT leaves of an output that it lets go. -/
theorem lockoutReset_released (m : Nat) {s : State} {o : Fin 24} (ho : s.unlocks m o = true) :
    nth (lockoutReset m s).outputs o = (nth s.outputs o).released.attended s.supplyPresent s.now := by
  obtain ⟨hm, hr⟩ := unlocks_iff.mp ho
  have hb := outputs_bounds (fun o => s.resets o) (P := fun _ => True) (fun _ _ => trivial) fun _ _ => trivial
  have hother : ∀ (u : State) (i j : Fin 24), j ≠ i → nth (resetOutput u i).outputs j = nth u.outputs j := fun u i j hj => by
    by_cases hu : u.resets i
    · rw [resetOutput_releases hu, deenergize_outputs, nth_upd_other _ _ hj.symm]
    · rw [resetOutput_stays hu]
  obtain ⟨_, hpost⟩ := foldl_once (f := resetOutput)
    (P := Resetting _ _ _ s)
    (pre := fun i u => nth u.outputs i = nth s.outputs i)
    (post := fun i u => s.resets i → nth u.outputs i = (nth s.outputs i).released.attended s.supplyPresent s.now)
    (fun u i hu => hu.step hb Iff.rfl)
    (fun u i hu h hi => by
      rw [resetOutput_releases ((hu.reach.resets_iff h).mpr hi), deenergize_outputs, nth_upd_same, h, hu.reach.attended])
    (fun u i j _ hj h => (hother u i j hj).trans h)
    (fun u i j _ hj h hr => (hother u i j hj).trans (h hr))
    ((named_pairwise m).imp Fin.ne_of_lt) (s := s) ⟨fun _ _ => trivial, .refl s⟩ fun _ _ => rfl
  exact hpost o (mem_named.mpr hm) hr

/-- A record that has joined the queue stays in its place. -/
theorem recordJoins_grows {r : Record} {s t u : State} (h : recordJoins r s t) (hst : QueueGrows s t)
    (htu : QueueGrows t u) : recordJoins r s u := by
  intro hr
  obtain ⟨h1, h2, _⟩ := hst hr.2
  exact (h hr).trans (htu (by rw [h1, h2]; exact hr.2)).2.2

/-- The record of the first output that RESET LOCKOUT lets go is the next one of the queue (R105). -/
theorem lockoutReset_record (m : Nat) {s : State} {o : Fin 24} (ho : s.unlocks m o = true)
    (hl : ∀ o' < o, s.unlocks m o' = false) :
    recordJoins (tripOutputRecord o .latched { nth s.outputs o with state := .off } .lockoutReset s) s
      (lockoutReset m s) := by
  obtain ⟨hm, hr⟩ := unlocks_iff.mp ho
  obtain ⟨l₁, l₂, e⟩ := List.append_of_mem (mem_named.mpr hm)
  have hsorted := named_pairwise m
  rw [e, List.pairwise_append] at hsorted
  have hfirst : l₁.foldl resetOutput s = s := List.foldlRecOn l₁ resetOutput (motive := (· = s)) rfl fun u hu i hi => by
    have hmem : i ∈ named m := by rw [e]; exact List.mem_append_left _ hi
    rw [hu]
    refine resetOutput_stays fun k => ?_
    exact Bool.noConfusion ((hl i (hsorted.2.2 i hi o List.mem_cons_self)).symm.trans (unlocks_iff.mpr ⟨mem_named.mp hmem, k⟩))
  have hrecord := deenergize_record o .lockoutReset s
  rw [hr.1] at hrecord
  have hgrows : QueueGrows (deenergize o .lockoutReset s) (lockoutReset m s) := by
    unfold lockoutReset
    rw [e, List.foldl_append, hfirst, List.foldl_cons, resetOutput_releases hr]
    exact queueGrows_event.foldl _ _ _ fun u i _ => queueGrows_event.resetOutput trivial (fun _ _ => trivial) u i
  exact recordJoins_grows hrecord (queueGrows_event.deenergize trivial (fun _ _ => trivial) o _ s) hgrows

/-- RESET LOCKOUT with a mask in range (R111). -/
theorem orderResetLockout_fits {d : List Byte} {s : State} (h : longAt d 0 < 2 ^ 24) : orderResetLockout d s
    = (lockoutReset (longAt d 0) s,
      .done (if ∀ o, (s.lockedOut (longAt d 0) o && s.driven o) = false then .doneOk else .partialDone)
        (outputMask (s.unlocks (longAt d 0))
          ++ outputMask fun o => s.lockedOut (longAt d 0) o && s.driven o)) := by
  unfold orderResetLockout
  simp only [maskFits, decide_eq_true h, Bool.true_eq_false, if_false, maskBytes_maskOfSet, maskOfSet_eq_zero]
  rfl

theorem orderResetLockout_range {d : List Byte} {s : State} (h : 2 ^ 24 ≤ longAt d 0) :
    orderResetLockout d s = (s, .done .refusedRange []) := by
  unfold orderResetLockout
  simp only [maskFits, decide_eq_false (Nat.not_lt.mpr h), if_true]
  rfl

theorem taking_unlocks (s : State) (n : Fin 16) (m : Nat) (o : Fin 24) : (s.taking n).unlocks m o = s.unlocks m o := rfl

/-- RESET LOCKOUT with a mask in range, with its DONE write. -/
theorem takeSlot_resetLockout {n : Fin 16} {d : List Byte} {s : State} (ho : s.holdsOrder n .resetLockout d)
    (h : longAt d 0 < 2 ^ 24) : takeSlot n s
      = finish n (if ∀ o, (s.lockedOut (longAt d 0) o && s.driven o) = false then .doneOk else .partialDone)
        (outputMask (s.unlocks (longAt d 0))
          ++ outputMask fun o => s.lockedOut (longAt d 0) o && s.driven o) (lockoutReset (longAt d 0) (s.taking n)) :=
  takeSlot_done ho rfl (by decide) (orderResetLockout_fits (s := s.taking n) h)

/-- What RESET LOCKOUT leaves, but for its DONE write: the take reaches nothing of the outputs. -/
theorem lockoutReset_taken (n : Fin 16) (d : List Byte) {s : State} (hd : s.due = []) :
    let u := lockoutReset (longAt d 0) (s.taking n)
    OutputReach (fun o => s.unlocks (longAt d 0) o = true)
      (fun p => (∃ o, s.unlocks (longAt d 0) o = true ∧ p = faultPoint o) ∨ journalPoint p)
      (fun a => outputsByte a ∨ mirrorByte a ∨ recordByte a) (s.taking n) u
    ∧ (∀ o, s.unlocks (longAt d 0) o = true → (∀ o' < o, s.unlocks (longAt d 0) o' = false) → recordJoins
        (tripOutputRecord o .latched { nth s.outputs o with state := .off } .lockoutReset s) (s.taking n) u)
    ∧ ∀ o, s.unlocks (longAt d 0) o = true → (nth u.outputs o).state = .off ∧ (nth u.outputs o).onTimer = none
      ∧ (nth u.outputs o).minPassed = false ∧ (nth u.outputs o).sel = (nth s.outputs o).sel
      ∧ (nth u.outputs o).isolated = (nth s.outputs o).isolated
      ∧ (nth u.outputs o).supervised = (nth s.outputs o).supervised
      ∧ (nth u.outputs o).feedback = (nth s.outputs o).feedback := by
  have hreach := lockoutReset_reach (longAt d 0) (s := s.taking n) hd
  have hrecord := fun o => lockoutReset_record (longAt d 0) (s := s.taking n) (o := o)
  have hreleased := fun o => lockoutReset_released (longAt d 0) (s := s.taking n) (o := o)
  simp only [taking_unlocks] at hreach hrecord hreleased
  refine ⟨hreach, hrecord, fun o hgo => ?_⟩
  rw [hreleased o hgo]
  exact (nth s.outputs o).released.attended_kept _ _

/-- Settles O44: a falling drive and the on-timer release the output or leave it, an edge is one of four by its two drivers, and
RESET LOCKOUT releases the outputs of its mask one after the other. -/
theorem outputsLetGoByMode : Obligations.OutputsLetGoByMode := by
  unfold Obligations.OutputsLetGoByMode
  intro o before i i' due n d s x mode shown letGo
  have hgo : ∀ {c t}, LetsGo o c s t → letGo c t := fun h => ⟨h.state, h.minPassed, h.onTimer, h.sel, h.isolated, h.others,
    h.joins, h.rest, h.points, h.memory.same⟩
  refine ⟨fun h => fallingDrive_stays ?_, handEdge_none, handEdge_rising, handEdge_falling, handEdge_passed, rfl,
    (showOutput_reach o s).same, fun w => ?_, fun hd h1 h2 h3 => hgo ?_, fun hb hn => ?_, execOnTimerExpiry_waits,
    fun hd hs ht hdue => ⟨fun hm => ?_, fun hm hn => ?_⟩, fun hd w ho => ?_⟩
  · rintro ⟨h1, h2, h3⟩
    rcases h with h | h | h | h
    · exact Mode.noConfusion (h.symm.trans h1)
    · exact Mode.noConfusion (h.symm.trans h1)
    · exact h h2
    · exact Bool.noConfusion (h.symm.trans h3)
  · dsimp only
    rw [showOutput_read o w]
    exact ⟨(Output.mirror_driver x (s.driver o)).1, (Output.mirror_driver x (s.driver o)).2 i'⟩
  · have h := deenergize_letsGo (o := o) .release x.onTimer hd h2
    have e : putOutput o { x with onTimer := x.onTimer } s = s :=
      congrArg (fun v => { s with outputs := v }) (upd_nth s.outputs o)
    rw [fallingDrive_releases ⟨h1, h2, h3⟩]
    rwa [e] at h
  · by_cases e : i = i'
    · rw [handEdge_none (hn.trans (e ▸ hb.symm))]
      exact ⟨rfl, rfl⟩
    · rw [handEdge_passed hb hn e]
      exact ⟨rfl, rfl⟩
  · refine ⟨_, execOnTimerExpiry_due hs ht hdue, hgo ?_⟩
    rw [expireOnTimer_off hm]
    exact deenergize_letsGo .timer none hd hs
  · refine ⟨_, execOnTimerExpiry_due hs ht hdue, ?_⟩
    rw [expireOnTimer_driven hm hn]
    exact ⟨rfl, (showOutput_reach o _).same⟩
  · intro t
    refine ⟨fun h => orderEnds_of w ho rfl (by decide) (orderResetLockout_range h), fun h => ?_⟩
    intro latched refused goes
    have ht : t = _ := takeSlot_resetLockout ho h
    obtain ⟨hreach, hrecord, hreleased⟩ := lockoutReset_taken n d hd
    generalize lockoutReset (longAt d 0) (s.taking n) = u at *
    have hdone := orderDone_finish (n := n) (s := s) (r := if ∀ o, refused o = false then .doneOk else .partialDone)
      (data := outputMask goes ++ outputMask refused) (hreach.memory.wf (Memory.wf_writeWord _ _ w)) hreach.rest
      hreach.points hreach.memory.same
    have hout : t.outputs = u.outputs := by rw [ht, finish_rest]
    change t = finish n (if ∀ o, refused o = false then .doneOk else .partialDone)
      (outputMask goes ++ outputMask refused) u at ht
    rw [← ht] at hdone
    refine ⟨hdone.slot, fun o hno => ?_, fun o hgo => ?_, ?_, hdone.points, hdone.memory, fun o hgo hl => ?_⟩
    · rw [hout]
      exact hreach.others o (Bool.eq_false_iff.mp hno)
    · intro x y
      simp only [y, hout]
      exact hreleased o hgo
    · rw [hout]
      exact { hdone.rest with }
    · rw [ht]
      exact recordJoins_finish (s := s) (hrecord o hgo hl)

end Sys2Proof.Machine
end

section
/-! The driving sets, and what a qualification makes of the outputs (sections 5.2, 5.7), and O42. -/

namespace Sys2Proof.Machine

/-! ## The driver of an output (section 5.7) -/

/-- The first index that meets a test is the one that no lower one does. -/
theorem find?_finRange_eq_some {n : Nat} {f : Fin n → Bool} {i : Fin n} :
    (List.finRange n).find? f = some i ↔ f i = true ∧ ∀ j < i, f j = false := by
  refine ⟨fun h => ⟨List.find?_some h, fun j hj => ?_⟩, fun h => find?_finRange h.1 h.2⟩
  obtain ⟨_, k, hk, hi, hl⟩ := List.find?_eq_some_iff_getElem.mp h
  rw [List.getElem_finRange] at hi
  have hjk : j.val < k := by
    have := congrArg Fin.val hi
    simp only [Fin.val_cast] at this
    omega
  have := hl j.val hjk
  rw [List.getElem_finRange] at this
  simpa using this

theorem driver_eq_some_iff {s : State} {o : Fin 24} {j : Fin 32} :
    s.driver o = some j ↔ s.drives j o = true ∧ ∀ j' < j, s.drives j' o = false := find?_finRange_eq_some

theorem driver_eq_none_iff {s : State} {o : Fin 24} : s.driver o = none ↔ ∀ j, s.drives j o = false := by
  unfold State.driver
  rw [List.find?_eq_none]
  exact ⟨fun h j => by simpa using h j (List.mem_finRange j), fun h j _ => by simp [h j]⟩

/-- An input drives an output while it is active and its mask names the output. -/
theorem drives_iff {s : State} {j : Fin 32} {o : Fin 24} :
    s.drives j o = true ↔ (nth s.inputs j).qualified = true ∧ (s.maskOf j).getLsbD o.val = true := Bool.and_eq_true_iff

/-- With no active bank no output is driven (R85). -/
theorem driver_of_inactive {s : State} (h : s.active = none) (o : Fin 24) : s.driver o = none := by
  rw [driver_eq_none_iff]
  intro j
  simp [State.drives, State.maskOf, State.activeEntry, h]

theorem drivers_congr {s t : State} {o : Fin 24} (h : ∀ j, t.drives j o = s.drives j o) : t.driver o = s.driver o := by
  unfold State.driver
  simp only [h]

/-! ## Driving sets over a qualification -/

theorem qualify_frame (i : Fin 32) (s : State) : Frame (fun x => x = .inputs ∨ x = .outputs) s (qualify i s) :=
  (frame_event _).qualify (.inr rfl) (ownReport_fault (.inr rfl)) (.inl rfl) (ownReport_trip (.inl rfl)) i s

theorem qualify_maskOf (i : Fin 32) (s : State) (j : Fin 32) : (qualify i s).maskOf j = s.maskOf j :=
  have h := qualify_frame i s
  maskOf_congr (h.items .active (by simp)) (h.items .bankA (by simp)) (h.items .bankB (by simp)) j

/-- A qualification changes what its own input drives, and no more. -/
theorem qualify_drives_other {i j : Fin 32} (s : State) (o : Fin 24) (h : j ≠ i) :
    (qualify i s).drives j o = s.drives j o := by
  unfold State.drives
  rw [qualify_maskOf, qualify_inputs_eq, nth_upd_other _ _ h.symm]

/-- An input whose mask names no output drives none. -/
theorem qualify_driver_of_mask {i : Fin 32} {s : State} (h : s.maskOf i = 0) (o : Fin 24) :
    (qualify i s).driver o = s.driver o := by
  refine drivers_congr fun j => ?_
  by_cases e : j = i
  · subst e
    simp [State.drives, qualify_maskOf, h]
  · exact qualify_drives_other s o e

/-- A set that fills at a qualification is driven by its input. -/
theorem qualify_driver_filled {i : Fin 32} {s : State} {o : Fin 24} (hs : s.driver o = none)
    (ht : (qualify i s).driver o ≠ none) : (qualify i s).driver o = some i := by
  obtain ⟨j, hj⟩ := Option.ne_none_iff_exists'.mp ht
  rw [hj]
  by_contra hne
  have hother := qualify_drives_other s o fun e : j = i => hne (e ▸ rfl)
  have hdrives := (driver_eq_some_iff.mp hj).1
  rw [hother, driver_eq_none_iff.mp hs j] at hdrives
  cases hdrives

/-! ## The outputs after a qualification (R93) -/

theorem Output.edge_congr {s t : State} (x : Output) (h1 : t.profiles = s.profiles) (h2 : t.engine.part = s.engine.part)
    (h3 : t.supply = s.supply) (h4 : t.time = s.time) (a b : Option (Fin 32)) : x.edge t a b = x.edge s a b := by
  have hp : t.profileOf x = s.profileOf x := by unfold State.profileOf; rw [h1]
  have hs : t.supplyPresent = s.supplyPresent := by unfold State.supplyPresent; rw [h3]
  have hn : t.now = s.now := by unfold State.now; rw [h4]
  rcases a with _ | _ <;> rcases b with _ | _ <;> simp only [Output.edge, State.rises, State.falls, h2, hp, hs, hn]

/-- The edges of the outputs act on each output once, by the driver it had and the one it has (R93). -/
theorem edged_outputs (i : Fin 32) (s : State) (o : Fin 24) : nth (edged i s).outputs o
    = (nth s.outputs o).edge s (s.driver o) ((noted i s).driver o) := by
  have hnoted := noted_passed i s
  have hcongr : ∀ {u : State}, Frame (· = .outputs) (noted i s) u → ∀ (x : Output) a b, x.edge u a b = x.edge s a b :=
    fun hu x a b => x.edge_congr ((hu.items .profiles (by simp)).trans (hnoted.items .profiles id))
      ((hu.items .part (by simp)).trans (hnoted.items .part id)) ((hu.items .supply (by simp)).trans (hnoted.items .supply id))
      ((hu.items .time (by simp)).trans (hnoted.items .time id)) a b
  have hother : ∀ (u : State) (p q : Fin 24), q ≠ p → nth (handEdge s.drivers u p).outputs q = nth u.outputs q :=
    fun u p q hq => by rw [handEdge_outputs, nth_upd_other _ _ hq.symm]
  obtain ⟨_, hpost⟩ := foldl_once (f := handEdge s.drivers) (P := Frame (· = .outputs) (noted i s))
    (pre := fun o u => nth u.outputs o = nth s.outputs o)
    (post := fun o u => nth u.outputs o = (nth s.outputs o).edge s (s.driver o) ((noted i s).driver o))
    (fun u o hu => frame_trans hu ((frame_event (· = .outputs)).handEdge rfl (ownReport_fault rfl) _ u o))
    (fun u o hu h => by
      rw [handEdge_outputs, nth_upd_same, h, hcongr hu, show nth s.drivers o = s.driver o from nth_tab _ _ o,
        hu.driver (by simp) (by simp) (by simp) (by simp)])
    (fun u p q _ hq h => (hother u p q hq).trans h) (fun u p q _ hq h => (hother u p q hq).trans h)
    (List.nodup_finRange 24) (s := noted i s) (frame_refl _) fun o _ => by
      rw [show (noted i s).outputs = s.outputs from hnoted.items .outputs id]
  exact hpost o (List.mem_finRange o)

theorem qualify_driver (i : Fin 32) (s : State) (o : Fin 24) : (qualify i s).driver o = (noted i s).driver o := by
  have htold := (qualify_told i s).items
  have hedged := edged_frame i s
  exact (driver_congr (fun j => by rw [show (qualify i s).inputs = _ from htold .inputs id])
    (maskOf_congr (htold .active id) (htold .bankA id) (htold .bankB id)) o).trans
    (hedged.driver (by simp) (by simp) (by simp) (by simp) o)

/-- What a qualification makes of each output. -/
theorem qualify_outputs_eq (i : Fin 32) (s : State) (o : Fin 24) : nth (qualify i s).outputs o
    = (nth s.outputs o).edge s (s.driver o) ((qualify i s).driver o) := by
  rw [show (qualify i s).outputs = (edged i s).outputs from (qualify_told i s).items .outputs id, edged_outputs,
    qualify_driver]

/-- An output whose driver stands, or only changes, stands (R93). -/
theorem Output.edge_none (x : Output) (s : State) {a b : Option (Fin 32)} (h : a = none ↔ b = none) : x.edge s a b = x := by
  rcases a with _ | i <;> rcases b with _ | j
  · rfl
  · exact absurd (h.mp rfl) (by simp)
  · exact absurd (h.mpr rfl) (by simp)
  · rfl

theorem Output.edge_filled {x : Output} {s : State} (i : Fin 32) : x.edge s none (some i) = if s.rises x then
    (x.energizedTo (s.profileOf x).mode.risen ((s.profileOf x).timer s.now)).attended s.supplyPresent s.now else x := rfl

theorem Output.edge_emptied {x : Output} {s : State} (i : Fin 32) : x.edge s (some i) none
    = if s.falls x then x.released.attended s.supplyPresent s.now else x := rfl

/-- What an energize by the mode makes of an output that was not isolated (R101, R118). -/
theorem Output.risen_fields (x : Output) (p : Profile) (present : Bool) (now : Nat) :
    let y := (x.energizedTo p.mode.risen (p.timer now)).attended present now
    y.state = p.mode.risen ∧ y.onTimer = p.timer now ∧ y.minPassed = false ∧ y.sel = x.sel ∧ y.isolated = x.isolated
    ∧ y.supervised = x.supervised ∧ y.feedback = x.feedback ∧ y.fault = x.fault := by
  have he : (x.energizedTo p.mode.risen (p.timer now)).energized = true := by
    unfold Output.energized Output.energizedTo Mode.risen
    split <;> rfl
  obtain ⟨h1, h2, h3, h4, h5, h6, h7⟩ := (x.energizedTo p.mode.risen (p.timer now)).attended_kept present now
  exact ⟨h1, h2, h3, h4, h5, h6, h7, Output.attended_fault he present now⟩

/-! ## What a qualification reaches -/

/-- The bytes that an event of the trip inputs may write. -/
abbrev tripByte (a : Nat) : Prop := inputByte a ∨ outputsByte a ∨ mirrorByte a ∨ recordByte a

/-- What an event of the trip inputs may change: inputs, outputs, and what records and reports bring. -/
structure TripReach (s t : State) : Prop where
  rest : SideOnly { s with inputs := t.inputs, outputs := t.outputs } t
  memory : MemoryReach tripByte s t

namespace TripReach

variable {s t u : State}

theorem trans (h : TripReach s t) (k : TripReach t u) : TripReach s u where
  rest := ⟨k.rest.pending.trans h.rest.pending, k.rest.time.trans h.rest.time, k.rest.classes.trans h.rest.classes,
    k.rest.panels.trans h.rest.panels, k.rest.settleWindow.trans h.rest.settleWindow, k.rest.links.trans h.rest.links,
    rfl, k.rest.bankA.trans h.rest.bankA, k.rest.bankB.trans h.rest.bankB, k.rest.active.trans h.rest.active, rfl,
    k.rest.profiles.trans h.rest.profiles, k.rest.supply.trans h.rest.supply, k.rest.engine.trans h.rest.engine,
    k.rest.sched.trans h.rest.sched⟩
  memory := h.memory.trans k.memory

theorem refl (s : State) : TripReach s s :=
  ⟨⟨rfl, rfl, rfl, rfl, rfl, rfl, rfl, rfl, rfl, rfl, rfl, rfl, rfl, rfl, rfl⟩, ⟨id, fun _ _ => rfl⟩⟩

theorem alarm (h : AlarmReach s t) : TripReach s t :=
  ⟨{ h.only with inputs := rfl, outputs := rfl }, h.memory.mono fun _ ha => .inr (.inr ha)⟩

theorem outputs {O : Fin 24 → Prop} {P : Fin 256 → Prop}
    (h : OutputReach O P (fun a => outputsByte a ∨ mirrorByte a ∨ recordByte a) s t) : TripReach s t :=
  ⟨{ h.rest with inputs := rfl }, h.memory.mono fun _ => .inr⟩

/-- The inputs replaced. -/
theorem inputs (v : Vector TripInput 32) (s : State) : TripReach s { s with inputs := v } :=
  ⟨⟨rfl, rfl, rfl, rfl, rfl, rfl, rfl, rfl, rfl, rfl, rfl, rfl, rfl, rfl, rfl⟩, id, fun _ _ => rfl⟩

/-- An input shown (R86). -/
theorem shown (i : Fin 32) (s : State) : TripReach s (State.showInput i s) :=
  ⟨⟨rfl, rfl, rfl, rfl, rfl, rfl, rfl, rfl, rfl, rfl, rfl, rfl, rfl, rfl, rfl⟩, (showInput_memory i s).mono fun _ => .inl⟩

end TripReach

theorem handEdge_reach (before : Vector (Option (Fin 32)) 24) (s : State) (o : Fin 24) :
    TripReach s (handEdge before s o) :=
  have hb := outputs_bounds (fun _ => True) (P := fun _ => True) (fun _ _ => trivial) fun _ _ => trivial
  .outputs ((outputReach_closed hb trivial).handEdge before s fun _ _ => trivial).2

theorem qualify_reach (i : Fin 32) (s : State) : TripReach s (qualify i s) := by
  have hshown := (TripReach.inputs (upd s.inputs i (nth s.inputs i).settled) s).trans (.shown i _)
  have hnoted : TripReach s (noted i s) := hshown.trans (.alarm (alarmSide.offer _ _ fun _ _ => trivial).2)
  have hedged : TripReach s (edged i s) :=
    List.foldlRecOn _ (handEdge s.drivers) (motive := TripReach s) hnoted fun u hu o _ => hu.trans (handEdge_reach _ u o)
  exact hedged.trans (.alarm (takeContact_alarm _ _ _ _ _ _))

/-- The record of a qualification is the next one of the queue (R82, R85). -/
theorem qualify_record (i : Fin 32) (s : State) :
    recordJoins (tripInputRecord i (nth s.inputs i).level (s.runStart i).stamp s) s (qualify i s) :=
  recordJoins_of_now (u := State.showInput i { s with inputs := upd s.inputs i (nth s.inputs i).settled }) rfl
    (queueGrows_trans (queueGrows_event.foldl _ _ _ fun u o _ =>
      queueGrows_event.handEdge trivial (fun _ _ => trivial) s.drivers u o) (queueGrows_event.contact _ _ _ _ _ _ trivial))

/-! ## The command (R82, R83) -/

theorem execTripInputQualified_short {i : Fin 32} {s : State}
    (h : (nth s.inputs i).run = 0 ∨ (nth s.inputs i).run < (nth s.inputs i).qSampled) :
    exec (.tripInputQualified i) s = .next s := by
  have hr : ¬(nth s.inputs i).runMet = true := by
    rw [TripInput.runMet_iff]
    omega
  simp only [exec, execTripInputQualified, if_neg hr]

theorem execTripInputQualified_met {i : Fin 32} {s : State} (h0 : 0 < (nth s.inputs i).run)
    (hq : (nth s.inputs i).qSampled ≤ (nth s.inputs i).run) : exec (.tripInputQualified i) s = .next (qualify i s) := by
  simp only [exec, execTripInputQualified, if_pos ((TripInput.runMet_iff _).mpr ⟨h0, hq⟩)]

/-! ## The clauses on the outputs (R85, R93, R101, R103) -/

theorem qualify_outputs_same {i : Fin 32} {s : State} {o : Fin 24} (h : s.driver o = none ↔ (qualify i s).driver o = none) :
    nth (qualify i s).outputs o = nth s.outputs o := by
  rw [qualify_outputs_eq, Output.edge_none _ _ h]

theorem qualify_outputs_of_mask {i : Fin 32} {s : State} (h : s.maskOf i = 0) : (qualify i s).outputs = s.outputs :=
  nth_ext fun o => qualify_outputs_same (by rw [qualify_driver_of_mask h])

theorem qualify_outputs_filled {i : Fin 32} {s : State} {o : Fin 24} (hs : s.driver o = none)
    (ht : (qualify i s).driver o ≠ none) :
    nth (qualify i s).outputs o = (nth s.outputs o).edge s none (some i) := by
  rw [qualify_outputs_eq, qualify_driver_filled hs ht, hs]

theorem qualify_outputs_emptied {i : Fin 32} {s : State} {o : Fin 24} (hs : s.driver o ≠ none)
    (ht : (qualify i s).driver o = none) : ∃ j, nth (qualify i s).outputs o = (nth s.outputs o).edge s (some j) none := by
  obtain ⟨j, hj⟩ := Option.ne_none_iff_exists'.mp hs
  exact ⟨j, by rw [qualify_outputs_eq, ht, hj]⟩

/-! ## A qualification whose run start is kept (R82) -/

theorem runStart_of_start {i : Fin 32} {r : Receipt} {s : State} (h : (nth s.inputs i).start = some r) :
    s.runStart i = r := by
  unfold State.runStart
  rw [h]
  rfl

theorem qualify_started {i : Fin 32} {r : Receipt} {s : State} (h : (nth s.inputs i).start = some r) :
    qualify i s = takeContact (tripPoint i) (if (nth s.inputs i).level then .closed else .opened) r.run r.stamp false
      ((List.finRange 24).foldl (handEdge s.drivers) (offer (tripInputRecord i (nth s.inputs i).level r.stamp s)
        (State.showInput i { s with inputs := (qualify i s).inputs }))) := by
  rw [qualify_inputs_eq, qualify_eq, runStart_of_start h, edged, noted, runStart_of_start h]

theorem qualify_record_started {i : Fin 32} {r : Receipt} {s : State} (h : (nth s.inputs i).start = some r) :
    recordJoins (tripInputRecord i (nth s.inputs i).level r.stamp s) s (qualify i s) := by
  rw [← runStart_of_start h]
  exact qualify_record i s

theorem qualify_contact (i : Fin 32) {s : State} (hd : s.due = []) : (nth (qualify i s).points (tripPoint i)).contact
    = if (nth s.inputs i).level then .closed else .opened :=
  ((qualify_told i s).contact ((edged_frame i s).contacts ((noted_passed i s).contacts (dueIn_nil hd)).1).1).2

/-- Settles O42: a qualification is its record, the edge of each output by the drivers it had and has, and the contact report. -/
theorem tripInputQualifies : Obligations.TripInputQualifies := by
  unfold Obligations.TripInputQualifies
  intro i r s hd x inSet record
  refine ⟨fun o j => ?_, driver_of_inactive, execTripInputQualified_short, fun h0 hq hr => ?_⟩
  · rw [driver_eq_some_iff, drives_iff]
    simp only [← Bool.not_eq_true, drives_iff]
    exact Iff.rfl
  have hreach := qualify_reach i s
  refine ⟨qualify i s, execTripInputQualified_met h0 hq, qualify_inputs_eq i s, qualify_contact i hd,
    qualify_record_started hr, qualify_outputs_of_mask, fun o hs ht => ?_, fun o hs ht => ?_, fun o => qualify_outputs_same, qualify_started hr,
    hreach.rest, hreach.memory.same⟩
  · dsimp only
    rw [qualify_outputs_filled hs ht, Output.edge_filled]
    refine ⟨qualify_driver_filled hs ht, fun hstay => if_neg ?_, fun hp hi ho => ?_⟩
    · rintro ⟨hp, hi, ho⟩
      rcases hstay with h | h | h
      · exact h hp
      · exact Bool.noConfusion (h.symm.trans hi)
      · exact h ho
    · rw [if_pos ⟨hp, hi, ho⟩]
      obtain ⟨h1, h2, h3, h4, h5, h6, h7, h8⟩ :=
        (nth s.outputs o).risen_fields (s.profileOf (nth s.outputs o)) s.supplyPresent s.now
      exact ⟨h1, h2, h3, h4, h5.trans hi, h6, h7, h8⟩
  · obtain ⟨j, hj⟩ := qualify_outputs_emptied hs ht
    dsimp only
    rw [hj, Output.edge_emptied]
    refine ⟨fun hstay => if_neg hstay, fun hgo => ?_⟩
    rw [if_pos (show s.falls (nth s.outputs o) from hgo)]
    exact (nth s.outputs o).released.attended_kept s.supplyPresent s.now

end Sys2Proof.Machine
end

section
/-! A sample of the trip lines (R81, R82), and O41. -/

namespace Sys2Proof.Machine

/-! ## One input of a sample -/

/-- An input after a sample and the qualification that it brings about, by the level and the count (R81, R82). -/
theorem TripInput.taken_eq (x : TripInput) (level : Bool) (q : Nat) (m : Receipt) : x.taken level q m =
    if level = x.qualified then
      { level := level, qualified := x.qualified, run := 0, start := none, qShown := q, qSampled := q }
    else if q ≤ x.run + 1 then
      { level := level, qualified := level, run := 0, start := none, qShown := q, qSampled := q }
    else { level := level, qualified := x.qualified, run := x.run + 1, start := if x.run = 0 then some m else x.start,
           qShown := q, qSampled := q } := by
  unfold TripInput.taken TripInput.sampled
  by_cases hl : level = x.qualified
  · simp [hl, TripInput.runMet_iff]
  · simp [hl, TripInput.runMet_iff, TripInput.settled]

/-- A sample that shows the qualified state leaves no run, so nothing qualifies (R81). -/
theorem sampled_rests {x : TripInput} {level : Bool} (h : level = x.qualified) (q : Nat) (m : Receipt) :
    ¬(x.sampled level q m).runMet = true := by
  rw [TripInput.runMet_iff]
  simp [TripInput.sampled, h]

theorem shows_eq_false_iff (x y : TripInput) :
    x.shows y = false ↔ x.level = y.level ∧ x.run = y.run ∧ x.qShown = y.qShown := by
  simp [TripInput.shows, and_assoc]

/-- A sampled input is shown anew unless level, run and count stand (R86). -/
theorem sampledAt_eq (lines : BitVec 32) (s : State) (i : Fin 32) : sampledAt lines s i =
    let x := nth s.inputs i
    let y := x.sampled (lines.getLsbD i.val) (s.qOf i) ⟨s.now, s.stamp⟩
    if x.level = y.level ∧ x.run = y.run ∧ x.qShown = y.qShown then { s with inputs := upd s.inputs i y }
    else State.showInput i { s with inputs := upd s.inputs i y } := by
  unfold sampledAt State.moment
  simp only [← shows_eq_false_iff]
  split
  · next h => rw [if_neg (by rw [h]; exact Bool.noConfusion)]
  · next h => rw [if_pos (Bool.not_eq_true _ ▸ h)]

theorem sampledAt_reach (lines : BitVec 32) (s : State) (i : Fin 32) : TripReach s (sampledAt lines s i) := by
  unfold sampledAt
  dsimp only
  have hput := TripReach.inputs (upd s.inputs i ((nth s.inputs i).sampled (lines.getLsbD i.val) (s.qOf i) s.moment)) s
  split
  · exact hput.trans (.shown i _)
  · exact hput

theorem sampleInput_reach (lines : BitVec 32) (s : State) (i : Fin 32) : TripReach s (sampleInput lines s i) := by
  rw [sampleInput_eq]
  split
  · exact (sampledAt_reach lines s i).trans (qualify_reach i _)
  · exact sampledAt_reach lines s i

/-- An input of a sample that shows its qualified state is no more than written and shown (R81). -/
theorem sampleInput_quiet {lines : BitVec 32} {s : State} {i : Fin 32}
    (h : lines.getLsbD i.val = (nth s.inputs i).qualified) : sampleInput lines s i = sampledAt lines s i := by
  rw [sampleInput_eq, nth_sampledAt, if_neg (sampled_rests h _ _)]

/-- The qualification that a sample brings about is that of TRIP_INPUT_QUALIFIED (R82). -/
theorem exec_qualified_sampledAt (lines : BitVec 32) (s : State) (i : Fin 32) :
    exec (.tripInputQualified i) (sampledAt lines s i) = .next (sampleInput lines s i) := by
  rw [sampleInput_eq]
  rfl

/-! ## The whole sample -/

namespace TripReach

variable {s t : State}

theorem qOf (h : TripReach s t) (i : Fin 32) : t.qOf i = s.qOf i := by
  have hentry : t.activeEntry i = s.activeEntry i := by
    unfold State.activeEntry State.bank
    rw [h.rest.active, h.rest.bankA, h.rest.bankB]
  unfold State.qOf
  rw [hentry]

theorem moment (h : TripReach s t) : t.moment = s.moment := by
  unfold State.moment State.now State.stamp
  rw [h.rest.time]

end TripReach

/-- Each input is taken once, with the count and the moment of the sample's beginning (R81). -/
theorem sampleInputs (lines : BitVec 32) (s : State) : TripReach s ((List.finRange 32).foldl (sampleInput lines) s)
    ∧ ∀ i, nth ((List.finRange 32).foldl (sampleInput lines) s).inputs i
        = (nth s.inputs i).taken (lines.getLsbD i.val) (s.qOf i) s.moment := by
  have hother : ∀ (u : State) (i j : Fin 32), j ≠ i → nth (sampleInput lines u i).inputs j = nth u.inputs j :=
    fun u i j hj => by rw [sampleInput_inputs_eq, nth_upd_other _ _ hj.symm]
  obtain ⟨hreach, hpost⟩ := foldl_once (f := sampleInput lines) (P := TripReach s)
    (pre := fun i u => nth u.inputs i = nth s.inputs i)
    (post := fun i u => nth u.inputs i = (nth s.inputs i).taken (lines.getLsbD i.val) (s.qOf i) s.moment)
    (fun u i hu => hu.trans (sampleInput_reach lines u i))
    (fun u i hu h => by rw [sampleInput_inputs_eq, nth_upd_same, h, hu.qOf, hu.moment])
    (fun u i j _ hj h => (hother u i j hj).trans h) (fun u i j _ hj h => (hother u i j hj).trans h)
    (List.nodup_finRange 32) (.refl s) fun _ _ => rfl
  exact ⟨hreach, fun i => hpost i (List.mem_finRange i)⟩

/-- What a sample leaves unchanged when it shows every qualified state (R81). -/
structure Quiet (s t : State) : Prop where
  qualified : ∀ i, (nth t.inputs i).qualified = (nth s.inputs i).qualified
  outputs : t.outputs = s.outputs
  points : t.points = s.points
  journal : t.journal = s.journal

theorem sampledAt_quiet (lines : BitVec 32) (s : State) (i : Fin 32) : Quiet s (sampledAt lines s i) := by
  have hrest := sampledAt_rest lines s i
  refine ⟨fun j => ?_, by rw [hrest], by rw [hrest], by rw [hrest]⟩
  rw [sampledAt_inputs, nth_upd]
  split
  · next e => rw [sampled_qualified, e]
  · rfl

theorem sampleInputs_quiet {lines : BitVec 32} {s : State} (h : ∀ i, lines.getLsbD i.val = (nth s.inputs i).qualified) :
    Quiet s ((List.finRange 32).foldl (sampleInput lines) s) :=
  List.foldlRecOn _ (sampleInput lines) (motive := Quiet s) ⟨fun _ => rfl, rfl, rfl, rfl⟩ fun u hu i _ => by
    rw [sampleInput_quiet ((h i).trans (hu.qualified i).symm)]
    have hi := sampledAt_quiet lines u i
    exact ⟨fun j => (hi.qualified j).trans (hu.qualified j), hi.outputs.trans hu.outputs, hi.points.trans hu.points,
      hi.journal.trans hu.journal⟩

/-! ## The command -/

/-- The state in which a sample takes its inputs: the next one is due a millisecond on (R80). -/
def sampleBegun (s : State) : State := { s with sched := { s.sched with tripFrom := s.now + 1 } }

theorem exec_tripInputSample {s : State} (lines : BitVec 32) (h : s.sched.tripFrom ≤ s.now) :
    exec (.tripInputSample lines) s = .next ((List.finRange 32).foldl (sampleInput lines) (sampleBegun s)) := by
  simp only [exec, execTripInputSample, if_pos h, sampleBegun]

theorem sampled_eq (x : TripInput) (level : Bool) (q : Nat) (m : Receipt) : x.sampled level q m = { x with
    level := level, qShown := q, qSampled := q, run := if level = x.qualified then 0 else x.run + 1
    start := if level = x.qualified then none else if x.run = 0 then some m else x.start } := by
  unfold TripInput.sampled
  split <;> rfl

/-- Settles O41: the inputs are taken one after another, each through `sampledAt` and then TRIP_INPUT_QUALIFIED. -/
theorem tripSampleCountsRuns : Obligations.TripSampleCountsRuns := by
  unfold Obligations.TripSampleCountsRuns
  intro lines s hfrom
  obtain ⟨hreach, hinputs⟩ := sampleInputs lines (sampleBegun s)
  refine ⟨_, exec_tripInputSample lines hfrom, fun i => ?_, hreach.rest, fun hq => ?_, ?_, hreach.memory.same⟩
  · rw [hinputs i]
    exact TripInput.taken_eq _ _ _ _
  · have hquiet := sampleInputs_quiet (s := sampleBegun s) hq
    exact ⟨hquiet.outputs, hquiet.points, hquiet.journal⟩
  · refine congrArg (fun f => (List.finRange 32).foldl f (sampleBegun s)) (funext fun u => funext fun i => ?_)
    have hat := sampledAt_eq lines u i
    simp only [sampled_eq] at hat
    dsimp only
    rw [← hat, exec_qualified_sampledAt]

end Sys2Proof.Machine
end
